-- ==== Sys2Proof/Word.lean ====
section
/-! DEFINITION. The word types of the machine (00_scope.md R6, R7): a byte, the 16-bit register and data word,
and the 32-bit instruction word. -/

namespace Sys2Proof

/-- One byte of memory (20_memory.md R53). -/
abbrev Byte := BitVec 8

/-- A u16: the width of every general register and of every data-cache cell (00_scope.md R6). -/
abbrev Word := BitVec 16

/-- An instruction word (30_encoding.md R100). -/
abbrev InsnWord := BitVec 32

end Sys2Proof
end

