-- ==== Sys2Proof/Syntax.lean ====
section
/-! DEFINITION. The instruction syntax: one constructor per row of spec/opcode_table.json (30_encoding.md R107), with
the operand fields of its format (R102). Register numbers are constructors here, so the machine never sees a raw encoding. -/

namespace Sys2Proof

/-- The registers a 6-bit register field can name (10_state.md R21): numbers 0..31 are `gpr`, 32..38 the special
registers in this order. Numbers 39..63 name no register and have no term here (30_encoding.md R108(c)). -/
inductive Reg where
  | gpr (n : Fin 32)
  | fp
  | sp
  | ds
  | cs
  | ip
  | flags
  | cnt
deriving DecidableEq, Repr

/-- The register-or-immediate operand of formats `RI` and `I` (30_encoding.md R104). -/
inductive Operand where
  /-- The register form, `k = 1`. -/
  | reg (r : Reg)
  /-- The immediate form, `k = 0`. -/
  | imm (v : Word)
deriving DecidableEq, Repr

/-- An instruction. Loads and stores carry the byte offset as the signed number that `sext_13(off13)` denotes
(30_encoding.md R105); `WellFormed` bounds it. Operand order is that of the assembler (30_encoding.md R112). -/
inductive Instr where
  | lw (rd rb : Reg) (off : Int)
  | lb (rd rb : Reg) (off : Int)
  | li (rd : Reg) (v : Word)
  | stw (rb : Reg) (off : Int) (r : Reg)
  | stb (rb : Reg) (off : Int) (r : Reg)
  | mov (rd rs : Reg)
  | swp (rd rs : Reg)
  | add (rd : Reg) (o : Operand)
  | sub (rd : Reg) (o : Operand)
  | inc (r : Reg)
  | dec (r : Reg)
  | mul (rd : Reg) (o : Operand)
  | div (rd : Reg) (o : Operand)
  | mod (rd : Reg) (o : Operand)
  | and (rd : Reg) (o : Operand)
  | or (rd : Reg) (o : Operand)
  | xor (rd : Reg) (o : Operand)
  | not (r : Reg)
  | shiftl (rd : Reg) (o : Operand)
  | shiftr (rd : Reg) (o : Operand)
  | cmp (rd : Reg) (o : Operand)
  | cmpu (rd : Reg) (o : Operand)
  | be (o : Operand)
  | bne (o : Operand)
  | bz (o : Operand)
  | bnz (o : Operand)
  | bs (o : Operand)
  | bns (o : Operand)
  | bg (o : Operand)
  | bge (o : Operand)
  | bl (o : Operand)
  | ble (o : Operand)
  | j (o : Operand)
  | push (r : Reg)
  | pop (r : Reg)
  | call (o : Operand)
  | ret
  | cli
  | sti
  | hlt (o : Operand)
  | rst
  | retint
  | inw (rd : Reg) (o : Operand)
  | outw (o : Operand) (r : Reg)
  | inb (rd : Reg) (o : Operand)
  | outb (o : Operand) (r : Reg)
  | cas (ra re rn : Reg)
  | int (o : Operand)
deriving DecidableEq, Repr

end Sys2Proof
end

