-- ==== Sys2Proof/WellFormed.lean ====
section
/-! DEFINITION. Which instruction terms the encoding can write. Register fields cannot be ill-formed (`Reg` has no term
for 39..63) and immediates are 16 bits by type; the byte offset of a load or store is the one field with a range to check. -/

namespace Sys2Proof

/-- `off13` ranges over -4096..+4095 (30_encoding.md R105); beyond that is an assembler error (R112). -/
def offsetOk (off : Int) : Bool := decide (-4096 ≤ off) && decide (off ≤ 4095)

/-- An instruction the 32-bit word can hold (30_encoding.md R102, R105, R112). -/
def Instr.wf : Instr → Bool
  | .lw _ _ off => offsetOk off
  | .lb _ _ off => offsetOk off
  | .stw _ off _ => offsetOk off
  | .stb _ off _ => offsetOk off
  | .li _ _ => true
  | .mov _ _ => true
  | .swp _ _ => true
  | .add _ _ => true
  | .sub _ _ => true
  | .inc _ => true
  | .dec _ => true
  | .mul _ _ => true
  | .div _ _ => true
  | .mod _ _ => true
  | .and _ _ => true
  | .or _ _ => true
  | .xor _ _ => true
  | .not _ => true
  | .shiftl _ _ => true
  | .shiftr _ _ => true
  | .cmp _ _ => true
  | .cmpu _ _ => true
  | .be _ => true
  | .bne _ => true
  | .bz _ => true
  | .bnz _ => true
  | .bs _ => true
  | .bns _ => true
  | .bg _ => true
  | .bge _ => true
  | .bl _ => true
  | .ble _ => true
  | .j _ => true
  | .push _ => true
  | .pop _ => true
  | .call _ => true
  | .ret => true
  | .cli => true
  | .sti => true
  | .hlt _ => true
  | .rst => true
  | .retint => true
  | .inw _ _ => true
  | .outw _ _ => true
  | .inb _ _ => true
  | .outb _ _ => true
  | .cas _ _ _ => true
  | .int _ => true

end Sys2Proof
end

