-- ==== Sys2Proof/Decode.lean ====
section
/-! DEFINITION. The decoder and the encoder of 30_encoding.md, written from the field positions of R102, and the values of the
parameter `DECODE` (00_scope.md R4, R5; log 3), of which that decoder is the default; it is total and rejects by name. -/

namespace Sys2Proof

/-- Why a word is no instruction (30_encoding.md R108). -/
inductive DecodeError where
  /-- Opcode 0 or 49..63, R108(a). -/
  | illegalOpcode
  /-- A reserved bit is set, R108(b). -/
  | reservedBit
  /-- A register field holds 39..63, R108(c). -/
  | noSuchRegister
  /-- `LI` with `k = 1`, R108(d). -/
  | liRegisterForm
  /-- Fewer than four bytes: no whole word (R100). -/
  | truncated
deriving DecidableEq, Repr

/-- The number of a register (10_state.md R21). -/
def Reg.num : Reg → Nat
  | .gpr n => n.val
  | .fp => 32
  | .sp => 33
  | .ds => 34
  | .cs => 35
  | .ip => 36
  | .flags => 37
  | .cnt => 38

/-- The register a number names; 39..63 name none (10_state.md R21, 30_encoding.md R108(c)). -/
def Reg.ofNum (n : Nat) : Option Reg :=
  if h : n < 32 then some (.gpr ⟨n, h⟩)
  else match n with
    | 32 => some .fp
    | 33 => some .sp
    | 34 => some .ds
    | 35 => some .cs
    | 36 => some .ip
    | 37 => some .flags
    | 38 => some .cnt
    | _ => none

/-! ## The fields of a word (30_encoding.md R102, "Field positions, stated once") -/

/-- `opcode = w[5:0]`. -/
def fOpcode (w : InsnWord) : Nat := (w.extractLsb' 0 6).toNat

/-- `rd = r = ra = w[11:6]`, as a number. -/
def fRd (w : InsnWord) : Nat := (w.extractLsb' 6 6).toNat

/-- `k = w[12]`. -/
def fK (w : InsnWord) : Bool := w.getLsbD 12

/-- `rs = rb = re = w[18:13]`, as a number. -/
def fRs (w : InsnWord) : Nat := (w.extractLsb' 13 6).toNat

/-- `rn = w[24:19]`, as a number. -/
def fRn (w : InsnWord) : Nat := (w.extractLsb' 19 6).toNat

/-- `imm16 = w[31:16]`. -/
def fImm (w : InsnWord) : Word := w.extractLsb' 16 16

/-- `sext_13(off13)` with `off13 = w[31:19]`, as the signed number it denotes (R105). -/
def fOff (w : InsnWord) : Int := (w.extractLsb' 19 13).toInt

/-- A register field in use (R103). -/
def regField (n : Nat) : Except DecodeError Reg :=
  match Reg.ofNum n with
  | some r => .ok r
  | none => .error .noSuchRegister

/-- Bits `lo .. lo + len - 1` are reserved and must be zero (R109). -/
def zeroBits (w : InsnWord) (lo len : Nat) : Bool := w.extractLsb' lo len == 0

/-- The reserved bits of a format, all checked together: `ok` is their check. -/
def reserved (ok : Bool) : Except DecodeError Unit :=
  if ok then .ok () else .error .reservedBit

/-! ## The formats (30_encoding.md R102) -/

/-- Format `N`. -/
def formN (w : InsnWord) (i : Instr) : Except DecodeError Instr := do
  reserved (zeroBits w 6 26)
  return i

/-- Format `R`. -/
def formR (w : InsnWord) (mk : Reg → Instr) : Except DecodeError Instr := do
  reserved (zeroBits w 12 20)
  let r ← regField (fRd w)
  return mk r

/-- Format `RR`. -/
def formRR (w : InsnWord) (mk : Reg → Reg → Instr) : Except DecodeError Instr := do
  reserved (zeroBits w 19 13 && zeroBits w 12 1)
  let rd ← regField (fRd w)
  let rs ← regField (fRs w)
  return mk rd rs

/-- The register-or-immediate operand of `RI` and `I` (R104), with the reserved bits of its form. -/
def operandField (w : InsnWord) : Except DecodeError Operand :=
  if fK w then do
    reserved (zeroBits w 19 13)
    let rs ← regField (fRs w)
    return .reg rs
  else do
    reserved (zeroBits w 13 3)
    return .imm (fImm w)

/-- Format `RI`. -/
def formRI (w : InsnWord) (mk : Reg → Operand → Instr) : Except DecodeError Instr := do
  let rd ← regField (fRd w)
  let o ← operandField w
  return mk rd o

/-- Format `RIM` (`LI`). -/
def formRIM (w : InsnWord) (mk : Reg → Word → Instr) : Except DecodeError Instr :=
  if fK w then .error .liRegisterForm
  else do
    reserved (zeroBits w 13 3)
    let rd ← regField (fRd w)
    return mk rd (fImm w)

/-- Format `I`. -/
def formI (w : InsnWord) (mk : Operand → Instr) : Except DecodeError Instr := do
  reserved (zeroBits w 6 6)
  let o ← operandField w
  return mk o

/-- Format `M`: the `[11:6]` register, the base register and the offset. -/
def formM (w : InsnWord) (mk : Reg → Reg → Int → Instr) : Except DecodeError Instr := do
  reserved (zeroBits w 12 1)
  let r ← regField (fRd w)
  let rb ← regField (fRs w)
  return mk r rb (fOff w)

/-- Format `C` (`CAS`). -/
def formC (w : InsnWord) (mk : Reg → Reg → Reg → Instr) : Except DecodeError Instr := do
  reserved (zeroBits w 25 7 && zeroBits w 12 1)
  let ra ← regField (fRd w)
  let re ← regField (fRs w)
  let rn ← regField (fRn w)
  return mk ra re rn

/-- `DECODE` (30_encoding.md R107, R108, R111), one line per row of the opcode map. -/
def decodeWord (w : InsnWord) : Except DecodeError Instr :=
  match fOpcode w with
  | 1 => formM w fun r rb off => .lw r rb off
  | 2 => formM w fun r rb off => .lb r rb off
  | 3 => formRIM w .li
  | 4 => formM w fun r rb off => .stw rb off r
  | 5 => formM w fun r rb off => .stb rb off r
  | 6 => formRR w .mov
  | 7 => formRR w .swp
  | 8 => formRI w .add
  | 9 => formRI w .sub
  | 10 => formR w .inc
  | 11 => formR w .dec
  | 12 => formRI w .mul
  | 13 => formRI w .div
  | 14 => formRI w .mod
  | 15 => formRI w .and
  | 16 => formRI w .or
  | 17 => formRI w .xor
  | 18 => formR w .not
  | 19 => formRI w .shiftl
  | 20 => formRI w .shiftr
  | 21 => formRI w .cmp
  | 22 => formRI w .cmpu
  | 23 => formI w .be
  | 24 => formI w .bne
  | 25 => formI w .bz
  | 26 => formI w .bnz
  | 27 => formI w .bs
  | 28 => formI w .bns
  | 29 => formI w .bg
  | 30 => formI w .bge
  | 31 => formI w .bl
  | 32 => formI w .ble
  | 33 => formI w .j
  | 34 => formR w .push
  | 35 => formR w .pop
  | 36 => formI w .call
  | 37 => formN w .ret
  | 38 => formN w .cli
  | 39 => formN w .sti
  | 40 => formI w .hlt
  | 41 => formN w .rst
  | 42 => formN w .retint
  | 43 => formRI w .inw
  | 44 => formRI w fun r o => .outw o r
  | 45 => formRI w .inb
  | 46 => formRI w fun r o => .outb o r
  | 47 => formC w .cas
  | 48 => formI w .int
  | _ => .error .illegalOpcode

/-- A value of the parameter `DECODE` (00_scope.md R4, R5; 92_eei_decisions.md D1) as plain data. A `table` lists the words that
decode, with their instructions, so every total function from words to `Option Instr` is one of these (log 3). -/
inductive Decoder where
  /-- The default: the encoding of 30_encoding.md. -/
  | standard
  /-- Any other decoder, by the words it accepts. -/
  | table (rows : List (InsnWord × Instr))
deriving DecidableEq, Repr

/-- `DECODE(w)` (00_scope.md R5): `none` is an illegal word. -/
def decodeWith (d : Decoder) (w : InsnWord) : Option Instr :=
  match d with
  | .standard =>
    match decodeWord w with
    | .ok i => some i
    | .error _ => none
  | .table rows => (rows.find? fun row => row.1 == w).map fun row => row.2

/-- The little-endian u32 of four bytes (20_memory.md R59). -/
def wordOfBytes (b0 b1 b2 b3 : Byte) : InsnWord := b3 ++ b2 ++ b1 ++ b0

/-- The bytes of a word as memory holds it, the least significant first (20_memory.md R59). -/
def bytesOfWord (w : InsnWord) : List Byte :=
  [w.extractLsb' 0 8, w.extractLsb' 8 8, w.extractLsb' 16 8, w.extractLsb' 24 8]

/-- The decoder on bytes: one instruction and the bytes after it. Every instruction is four bytes (30_encoding.md R100). -/
def decodeBytes : List Byte → Except DecodeError (Instr × List Byte)
  | b0 :: b1 :: b2 :: b3 :: rest =>
    match decodeWord (wordOfBytes b0 b1 b2 b3) with
    | .ok i => .ok (i, rest)
    | .error e => .error e
  | _ => .error .truncated

/-- The instruction the decoder reads from the instruction whose low `nbits` bits are those of `w` and whose other bits are
0, laid out in memory order. -/
def decodeTableWord (nbits w : Nat) : Option Instr :=
  match decodeBytes (bytesOfWord (BitVec.ofNat 32 (w % 2 ^ nbits))) with
  | .ok (i, _) => some i
  | .error _ => none

/-! ## The encoder -/

/-- A register field (R103). -/
def eReg (r : Reg) : BitVec 6 := BitVec.ofNat 6 r.num

/-- The word with `[31:19]`, `[18:13]`, `[12]`, `[11:6]` and `[5:0]` as given: every format is such a word. -/
def pack (hi : BitVec 13) (mid : BitVec 6) (k : BitVec 1) (lo : BitVec 6) (op : BitVec 6) : InsnWord :=
  hi ++ mid ++ k ++ lo ++ op

/-- Format `R`; format `N` is it with a zero register field. -/
def encR (op : BitVec 6) (lo : BitVec 6) : InsnWord := pack 0 0 0 lo op

/-- Format `RR`. -/
def encRR (op : BitVec 6) (rd rs : Reg) : InsnWord := pack 0 (eReg rs) 0 (eReg rd) op

/-- Format `RI` with `lo` in `[11:6]`; format `I` is it with `lo = 0`. -/
def encRI (op : BitVec 6) (lo : BitVec 6) : Operand → InsnWord
  | .reg rs => pack 0 (eReg rs) 1 lo op
  | .imm v => pack (v.extractLsb' 3 13) (v.extractLsb' 0 3 ++ (0 : BitVec 3)) 0 lo op

/-- Format `M`. -/
def encM (op : BitVec 6) (r rb : Reg) (off : Int) : InsnWord :=
  pack (BitVec.ofInt 13 off) (eReg rb) 0 (eReg r) op

/-- Format `C`. -/
def encC (op : BitVec 6) (ra re rn : Reg) : InsnWord :=
  pack ((0 : BitVec 7) ++ eReg rn) (eReg re) 0 (eReg ra) op

/-- The word of an instruction (30_encoding.md R102, R107). -/
def encode : Instr → InsnWord
  | .lw rd rb off => encM 1 rd rb off
  | .lb rd rb off => encM 2 rd rb off
  | .li rd v => encRI 3 (eReg rd) (.imm v)
  | .stw rb off r => encM 4 r rb off
  | .stb rb off r => encM 5 r rb off
  | .mov rd rs => encRR 6 rd rs
  | .swp rd rs => encRR 7 rd rs
  | .add rd o => encRI 8 (eReg rd) o
  | .sub rd o => encRI 9 (eReg rd) o
  | .inc r => encR 10 (eReg r)
  | .dec r => encR 11 (eReg r)
  | .mul rd o => encRI 12 (eReg rd) o
  | .div rd o => encRI 13 (eReg rd) o
  | .mod rd o => encRI 14 (eReg rd) o
  | .and rd o => encRI 15 (eReg rd) o
  | .or rd o => encRI 16 (eReg rd) o
  | .xor rd o => encRI 17 (eReg rd) o
  | .not r => encR 18 (eReg r)
  | .shiftl rd o => encRI 19 (eReg rd) o
  | .shiftr rd o => encRI 20 (eReg rd) o
  | .cmp rd o => encRI 21 (eReg rd) o
  | .cmpu rd o => encRI 22 (eReg rd) o
  | .be o => encRI 23 0 o
  | .bne o => encRI 24 0 o
  | .bz o => encRI 25 0 o
  | .bnz o => encRI 26 0 o
  | .bs o => encRI 27 0 o
  | .bns o => encRI 28 0 o
  | .bg o => encRI 29 0 o
  | .bge o => encRI 30 0 o
  | .bl o => encRI 31 0 o
  | .ble o => encRI 32 0 o
  | .j o => encRI 33 0 o
  | .push r => encR 34 (eReg r)
  | .pop r => encR 35 (eReg r)
  | .call o => encRI 36 0 o
  | .ret => encR 37 0
  | .cli => encR 38 0
  | .sti => encR 39 0
  | .hlt o => encRI 40 0 o
  | .rst => encR 41 0
  | .retint => encR 42 0
  | .inw rd o => encRI 43 (eReg rd) o
  | .outw o r => encRI 44 (eReg r) o
  | .inb rd o => encRI 45 (eReg rd) o
  | .outb o r => encRI 46 (eReg r) o
  | .cas ra re rn => encC 47 ra re rn
  | .int o => encRI 48 0 o

end Sys2Proof
end

