-- ==== Sys2Proof/Machine/Exc.lean ====
section
/-! DEFINITION. The exceptions of the engine (60_exceptions.md R204): the kinds, and the information a raise names. -/

namespace Sys2Proof.Machine

/-- The sub-kinds of `CPUException` (60_exceptions.md R204). -/
inductive CpuFault where
  /-- A vector index past its table (20_memory.md R67). -/
  | badVector
  /-- `RET` or `RETINT` with no call frame (44_stack_call.md R174, 60_exceptions.md R214). -/
  | frameUnderflow
  /-- `SP` is not the frame's recorded `FP` (44_stack_call.md R174, 60_exceptions.md R214). -/
  | frameMismatch
  /-- `RETINT` with no interrupt entry active (60_exceptions.md R214). -/
  | istackUnderflow
deriving DecidableEq, Repr

/-- The exception kinds an instruction, an IRQ acceptance or a write-back can raise (60_exceptions.md R204). -/
inductive ExcKind where
  | accessViolation
  | misalignedAccess
  | arithmeticFault
  | invalidOpcode
  | cpuException (sub : CpuFault)
  | resourceExhausted
  | resourceNotFound
deriving DecidableEq, Repr

/-- The numeric codes of the fault record, 1 to 7 (60_exceptions.md R204). -/
def ExcKind.code : ExcKind → Nat
  | .accessViolation => 1
  | .misalignedAccess => 2
  | .arithmeticFault => 3
  | .invalidOpcode => 4
  | .cpuException _ => 5
  | .resourceExhausted => 6
  | .resourceNotFound => 7

/-- What a raise names beside its kind: "faulting address, instruction word, register number, port number or vector
index, as the raising rule names it" (60_exceptions.md R208). -/
inductive ExcInfo where
  /-- A physical address (20_memory.md R60, R61, R64, R71, R75, R76). -/
  | address (a : Nat)
  /-- The privileged instruction itself (45_privileged_io.md R180). -/
  | instruction
  /-- A protected register's number (10_state.md R23). -/
  | register (n : Nat)
  /-- A port number (45_privileged_io.md R186). -/
  | port (p : Word)
  /-- An instruction word that decodes to nothing (20_memory.md R71). -/
  | word (w : InsnWord)
  /-- A vector index (60_exceptions.md R212). -/
  | vector (i : Nat)
  /-- Division by zero in `DIV` (41_arithmetic.md R135). -/
  | divide
  /-- Division by zero in `MOD` (41_arithmetic.md R136). -/
  | modulo
  /-- The raising rule names nothing: `FrameUnderflow`, `FrameMismatch`, `IStackUnderflow`, `ResourceExhausted`. -/
  | nothing
deriving DecidableEq, Repr

/-- One raise, `raise E(info)` of 00_scope.md R10. `vint` is the interrupt index when a virtual interrupt handler reported
the fault (60_exceptions.md R208, R219). -/
structure Exc where
  kind : ExcKind
  info : ExcInfo
  vint : Option Word := none
deriving DecidableEq, Repr

/-- One privileged write a virtual interrupt handler asks for (60_exceptions.md R219): address, value and width. -/
inductive McWrite where
  | byte (a : Nat) (v : Byte)
  | half (a : Nat) (v : Word)
  | word (a : Nat) (v : InsnWord)
deriving DecidableEq, Repr

/-- What a virtual interrupt handler answers (60_exceptions.md R219): new `R0..R31` and a list of writes, or a fault. -/
inductive VintOutcome where
  | ok (gpr : Vector Word 32) (writes : List McWrite)
  | fail (kind : ExcKind) (info : ExcInfo)
deriving DecidableEq, Repr, Inhabited

end Sys2Proof.Machine
end

