-- ==== Sys2Proof/Config.lean ====
section
/-! DEFINITION. What an implementation or the host fixes for a whole run (00_scope.md R5, 10_state.md R36), and the free
values: what the host answers when nothing says what it answers. -/

namespace Sys2Proof

/-- `DIV_ROUND` (41_arithmetic.md R137): the rounding of a signed quotient, OPEN. -/
inductive DivRound where
  | floor
  | trunc
deriving DecidableEq, Repr

/-- `DCACHE_WRITE_CHECK` (20_memory.md R76, R77): where a store into the data cache is checked. -/
inductive WriteCheck where
  | atStore
  | atWriteback
deriving DecidableEq, Repr

/-- The protection flags that a page gets at lazy creation (20_memory.md R54). -/
structure AccessFlags where
  read : Bool
  write : Bool
  execute : Bool
deriving DecidableEq, Repr

/-- The configuration of 00_scope.md R5. It is data that the state carries and no transition changes, so that a statement
about every state is a statement about every configuration. DESIGN CHOICE, safe (log 1). -/
structure Config where
  /-- `MEM_SIZE`, in bytes. -/
  memSize : Nat
  /-- `IRQ_TABLE_BASE` and `IRQ_COUNT`. -/
  irqTableBase : Nat
  irqCount : Nat
  /-- `INT_TABLE_BASE` and `INT_COUNT`. -/
  intTableBase : Nat
  intCount : Nat
  /-- `FETCH_EXEC_CHECK`. -/
  fetchExecCheck : Bool
  /-- `DCACHE_WRITE_CHECK`. -/
  writeCheck : WriteCheck
  /-- `FRAME_CHECK`. -/
  frameCheck : Bool
  /-- `DIV_ROUND`. -/
  divRound : DivRound
  /-- `LAZY_PAGE_FLAGS`. -/
  lazyFlags : AccessFlags
  /-- `PORTS`: each registered port with its `protected` mark. -/
  ports : List (Word × Bool)
  /-- `VINT`: the interrupt indices that have a virtual handler. -/
  vint : List Word
  /-- `DECODE` (log 3). -/
  decoder : Decoder
deriving DecidableEq, Repr

/-- The bounds R5 puts on the parameters: `MEM_SIZE` a multiple of the segment size up to 2^24; both vector tables
4-aligned, inside segment 0, not overlapping, with at least one entry each; and `DECODE` answers instruction terms with operands in
range (30_encoding.md R105). -/
def Config.wf (c : Config) : Bool :=
  decide (c.memSize % 65536 = 0) && decide (65536 ≤ c.memSize) && decide (c.memSize ≤ 16777216)
    && decide (c.irqTableBase % 4 = 0) && decide (c.intTableBase % 4 = 0)
    && decide (1 ≤ c.irqCount) && decide (1 ≤ c.intCount)
    && decide (c.irqTableBase + 4 * c.irqCount ≤ 65536) && decide (c.intTableBase + 4 * c.intCount ≤ 65536)
    && (decide (c.irqTableBase + 4 * c.irqCount ≤ c.intTableBase)
      || decide (c.intTableBase + 4 * c.intCount ≤ c.irqTableBase))
    && match c.decoder with
      | .standard => true
      | .table rows => rows.all fun row => row.2.wf

/-- Configuration K0 of 95_test_vectors.md section 0, with flooring division, which K0 leaves open. DESIGN CHOICE, unsafe where a
claim is about `State.reset` alone (log 1). -/
def Config.k0 : Config where
  memSize := 0x40000
  irqTableBase := 0x0000
  irqCount := 16
  intTableBase := 0x0040
  intCount := 16
  fetchExecCheck := true
  writeCheck := .atStore
  frameCheck := true
  divRound := .floor
  lazyFlags := { read := false, write := false, execute := false }
  ports := [(0x100, false), (0x200, true)]
  vint := []
  decoder := .standard

/-- FREE VALUE: what the host answers to the n-th draw of a port read (45_privileged_io.md R186, 60_exceptions.md R225). It has
no body: nothing can be proved about it (log 7). -/
opaque Config.portDraw : Nat → Word

/-- FREE VALUE: what the host answers to the n-th draw of a virtual interrupt (60_exceptions.md R219, R225; log 8). -/
opaque Config.vintDraw : Nat → Machine.VintOutcome

end Sys2Proof
end

