-- ==== Sys2Proof/Machine/State.lean ====
section
/-! DEFINITION. The state of the engine as plain data (10_state.md): the registers and the rest of one core, the shared memory
controller, the configuration, the script of scheduling and host choices, and the machine at power-on. -/

namespace Sys2Proof.Machine

/-! ## Registers (10_state.md R20 to R28) -/

/-- The six flags (10_state.md R24). Bits 6..15 of the register always read 0, so nothing else is held (log 17). -/
structure Flags where
  /-- Privileged. -/
  p : Bool
  /-- Hardware-interrupt enable. -/
  h : Bool
  /-- Equal. -/
  e : Bool
  /-- Zero. -/
  z : Bool
  /-- Overflow. -/
  o : Bool
  /-- Sign. -/
  s : Bool
deriving DecidableEq, Repr

/-- The post-reset value 0x0002 (10_state.md R35). -/
def Flags.reset : Flags := { p := false, h := true, e := false, z := false, o := false, s := false }

/-- The register file of one core (10_state.md R20 to R22). -/
structure Regs where
  gpr : Vector Word 32
  fp : Word
  sp : Word
  ds : Byte
  cs : Byte
  ip : Word
  flags : Flags
  cnt : Word
deriving DecidableEq, Repr

/-- The registers at power-on (10_state.md R35). `FP`, `SP`, `DS`, `CS` and `IP` are unspecified there and 0 here:
DESIGN CHOICE, unsafe (log 2). -/
def Regs.powerOn : Regs where
  gpr := Vector.replicate 32 0
  fp := 0
  sp := 0
  ds := 0
  cs := 0
  ip := 0
  flags := Flags.reset
  cnt := 0

/-! ## One core (10_state.md R29 to R33) -/

/-- A call frame (10_state.md R30). -/
structure Frame where
  cs : Byte
  ds : Byte
  fp : Word
  ip : Word
deriving DecidableEq, Repr

/-- What a recorded fault is attributed to (60_exceptions.md R208). A virtual interrupt's fault is an instruction's whose
`Exc.vint` is set. -/
inductive FaultOrigin where
  | instruction
  | irqAcceptance
  | writeBack
  | hostHalt
deriving DecidableEq, Repr

/-- Where a raise happened: its origin, `CS` and `fetch_ip`, and the instruction if decoding succeeded (60_exceptions.md R208). -/
structure FaultSite where
  origin : FaultOrigin
  cs : Byte
  fetchIp : Word
  instr : Option Instr
deriving DecidableEq, Repr

/-- The fault record (60_exceptions.md R208): kind, info, place, a copy of the registers at the raise, and the backtrace. -/
structure FaultRecord where
  exc : Exc
  site : FaultSite
  regs : Regs
  frames : List Frame
deriving DecidableEq, Repr

/-- One entry of the instruction cache (20_memory.md R70). -/
structure IEntry where
  addr : Nat
  ins : Instr
deriving DecidableEq, Repr

/-- One entry of the data cache (20_memory.md R74). -/
structure DEntry where
  addr : Nat
  dirty : Bool
  value : Word
deriving DecidableEq, Repr

/-- The capacities of a core's two caches, OPEN and per core (00_scope.md R5; log 1). -/
structure CacheSizes where
  icache : Nat
  dcache : Nat
deriving DecidableEq, Repr

/-- One core (10_state.md R20 to R33). Lists used as stacks have their top first; caches have their LRU entry first and
their MRU entry last (20_memory.md R73). -/
structure Core where
  sizes : CacheSizes
  regs : Regs
  /-- Whether `boot` has run: it tells `Reset` from `Halted` (60_exceptions.md R200; log 18). -/
  booted : Bool
  alive : Bool
  running : Bool
  idle : Bool
  exitCode : Word
  fault : Option FaultRecord
  frames : List Frame
  /-- Page indices of the interrupt stacks (10_state.md R31). -/
  istack : List Nat
  /-- IRQ indices, oldest first (10_state.md R32). -/
  pending : List Nat
  icache : List IEntry
  dcache : List DEntry
  /-- The diagnostic eviction count (20_memory.md R77). -/
  evictions : Nat
deriving DecidableEq, Repr

/-- A core at power-on (10_state.md R35). -/
def Core.powerOn (sizes : CacheSizes) : Core where
  sizes := sizes
  regs := Regs.powerOn
  booted := false
  alive := false
  running := false
  idle := false
  exitCode := 0
  fault := none
  frames := []
  istack := []
  pending := []
  icache := []
  dcache := []
  evictions := 0

/-! ## The memory controller (20_memory.md R53 to R58) -/

/-- Memory: (address, byte) pairs with addresses strictly rising, none of them the byte an unlisted address reads as. -/
abbrev Memory := List Host.Cell

/-- The kind of a page (20_memory.md R53). -/
inductive PageKind where
  | anonymous
  | mmapped
deriving DecidableEq, Repr

/-- A page without its bytes, which stand in `MC.cells` (20_memory.md R53). -/
structure Page where
  read : Bool
  write : Bool
  execute : Bool
  dirty : Bool
  kind : PageKind
deriving DecidableEq, Repr

/-- One entry of the mmap-region table (20_memory.md R58). -/
structure Region where
  path : String
  offset : Nat
  size : Nat
  address : Nat
  access : AccessFlags
  shared : Bool
deriving DecidableEq, Repr

/-- The memory controller (10_state.md R34). `pages` is in strictly rising order of page index, `segments` in strictly
rising order. -/
structure MC where
  cells : Memory
  pages : List (Nat × Page)
  segments : List Nat
  regions : List Region
deriving DecidableEq, Repr

/-- The controller at power-on (70_reset_and_hazards.md R240): no page, segment 0 claimed, no region. -/
def MC.powerOn : MC where
  cells := []
  pages := []
  segments := [0]
  regions := []

/-! ## What the host does and sees (60_exceptions.md R225) -/

/-- The five values `boot` takes (70_reset_and_hazards.md R242). -/
structure BootArgs where
  cs : Word
  ds : Word
  ip : Word
  sp : Word
  fp : Word
deriving DecidableEq, Repr

/-- What a section of an image holds (20_memory.md R68). -/
inductive SectionBody where
  /-- TEXT: instruction words. -/
  | text (words : List InsnWord)
  /-- DATA: bytes. -/
  | data (bytes : List Byte)
  /-- `bss`: that many zero bytes. -/
  | bss (size : Nat)
deriving DecidableEq, Repr

/-- A section: its offset in the segment, the flags it declares and its contents (20_memory.md R68). -/
structure Section where
  base : Nat
  access : AccessFlags
  body : SectionBody
deriving DecidableEq, Repr

/-- A program image as far as the core needs it (20_memory.md R68; its byte format is out of scope, 00_scope.md R3(9); log 13). -/
structure Image where
  sections : List Section
  /-- Whether the loader allocates a stack page. -/
  stack : Bool
  entry : Word
  symbols : List (String × Word)
deriving DecidableEq, Repr

/-- The result of `load_program` (20_memory.md R68). `sp` is there when a stack page was allocated. -/
structure LoadResult where
  codeSegment : Byte
  dataSegment : Byte
  sp : Option Word
  entry : Word
  symbols : List (String × Word)
deriving DecidableEq, Repr

/-- The record of `save_state` and `load_state` (60_exceptions.md R226). -/
structure Capture where
  regs : Regs
  exitCode : Word
  idle : Bool
deriving DecidableEq, Repr

/-- The two vector tables (20_memory.md R66). -/
inductive VectorTable where
  | irq
  | int
deriving DecidableEq, Repr

/-- An interrupt vector (20_memory.md R66). -/
structure IntVector where
  cs : Byte
  ds : Byte
  ip : Word
deriving DecidableEq, Repr

/-- The flags of a page that `update_area_flags` can name (20_memory.md R88). -/
inductive PageFlag where
  | read
  | write
  | execute
  | dirty
deriving DecidableEq, Repr

/-- A host action (60_exceptions.md R225). Those that address a core address the core in focus (log 15). -/
inductive HostAction where
  /-- `alloc_segment` (20_memory.md R55). -/
  | allocSegment
  /-- A segment given back to the pool (20_memory.md R55; log 27). -/
  | freeSegment (n : Nat)
  /-- `alloc_page`, in a segment or anywhere (20_memory.md R56; log 28). -/
  | allocPage (seg : Option Byte) (access : AccessFlags)
  /-- `load_program` (20_memory.md R68), any number of times (log 13). -/
  | loadProgram (image : Image)
  /-- `save_interrupt_vector` (20_memory.md R67). -/
  | setVector (table : VectorTable) (index : Nat) (v : IntVector)
  /-- `mmap_region`, with the bytes the file holds (20_memory.md R58; log 14). -/
  | mmapRegion (region : Region) (contents : List Byte)
  /-- Unmapping of the region at an address (20_memory.md R58). -/
  | unmapRegion (address : Nat)
  /-- A privileged MC write of the loader. -/
  | mcWrite (w : McWrite)
  /-- `update_area_flags` (20_memory.md R88). -/
  | updateAreaFlags (address size : Nat) (flag : PageFlag) (value : Bool)
  /-- `boot` (70_reset_and_hazards.md R242). -/
  | boot (args : BootArgs)
  /-- Enqueue an IRQ (60_exceptions.md R211). -/
  | enqueueIrq (index : Nat)
  /-- Set the idle flag (60_exceptions.md R228). -/
  | setIdle
  /-- `suspend` (60_exceptions.md R220). -/
  | suspend
  /-- `wake_up` (60_exceptions.md R220). -/
  | wakeUp
  /-- `halt` (60_exceptions.md R221). -/
  | halt
  /-- A byte of a shared mmapped page changes (20_memory.md R58). -/
  | sharedByte (address : Nat) (v : Byte)
  /-- `save_state` (60_exceptions.md R226). -/
  | saveState
  /-- `load_state`; `none` is a record whose guard does not match (60_exceptions.md R226). -/
  | loadState (record : Option Capture)
  /-- The controller's capture (60_exceptions.md R226; log 25), at any step boundary (log 29). -/
  | saveMemory
deriving DecidableEq, Repr

/-- One entry of the script of choices that 60_exceptions.md R201 leaves free (log 5). -/
inductive Choice where
  /-- The core in focus makes its own transition. -/
  | run
  /-- The focus moves to another core: it changes places with the k-th of the others (log 15). -/
  | select (k : Nat)
  /-- The core in focus writes one dirty entry back (20_memory.md R81). -/
  | writeBack (address : Nat)
  /-- A host action. -/
  | host (a : HostAction)
deriving DecidableEq, Repr

/-- Why a host action failed and changed nothing (60_exceptions.md R204, R226). -/
inductive HostError where
  | resourceConflict
  | malformedState
  | raised (kind : ExcKind) (info : ExcInfo)
deriving DecidableEq, Repr

/-- What the host observes, in order (60_exceptions.md R225: port traffic belongs to the event history; log 24). -/
inductive HostNote where
  | portRead16 (port v : Word)
  | portWrite16 (port v : Word)
  | portRead8 (port : Word) (v : Byte)
  | portWrite8 (port : Word) (v : Byte)
  | virtualInterrupt (n : Word) (outcome : VintOutcome)
  | segment (n : Nat)
  | page (p : Nat)
  | loaded (r : LoadResult)
  | saved (r : Capture)
  | savedMemory (mc : MC)
  | failed (e : HostError)
deriving DecidableEq, Repr

/-! ## The machine -/

/-- The whole machine. -/
structure State where
  cfg : Config
  /-- The core in focus (log 15). -/
  core : Core
  /-- The other cores (60_exceptions.md R223). -/
  others : List Core
  mc : MC
  /-- The model's own: the script of choices, next first (log 5). -/
  agenda : List Choice
  /-- The model's own: what the host will answer to port reads, next first (log 7). -/
  portAnswers : List Word
  /-- The model's own: what the host will answer to virtual interrupts, next first (log 8). -/
  vintAnswers : List VintOutcome
  /-- The model's own: how many free values have been drawn (logs 7 and 8). -/
  draws : Nat
  /-- The model's own: what the host has observed, oldest first (log 24). -/
  history : List HostNote
  /-- The model's own: whether a core has made a transition (60_exceptions.md R225; log 18). -/
  started : Bool
deriving DecidableEq, Repr

/-- A machine at power-on (70_reset_and_hazards.md R240), for a configuration, the cache sizes of the core in focus and those of
every other core. -/
def State.powerOn (cfg : Config) (sizes : CacheSizes) (others : List CacheSizes) : State where
  cfg := cfg
  core := Core.powerOn sizes
  others := others.map Core.powerOn
  mc := MC.powerOn
  agenda := []
  portAnswers := []
  vintAnswers := []
  draws := 0
  history := []
  started := false

/-- The machine right after power-on, in configuration K0 with one core whose caches hold 8 entries each (log 1). -/
def State.reset : State := State.powerOn Config.k0 { icache := 8, dcache := 8 } []

/-! ## Stops -/

/-- Why the core in focus makes no transition. "A model shows this as a stuck state, never as a value"
(70_reset_and_hazards.md R252). An exception of 60_exceptions.md R204 is never one of these: it is the die transition, a next state (log 10). -/
inductive Fault where
  /-- The step of a halted core: nothing leads out of `Halted` (60_exceptions.md R200). Safe. -/
  | halted
  /-- The step of a suspended core (60_exceptions.md R200, R220). Safe. -/
  | suspended
  /-- The step of an idle core with no IRQ it can accept (60_exceptions.md R228). Safe. -/
  | idle
deriving DecidableEq, Repr

/-- What the model gives no meaning to. -/
inductive Refusal where
  /-- An instruction without a meaning, by its mnemonic: no arm of `exec` raises it. Safe. -/
  | notModelled (mnemonic : String)
  /-- The step of a core that was never booted (93_implementation_defined.md I19: "refuse"). Safe. -/
  | notBooted
  /-- A scheduling choice or host action outside its enabling condition (60_exceptions.md R201, R225), or a host error
  (20_memory.md R88). Safe (log 12). -/
  | notEnabled
  /-- Exhaustion or a malformed image at load time (93_implementation_defined.md I36: "refuse"). Safe (log 13). -/
  | loadFailed
deriving DecidableEq, Repr

end Sys2Proof.Machine
end

