-- ==== Sys2Proof/Machine/Monad.lean ====
section
/-! DEFINITION. How a rule's pseudocode is written: a sequence of effects on the state that a raise ends. "Effects already
performed by earlier pseudocode lines stay. No effect is rolled back" (00_scope.md R10): a raise carries the state it left. -/

namespace Sys2Proof.Machine

/-- Pseudocode that answers an `α` or raises, and in both cases leaves a state. -/
abbrev M (α : Type) := EStateM Exc State α

/-- `raise E(info)` (00_scope.md R10). -/
def raise {α : Type} (kind : ExcKind) (info : ExcInfo) : M α :=
  fun s => .error { kind := kind, info := info } s

/-- `if not c: raise E(info)`. -/
def require (c : Bool) (kind : ExcKind) (info : ExcInfo) : M Unit :=
  fun s => if c then .ok () s else .error { kind := kind, info := info } s

/-- A value read off the state. -/
def ask {α : Type} (f : State → α) : M α := fun s => .ok (f s) s

/-- An effect on the state. -/
def act (f : State → State) : M Unit := fun s => .ok () (f s)

/-- An effect on the core in focus. -/
def actCore (f : Core → Core) : M Unit := act fun s => { s with core := f s.core }

/-- An effect on the registers of the core in focus. -/
def actRegs (f : Regs → Regs) : M Unit := actCore fun c => { c with regs := f c.regs }

/-- An effect on the memory controller. -/
def actMC (f : MC → MC) : M Unit := act fun s => { s with mc := f s.mc }

/-- Do something or nothing. -/
def whenever (c : Bool) (x : M Unit) : M Unit := if c then x else pure ()

/-- One after the other, for each element of a list. -/
def forEach {α : Type} (f : α → M Unit) : List α → M Unit
  | [] => pure ()
  | a :: rest => do
    f a
    forEach f rest

end Sys2Proof.Machine
end

