-- ==== Sys2Proof/Machine/Memory.lean ====
section
/-! DEFINITION. The memory controller (20_memory.md R50 to R69): bytes, pages, segments, the read, write and
compare-and-swap operations, page allocation, and the vector records. -/

namespace Sys2Proof.Machine

/-! ## Lists of key and value in strictly rising order of key -/

/-- The value at a key. -/
def lookup {β : Type} (k : Nat) : List (Nat × β) → Option β
  | [] => none
  | (a, v) :: rest => if a == k then some v else lookup k rest

/-- The list with a value put at a key, in its place. -/
def put {β : Type} (k : Nat) (v : β) : List (Nat × β) → List (Nat × β)
  | [] => [(k, v)]
  | (a, w) :: rest =>
    if a < k then (a, w) :: put k v rest
    else if a == k then (k, v) :: rest
    else (k, v) :: (a, w) :: rest

/-- The list without a key. -/
def drop {β : Type} (k : Nat) (l : List (Nat × β)) : List (Nat × β) := l.filter fun c => !(c.1 == k)

/-- Keys strictly rising, all of them at least `lo`. -/
def risingFrom {β : Type} (lo : Nat) : List (Nat × β) → Bool
  | [] => true
  | (a, _) :: rest => decide (lo ≤ a) && risingFrom (a + 1) rest

/-! ## Bytes -/

/-- What an unlisted address reads as: pages are created with zero bytes (20_memory.md R54, R56; log 4). -/
def Memory.blank : Byte := 0

/-- One byte of the store. -/
def Memory.read (m : Memory) (a : Nat) : Byte := (lookup a m).getD Memory.blank

/-- The store with one byte written, in its canonical form. -/
def Memory.write (m : Memory) (a : Nat) (b : Byte) : Memory :=
  if b == Memory.blank then drop a m else put a b m

/-- The store with every byte of page `p` blank (20_memory.md R54, R57). -/
def Memory.clearPage (m : Memory) (p : Nat) : Memory := m.filter fun c => !(c.1 / 256 == p)

/-- The canonical form: addresses strictly rising, no entry that an unlisted address would read as anyway. -/
def Memory.wf (m : Memory) : Bool := risingFrom 0 m && m.all fun c => !(c.2 == Memory.blank)

/-! ## Pages and segments -/

/-- The page index of an address (20_memory.md R12, R60: `a >> 8`). -/
def pageOf (a : Nat) : Nat := a / 256

/-- `phys(seg, off)` (20_memory.md R51). -/
def phys (seg : Byte) (off : Word) : Nat := seg.toNat * 65536 + off.toNat

/-- A lazily created page (20_memory.md R54). -/
def lazyPage (cfg : Config) : Page where
  read := cfg.lazyFlags.read
  write := cfg.lazyFlags.write
  execute := cfg.lazyFlags.execute
  dirty := false
  kind := .anonymous

/-- Page `p`, if it exists. -/
def MC.page (mc : MC) (p : Nat) : Option Page := lookup p mc.pages

/-- Page `p` created, or replaced, with all its bytes zero (20_memory.md R54, R56). -/
def MC.createPage (mc : MC) (p : Nat) (pg : Page) : MC :=
  { mc with pages := put p pg mc.pages, cells := mc.cells.clearPage p }

/-- `GetPage(p)`'s effect: the page is created lazily if absent (20_memory.md R54). -/
def MC.touchPage (mc : MC) (cfg : Config) (p : Nat) : MC :=
  match mc.page p with
  | some _ => mc
  | none => mc.createPage p (lazyPage cfg)

/-- The flags and kind an access to page `p` finds: the page's, or those it is created with. -/
def MC.pageView (mc : MC) (cfg : Config) (p : Nat) : Page := (mc.page p).getD (lazyPage cfg)

/-- One byte of memory as an MC read finds it: an absent page would be created with zero bytes (20_memory.md R54). -/
def MC.byteAt (mc : MC) (a : Nat) : Byte :=
  match mc.page (pageOf a) with
  | some _ => mc.cells.read a
  | none => Memory.blank

/-- The little-endian u16 at an address (20_memory.md R59). -/
def MC.u16At (mc : MC) (a : Nat) : Word := mc.byteAt (a + 1) ++ mc.byteAt a

/-- The little-endian u32 at an address (20_memory.md R59). -/
def MC.u32At (mc : MC) (a : Nat) : InsnWord :=
  wordOfBytes (mc.byteAt a) (mc.byteAt (a + 1)) (mc.byteAt (a + 2)) (mc.byteAt (a + 3))

/-- Bytes stored from an address upward. -/
def Memory.writeAll (m : Memory) (a : Nat) : List Byte → Memory
  | [] => m
  | b :: rest => Memory.writeAll (m.write a b) (a + 1) rest

/-- The bytes of a u16, least significant first (20_memory.md R59). -/
def bytesOfHalf (v : Word) : List Byte := [v.extractLsb' 0 8, v.extractLsb' 8 8]

/-- The controller with page `p` marked dirty (20_memory.md R61). -/
def MC.markDirty (mc : MC) (p : Nat) : MC :=
  match mc.page p with
  | some pg => { mc with pages := put p { pg with dirty := true } mc.pages }
  | none => mc

/-- The controller with bytes stored at an address of an existing page, the page marked dirty if asked (20_memory.md R61). -/
def MC.store (mc : MC) (a : Nat) (bytes : List Byte) (dirty : Bool) : MC :=
  let stored := { mc with cells := mc.cells.writeAll a bytes }
  if dirty then stored.markDirty (pageOf a) else stored

/-! ## The operations (20_memory.md R60 to R64) -/

/-- `GetPage` (20_memory.md R54). -/
def getPage (p : Nat) : M Page := do
  act fun s => { s with mc := s.mc.touchPage s.cfg p }
  ask fun s => s.mc.pageView s.cfg p

/-- The checks every MC access makes, in this order: alignment, bounds, `GetPage`, permission (20_memory.md R60 to R63). -/
def access (a n : Nat) (permitted : Page → Bool) : M Unit := do
  require (a % n == 0) .misalignedAccess (.address a)
  let size ← ask fun s => s.cfg.memSize
  require (decide (a + n ≤ size)) .accessViolation (.address a)
  let pg ← getPage (pageOf a)
  require (permitted pg) .accessViolation (.address a)

/-- `MemRead(a, 1, priv)` (20_memory.md R60). -/
def memRead8 (a : Nat) (priv : Bool) : M Byte := do
  access a 1 fun pg => priv || pg.read
  ask fun s => s.mc.byteAt a

/-- `MemRead(a, 2, priv)` (20_memory.md R60). -/
def memRead16 (a : Nat) (priv : Bool) : M Word := do
  access a 2 fun pg => priv || pg.read
  ask fun s => s.mc.u16At a

/-- `MemRead(a, 4, priv)` (20_memory.md R60). -/
def memRead32 (a : Nat) (priv : Bool) : M InsnWord := do
  access a 4 fun pg => priv || pg.read
  ask fun s => s.mc.u32At a

/-- `MemWrite(a, 1, v, priv, dirty)` (20_memory.md R61). -/
def memWrite8 (a : Nat) (v : Byte) (priv dirty : Bool) : M Unit := do
  access a 1 fun pg => priv || pg.write
  actMC fun mc => mc.store a [v] dirty

/-- `MemWrite(a, 2, v, priv, dirty)` (20_memory.md R61). -/
def memWrite16 (a : Nat) (v : Word) (priv dirty : Bool) : M Unit := do
  access a 2 fun pg => priv || pg.write
  actMC fun mc => mc.store a (bytesOfHalf v) dirty

/-- `MemWrite(a, 4, v, priv, dirty)` (20_memory.md R61). -/
def memWrite32 (a : Nat) (v : InsnWord) (priv dirty : Bool) : M Unit := do
  access a 4 fun pg => priv || pg.write
  actMC fun mc => mc.store a (bytesOfWord v) dirty

/-- A privileged MC write of a given width (60_exceptions.md R219, R225). -/
def memWritePriv : McWrite → M Unit
  | .byte a v => memWrite8 a v true true
  | .half a v => memWrite16 a v true true
  | .word a v => memWrite32 a v true true

/-- The result of `CAS16`, "a tagged value, never a Boolean and a value mixed together" (20_memory.md R64). -/
inductive CasResult where
  | success
  | observed (v : Word)
deriving DecidableEq, Repr

/-- `CAS16(a, e, n)` (20_memory.md R64): never privileged, needs `read` and `write`, bypasses the data cache. -/
def cas16 (a : Nat) (e n : Word) : M CasResult := do
  access a 2 fun pg => pg.read && pg.write
  let cur ← ask fun s => s.mc.u16At a
  if cur == e then do
    actMC fun mc => mc.store a (bytesOfHalf n) true
    return .success
  else
    return .observed cur

/-! ## Allocation (20_memory.md R55 to R57) -/

/-- The first page index of `p, p + 1, …` (that many) with no page, below `limit` (20_memory.md R56). -/
def MC.firstFree (mc : MC) (limit : Nat) (p : Nat) : Nat → Option Nat
  | 0 => none
  | n + 1 =>
    if p < limit then
      match mc.page p with
      | none => some p
      | some _ => mc.firstFree limit (p + 1) n
    else none

/-- The page indices that `alloc_page` scans: the first, and how many (20_memory.md R56). -/
def scanRange (cfg : Config) : Option Byte → Nat × Nat
  | some seg => (seg.toNat * 256, 256)
  | none => (0, cfg.memSize / 256)

/-- `alloc_page(segment?)` with the flags the caller chooses (20_memory.md R56): in a segment, or in the whole space where none is
given. A segment past the end of memory has no free page (log 11). -/
def allocPage (seg : Option Byte) (pg : Page) : M Nat := do
  let found ← ask fun s => s.mc.firstFree (s.cfg.memSize / 256) (scanRange s.cfg seg).1 (scanRange s.cfg seg).2
  match found with
  | some p => do
    actMC fun mc => mc.createPage p pg
    return p
  | none => raise .resourceExhausted .nothing

/-- `free_page(p)` (20_memory.md R57): the page goes, its content and flags are lost. An absent page stays absent (log 20). -/
def MC.freePage (mc : MC) (p : Nat) : MC :=
  { mc with pages := drop p mc.pages, cells := mc.cells.clearPage p }

/-- The lowest of `n, n + 1, …` (that many) that no listed segment is. -/
def firstUnclaimed (claimed : List Nat) (n : Nat) : Nat → Option Nat
  | 0 => none
  | k + 1 => if claimed.contains n then firstUnclaimed claimed (n + 1) k else some n

/-- `n` put into a rising list. -/
def claim (n : Nat) : List Nat → List Nat
  | [] => [n]
  | a :: rest => if a < n then a :: claim n rest else if a == n then a :: rest else n :: a :: rest

/-- `alloc_segment()` (20_memory.md R55): the lowest unclaimed index is claimed. -/
def allocSegment : M Nat := do
  let found ← ask fun s => firstUnclaimed s.mc.segments 0 (s.cfg.memSize / 65536)
  match found with
  | some n => do
    actMC fun mc => { mc with segments := claim n mc.segments }
    return n
  | none => raise .resourceExhausted .nothing

/-- A segment given back to the pool (20_memory.md R55: "allocated/freed as a pool"). Its pages stay as they are (log 27). -/
def MC.freeSegment (mc : MC) (n : Nat) : MC := { mc with segments := mc.segments.filter fun m => !(m == n) }

/-! ## Interrupt vectors (20_memory.md R66, R67) -/

/-- A vector record as the little-endian u32 holds it: `CS = w[7:0]`, `DS = w[15:8]`, `IP = w[31:16]` (20_memory.md R66). -/
def IntVector.ofWord (w : InsnWord) : IntVector where
  cs := w.extractLsb' 0 8
  ds := w.extractLsb' 8 8
  ip := w.extractLsb' 16 16

/-- The u32 of a vector record (20_memory.md R66). -/
def IntVector.toWord (v : IntVector) : InsnWord := v.ip ++ v.ds ++ v.cs

/-- The base address and the entry count of a table (00_scope.md R5). -/
def tableOf (cfg : Config) : VectorTable → Nat × Nat
  | .irq => (cfg.irqTableBase, cfg.irqCount)
  | .int => (cfg.intTableBase, cfg.intCount)

/-- `load_interrupt_vector` (20_memory.md R67): an index past the table raises `BadVector`. -/
def loadVector (base count index : Nat) : M IntVector := do
  require (decide (index < count)) (.cpuException .badVector) (.vector index)
  let w ← memRead32 (base + 4 * index) true
  return IntVector.ofWord w

/-- `save_interrupt_vector` (20_memory.md R67; log 22). -/
def saveVector (base index : Nat) (v : IntVector) : M Unit :=
  memWrite32 (base + 4 * index) v.toWord true true

end Sys2Proof.Machine
end

