-- ==== Sys2Proof/Machine/Cache.lean ====
section
/-! DEFINITION. The two per-core caches (20_memory.md R70 to R81). A cache is the list of its entries in recency order, the
LRU entry first and the MRU entry last (R73). -/

namespace Sys2Proof.Machine

/-! ## The instruction cache -/

/-- The entry at an address. -/
def findIns (pa : Nat) : List IEntry → Option Instr
  | [] => none
  | e :: rest => if e.addr == pa then some e.ins else findIns pa rest

/-- The cache without the entry at an address. -/
def removeIns (pa : Nat) (c : List IEntry) : List IEntry := c.filter fun e => !(e.addr == pa)

/-- `touch` (20_memory.md R73): the entry moves to the MRU end. -/
def touchIns (pa : Nat) (ins : Instr) (c : List IEntry) : List IEntry := removeIns pa c ++ [{ addr := pa, ins := ins }]

/-- A new MRU entry, the LRU entry dropped first when the cache is full (20_memory.md R71). -/
def insertIns (capacity pa : Nat) (ins : Instr) (c : List IEntry) : List IEntry :=
  (if c.length == capacity then c.tail else c) ++ [{ addr := pa, ins := ins }]

/-! ## The data cache -/

/-- The entry at an address. -/
def findData (pa : Nat) : List DEntry → Option DEntry
  | [] => none
  | e :: rest => if e.addr == pa then some e else findData pa rest

/-- The cache without the entry at an address. -/
def removeData (pa : Nat) (c : List DEntry) : List DEntry := c.filter fun e => !(e.addr == pa)

/-- The cache with an entry as its MRU entry and no other entry for that address: `touch`, or an update and a `touch`
(20_memory.md R73). -/
def mruData (e : DEntry) (c : List DEntry) : List DEntry := removeData e.addr c ++ [e]

/-- The cache with the entry at an address marked clean, in its place (20_memory.md R73, R79). -/
def cleanData (pa : Nat) (c : List DEntry) : List DEntry :=
  c.map fun e => if e.addr == pa then { e with dirty := false } else e

/-- An effect on the data cache of the core in focus. -/
def actData (f : List DEntry → List DEntry) : M Unit := actCore fun c => { c with dcache := f c.dcache }

/-- `WriteBack(pa, v)` (20_memory.md R77): privileged exactly when the store was checked. -/
def writeBack (pa : Nat) (v : Word) : M Unit := do
  let priv ← ask fun s => s.cfg.writeCheck == .atStore
  memWrite16 pa v priv true

/-- `MakeSpace()` (20_memory.md R77): at capacity the LRU entry goes, written back first if it is dirty. A write-back that
raises leaves the entry. -/
def makeSpace : M Unit := do
  let full ← ask fun s => s.core.dcache.length == s.core.sizes.dcache
  if full then do
    let lru ← ask fun s => s.core.dcache.head?
    match lru with
    | none => pure ()
    | some e => do
      whenever e.dirty (writeBack e.addr e.value)
      actCore fun c => { c with dcache := c.dcache.tail, evictions := c.evictions + 1 }
  else pure ()

/-- `DRead16(pa)` (20_memory.md R75): protection is checked on the cold path only. -/
def dRead16 (pa : Nat) : M Word := do
  require (pa % 2 == 0) .misalignedAccess (.address pa)
  let hit ← ask fun s => findData pa s.core.dcache
  match hit with
  | some e => do
    actData (mruData e)
    return e.value
  | none => do
    let v ← memRead16 pa false
    makeSpace
    actData fun c => c ++ [{ addr := pa, dirty := false, value := v }]
    return v

/-- The check `DWrite16` makes under `DCACHE_WRITE_CHECK = at_store`: bounds, then the `write` flag (20_memory.md R76). -/
def storeCheck (pa : Nat) : M Unit := do
  let size ← ask fun s => s.cfg.memSize
  require (decide (pa + 2 ≤ size)) .accessViolation (.address pa)
  let pg ← getPage (pageOf pa)
  require pg.write .accessViolation (.address pa)

/-- `DWrite16(pa, v)` (20_memory.md R76): memory is not touched. -/
def dWrite16 (pa : Nat) (v : Word) : M Unit := do
  require (pa % 2 == 0) .misalignedAccess (.address pa)
  let atStore ← ask fun s => s.cfg.writeCheck == .atStore
  whenever atStore (storeCheck pa)
  let hit ← ask fun s => findData pa s.core.dcache
  match hit with
  | some _ => actData (mruData { addr := pa, dirty := true, value := v })
  | none => do
    makeSpace
    actData fun c => c ++ [{ addr := pa, dirty := true, value := v }]

/-- One dirty entry written back and marked clean; a clean or absent one is left (20_memory.md R79, R81). -/
def cleanEntry (pa : Nat) : M Unit := do
  let hit ← ask fun s => findData pa s.core.dcache
  match hit with
  | some e =>
    whenever e.dirty do
      writeBack pa e.value
      actData (cleanData pa)
  | none => pure ()

/-- The addresses of the data cache, LRU to MRU. -/
def dataKeys (s : State) : List Nat := s.core.dcache.map DEntry.addr

/-- `Flush()` (20_memory.md R79), from LRU to MRU. -/
def flush : M Unit := do
  let keys ← ask dataKeys
  forEach cleanEntry keys

/-- The flush of a dying core (60_exceptions.md R221): an entry whose write-back raises is skipped and stays dirty. -/
def flushDying : List Nat → State → State
  | [], s => s
  | pa :: rest, s =>
    match cleanEntry pa s with
    | .ok _ t => flushDying rest t
    | .error _ t => flushDying rest t

/-- One entry removed, written back first if asked and dirty (20_memory.md R80). -/
def removeEntry (wb : Bool) (pa : Nat) : M Unit := do
  whenever wb (cleanEntry pa)
  actData (removeData pa)

/-- `RemovePageRefs(p, wb)` (20_memory.md R80), from LRU to MRU. -/
def removePageRefs (p : Nat) (wb : Bool) : M Unit := do
  let keys ← ask dataKeys
  forEach (removeEntry wb) (keys.filter fun pa => pageOf pa == p)

end Sys2Proof.Machine
end

