-- ==== Sys2Proof/Machine/Flags.lean ====
section
/-! DEFINITION. Every flag computation of the spec: FLAGS as a register value (10_state.md R25) and what each kind of
instruction writes into the flags. -/

namespace Sys2Proof.Machine

/-- FLAGS read as a register: `P | H<<1 | E<<2 | Z<<3 | O<<4 | S<<5`, bits 6..15 zero (10_state.md R25). -/
def Flags.pack (f : Flags) : Word :=
  BitVec.ofNat 16 (f.p.toNat + 2 * f.h.toNat + 4 * f.e.toNat + 8 * f.z.toNat + 16 * f.o.toNat + 32 * f.s.toNat)

/-- FLAGS written as a register: bits 0..5 are taken, the rest ignored (10_state.md R25). -/
def Flags.unpack (v : Word) : Flags where
  p := v.getLsbD 0
  h := v.getLsbD 1
  e := v.getLsbD 2
  z := v.getLsbD 3
  o := v.getLsbD 4
  s := v.getLsbD 5

/-- `Z` and `S` from a value, the rest unchanged: loads and bitwise instructions (40_data_movement.md R120; 42_bitwise.md). -/
def Flags.zs (r : Word) (f : Flags) : Flags := { f with z := r == 0, s := r.msb }

/-- The flags of `ADD` and `INC` of `a` and `b`: `O` is the carry out of bit 15 (41_arithmetic.md R130, R132). -/
def Flags.sum (a b : Word) (f : Flags) : Flags :=
  { f with z := a + b == 0, s := (a + b).msb, o := decide (a.toNat + b.toNat > 0xFFFF) }

/-- The flags of `SUB` and `DEC`: `S` is the unsigned borrow, `O` is cleared (41_arithmetic.md R131, R133). -/
def Flags.diff (a b : Word) (f : Flags) : Flags :=
  { f with z := a - b == 0, s := decide (b.toNat > a.toNat), o := false }

/-- The flags of `MUL`, `DIV` and `MOD`: `Z` and `S` from the result, `O` cleared (41_arithmetic.md R134 to R136). -/
def Flags.product (r : Word) (f : Flags) : Flags := { f with z := r == 0, s := r.msb, o := false }

/-- The flags of a compare of `x` and `y` whose order is `less` (43_compare_branch.md R150, R151). -/
def Flags.compare (x y : Word) (less : Bool) (f : Flags) : Flags :=
  { f with e := x == y, z := x == 0 && y == 0, s := less }

/-! ## Branch conditions (43_compare_branch.md R152) -/

def Flags.condE (f : Flags) : Bool := f.e
def Flags.condNE (f : Flags) : Bool := !f.e
def Flags.condZ (f : Flags) : Bool := f.z
def Flags.condNZ (f : Flags) : Bool := !f.z
def Flags.condS (f : Flags) : Bool := f.s
def Flags.condNS (f : Flags) : Bool := !f.s
def Flags.condG (f : Flags) : Bool := !f.e && !f.s
def Flags.condGE (f : Flags) : Bool := f.e || !f.s
def Flags.condL (f : Flags) : Bool := !f.e && f.s
def Flags.condLE (f : Flags) : Bool := f.e || f.s

end Sys2Proof.Machine
end

