-- ==== Sys2Proof/Machine/Ops.lean ====
section
/-! DEFINITION. The named operations over registers, the stack, ports and the run state; taking an exception (`die`), entering an
interrupt (`enterInterrupt`) and returning from one (`exitInterrupt`); and the frame every instruction runs in (`complete`). -/

namespace Sys2Proof.Machine

/-! ## Registers (10_state.md R20 to R28) -/

/-- `x[i]` as a value: `DS` and `CS` zero-extended, FLAGS packed (10_state.md R25, R26). -/
def Regs.read (g : Regs) : Reg → Word
  | .gpr n => g.gpr[n]
  | .fp => g.fp
  | .sp => g.sp
  | .ds => g.ds.setWidth 16
  | .cs => g.cs.setWidth 16
  | .ip => g.ip
  | .flags => g.flags.pack
  | .cnt => g.cnt

/-- `x[i] <- v`: `DS` and `CS` keep the low 8 bits, FLAGS bits 0..5 (10_state.md R25, R26). -/
def Regs.write (g : Regs) (r : Reg) (v : Word) : Regs :=
  match r with
  | .gpr n => { g with gpr := g.gpr.set n v }
  | .fp => { g with fp := v }
  | .sp => { g with sp := v }
  | .ds => { g with ds := v.setWidth 8 }
  | .cs => { g with cs := v.setWidth 8 }
  | .ip => { g with ip := v }
  | .flags => { g with flags := Flags.unpack v }
  | .cnt => { g with cnt := v }

/-- The registers with other flags. -/
def Regs.setFlags (g : Regs) (f : Flags → Flags) : Regs := { g with flags := f g.flags }

/-- `IP <- trunc16(IP + 4)` (10_state.md R27). -/
def Regs.advance (g : Regs) : Regs := { g with ip := g.ip + 4 }

/-- `CNT <- trunc16(CNT + 1)` (10_state.md R28). -/
def Regs.count (g : Regs) : Regs := { g with cnt := g.cnt + 1 }

/-- `x[i]`. -/
def readReg (r : Reg) : M Word := ask fun s => s.core.regs.read r

/-- `x[i] <- v`. -/
def writeReg (r : Reg) (v : Word) : M Unit := actRegs fun g => g.write r v

/-- A flag update. It follows the register write of its rule, so it wins when the destination is FLAGS (10_state.md R26). -/
def setFlags (f : Flags → Flags) : M Unit := actRegs fun g => g.setFlags f

/-! ## The stack (44_stack_call.md R170) -/

/-- `Push16(v)`: the decrement stays even when the write raises. -/
def push16 (v : Word) : M Unit := do
  actRegs fun g => { g with sp := g.sp - 2 }
  let a ← ask fun s => phys s.core.regs.ds s.core.regs.sp
  dWrite16 a v

/-- `Pop16()`. -/
def pop16 : M Word := do
  let a ← ask fun s => phys s.core.regs.ds s.core.regs.sp
  let v ← dRead16 a
  actRegs fun g => { g with sp := g.sp + 2 }
  return v

/-- `Push16(IP); Push16(FP); FP <- SP` and the frame record: how `CALL` and interrupt entry create a call frame
(44_stack_call.md R173, 60_exceptions.md R212). -/
def createFrame : M Unit := do
  let ip ← readReg .ip
  push16 ip
  let fp ← readReg .fp
  push16 fp
  actRegs fun g => { g with fp := g.sp }
  actCore fun c =>
    { c with frames := { cs := c.regs.cs, ds := c.regs.ds, fp := c.regs.fp, ip := c.regs.ip } :: c.frames }

/-- The frame checks of `RET` and `RETINT`: no frame raises whatever the setting, a wrong `SP` when `FRAME_CHECK` is on
(44_stack_call.md R174, 60_exceptions.md R214). -/
def checkFrame : M Unit := do
  let top ← ask fun s => s.core.frames.head?
  match top with
  | none => raise (.cpuException .frameUnderflow) .nothing
  | some f => do
    let ok ← ask fun s => !s.cfg.frameCheck || s.core.regs.sp == f.fp
    require ok (.cpuException .frameMismatch) .nothing

/-- `FP <- Pop16(); IP <- Pop16(); frames.pop()` (44_stack_call.md R174, 60_exceptions.md R214). -/
def destroyFrame : M Unit := do
  let fp ← pop16
  writeReg .fp fp
  let ip ← pop16
  writeReg .ip ip
  actCore fun c => { c with frames := c.frames.tail }

/-! ## Draws and ports (45_privileged_io.md R186, 60_exceptions.md R225) -/

/-- One value the host answers: the next scripted answer, else a free value (log 7). -/
def drawPort : M Word := fun s =>
  match s.portAnswers with
  | v :: rest => .ok v { s with portAnswers := rest }
  | [] => .ok (Config.portDraw s.draws) { s with draws := s.draws + 1 }

/-- One outcome of a virtual interrupt: the next scripted answer, else a free value (log 8). -/
def drawVint : M VintOutcome := fun s =>
  match s.vintAnswers with
  | v :: rest => .ok v { s with vintAnswers := rest }
  | [] => .ok (Config.vintDraw s.draws) { s with draws := s.draws + 1 }

/-- Something the host observes (60_exceptions.md R225; log 24). -/
def note (n : HostNote) : M Unit := act fun s => { s with history := s.history ++ [n] }

/-- The `protected` mark of a registered port. -/
def portMark (p : Word) : List (Word × Bool) → Option Bool
  | [] => none
  | (q, b) :: rest => if q == p then some b else portMark p rest

/-- `PortCheck(port)` (45_privileged_io.md R186): existence first, then privilege. -/
def portCheck (p : Word) : M Unit := do
  let mark ← ask fun s => portMark p s.cfg.ports
  match mark with
  | none => raise .resourceNotFound (.port p)
  | some isProtected => do
    let ok ← ask fun s => !isProtected || s.core.regs.flags.p
    require ok .accessViolation (.port p)

/-! ## Halt and die (60_exceptions.md R206, R221) -/

/-- `alive <- false; running <- false`. -/
def Core.stopped (c : Core) : Core := { c with alive := false, running := false }

/-- `HaltCore(dying = false)` (60_exceptions.md R221): idempotent; a raise in the flush makes the core die. -/
def haltCore : M Unit := do
  let alive ← ask fun s => s.core.alive
  whenever alive do
    flush
    actCore Core.stopped

/-- `HaltCore(dying = true)` (60_exceptions.md R221). -/
def haltDying (s : State) : State :=
  if s.core.alive then
    let t := flushDying (dataKeys s) s
    { t with core := t.core.stopped }
  else s

/-- `FaultRecord(E, info)` (60_exceptions.md R208). -/
def faultRecord (e : Exc) (site : FaultSite) (c : Core) : FaultRecord where
  exc := e
  site := site
  regs := c.regs
  frames := c.frames

/-- `Die(E, info)` (60_exceptions.md R206): TAKING AN EXCEPTION. The first fault is recorded, the exit code becomes 1 and the core
halts. "Faults are not delivered to software at all" (R218), so no handler runs. -/
def die (e : Exc) (site : FaultSite) (s : State) : State :=
  let record := if s.core.fault.isNone then some (faultRecord e site s.core) else s.core.fault
  haltDying { s with core := { s.core with fault := record, exitCode := 1 } }

/-! ## Interrupts (60_exceptions.md R212, R214) -/

/-- The flags of an interrupt stack page: `read = 1, write = 1, execute = 0, dirty = 0` (60_exceptions.md R212). -/
def stackPage : Page := { read := true, write := true, execute := false, dirty := false, kind := .anonymous }

/-- The offset just past page `p` in its segment: `trunc16((p mod 256) * 256 + 256)` (60_exceptions.md R212, 20_memory.md R68). -/
def pageTop (p : Nat) : Word := BitVec.ofNat 16 ((p % 256) * 256 + 256)

/-- `EnterInterrupt(base, count, i)` (60_exceptions.md R212), line by line. -/
def enterInterrupt (base count i : Nat) : M Unit := do
  let v ← loadVector base count i
  let p ← allocPage (some v.ds) stackPage
  actCore fun c => { c with istack := p :: c.istack }
  let oldDs ← readReg .ds
  let oldSp ← readReg .sp
  actRegs fun g => { g with ds := v.ds, sp := pageTop p }
  push16 oldDs
  push16 oldSp
  let cs ← readReg .cs
  push16 cs
  let flags ← readReg .flags
  push16 flags
  let gprs ← ask fun s => s.core.regs.gpr.toList
  forEach push16 gprs
  createFrame
  setFlags fun f => { f with p := true, h := false }
  actCore fun c => { c with idle := false }
  actRegs fun g => { g with cs := v.cs, ip := v.ip }

/-- `x[j] <- Pop16()` for a general register (60_exceptions.md R214). -/
def popGpr (j : Fin 32) : M Unit := do
  let v ← pop16
  writeReg (.gpr j) v

/-- `ExitInterrupt()` (60_exceptions.md R214), line by line: RETURNING FROM AN INTERRUPT. -/
def exitInterrupt : M Unit := do
  checkFrame
  let top ← ask fun s => s.core.istack.head?
  match top with
  | none => raise (.cpuException .istackUnderflow) .nothing
  | some p => do
    destroyFrame
    forEach popGpr (List.finRange 32).reverse
    let flags ← pop16
    writeReg .flags flags
    let cs ← pop16
    writeReg .cs cs
    let sp ← pop16
    let ds ← pop16
    writeReg .sp sp
    writeReg .ds ds
    actCore fun c => { c with istack := c.istack.tail }
    removePageRefs p false
    actMC fun mc => mc.freePage p

/-- A raise inside a virtual interrupt is attributed to it (60_exceptions.md R208). -/
def blame (n : Word) (x : M Unit) : M Unit := fun s =>
  match x s with
  | .ok v t => .ok v t
  | .error e t => .error { e with vint := some n } t

/-- `VirtualInterrupt(n)` (60_exceptions.md R219): the handler's new `R0..R31`, then its writes in order, or its fault (log 23). -/
def virtualInterrupt (n : Word) : M Unit := do
  let outcome ← drawVint
  note (.virtualInterrupt n outcome)
  match outcome with
  | .ok gpr writes => do
    actRegs fun g => { g with gpr := gpr }
    blame n (forEach memWritePriv writes)
  | .fail kind info => blame n (raise kind info)

/-- `AcceptIRQ()` is enabled (60_exceptions.md R201, R210). -/
def acceptEnabled (s : State) : Bool :=
  s.core.alive && s.core.running && s.core.regs.flags.h && !s.core.pending.isEmpty

/-- `AcceptIRQ()` (60_exceptions.md R210): the head of `pending` is taken and its vector entered; a raise kills the core. -/
def acceptIrq (s : State) : State :=
  let i := s.core.pending.headD 0
  let taken : State := { s with core := { s.core with pending := s.core.pending.tail } }
  match enterInterrupt s.cfg.irqTableBase s.cfg.irqCount i taken with
  | .ok _ t => t
  | .error e t =>
    die e { origin := .irqAcceptance, cs := s.core.regs.cs, fetchIp := s.core.regs.ip, instr := none } t

/-- `Step(c)` is enabled, apart from the priority of an IRQ (60_exceptions.md R201). -/
def stepEnabled (s : State) : Bool := s.core.alive && s.core.running && !s.core.idle

/-- `SpontaneousWriteBack(c)` of one entry (20_memory.md R81, 60_exceptions.md R201): `none` where it is not enabled. A write-back
that raises kills the core. -/
def spontaneousWriteBack (pa : Nat) (s : State) : Option State :=
  match findData pa s.core.dcache with
  | some e =>
    if s.core.alive && e.dirty then
      match cleanEntry pa s with
      | .ok _ t => some t
      | .error e t =>
        some (die e { origin := .writeBack, cs := s.core.regs.cs, fetchIp := s.core.regs.ip, instr := none } t)
    else none
  | none => none

/-- The machine's exit code: the maximum over the cores (60_exceptions.md R207). -/
def machineExitCode (s : State) : Nat :=
  (s.core :: s.others).foldl (fun m c => max m c.exitCode.toNat) 0

/-- A run has ended: no core is alive (70_reset_and_hazards.md R252). -/
def runEnded (s : State) : Bool := (s.core :: s.others).all fun c => !c.alive

end Sys2Proof.Machine
end

