-- ==== Sys2Proof/Machine/Operands.lean ====
section
/-! DEFINITION. Every operand form (30_encoding.md R103 to R106), the register fields an instruction names, the two privilege
checks of the step, and the frame every instruction runs in. -/

namespace Sys2Proof.Machine

/-- The value of `opnd` for given registers (30_encoding.md R104). -/
def operandValue (g : Regs) : Operand → Word
  | .reg r => g.read r
  | .imm v => v

/-- `opnd` (30_encoding.md R104). -/
def operand (o : Operand) : M Word := ask fun s => operandValue s.core.regs o

/-- `trunc16(x[rb] + off)` (20_memory.md R52). -/
def offsetAddress (base : Word) (off : Int) : Word := base + BitVec.ofInt 16 off

/-- `EA(rb, off13) = phys(DS, trunc16(x[rb] + sext_13(off13)))` for given registers (30_encoding.md R105, 20_memory.md R52). -/
def eaValue (g : Regs) (rb : Reg) (off : Int) : Nat := phys g.ds (offsetAddress (g.read rb) off)

/-- `EA(rb, off13)`. -/
def effectiveAddress (rb : Reg) (off : Int) : M Nat := ask fun s => eaValue s.core.regs rb off

/-- A control-transfer target for given registers: absolute `x[rs]`, or `trunc16(IP + imm16)` from the advanced `IP`
(30_encoding.md R106). -/
def targetValue (g : Regs) : Operand → Word
  | .reg r => g.read r
  | .imm v => g.ip + v

/-- A control-transfer target. -/
def target (o : Operand) : M Word := ask fun s => targetValue s.core.regs o

/-- `Branch(cond)` (43_compare_branch.md R153). -/
def branch (cond : Flags → Bool) (o : Operand) : M Unit := do
  let t ← target o
  let taken ← ask fun s => cond s.core.regs.flags
  whenever taken (writeReg .ip t)

/-- The register an operand names, if it names one. -/
def Operand.regFields : Operand → List Reg
  | .reg r => [r]
  | .imm _ => []

/-- The register fields of an instruction in the order `rd`/`r`/`ra`, `rs`/`rb`/`re`, `rn` (60_exceptions.md R202). -/
def regFields : Instr → List Reg
  | .lw rd rb _ => [rd, rb]
  | .lb rd rb _ => [rd, rb]
  | .li rd _ => [rd]
  | .stw rb _ r => [r, rb]
  | .stb rb _ r => [r, rb]
  | .mov rd rs => [rd, rs]
  | .swp rd rs => [rd, rs]
  | .add rd o => rd :: Operand.regFields o
  | .sub rd o => rd :: Operand.regFields o
  | .inc r => [r]
  | .dec r => [r]
  | .mul rd o => rd :: Operand.regFields o
  | .div rd o => rd :: Operand.regFields o
  | .mod rd o => rd :: Operand.regFields o
  | .and rd o => rd :: Operand.regFields o
  | .or rd o => rd :: Operand.regFields o
  | .xor rd o => rd :: Operand.regFields o
  | .not r => [r]
  | .shiftl rd o => rd :: Operand.regFields o
  | .shiftr rd o => rd :: Operand.regFields o
  | .cmp rd o => rd :: Operand.regFields o
  | .cmpu rd o => rd :: Operand.regFields o
  | .be o => Operand.regFields o
  | .bne o => Operand.regFields o
  | .bz o => Operand.regFields o
  | .bnz o => Operand.regFields o
  | .bs o => Operand.regFields o
  | .bns o => Operand.regFields o
  | .bg o => Operand.regFields o
  | .bge o => Operand.regFields o
  | .bl o => Operand.regFields o
  | .ble o => Operand.regFields o
  | .j o => Operand.regFields o
  | .push r => [r]
  | .pop r => [r]
  | .call o => Operand.regFields o
  | .ret => []
  | .cli => []
  | .sti => []
  | .hlt o => Operand.regFields o
  | .rst => []
  | .retint => []
  | .inw rd o => rd :: Operand.regFields o
  | .outw o r => r :: Operand.regFields o
  | .inb rd o => rd :: Operand.regFields o
  | .outb o r => r :: Operand.regFields o
  | .cas ra re rn => [ra, re, rn]
  | .int o => Operand.regFields o

/-- A register number of 32 or more is protected (10_state.md R23). -/
def isProtectedReg (r : Reg) : Bool := decide (32 ≤ r.num)

/-- `CLI`, `STI`, `HLT`, `RST` and `RETINT` (45_privileged_io.md R180). -/
def isPrivileged : Instr → Bool
  | .cli => true
  | .sti => true
  | .hlt _ => true
  | .rst => true
  | .retint => true
  | .lw _ _ _ | .lb _ _ _ | .li _ _ | .stw _ _ _ | .stb _ _ _ | .mov _ _ | .swp _ _ | .add _ _ | .sub _ _ | .inc _
    | .dec _ | .mul _ _ | .div _ _ | .mod _ _ | .and _ _ | .or _ _ | .xor _ _ | .not _ | .shiftl _ _ | .shiftr _ _
    | .cmp _ _ | .cmpu _ _ | .be _ | .bne _ | .bz _ | .bnz _ | .bs _ | .bns _ | .bg _ | .bge _ | .bl _ | .ble _ | .j _
    | .push _ | .pop _ | .call _ | .ret | .inw _ _ | .outw _ _ | .inb _ _ | .outb _ _ | .cas _ _ _ | .int _ => false

/-- The privileged-instruction check (60_exceptions.md R202, 45_privileged_io.md R180). -/
def checkPrivilege (i : Instr) : M Unit := do
  let p ← ask fun s => s.core.regs.flags.p
  require (p || !isPrivileged i) .accessViolation .instruction

/-- The protected-register check of one field (10_state.md R23). -/
def checkField (r : Reg) : M Unit := do
  let p ← ask fun s => s.core.regs.flags.p
  require (p || !isProtectedReg r) .accessViolation (.register r.num)

/-- The lines of `Step` between the fetch and `CNT` (60_exceptions.md R202): `IP` advances, the two checks are made, and the
instruction's own rule runs. -/
def guarded (i : Instr) (body : M Unit) : M Unit := do
  actRegs Regs.advance
  checkPrivilege i
  forEach checkField (regFields i)
  body
  actRegs Regs.count

/-- The frame of an instruction (60_exceptions.md R202): its effect, or the die transition on any raise. -/
def complete (i : Instr) (body : M Unit) (s : State) : Host.Outcome State Fault Refusal :=
  match guarded i body s with
  | .ok _ t => .next t
  | .error e t =>
    .next (die e { origin := .instruction, cs := s.core.regs.cs, fetchIp := s.core.regs.ip, instr := some i } t)

end Sys2Proof.Machine
end

