-- ==== Sys2Proof/Machine/Arithmetic.lean ====
section
/-! DEFINITION. Arithmetic: ADD, SUB, INC, DEC, MUL, DIV, MOD (41_arithmetic.md R130 to R137). Results are reduced modulo
2^16; nothing saturates and nothing traps on overflow. -/

namespace Sys2Proof.Machine

/-- `Quot(x, y)` for `y != 0` (41_arithmetic.md R137). -/
def quot (round : DivRound) (x y : Int) : Int :=
  match round with
  | .floor => x.fdiv y
  | .trunc => x.tdiv y

/-- `trunc16(s16(a) * s16(b))` (41_arithmetic.md R134). -/
def mulWord (a b : Word) : Word := BitVec.ofInt 16 (a.toInt * b.toInt)

/-- `trunc16(Quot(s16(a), s16(b)))` (41_arithmetic.md R135). -/
def divWord (round : DivRound) (a b : Word) : Word := BitVec.ofInt 16 (quot round a.toInt b.toInt)

/-- `trunc16(s16(a) - s16(b) * Quot(s16(a), s16(b)))` (41_arithmetic.md R136). -/
def modWord (round : DivRound) (a b : Word) : Word :=
  BitVec.ofInt 16 (a.toInt - b.toInt * quot round a.toInt b.toInt)

/-- A sum into `rd` with its flags (41_arithmetic.md R130, R132). -/
def sumInto (rd : Reg) (a b : Word) : M Unit := do
  writeReg rd (a + b)
  setFlags (Flags.sum a b)

/-- A difference into `rd` with its flags (41_arithmetic.md R131, R133). -/
def diffInto (rd : Reg) (a b : Word) : M Unit := do
  writeReg rd (a - b)
  setFlags (Flags.diff a b)

/-- A product, quotient or remainder into `rd` with its flags (41_arithmetic.md R134 to R136). -/
def productInto (rd : Reg) (r : Word) : M Unit := do
  writeReg rd r
  setFlags (Flags.product r)

/-- `ADD rd, opnd` (41_arithmetic.md R130). -/
def execAdd (rd : Reg) (o : Operand) (s : State) : Host.Outcome State Fault Refusal :=
  complete (.add rd o) (do
    let a ← readReg rd
    let b ← operand o
    sumInto rd a b) s

/-- `SUB rd, opnd` (41_arithmetic.md R131). -/
def execSub (rd : Reg) (o : Operand) (s : State) : Host.Outcome State Fault Refusal :=
  complete (.sub rd o) (do
    let a ← readReg rd
    let b ← operand o
    diffInto rd a b) s

/-- `INC r` (41_arithmetic.md R132). -/
def execInc (r : Reg) (s : State) : Host.Outcome State Fault Refusal :=
  complete (.inc r) (do
    let a ← readReg r
    sumInto r a 1) s

/-- `DEC r` (41_arithmetic.md R133). -/
def execDec (r : Reg) (s : State) : Host.Outcome State Fault Refusal :=
  complete (.dec r) (do
    let a ← readReg r
    diffInto r a 1) s

/-- `MUL rd, opnd` (41_arithmetic.md R134). -/
def execMul (rd : Reg) (o : Operand) (s : State) : Host.Outcome State Fault Refusal :=
  complete (.mul rd o) (do
    let a ← readReg rd
    let b ← operand o
    productInto rd (mulWord a b)) s

/-- `DIV rd, opnd` (41_arithmetic.md R135): a zero divisor raises before any write. -/
def execDiv (rd : Reg) (o : Operand) (s : State) : Host.Outcome State Fault Refusal :=
  complete (.div rd o) (do
    let a ← readReg rd
    let b ← operand o
    require (!(b == 0)) .arithmeticFault .divide
    let round ← ask fun s => s.cfg.divRound
    productInto rd (divWord round a b)) s

/-- `MOD rd, opnd` (41_arithmetic.md R136): a zero divisor raises before any write. -/
def execMod (rd : Reg) (o : Operand) (s : State) : Host.Outcome State Fault Refusal :=
  complete (.mod rd o) (do
    let a ← readReg rd
    let b ← operand o
    require (!(b == 0)) .arithmeticFault .modulo
    let round ← ask fun s => s.cfg.divRound
    productInto rd (modWord round a b)) s

end Sys2Proof.Machine
end

