-- ==== Sys2Proof/Machine/AtomicInterrupt.lean ====
section
/-! DEFINITION. CAS and INT (46_atomic_interrupt.md R191, R192). -/

namespace Sys2Proof.Machine

/-- `CAS ra, re, rn` (46_atomic_interrupt.md R191). -/
def execCas (ra re rn : Reg) (s : State) : Host.Outcome State Fault Refusal :=
  complete (.cas ra re rn) (do
    let off ← readReg ra
    let a ← ask fun s => phys s.core.regs.ds off
    let e ← readReg re
    let n ← readReg rn
    let res ← cas16 a e n
    match res with
    | .success => setFlags fun f => { f with e := true }
    | .observed c => do
      writeReg re c
      setFlags fun f => { f with e := false }) s

/-- `INT opnd` (46_atomic_interrupt.md R192): a virtual interrupt where one is registered, else an interrupt entry. -/
def execInt (o : Operand) (s : State) : Host.Outcome State Fault Refusal :=
  complete (.int o) (do
    let n ← operand o
    let isVirtual ← ask fun s => s.cfg.vint.contains n
    let base ← ask fun s => s.cfg.intTableBase
    let count ← ask fun s => s.cfg.intCount
    if isVirtual then virtualInterrupt n
    else enterInterrupt base count n.toNat) s

end Sys2Proof.Machine
end

