-- ==== Sys2Proof/Machine/Bitwise.lean ====
section
/-! DEFINITION. Bitwise: AND, OR, XOR, NOT, SHIFTL, SHIFTR (42_bitwise.md R140 to R145). `O` is never touched. -/

namespace Sys2Proof.Machine

/-- A bitwise result into `rd` with `Z` and `S` (42_bitwise.md). -/
def bitsInto (rd : Reg) (r : Word) : M Unit := do
  writeReg rd r
  setFlags (Flags.zs r)

/-- `trunc16(a * 2^b)`: the count is the whole u16, never reduced modulo 16 (42_bitwise.md R144). -/
def shiftLeftWord (a b : Word) : Word := a <<< b.toNat

/-- `floor(a / 2^b)` (42_bitwise.md R145). -/
def shiftRightWord (a b : Word) : Word := a >>> b.toNat

/-- `AND rd, opnd` (42_bitwise.md R140). -/
def execAnd (rd : Reg) (o : Operand) (s : State) : Host.Outcome State Fault Refusal :=
  complete (.and rd o) (do
    let a ← readReg rd
    let b ← operand o
    bitsInto rd (a &&& b)) s

/-- `OR rd, opnd` (42_bitwise.md R141). -/
def execOr (rd : Reg) (o : Operand) (s : State) : Host.Outcome State Fault Refusal :=
  complete (.or rd o) (do
    let a ← readReg rd
    let b ← operand o
    bitsInto rd (a ||| b)) s

/-- `XOR rd, opnd` (42_bitwise.md R142). -/
def execXor (rd : Reg) (o : Operand) (s : State) : Host.Outcome State Fault Refusal :=
  complete (.xor rd o) (do
    let a ← readReg rd
    let b ← operand o
    bitsInto rd (a ^^^ b)) s

/-- `NOT r` (42_bitwise.md R143). -/
def execNot (r : Reg) (s : State) : Host.Outcome State Fault Refusal :=
  complete (.not r) (do
    let a ← readReg r
    bitsInto r (a ^^^ 0xFFFF)) s

/-- `SHIFTL rd, opnd` (42_bitwise.md R144). -/
def execShiftl (rd : Reg) (o : Operand) (s : State) : Host.Outcome State Fault Refusal :=
  complete (.shiftl rd o) (do
    let a ← readReg rd
    let b ← operand o
    bitsInto rd (shiftLeftWord a b)) s

/-- `SHIFTR rd, opnd` (42_bitwise.md R145). -/
def execShiftr (rd : Reg) (o : Operand) (s : State) : Host.Outcome State Fault Refusal :=
  complete (.shiftr rd o) (do
    let a ← readReg rd
    let b ← operand o
    bitsInto rd (shiftRightWord a b)) s

end Sys2Proof.Machine
end

