-- ==== Sys2Proof/Machine/CompareBranch.lean ====
section
/-! DEFINITION. Compare and branch: CMP, CMPU, the ten conditional branches and J (43_compare_branch.md R150 to R164). A branch
writes `IP` only; its target is checked at the next fetch (R153). -/

namespace Sys2Proof.Machine

/-- `CMP rd, opnd` (43_compare_branch.md R150): signed. -/
def execCmp (rd : Reg) (o : Operand) (s : State) : Host.Outcome State Fault Refusal :=
  complete (.cmp rd o) (do
    let x ← readReg rd
    let y ← operand o
    setFlags (Flags.compare x y (decide (x.toInt < y.toInt)))) s

/-- `CMPU rd, opnd` (43_compare_branch.md R151): unsigned. -/
def execCmpu (rd : Reg) (o : Operand) (s : State) : Host.Outcome State Fault Refusal :=
  complete (.cmpu rd o) (do
    let x ← readReg rd
    let y ← operand o
    setFlags (Flags.compare x y (decide (x.toNat < y.toNat)))) s

/-- `BE opnd` (43_compare_branch.md R154): taken when `E = 1`. -/
def execBe (o : Operand) (s : State) : Host.Outcome State Fault Refusal :=
  complete (.be o) (branch Flags.condE o) s

/-- `BNE opnd` (43_compare_branch.md R155): taken when `E = 0`. -/
def execBne (o : Operand) (s : State) : Host.Outcome State Fault Refusal :=
  complete (.bne o) (branch Flags.condNE o) s

/-- `BZ opnd` (43_compare_branch.md R156): taken when `Z = 1`. -/
def execBz (o : Operand) (s : State) : Host.Outcome State Fault Refusal :=
  complete (.bz o) (branch Flags.condZ o) s

/-- `BNZ opnd` (43_compare_branch.md R157): taken when `Z = 0`. -/
def execBnz (o : Operand) (s : State) : Host.Outcome State Fault Refusal :=
  complete (.bnz o) (branch Flags.condNZ o) s

/-- `BS opnd` (43_compare_branch.md R158): taken when `S = 1`. -/
def execBs (o : Operand) (s : State) : Host.Outcome State Fault Refusal :=
  complete (.bs o) (branch Flags.condS o) s

/-- `BNS opnd` (43_compare_branch.md R159): taken when `S = 0`. -/
def execBns (o : Operand) (s : State) : Host.Outcome State Fault Refusal :=
  complete (.bns o) (branch Flags.condNS o) s

/-- `BG opnd` (43_compare_branch.md R160): taken when `E = 0 and S = 0`. -/
def execBg (o : Operand) (s : State) : Host.Outcome State Fault Refusal :=
  complete (.bg o) (branch Flags.condG o) s

/-- `BGE opnd` (43_compare_branch.md R161): taken when `E = 1 or S = 0`. -/
def execBge (o : Operand) (s : State) : Host.Outcome State Fault Refusal :=
  complete (.bge o) (branch Flags.condGE o) s

/-- `BL opnd` (43_compare_branch.md R162): taken when `E = 0 and S = 1`. -/
def execBl (o : Operand) (s : State) : Host.Outcome State Fault Refusal :=
  complete (.bl o) (branch Flags.condL o) s

/-- `BLE opnd` (43_compare_branch.md R163): taken when `E = 1 or S = 1`. -/
def execBle (o : Operand) (s : State) : Host.Outcome State Fault Refusal :=
  complete (.ble o) (branch Flags.condLE o) s

/-- `J opnd` (43_compare_branch.md R164): always taken. -/
def execJ (o : Operand) (s : State) : Host.Outcome State Fault Refusal :=
  complete (.j o) (branch (fun _ => true) o) s

end Sys2Proof.Machine
end

