-- ==== Sys2Proof/Machine/DataMovement.lean ====
section
/-! DEFINITION. Data movement: LW, LB, LI, STW, STB, MOV, SWP (40_data_movement.md R120 to R126). -/

namespace Sys2Proof.Machine

/-- The end of a load: `x[rd] <- v; Z <- (v = 0); S <- v[15]` (40_data_movement.md R120 to R122). -/
def loaded (rd : Reg) (v : Word) : M Unit := do
  writeReg rd v
  setFlags (Flags.zs v)

/-- `LW rd, rb[off]` (40_data_movement.md R120). -/
def execLw (rd rb : Reg) (off : Int) (s : State) : Host.Outcome State Fault Refusal :=
  complete (.lw rd rb off) (do
    let a ← effectiveAddress rb off
    let v ← dRead16 a
    loaded rd v) s

/-- `LB rd, rb[off]` (40_data_movement.md R121): straight to the memory controller, zero-extended. -/
def execLb (rd rb : Reg) (off : Int) (s : State) : Host.Outcome State Fault Refusal :=
  complete (.lb rd rb off) (do
    let a ← effectiveAddress rb off
    let b ← memRead8 a false
    loaded rd (b.setWidth 16)) s

/-- `LI rd, imm` (40_data_movement.md R122). -/
def execLi (rd : Reg) (v : Word) (s : State) : Host.Outcome State Fault Refusal :=
  complete (.li rd v) (loaded rd v) s

/-- `STW rb[off], r` (40_data_movement.md R123): into the data cache. -/
def execStw (rb : Reg) (off : Int) (r : Reg) (s : State) : Host.Outcome State Fault Refusal :=
  complete (.stw rb off r) (do
    let a ← effectiveAddress rb off
    let v ← readReg r
    dWrite16 a v) s

/-- `STB rb[off], r` (40_data_movement.md R124): straight to the memory controller. -/
def execStb (rb : Reg) (off : Int) (r : Reg) (s : State) : Host.Outcome State Fault Refusal :=
  complete (.stb rb off r) (do
    let a ← effectiveAddress rb off
    let v ← readReg r
    memWrite8 a (v.setWidth 8) false true) s

/-- `MOV rd, rs` (40_data_movement.md R125). -/
def execMov (rd rs : Reg) (s : State) : Host.Outcome State Fault Refusal :=
  complete (.mov rd rs) (do
    let v ← readReg rs
    writeReg rd v) s

/-- `SWP rd, rs` (40_data_movement.md R126). -/
def execSwp (rd rs : Reg) (s : State) : Host.Outcome State Fault Refusal :=
  complete (.swp rd rs) (do
    let t ← readReg rd
    let u ← readReg rs
    writeReg rd u
    writeReg rs t) s

end Sys2Proof.Machine
end

