-- ==== Sys2Proof/Machine/PortIo.lean ====
section
/-! DEFINITION. Port input and output: IN, OUT, INB, OUTB (45_privileged_io.md R186 to R190). A read is a draw; reads and
writes are host interactions, kept in the history (60_exceptions.md R225). -/

namespace Sys2Proof.Machine

/-- `IN rd, port` (45_privileged_io.md R187). -/
def execIn (rd : Reg) (o : Operand) (s : State) : Host.Outcome State Fault Refusal :=
  complete (.inw rd o) (do
    let port ← operand o
    portCheck port
    let v ← drawPort
    note (.portRead16 port v)
    writeReg rd v) s

/-- `OUT port, r` (45_privileged_io.md R188). -/
def execOut (o : Operand) (r : Reg) (s : State) : Host.Outcome State Fault Refusal :=
  complete (.outw o r) (do
    let port ← operand o
    portCheck port
    let v ← readReg r
    note (.portWrite16 port v)) s

/-- `INB rd, port` (45_privileged_io.md R189): the 8 bits are the low half of the draw, zero-extended. -/
def execInb (rd : Reg) (o : Operand) (s : State) : Host.Outcome State Fault Refusal :=
  complete (.inb rd o) (do
    let port ← operand o
    portCheck port
    let v ← drawPort
    let b : Byte := v.setWidth 8
    note (.portRead8 port b)
    writeReg rd (b.setWidth 16)) s

/-- `OUTB port, r` (45_privileged_io.md R190). -/
def execOutb (o : Operand) (r : Reg) (s : State) : Host.Outcome State Fault Refusal :=
  complete (.outb o r) (do
    let port ← operand o
    portCheck port
    let v ← readReg r
    note (.portWrite8 port (v.setWidth 8))) s

end Sys2Proof.Machine
end

