-- ==== Sys2Proof/Machine/Privileged.lean ====
section
/-! DEFINITION. The privileged instructions: CLI, STI, HLT, RST, RETINT (45_privileged_io.md R180 to R185). The privilege check is
made in `complete`, before any other check (60_exceptions.md R202). -/

namespace Sys2Proof.Machine

/-- `CLI` (45_privileged_io.md R181). -/
def execCli (s : State) : Host.Outcome State Fault Refusal :=
  complete .cli (setFlags fun f => { f with h := false }) s

/-- `STI` (45_privileged_io.md R182). -/
def execSti (s : State) : Host.Outcome State Fault Refusal :=
  complete .sti (setFlags fun f => { f with h := true }) s

/-- `HLT opnd` (45_privileged_io.md R183): the exit code, then the halt. -/
def execHlt (o : Operand) (s : State) : Host.Outcome State Fault Refusal :=
  complete (.hlt o) (do
    let v ← operand o
    actCore fun c => { c with exitCode := v }
    haltCore) s

/-- The effect of a core reset (45_privileged_io.md R184, 10_state.md R35): the general registers and FLAGS, nothing else. -/
def Regs.coreReset (g : Regs) : Regs := { g with gpr := Vector.replicate 32 0, flags := Flags.reset }

/-- `RST` (45_privileged_io.md R184). -/
def execRst (s : State) : Host.Outcome State Fault Refusal :=
  complete .rst (actRegs Regs.coreReset) s

/-- `RETINT` (45_privileged_io.md R185). -/
def execRetint (s : State) : Host.Outcome State Fault Refusal :=
  complete .retint exitInterrupt s

end Sys2Proof.Machine
end

