-- ==== Sys2Proof/Machine/StackCall.lean ====
section
/-! DEFINITION. Stack and calls: PUSH, POP, CALL, RET (44_stack_call.md R170 to R174). None of them writes FLAGS, but for
`POP FLAGS`. -/

namespace Sys2Proof.Machine

/-- `PUSH r` (44_stack_call.md R171): the register is read before `SP` moves. -/
def execPush (r : Reg) (s : State) : Host.Outcome State Fault Refusal :=
  complete (.push r) (do
    let v ← readReg r
    push16 v) s

/-- `POP r` (44_stack_call.md R172): the register is written after `SP` moves. -/
def execPop (r : Reg) (s : State) : Host.Outcome State Fault Refusal :=
  complete (.pop r) (do
    let v ← pop16
    writeReg r v) s

/-- `CALL opnd` (44_stack_call.md R173): the target is computed before the pushes. -/
def execCall (o : Operand) (s : State) : Host.Outcome State Fault Refusal :=
  complete (.call o) (do
    let t ← target o
    createFrame
    writeReg .ip t) s

/-- `RET` (44_stack_call.md R174). -/
def execRet (s : State) : Host.Outcome State Fault Refusal :=
  complete .ret (do
    checkFrame
    destroyFrame) s

end Sys2Proof.Machine
end

