-- ==== Sys2Proof/Machine/Dispatch.lean ====
section
/-! DEFINITION. One arm per instruction: the meaning it calls. Every arm has its meaning; none is refused. -/

namespace Sys2Proof.Machine

def exec (i : Instr) (s : State) : Host.Outcome State Fault Refusal :=
  match i with
  | .lw rd rb off => Sys2Proof.Machine.execLw rd rb off s
  | .lb rd rb off => Sys2Proof.Machine.execLb rd rb off s
  | .li rd v => Sys2Proof.Machine.execLi rd v s
  | .stw rb off r => Sys2Proof.Machine.execStw rb off r s
  | .stb rb off r => Sys2Proof.Machine.execStb rb off r s
  | .mov rd rs => Sys2Proof.Machine.execMov rd rs s
  | .swp rd rs => Sys2Proof.Machine.execSwp rd rs s
  | .add rd o => Sys2Proof.Machine.execAdd rd o s
  | .sub rd o => Sys2Proof.Machine.execSub rd o s
  | .inc r => Sys2Proof.Machine.execInc r s
  | .dec r => Sys2Proof.Machine.execDec r s
  | .mul rd o => Sys2Proof.Machine.execMul rd o s
  | .div rd o => Sys2Proof.Machine.execDiv rd o s
  | .mod rd o => Sys2Proof.Machine.execMod rd o s
  | .and rd o => Sys2Proof.Machine.execAnd rd o s
  | .or rd o => Sys2Proof.Machine.execOr rd o s
  | .xor rd o => Sys2Proof.Machine.execXor rd o s
  | .not r => Sys2Proof.Machine.execNot r s
  | .shiftl rd o => Sys2Proof.Machine.execShiftl rd o s
  | .shiftr rd o => Sys2Proof.Machine.execShiftr rd o s
  | .cmp rd o => Sys2Proof.Machine.execCmp rd o s
  | .cmpu rd o => Sys2Proof.Machine.execCmpu rd o s
  | .be o => Sys2Proof.Machine.execBe o s
  | .bne o => Sys2Proof.Machine.execBne o s
  | .bz o => Sys2Proof.Machine.execBz o s
  | .bnz o => Sys2Proof.Machine.execBnz o s
  | .bs o => Sys2Proof.Machine.execBs o s
  | .bns o => Sys2Proof.Machine.execBns o s
  | .bg o => Sys2Proof.Machine.execBg o s
  | .bge o => Sys2Proof.Machine.execBge o s
  | .bl o => Sys2Proof.Machine.execBl o s
  | .ble o => Sys2Proof.Machine.execBle o s
  | .j o => Sys2Proof.Machine.execJ o s
  | .push r => Sys2Proof.Machine.execPush r s
  | .pop r => Sys2Proof.Machine.execPop r s
  | .call o => Sys2Proof.Machine.execCall o s
  | .ret => Sys2Proof.Machine.execRet s
  | .cli => Sys2Proof.Machine.execCli s
  | .sti => Sys2Proof.Machine.execSti s
  | .hlt o => Sys2Proof.Machine.execHlt o s
  | .rst => Sys2Proof.Machine.execRst s
  | .retint => Sys2Proof.Machine.execRetint s
  | .inw rd o => Sys2Proof.Machine.execIn rd o s
  | .outw o r => Sys2Proof.Machine.execOut o r s
  | .inb rd o => Sys2Proof.Machine.execInb rd o s
  | .outb o r => Sys2Proof.Machine.execOutb o r s
  | .cas ra re rn => Sys2Proof.Machine.execCas ra re rn s
  | .int o => Sys2Proof.Machine.execInt o s

end Sys2Proof.Machine
end

