-- ==== Sys2Proof/Machine/Fetch.lean ====
section
/-! DEFINITION. Instruction fetch through the instruction cache (20_memory.md R71) and the step's use of it. -/

namespace Sys2Proof.Machine

/-- An effect on the instruction cache of the core in focus. -/
def actIns (f : Core → List IEntry) : M Unit := actCore fun c => { c with icache := f c }

/-- The execute check of a fetch (20_memory.md R71), made on hits and misses alike when `FETCH_EXEC_CHECK` is on. -/
def executeCheck (pa : Nat) : M Unit := do
  let pg ← getPage (pageOf pa)
  require pg.execute .accessViolation (.address pa)

/-- A miss of `IFetch(pa)` (20_memory.md R71): a privileged read, `DECODE`, and a new MRU entry. A word that decodes to nothing is
not cached. -/
def fetchMiss (pa : Nat) : M Instr := do
  let w ← memRead32 pa true
  let decoded ← ask fun s => decodeWith s.cfg.decoder w
  match decoded with
  | none => raise .invalidOpcode (.word w)
  | some ins => do
    actIns fun c => insertIns c.sizes.icache pa ins c.icache
    return ins

/-- `IFetch(pa)` (20_memory.md R71). On a hit memory is not read. -/
def iFetch (pa : Nat) : M Instr := do
  require (pa % 4 == 0) .misalignedAccess (.address pa)
  let size ← ask fun s => s.cfg.memSize
  require (decide (pa + 4 ≤ size)) .accessViolation (.address pa)
  let check ← ask fun s => s.cfg.fetchExecCheck
  whenever check (executeCheck pa)
  let hit ← ask fun s => findIns pa s.core.icache
  match hit with
  | some ins => do
    actIns fun c => touchIns pa ins c.icache
    return ins
  | none => fetchMiss pa

/-- The fetch of a step: at `phys(CS, IP)` (60_exceptions.md R202). -/
def fetch : M Instr := do
  let pa ← ask fun s => phys s.core.regs.cs s.core.regs.ip
  iFetch pa

/-- A raise of the fetch itself: `IP` has not advanced and nothing was decoded (60_exceptions.md R202, R208). -/
def dieAtFetch (e : Exc) (s t : State) : State :=
  die e { origin := .instruction, cs := s.core.regs.cs, fetchIp := s.core.regs.ip, instr := none } t

/-- The state with its "a core has made a transition" marker set (log 18). -/
def State.begun (s : State) : State := { s with started := true }

end Sys2Proof.Machine
end

