-- ==== Sys2Proof/Machine/HostActions.lean ====
section
/-! DEFINITION. What the host may do between two transitions (60_exceptions.md R225): the loader, boot, run control, IRQ delivery,
page flags, memory-mapped regions and state capture; and the two scheduling choices of R201 that are not a core's own step. -/

namespace Sys2Proof.Machine

/-- The outcome of a choice. -/
abbrev Result := Host.Outcome State Fault Refusal

/-- A host action that failed and changed nothing but what the host has observed (log 12). -/
def hostFailed (e : HostError) (s : State) : Result := .next { s with history := s.history ++ [.failed e] }

/-- A host action made of memory-controller operations: if one raises, the action fails and changes nothing (log 12). -/
def hostRun (x : M Unit) (s : State) : Result :=
  match x s with
  | .ok _ t => .next t
  | .error e _ => hostFailed (.raised e.kind e.info) s

/-- A host action in its enabling condition, refused outside it (log 12). -/
def whenEnabled (c : Bool) (x : Result) : Result := if c then x else .refused .notEnabled

/-- A load-time action: exhaustion has no meaning, "no partial machine" (93_implementation_defined.md I36). -/
def loadRun (x : M Unit) (s : State) : Result :=
  match x s with
  | .ok _ t => .next t
  | .error _ _ => .refused .loadFailed

/-- "before any core steps" (60_exceptions.md R225). -/
def beforeSteps (s : State) : Bool := !s.started

/-- The indices of the pages that overlap `[addr, addr + size)` (20_memory.md R88). -/
def pagesOver (addr size : Nat) : List Nat :=
  if size == 0 then [] else List.range' (pageOf addr) (pageOf (addr + size - 1) + 1 - pageOf addr)

/-! ## Page flags (20_memory.md R88) -/

/-- A page with one flag set to a value. -/
def Page.withFlag (pg : Page) (flag : PageFlag) (v : Bool) : Page :=
  match flag with
  | .read => { pg with read := v }
  | .write => { pg with write := v }
  | .execute => { pg with execute := v }
  | .dirty => { pg with dirty := v }

/-- `GetPage(p).flag <- value` (20_memory.md R88). -/
def setPageFlag (flag : PageFlag) (v : Bool) (p : Nat) : M Unit := do
  let pg ← getPage p
  actMC fun mc => { mc with pages := put p (pg.withFlag flag v) mc.pages }

/-- `update_area_flags(addr, size, flag, value)` on a range that lies in memory (20_memory.md R88). -/
def updateAreaFlags (addr size : Nat) (flag : PageFlag) (v : Bool) : M Unit :=
  forEach (setPageFlag flag v) (pagesOver addr size)

/-! ## The loader (20_memory.md R55, R67, R68) -/

/-- The number of bytes of a section. -/
def SectionBody.size : SectionBody → Nat
  | .text words => 4 * words.length
  | .data bytes => bytes.length
  | .bss n => n

/-- A section that fits its segment, TEXT in word-aligned cells (20_memory.md R68; log 13). -/
def Section.wf (x : Section) : Bool :=
  decide (x.base + x.body.size ≤ 65536)
    && match x.body with
      | .text _ => x.base % 4 == 0
      | .data _ => true
      | .bss _ => true

/-- TEXT words written from an address upward, privileged. -/
def writeWords (a : Nat) : List InsnWord → M Unit
  | [] => pure ()
  | w :: rest => do
    memWrite32 a w true true
    writeWords (a + 4) rest

/-- DATA bytes written from an address upward, privileged. -/
def writeBytes (a : Nat) : List Byte → M Unit
  | [] => pure ()
  | b :: rest => do
    memWrite8 a b true true
    writeBytes (a + 1) rest

/-- The contents of a section copied to its place; the pages of a `bss` section are created zero-filled (20_memory.md R68).
DESIGN CHOICE, unsafe (log 13): a page of a `bss` section that already exists, made by an earlier privileged write or by another
section, keeps its bytes; the spec speaks only of pages that the loader creates. -/
def loadContents (seg : Nat) (x : Section) : M Unit :=
  match x.body with
  | .text words => writeWords (seg * 65536 + x.base) words
  | .data bytes => writeBytes (seg * 65536 + x.base) bytes
  | .bss n => forEach (fun p => do let _ ← getPage p) (pagesOver (seg * 65536 + x.base) n)

/-- "applies each section's declared read/write/execute flags to its page range" (20_memory.md R68, R88). -/
def loadFlags (seg : Nat) (x : Section) : M Unit := do
  updateAreaFlags (seg * 65536 + x.base) x.body.size .read x.access.read
  updateAreaFlags (seg * 65536 + x.base) x.body.size .write x.access.write
  updateAreaFlags (seg * 65536 + x.base) x.body.size .execute x.access.execute

/-- The optional stack page and the stack pointer just past it (20_memory.md R68). -/
def loadStack (seg : Nat) (wanted : Bool) : M (Option Word) :=
  if wanted then do
    let p ← allocPage (some (BitVec.ofNat 8 seg)) stackPage
    return some (pageTop p)
  else return none

/-- `load_program(image)` (20_memory.md R68). -/
def loadProgram (image : Image) : M Unit := do
  let seg ← allocSegment
  forEach (loadContents seg) image.sections
  forEach (loadFlags seg) image.sections
  let sp ← loadStack seg image.stack
  note (.loaded
    { codeSegment := BitVec.ofNat 8 seg
      dataSegment := BitVec.ofNat 8 seg
      sp := sp
      entry := image.entry
      symbols := image.symbols })

/-- `alloc_segment` as a host action (20_memory.md R55). -/
def claimSegment : M Unit := do
  let n ← allocSegment
  note (.segment n)

/-- `alloc_page` as a host action, with the protection flags that the loader chooses (20_memory.md R56; log 28). -/
def claimPage (seg : Option Byte) (access : AccessFlags) : M Unit := do
  let p ← allocPage seg
    { read := access.read, write := access.write, execute := access.execute, dirty := false, kind := .anonymous }
  note (.page p)

/-- A segment freed: a claimed one, and never segment 0, which is "reserved at boot for system tables" (20_memory.md R55; log 27). -/
def freeSegment (n : Nat) (s : State) : Result :=
  whenEnabled (decide (n ≠ 0) && s.mc.segments.contains n) (.next { s with mc := s.mc.freeSegment n })

/-! ## Memory-mapped regions (20_memory.md R58) -/

/-- The pages of a region. -/
def Region.pages (r : Region) : List Nat := pagesOver r.address r.size

/-- A page of a region: `read`, `write` and `execute` from its `access` (20_memory.md R58). DESIGN CHOICE, unsafe (log 14): `dirty` is
clear, on which the spec is silent. -/
def Region.page (r : Region) : Page where
  read := r.access.read
  write := r.access.write
  execute := r.access.execute
  dirty := false
  kind := .mmapped

/-- The controller with a region mapped: its pages, their bytes, its table entry. -/
def MC.map (mc : MC) (r : Region) (contents : List Byte) : MC :=
  let paged := r.pages.foldl (fun m p => m.createPage p r.page) mc
  { paged with
    cells := paged.cells.writeAll r.address (contents.take r.size)
    regions := paged.regions ++ [r] }

/-- `mmap_region`: `ResourceConflict` if any target page exists (20_memory.md R58; log 14). -/
def mmapRegion (r : Region) (contents : List Byte) (s : State) : Result :=
  if r.pages.any fun p => (s.mc.page p).isSome then hostFailed .resourceConflict s
  else .next { s with mc := s.mc.map r contents }

/-- Unmapping "removes the pages" (20_memory.md R58). -/
def MC.unmap (mc : MC) (r : Region) : MC :=
  let freed := r.pages.foldl MC.freePage mc
  { freed with regions := freed.regions.erase r }

/-- The region mapped at an address. -/
def MC.regionAt (mc : MC) (address : Nat) : Option Region := mc.regions.find? fun r => r.address == address

/-- Unmapping of the region at an address; there must be one. -/
def unmapRegion (address : Nat) (s : State) : Result :=
  match s.mc.regionAt address with
  | some r => .next { s with mc := s.mc.unmap r }
  | none => .refused .notEnabled

/-- An address lies in a page of a `shared` region that is still mapped (20_memory.md R58). -/
def MC.isShared (mc : MC) (a : Nat) : Bool :=
  (mc.page (pageOf a)).any (fun pg => pg.kind == .mmapped)
    && mc.regions.any fun r => r.shared && r.pages.contains (pageOf a)

/-! ## Cores (70_reset_and_hazards.md R242, 60_exceptions.md R220, R226) -/

/-- `boot` (70_reset_and_hazards.md R242): five registers and the run state; every other field keeps its value. -/
def Core.boot (c : Core) (b : BootArgs) : Core :=
  { c with
    regs := { c.regs with cs := b.cs.setWidth 8, ds := b.ds.setWidth 8, ip := b.ip, sp := b.sp, fp := b.fp }
    booted := true
    alive := true
    running := true }

/-- `save_state` and `load_state` are enabled: the core is suspended, or not yet booted (60_exceptions.md R225, R226). -/
def captureEnabled (c : Core) : Bool := (c.alive && !c.running) || !c.booted

/-- The record of `save_state` (60_exceptions.md R226). -/
def Core.capture (c : Core) : Capture where
  regs := c.regs
  exitCode := c.exitCode
  idle := c.idle

/-- The core after `load_state` of a good record (60_exceptions.md R226). -/
def Core.restore (c : Core) (r : Capture) : Core := { c with regs := r.regs, exitCode := r.exitCode, idle := r.idle }

/-- `halt` by the host (60_exceptions.md R221): a raise in the flush kills the core. -/
def hostHalt (s : State) : State :=
  match haltCore s with
  | .ok _ t => t
  | .error e t =>
    die e { origin := .hostHalt, cs := s.core.regs.cs, fetchIp := s.core.regs.ip, instr := none } t

/-- The state with an effect on the core in focus. -/
def State.onCore (s : State) (f : Core → Core) : State := { s with core := f s.core }

/-! ## The actions and choices -/

/-- A host action (60_exceptions.md R225). DESIGN CHOICE, safe: `load_program` is not bounded to one load before any core steps (log 13),
and the memory controller's capture is enabled at every step boundary (log 29). -/
def hostAction (a : HostAction) (s : State) : Result :=
  match a with
  | .allocSegment => whenEnabled (beforeSteps s) (loadRun claimSegment s)
  | .freeSegment n => whenEnabled (beforeSteps s) (freeSegment n s)
  | .allocPage seg access => whenEnabled (beforeSteps s) (loadRun (claimPage seg access) s)
  | .loadProgram image =>
    whenEnabled (beforeSteps s)
      (if image.sections.all Section.wf then loadRun (loadProgram image) s else .refused .loadFailed)
  | .setVector table index v =>
    whenEnabled (beforeSteps s) (hostRun (saveVector (tableOf s.cfg table).1 index v) s)
  | .mmapRegion r contents =>
    whenEnabled (beforeSteps s && decide (r.address + r.size ≤ s.cfg.memSize)) (mmapRegion r contents s)
  | .unmapRegion address => whenEnabled (beforeSteps s) (unmapRegion address s)
  | .mcWrite w => whenEnabled (beforeSteps s) (hostRun (memWritePriv w) s)
  | .updateAreaFlags address size flag value =>
    whenEnabled (decide (address + size ≤ s.cfg.memSize)) (hostRun (updateAreaFlags address size flag value) s)
  | .boot b => whenEnabled (!s.core.booted && !s.core.alive) (.next (s.onCore fun c => c.boot b))
  | .enqueueIrq i => .next (s.onCore fun c => { c with pending := c.pending ++ [i] })
  | .setIdle => whenEnabled s.core.alive (.next (s.onCore fun c => { c with idle := true }))
  | .suspend => whenEnabled s.core.alive (.next (s.onCore fun c => { c with running := false }))
  | .wakeUp => whenEnabled s.core.alive (.next (s.onCore fun c => { c with running := true }))
  | .halt => .next (hostHalt s)
  | .sharedByte address v =>
    whenEnabled (s.mc.isShared address)
      (.next { s with mc := { s.mc with cells := s.mc.cells.write address v } })
  | .saveState =>
    whenEnabled (captureEnabled s.core) (.next { s with history := s.history ++ [.saved s.core.capture] })
  | .loadState record =>
    whenEnabled (captureEnabled s.core)
      (match record with
        | some r => .next (s.onCore fun c => c.restore r)
        | none => hostFailed .malformedState s)
  | .saveMemory => .next { s with history := s.history ++ [.savedMemory s.mc] }

/-- The focus moves to the k-th of the other cores (60_exceptions.md R201; log 15). -/
def selectCore (k : Nat) (s : State) : Result :=
  match s.others[k]? with
  | some c => .next { s with core := c, others := s.others.set k s.core }
  | none => .refused .notEnabled

/-- A spontaneous write-back as a choice (20_memory.md R81, 60_exceptions.md R201). -/
def writeBackChoice (pa : Nat) (s : State) : Result :=
  match spontaneousWriteBack pa s with
  | some t => .next t
  | none => .refused .notEnabled

/-- Why the core in focus has no transition of its own (60_exceptions.md R200, R228; 70_reset_and_hazards.md R252). -/
def stuck (s : State) : Result :=
  if !s.core.booted then .refused .notBooted
  else if !s.core.alive then .fault .halted
  else if !s.core.running then .fault .suspended
  else .fault .idle

end Sys2Proof.Machine
end

