-- ==== Sys2Proof/Machine/Transition.lean ====
section
/-! DEFINITION. The transition that the core in focus makes on its own (60_exceptions.md R201, R202), and what it needs in order to
fetch. -/

namespace Sys2Proof.Machine

/-- The transition of the core in focus: an enabled `AcceptIRQ` is taken before the next `Step` (60_exceptions.md R201); a `Step`
is the fetch and then the instruction (R202), and a raise of the fetch kills the core (R206). -/
def coreTransition (s : State) : Host.Outcome State Fault Refusal :=
  if acceptEnabled s then .next (acceptIrq s.begun)
  else if stepEnabled s then
    match fetch s.begun with
    | .ok i t => exec i t
    | .error e t => .next (dieAtFetch e s t)
  else stuck s

/-- The core in focus made ready to fetch at `CS:IP`: booted, running, not idle, no IRQ to take first, the segment inside
memory, `IP` 4-aligned, and the address not in the instruction cache (log 9). -/
def Core.readyToFetch (c : Core) (memSize : Nat) : Core :=
  let cs := if phys c.regs.cs 0 + 65536 ≤ memSize then c.regs.cs else 0
  let ip := c.regs.ip &&& 0xFFFC
  { c with
    regs := { c.regs with cs := cs, ip := ip }
    booted := true
    alive := true
    running := true
    idle := false
    pending := []
    icache := removeIns (phys cs ip) c.icache }

end Sys2Proof.Machine
end

