-- ==== Sys2Proof/Machine/Step.lean ====
section
/-! DEFINITION. One transition of the machine (60_exceptions.md R201): the next choice of the script, or, when the script says
nothing, the transition of the core in focus; and the placing of one instruction where a step fetches it. -/

namespace Sys2Proof.Machine

/-- One step of the machine. -/
def step (s : State) : Host.Outcome State Fault Refusal :=
  match s.agenda with
  | [] => coreTransition s
  | .run :: rest => coreTransition { s with agenda := rest }
  | .select k :: rest => selectCore k { s with agenda := rest }
  | .writeBack pa :: rest => writeBackChoice pa { s with agenda := rest }
  | .host a :: rest => hostAction a { s with agenda := rest }

/-- `s` with an instruction stored where the next step fetches: the load and the boot of a program that the host otherwise
does (70_reset_and_hazards.md R243). The page holding it is there and executable, and no choice comes first (log 9). -/
def State.withFetchWord (s : State) (nbits w : Nat) : State :=
  let core := s.core.readyToFetch s.cfg.memSize
  let pa := phys core.regs.cs core.regs.ip
  let mc := s.mc.touchPage s.cfg (pageOf pa)
  let pg := (mc.pageView s.cfg (pageOf pa)).withFlag .execute true
  { s with
    core := core
    agenda := []
    mc := { mc with
      cells := mc.cells.writeAll pa (bytesOfWord (BitVec.ofNat 32 (w % 2 ^ nbits)))
      pages := put (pageOf pa) pg mc.pages } }

end Sys2Proof.Machine
end

