-- ==== Sys2Proof/Safety.lean ====
section
/-! DEFINITION. The terms the statements are written in: when an instruction may run, when its memory accesses succeed and how
they raise, what a word reads as, and the invariant that every transition keeps. Nothing here is used by the machine. -/

namespace Sys2Proof.Machine

/-! ## When an instruction may run -/

/-- The two checks of the step pass (60_exceptions.md R202): privileged mode, or neither a privileged instruction
(45_privileged_io.md R180) nor a protected register field (10_state.md R23). -/
def Allowed (i : Instr) (s : State) : Bool :=
  s.core.regs.flags.p || (!isPrivileged i && (regFields i).all fun r => !isProtectedReg r)

/-- The state with other registers in the core in focus. -/
def State.withRegs (s : State) (g : Regs) : State := { s with core := { s.core with regs := g } }

/-- The state with another memory controller. -/
def State.withMC (s : State) (mc : MC) : State := { s with mc := mc }

/-- The state with another instruction cache in the core in focus. -/
def State.withIns (s : State) (l : List IEntry) : State := { s with core := { s.core with icache := l } }

/-- The state after `GetPage(p)`: the page exists (20_memory.md R54). -/
def State.touched (s : State) (p : Nat) : State := s.withMC (s.mc.touchPage s.cfg p)

/-- The state in which an instruction's own rule runs: `IP` is past it (10_state.md R27). -/
def State.advanced (s : State) : State := s.withRegs s.core.regs.advance

/-- The state after an instruction whose own rule only writes registers, by `f`: `IP` advances before it and `CNT` counts after it
(60_exceptions.md R202). -/
def State.afterRegs (s : State) (f : Regs → Regs) : State := s.withRegs (f s.core.regs.advance).count

/-- Where a raise of the instruction fetched at `CS:IP` is attributed (60_exceptions.md R208). -/
def siteOf (i : Instr) (s : State) : FaultSite where
  origin := .instruction
  cs := s.core.regs.cs
  fetchIp := s.core.regs.ip
  instr := some i

/-- An exception that names `k` and `info`. -/
def exc (k : ExcKind) (info : ExcInfo) : Exc := { kind := k, info := info }

/-- In unprivileged mode an instruction that names a protected register dies, the first such field being named, before any effect
but the advance of `IP` (10_state.md R23; "R23" under the exceptions of a rule). -/
def ProtectedDies (i : Instr) (s : State) : Prop :=
  s.core.regs.flags.p = false → ∀ r, (regFields i).find? (fun q => decide (32 ≤ q.num)) = some r →
    exec i s = .next (die (exc .accessViolation (.register r.num)) (siteOf i s) s.advanced)

/-! ## Memory accesses -/

/-- A write-back of this entry succeeds (20_memory.md R77): aligned, in bounds and, under `at_writeback`, permitted. -/
abbrev WriteBackOk (s : State) (e : DEntry) : Prop :=
  e.addr % 2 = 0 ∧ e.addr + 2 ≤ s.cfg.memSize
    ∧ (s.cfg.writeCheck = .atStore ∨ (s.mc.pageView s.cfg (pageOf e.addr)).write = true)

/-- Every dirty entry of the core's data cache can be written back. -/
def AllWriteBackOk (s : State) : Prop := ∀ e ∈ s.core.dcache, e.dirty = true → WriteBackOk s e

/-- The entry that an access to `pa` writes back: the LRU entry of a full cache, if it is dirty and `pa` misses
(20_memory.md R77). -/
def evictedBy (c : Core) (pa : Nat) : Option DEntry :=
  if (findData pa c.dcache).isNone && c.dcache.length == c.sizes.dcache then
    c.dcache.head?.filter fun e => e.dirty
  else none

/-- The eviction that an access to `pa` may need succeeds. -/
def RoomOk (s : State) (pa : Nat) : Prop := ∀ e, evictedBy s.core pa = some e → WriteBackOk s e

/-- A byte of memory after an entry has been written back (20_memory.md R59, R77). -/
def byteAfter (mc : MC) (evicted : Option DEntry) (b : Nat) : Byte :=
  match evicted with
  | none => mc.byteAt b
  | some e =>
    if b = e.addr then e.value.extractLsb' 0 8
    else if b = e.addr + 1 then e.value.extractLsb' 8 8
    else mc.byteAt b

/-- `DRead16(pa)` succeeds (20_memory.md R75). -/
def LoadOk (s : State) (pa : Nat) : Prop :=
  pa % 2 = 0
    ∧ ((findData pa s.core.dcache).isSome = true
      ∨ (pa + 2 ≤ s.cfg.memSize ∧ (s.mc.pageView s.cfg (pageOf pa)).read = true))
    ∧ RoomOk s pa

/-- `DWrite16(pa, v)` succeeds (20_memory.md R76). -/
def StoreOk (s : State) (pa : Nat) : Prop :=
  pa % 2 = 0
    ∧ (s.cfg.writeCheck = .atStore →
        pa + 2 ≤ s.cfg.memSize ∧ (s.mc.pageView s.cfg (pageOf pa)).write = true)
    ∧ RoomOk s pa

/-! ## Memory accesses that raise: the exception and the state it leaves -/

/-- `WriteBack` of this entry raises (20_memory.md R77), by the first of its checks that fails: alignment, bounds, and under
`at_writeback` the `write` flag. -/
def WriteBackFails (s : State) (d : DEntry) (e : Exc) (t : State) : Prop :=
  (d.addr % 2 ≠ 0 ∧ e = exc .misalignedAccess (.address d.addr) ∧ t = s)
    ∨ (d.addr % 2 = 0 ∧ ¬ d.addr + 2 ≤ s.cfg.memSize ∧ e = exc .accessViolation (.address d.addr) ∧ t = s)
    ∨ (d.addr % 2 = 0 ∧ d.addr + 2 ≤ s.cfg.memSize ∧ s.cfg.writeCheck = .atWriteback
      ∧ (s.mc.pageView s.cfg (pageOf d.addr)).write = false
      ∧ e = exc .accessViolation (.address d.addr) ∧ t = s.touched (pageOf d.addr))

/-- The exception that a refused write-back of this entry raises. -/
def refusal (d : DEntry) : Exc :=
  exc (if d.addr % 2 = 0 then .accessViolation else .misalignedAccess) (.address d.addr)

/-- `DRead16(pa)` raises (20_memory.md R75): alignment; on a cold miss bounds, then the `read` flag, then the write-back of the entry
that makes room. -/
def LoadFails (s : State) (pa : Nat) (e : Exc) (t : State) : Prop :=
  (pa % 2 ≠ 0 ∧ e = exc .misalignedAccess (.address pa) ∧ t = s)
    ∨ (pa % 2 = 0 ∧ findData pa s.core.dcache = none ∧ ¬ pa + 2 ≤ s.cfg.memSize
      ∧ e = exc .accessViolation (.address pa) ∧ t = s)
    ∨ (pa % 2 = 0 ∧ findData pa s.core.dcache = none ∧ pa + 2 ≤ s.cfg.memSize
      ∧ (s.mc.pageView s.cfg (pageOf pa)).read = false
      ∧ e = exc .accessViolation (.address pa) ∧ t = s.touched (pageOf pa))
    ∨ (pa % 2 = 0 ∧ pa + 2 ≤ s.cfg.memSize ∧ (s.mc.pageView s.cfg (pageOf pa)).read = true
      ∧ ∃ d, evictedBy s.core pa = some d ∧ WriteBackFails (s.touched (pageOf pa)) d e t)

/-- The state after the check that `DWrite16` makes under `at_store` (20_memory.md R76). -/
def State.storeChecked (s : State) (pa : Nat) : State :=
  if s.cfg.writeCheck = .atStore then s.touched (pageOf pa) else s

/-- `DWrite16(pa, v)` raises (20_memory.md R76): alignment; under `at_store` bounds, then the `write` flag; then the write-back of the
entry that makes room. -/
def StoreFails (s : State) (pa : Nat) (e : Exc) (t : State) : Prop :=
  (pa % 2 ≠ 0 ∧ e = exc .misalignedAccess (.address pa) ∧ t = s)
    ∨ (pa % 2 = 0 ∧ s.cfg.writeCheck = .atStore ∧ ¬ pa + 2 ≤ s.cfg.memSize
      ∧ e = exc .accessViolation (.address pa) ∧ t = s)
    ∨ (pa % 2 = 0 ∧ s.cfg.writeCheck = .atStore ∧ pa + 2 ≤ s.cfg.memSize
      ∧ (s.mc.pageView s.cfg (pageOf pa)).write = false
      ∧ e = exc .accessViolation (.address pa) ∧ t = s.touched (pageOf pa))
    ∨ (pa % 2 = 0
      ∧ (s.cfg.writeCheck = .atStore → pa + 2 ≤ s.cfg.memSize ∧ (s.mc.pageView s.cfg (pageOf pa)).write = true)
      ∧ ∃ d, evictedBy s.core pa = some d ∧ WriteBackFails (s.storeChecked pa) d e t)

/-- One of the pushes of these words raises: those before it are done, and `SP` has moved for it too (44_stack_call.md R170). -/
def PushFails (words : List Word) (s : State) (e : Exc) (t : State) : Prop :=
  ∃ k < words.length, ∃ u, forEach push16 (words.take k) s = .ok () u
    ∧ StoreFails (u.withRegs { u.core.regs with sp := u.core.regs.sp - 2 })
        (phys u.core.regs.ds (u.core.regs.sp - 2)) e t

/-- Where the k-th word that `RET` or `RETINT` pops goes: `FP`; `IP`, with the frame gone; `R31` down to `R0`; FLAGS; `CS`. The last
two, for `SP` and `DS`, are written only once both are popped (44_stack_call.md R174, 60_exceptions.md R214). -/
def poppedInto (k : Nat) (v : Word) (c : Core) : Core :=
  if k = 0 then { c with regs := c.regs.write .fp v }
  else if k = 1 then { c with regs := c.regs.write .ip v, frames := c.frames.tail }
  else if k < 34 then { c with regs := c.regs.write (.gpr (Fin.ofNat 32 (33 - k))) v }
  else if k = 34 then { c with regs := c.regs.write .flags v }
  else if k = 35 then { c with regs := c.regs.write .cs v }
  else c

/-- The state after the first k pops of `RET` or `RETINT`, if none of them raises. -/
def afterPops : Nat → State → Option State
  | 0, s => some s
  | k + 1, s =>
    match afterPops k s with
    | none => none
    | some u =>
      match pop16 u with
      | .ok v t => some { t with core := poppedInto k v t.core }
      | .error _ _ => none

/-- One of the first n pops of `RET` or `RETINT` raises: those before it are done. -/
def PopFails (n : Nat) (s : State) (e : Exc) (t : State) : Prop :=
  ∃ k < n, ∃ u, afterPops k s = some u ∧ LoadFails u (phys u.core.regs.ds u.core.regs.sp) e t

/-! ## Words and stacks -/

/-- The word at `pa` as the core in focus loads it: the cached value, else the controller's (20_memory.md R75). -/
def wordAt (s : State) (pa : Nat) : Word :=
  match findData pa s.core.dcache with
  | some e => e.value
  | none => s.mc.u16At pa

/-- A stack word that can be pushed (70_reset_and_hazards.md R243: an even `SP`, a page with `write`). -/
def Writable (s : State) (pa : Nat) : Prop :=
  pa % 2 = 0 ∧ pa + 2 ≤ s.cfg.memSize ∧ (s.mc.pageView s.cfg (pageOf pa)).write = true

/-- A stack word that can be popped (70_reset_and_hazards.md R243: an even `SP`, a page with `read`). -/
def Readable (s : State) (pa : Nat) : Prop :=
  pa % 2 = 0 ∧ pa + 2 ≤ s.cfg.memSize ∧ (s.mc.pageView s.cfg (pageOf pa)).read = true

/-- A cached copy of `pa` that is clean equals memory: dropping it changes nothing the core loads (70_reset_and_hazards.md R244). -/
def Coherent (s : State) (pa : Nat) : Prop :=
  ∀ e, findData pa s.core.dcache = some e → e.dirty = false → e.value = s.mc.u16At pa

/-- No address is cached twice in the data cache. -/
def DataKeysDistinct (s : State) : Prop := (dataKeys s).Nodup

/-- The address of the k-th word above `SP` on the stack of the core in focus (44_stack_call.md R170). -/
def stackSlot (g : Regs) (k : Nat) : Nat := phys g.ds (g.sp + BitVec.ofNat 16 (2 * k))

/-- The address of the k-th word that a sequence of pushes stores, the first being k = 0 (44_stack_call.md R170). -/
def pushSlot (g : Regs) (k : Nat) : Nat := phys g.ds (g.sp - BitVec.ofNat 16 (2 * (k + 1)))

/-- The words that the enter-interrupt sequence pushes, in order (60_exceptions.md R212). -/
def entryWords (g : Regs) : List Word :=
  [g.ds.setWidth 16, g.sp, g.cs.setWidth 16, g.flags.pack] ++ g.gpr.toList ++ [g.ip, g.fp]

/-- An interrupt entry for this vector and page can be made: the vector read is aligned and in bounds, `p` is the first free page
of the vector's data segment, and every dirty cache entry can be evicted (60_exceptions.md R212). `keys` holds in every state
that a run reaches (`Inv`). -/
structure EntryOk (s : State) (base count index : Nat) (v : IntVector) (p : Nat) : Prop where
  inTable : index < count
  aligned : base % 4 = 0
  inMemory : base + 4 * index + 4 ≤ s.cfg.memSize
  pagedMemory : s.cfg.memSize % 256 = 0
  vector : IntVector.ofWord (s.mc.u32At (base + 4 * index)) = v
  page : (s.mc.touchPage s.cfg (pageOf (base + 4 * index))).firstFree (s.cfg.memSize / 256) (v.ds.toNat * 256) 256 = some p
  evictable : AllWriteBackOk s
  keys : DataKeysDistinct s

/-- The entry's vector is read and `p` is the page it allocates: what comes before the first push (60_exceptions.md R212). -/
structure EntryOpens (s : State) (base count index : Nat) (v : IntVector) (p : Nat) : Prop where
  inTable : index < count
  aligned : base % 4 = 0
  inMemory : base + 4 * index + 4 ≤ s.cfg.memSize
  vector : IntVector.ofWord (s.mc.u32At (base + 4 * index)) = v
  page : (s.mc.touchPage s.cfg (pageOf (base + 4 * index))).firstFree (s.cfg.memSize / 256) (v.ds.toNat * 256) 256 = some p

/-- The state in which the pushes of an entry begin: the page is there and on the interrupt-stack list, `DS` and `SP` are on it
(60_exceptions.md R212). -/
def entryOpened (s : State) (vectorAddr : Nat) (v : IntVector) (p : Nat) : State :=
  let u := (s.touched (pageOf vectorAddr)).withMC ((s.touched (pageOf vectorAddr)).mc.createPage p stackPage)
  { u with core := { s.core with
      regs := { s.core.regs with ds := v.ds, sp := pageTop p }
      istack := p :: s.core.istack } }

/-- An interrupt entry raises (60_exceptions.md R212): the vector index is past its table, the vector's address is misaligned or out
of bounds, the vector's data segment has no free page (log 11), or one of the pushes raises. -/
def EntryFails (s : State) (base count index : Nat) (e : Exc) (t : State) : Prop :=
  let a := base + 4 * index
  (¬ index < count ∧ e = exc (.cpuException .badVector) (.vector index) ∧ t = s)
    ∨ (index < count ∧ a % 4 ≠ 0 ∧ e = exc .misalignedAccess (.address a) ∧ t = s)
    ∨ (index < count ∧ a % 4 = 0 ∧ ¬ a + 4 ≤ s.cfg.memSize ∧ e = exc .accessViolation (.address a) ∧ t = s)
    ∨ (index < count ∧ a % 4 = 0 ∧ a + 4 ≤ s.cfg.memSize
      ∧ (s.mc.touchPage s.cfg (pageOf a)).firstFree (s.cfg.memSize / 256)
          ((IntVector.ofWord (s.mc.u32At a)).ds.toNat * 256) 256 = none
      ∧ e = exc .resourceExhausted .nothing ∧ t = s.touched (pageOf a))
    ∨ ∃ v p, EntryOpens s base count index v p
      ∧ PushFails (entryWords s.core.regs) (entryOpened s a v p) e t

/-- The registers after an interrupt entry (60_exceptions.md R212). -/
def entryRegs (g : Regs) (v : IntVector) (p : Nat) : Regs :=
  { g with
    fp := pageTop p - 76
    sp := pageTop p - 76
    ds := v.ds
    cs := v.cs
    ip := v.ip
    flags := { g.flags with p := true, h := false } }

/-- The exit-interrupt sequence passes its checks and can read its 38 words, none of which is a stale cached copy
(60_exceptions.md R214, 70_reset_and_hazards.md R244). -/
structure ExitOk (s : State) (f : Frame) (p : Nat) : Prop where
  frame : s.core.frames.head? = some f
  matching : s.cfg.frameCheck = true → s.core.regs.sp = f.fp
  page : s.core.istack.head? = some p
  readable : ∀ k < 38, Readable s (stackSlot s.core.regs k)
  coherent : ∀ k < 38, Coherent s (stackSlot s.core.regs k)
  evictable : AllWriteBackOk s
  keys : DataKeysDistinct s

/-- The registers after the exit-interrupt sequence (60_exceptions.md R214): `w k` is the k-th word above `SP`. -/
def exitRegs (g : Regs) (w : Nat → Word) : Regs where
  gpr := Vector.ofFn fun j : Fin 32 => w (33 - j.val)
  fp := w 0
  sp := w 36
  ds := (w 37).setWidth 8
  cs := (w 35).setWidth 8
  ip := w 1
  flags := Flags.unpack (w 34)
  cnt := g.cnt

/-! ## Draws and ports (45_privileged_io.md R186, 60_exceptions.md R219, R225) -/

/-- What the host answers to the next port read: the scripted answer, else the free value (log 7). -/
def nextPort (s : State) : Word := s.portAnswers.headD (Config.portDraw s.draws)

/-- What the host answers to the next virtual interrupt: the scripted outcome, else the free value (log 8). -/
def nextVint (s : State) : VintOutcome := s.vintAnswers.headD (Config.vintDraw s.draws)

/-- The state once a port read has been answered. -/
def State.portDrawn (s : State) : State :=
  { s with
    portAnswers := s.portAnswers.tail
    draws := if s.portAnswers.isEmpty then s.draws + 1 else s.draws }

/-- The state once a virtual interrupt has been answered. -/
def State.vintDrawn (s : State) : State :=
  { s with
    vintAnswers := s.vintAnswers.tail
    draws := if s.vintAnswers.isEmpty then s.draws + 1 else s.draws }

/-- The state once the host has observed something. -/
def State.noted (s : State) (n : HostNote) : State := { s with history := s.history ++ [n] }

/-- `PortCheck(p)` passes: the port is registered, and unprotected or accessed in privileged mode. -/
def PortOk (s : State) (p : Word) : Prop :=
  ∃ isProtected, portMark p s.cfg.ports = some isProtected ∧ (isProtected = false ∨ s.core.regs.flags.p = true)

/-- A privileged MC write is aligned and in bounds (20_memory.md R61). -/
def McWrite.Ok (memSize : Nat) : McWrite → Prop
  | .byte a _ => a + 1 ≤ memSize
  | .half a _ => a % 2 = 0 ∧ a + 2 ≤ memSize
  | .word a _ => a % 4 = 0 ∧ a + 4 ≤ memSize

/-- The byte that a write puts at `b`, if it puts one there: little-endian (20_memory.md R59). -/
def McWrite.byteFor (b : Nat) : McWrite → Option Byte
  | .byte a v => if b = a then some v else none
  | .half a v => if a ≤ b ∧ b < a + 2 then some (v.extractLsb' (8 * (b - a)) 8) else none
  | .word a v => if a ≤ b ∧ b < a + 4 then some (v.extractLsb' (8 * (b - a)) 8) else none

/-- A byte after writes made in order. -/
def byteWritten (b : Nat) (old : Byte) (writes : List McWrite) : Byte :=
  writes.foldl (fun v w => (w.byteFor b).getD v) old

/-! ## Results, in integers (40_data_movement.md to 43_compare_branch.md) -/

/-- A result `r` in `0..65535` with the flags `Z <- (r = 0)` and `S <- r[15]`. -/
def zsResult (g : Regs) (rd : Reg) (r : Nat) : Regs :=
  (g.write rd (BitVec.ofNat 16 r)).setFlags fun f => { f with z := decide (r = 0), s := decide (32768 ≤ r) }

/-- `a + b` into `rd`: `O` is the carry out of bit 15 (41_arithmetic.md R130, R132). -/
def sumResult (g : Regs) (rd : Reg) (a b : Nat) : Regs :=
  (zsResult g rd ((a + b) % 65536)).setFlags fun f => { f with o := decide (65535 < a + b) }

/-- `a - b` into `rd`: `S` is the unsigned borrow, `O` is cleared (41_arithmetic.md R131, R133). -/
def diffResult (g : Regs) (rd : Reg) (a b : Nat) : Regs :=
  (zsResult g rd ((a + 65536 - b) % 65536)).setFlags fun f => { f with s := decide (a < b), o := false }

/-- The low 16 bits of the integer `x` into `rd`: `O` is cleared (41_arithmetic.md R134 to R136). -/
def intResult (g : Regs) (rd : Reg) (x : Int) : Regs :=
  (zsResult g rd (x % 65536).toNat).setFlags fun f => { f with o := false }

/-- The flags of a compare: equal, both zero, less (43_compare_branch.md R150, R151). -/
def compareResult (g : Regs) (x y : Int) : Regs :=
  g.setFlags fun f => { f with e := decide (x = y), z := decide (x = 0 ∧ y = 0), s := decide (x < y) }

/-- Where a control transfer goes: absolute by register, else relative to the advanced `IP` (30_encoding.md R106). -/
def branchTarget (g : Regs) : Operand → Word
  | .reg r => g.read r
  | .imm v => BitVec.ofNat 16 (g.ip.toNat + v.toNat)

/-- The registers after a branch whose condition is `c` (43_compare_branch.md R153). -/
def branched (c : Bool) (o : Operand) (g : Regs) : Regs := if c then { g with ip := branchTarget g o } else g

/-! ## The core's own transition (60_exceptions.md R201) -/

/-- The script leaves the next transition to the core in focus. -/
def OwnTurn (s : State) : Prop := s.agenda = [] ∨ ∃ rest, s.agenda = .run :: rest

/-- `Step` is enabled and `AcceptIRQ` is not. -/
structure StepDue (s : State) : Prop where
  turn : OwnTurn s
  alive : s.core.alive = true
  running : s.core.running = true
  awake : s.core.idle = false
  noIrq : s.core.regs.flags.h = false ∨ s.core.pending = []

/-- The state in which a transition of the core in focus begins: its turn is taken from the script. -/
def State.onTurn (s : State) : State := { s with agenda := s.agenda.tail, started := true }

/-- The fetch at `CS:IP` is aligned, in bounds and, where it is checked, permitted (20_memory.md R71). -/
structure FetchOk (s : State) (pa : Nat) : Prop where
  place : pa = phys s.core.regs.cs s.core.regs.ip
  aligned : pa % 4 = 0
  inMemory : pa + 4 ≤ s.cfg.memSize
  executable : s.cfg.fetchExecCheck = true → (s.mc.pageView s.cfg (pageOf pa)).execute = true

/-- Where a raise of the fetch is attributed: nothing was decoded (60_exceptions.md R208). -/
def fetchSite (s : State) : FaultSite where
  origin := .instruction
  cs := s.core.regs.cs
  fetchIp := s.core.regs.ip
  instr := none

/-! ## What a transition may not touch -/

/-- Everything of the machine but the core in focus, memory, and the draws and history of port and virtual-interrupt traffic. -/
def sameSurroundings (s t : State) : Prop :=
  t.cfg = s.cfg ∧ t.others = s.others ∧ t.agenda = s.agenda ∧ t.started = s.started

/-- Nothing the host supplies or observes has changed. -/
def sameHost (s t : State) : Prop :=
  t.portAnswers = s.portAnswers ∧ t.vintAnswers = s.vintAnswers ∧ t.draws = s.draws ∧ t.history = s.history

/-- Everything of a core but its registers, its data cache and its eviction count. -/
def sameCoreRest (c d : Core) : Prop :=
  d.sizes = c.sizes ∧ d.booted = c.booted ∧ d.alive = c.alive ∧ d.running = c.running ∧ d.idle = c.idle
    ∧ d.exitCode = c.exitCode ∧ d.fault = c.fault ∧ d.frames = c.frames ∧ d.istack = c.istack
    ∧ d.pending = c.pending ∧ d.icache = c.icache

/-- Everything but the registers, the data cache with its eviction count, and the memory controller. -/
def sameBut (s t : State) : Prop := sameSurroundings s t ∧ sameHost s t ∧ sameCoreRest s.core t.core

/-- Every byte of memory reads as it did. -/
def sameBytes (s t : State) : Prop := ∀ b, t.mc.byteAt b = s.mc.byteAt b

/-- Every page's protection flags and kind are found as they were; only its `dirty` flag may differ (20_memory.md R53, R61). -/
def sameAccess (s t : State) : Prop :=
  ∀ p, (t.mc.pageView t.cfg p).read = (s.mc.pageView s.cfg p).read
    ∧ (t.mc.pageView t.cfg p).write = (s.mc.pageView s.cfg p).write
    ∧ (t.mc.pageView t.cfg p).execute = (s.mc.pageView s.cfg p).execute
    ∧ (t.mc.pageView t.cfg p).kind = (s.mc.pageView s.cfg p).kind

/-- The segment and mmap tables are as they were. -/
def sameTables (s t : State) : Prop := t.mc.segments = s.mc.segments ∧ t.mc.regions = s.mc.regions

/-! ## The flush of a halt, and a death (20_memory.md R79; 60_exceptions.md R206, R208, R221) -/

/-- The data cache has been flushed as far as its write-backs are permitted: such an entry is clean, in its place, and its word, if it
was dirty, is in memory; a refused entry is as it was; every other byte is as it was. -/
structure Flushed (s t : State) : Prop where
  cache : t.core.dcache = s.core.dcache.map fun e => if WriteBackOk s e then { e with dirty := false } else e
  written : ∀ e ∈ s.core.dcache, e.dirty = true → WriteBackOk s e → t.mc.u16At e.addr = e.value
  bytes : ∀ b, (∀ e ∈ s.core.dcache, e.dirty = true → WriteBackOk s e → e.addr ≠ 2 * (b / 2)) →
    t.mc.byteAt b = s.mc.byteAt b
  access : sameAccess s t
  tables : sameTables s t

/-- The first dirty entry, from LRU to MRU, whose write-back is refused. -/
def FirstRefused (s : State) (d : DEntry) : Prop :=
  d.dirty = true ∧ ¬ WriteBackOk s d
    ∧ ∃ older newer, s.core.dcache = older ++ d :: newer ∧ ∀ e ∈ older, e.dirty = true → WriteBackOk s e

/-- The fault record of a core after a raise: "recorded once", with the registers and frames at the raise (60_exceptions.md R206,
R208). -/
def recorded (c : Core) (e : Exc) (site : FaultSite) : Option FaultRecord :=
  match c.fault with
  | none => some { exc := e, site := site, regs := c.regs, frames := c.frames }
  | some r => some r

/-- A core as a halt leaves it, with this exit code and fault record. -/
def Core.haltedWith (c : Core) (exit : Word) (fault : Option FaultRecord) : Core :=
  { c with exitCode := exit, fault := fault, alive := false, running := false }

/-- Where a raise outside an instruction is attributed: `CS` and `IP` are those before the transition (60_exceptions.md R208;
log 19). -/
def outsideSite (origin : FaultOrigin) (s : State) : FaultSite where
  origin := origin
  cs := s.core.regs.cs
  fetchIp := s.core.regs.ip
  instr := none

/-! ## The data cache after one access (20_memory.md R73, R75 to R77) -/

/-- The data cache once there is room for one more entry: a full cache has lost its LRU entry. -/
def roomMade (c : Core) : List DEntry := if c.dcache.length = c.sizes.dcache then c.dcache.tail else c.dcache

/-- The data cache after a load of `v` from `pa`: the entry is the MRU one, clean if it was not there before. -/
def cacheAfterLoad (c : Core) (pa : Nat) (v : Word) : List DEntry :=
  match findData pa c.dcache with
  | some e => removeData pa c.dcache ++ [e]
  | none => roomMade c ++ [{ addr := pa, dirty := false, value := v }]

/-- The data cache after a store of `v` to `pa`: the entry is the MRU one and dirty. -/
def cacheAfterStore (c : Core) (pa : Nat) (v : Word) : List DEntry :=
  match findData pa c.dcache with
  | some _ => removeData pa c.dcache ++ [{ addr := pa, dirty := true, value := v }]
  | none => roomMade c ++ [{ addr := pa, dirty := true, value := v }]

/-- What data accesses that store to the even addresses `stored`, and that create or free the pages `pages`, leave alone: the
tables, every other page's access flags, every word that the core loads elsewhere, and every byte of memory that neither a dirty
cache entry nor a store covers. -/
structure DataKept (s t : State) (stored : Nat → Prop) (pages : List Nat) : Prop where
  access : ∀ p, p ∉ pages →
    (t.mc.pageView t.cfg p).read = (s.mc.pageView s.cfg p).read
      ∧ (t.mc.pageView t.cfg p).write = (s.mc.pageView s.cfg p).write
      ∧ (t.mc.pageView t.cfg p).execute = (s.mc.pageView s.cfg p).execute
      ∧ (t.mc.pageView t.cfg p).kind = (s.mc.pageView s.cfg p).kind
  tables : sameTables s t
  words : ∀ a, a % 2 = 0 → ¬ stored a → Coherent s a → wordAt t a = wordAt s a
  bytes : ∀ b, ¬ stored (2 * (b / 2)) → (∀ e ∈ s.core.dcache, e.dirty = true → e.addr ≠ 2 * (b / 2)) →
    t.mc.byteAt b = s.mc.byteAt b

/-! ## The encoding, restated from the tables (30_encoding.md R102, R107, R108; opcode_table.json) -/

/-- One form of a row of spec/opcode_table.json: the bits `mask` fixes to `match`, and the lowest bits of its register fields. -/
structure TableForm where
  fixed : InsnWord
  mask : InsnWord
  regs : List Nat
deriving DecidableEq, Repr

/-- A format's forms for an opcode (30_encoding.md R102): its fixed bits and its register fields. -/
def formsN (op : InsnWord) : List TableForm := [⟨op, 0xFFFFFFFF, []⟩]
def formsR (op : InsnWord) : List TableForm := [⟨op, 0xFFFFF03F, [6]⟩]
def formsRR (op : InsnWord) : List TableForm := [⟨op, 0xFFF8103F, [6, 13]⟩]
def formsRI (op : InsnWord) : List TableForm := [⟨op ||| 0x1000, 0xFFF8103F, [6, 13]⟩, ⟨op, 0x0000F03F, [6]⟩]
def formsRIM (op : InsnWord) : List TableForm := [⟨op, 0x0000F03F, [6]⟩]
def formsI (op : InsnWord) : List TableForm := [⟨op ||| 0x1000, 0xFFF81FFF, [13]⟩, ⟨op, 0x0000FFFF, []⟩]
def formsM (op : InsnWord) : List TableForm := [⟨op, 0x0000103F, [6, 13]⟩]
def formsC (op : InsnWord) : List TableForm := [⟨op, 0xFE00103F, [6, 13, 19]⟩]

/-- Every form of every row of the opcode map (30_encoding.md R107), in opcode order. -/
def tableForms : List TableForm :=
  List.flatten
    [formsM 1, formsM 2, formsRIM 3, formsM 4, formsM 5, formsRR 6, formsRR 7, formsRI 8, formsRI 9, formsR 10, formsR 11,
      formsRI 12, formsRI 13, formsRI 14, formsRI 15, formsRI 16, formsRI 17, formsR 18, formsRI 19, formsRI 20, formsRI 21,
      formsRI 22, formsI 23, formsI 24, formsI 25, formsI 26, formsI 27, formsI 28, formsI 29, formsI 30, formsI 31,
      formsI 32, formsI 33, formsR 34, formsR 35, formsI 36, formsN 37, formsN 38, formsN 39, formsI 40, formsN 41, formsN 42,
      formsRI 43, formsRI 44, formsRI 45, formsRI 46, formsC 47, formsI 48]

/-- A word has a form: its fixed bits match, and each of its register fields holds 0..38 (30_encoding.md R103, R108). -/
def TableForm.has (f : TableForm) (w : InsnWord) : Bool :=
  w &&& f.mask == f.fixed && f.regs.all fun lo => decide ((w.extractLsb' lo 6).toNat < 39)

/-! ## The invariant -/

/-- The memory controller's own: memory in its canonical form, every listed byte in an existing page, page and segment tables
in rising order and in range, segment 0 claimed (20_memory.md R53 to R56). -/
structure MCInv (cfg : Config) (mc : MC) : Prop where
  cells : mc.cells.wf = true
  pages : risingFrom 0 mc.pages = true
  covered : ∀ c ∈ mc.cells, (mc.page (pageOf c.1)).isSome = true
  inRange : ∀ e ∈ mc.pages, e.1 < cfg.memSize / 256
  segments : mc.segments.Pairwise (· < ·)
  segmentsInRange : ∀ n ∈ mc.segments, n < cfg.memSize / 65536
  segmentZero : 0 ∈ mc.segments

/-- One core's own: cache capacities at least 1 and never exceeded, no address cached twice, keys aligned, entries of a checked
data cache in bounds, and a legal run state (20_memory.md R70, R74; 60_exceptions.md R200). -/
structure CoreInv (cfg : Config) (c : Core) : Prop where
  sizes : 1 ≤ c.sizes.icache ∧ 1 ≤ c.sizes.dcache
  icacheFits : c.icache.length ≤ c.sizes.icache
  dcacheFits : c.dcache.length ≤ c.sizes.dcache
  icacheKeys : (c.icache.map IEntry.addr).Nodup
  dcacheKeys : (c.dcache.map DEntry.addr).Nodup
  icacheAligned : ∀ e ∈ c.icache, e.addr % 4 = 0
  dcacheAligned : ∀ e ∈ c.dcache, e.addr % 2 = 0
  dcacheInBounds : cfg.writeCheck = .atStore → ∀ e ∈ c.dcache, e.addr + 2 ≤ cfg.memSize
  runningAlive : c.running = true → c.alive = true
  aliveBooted : c.alive = true → c.booted = true
  faultedHalted : c.fault.isSome = true → c.booted = true ∧ c.alive = false

/-- The whole machine's: a configuration within R5's bounds, and the invariants of the controller and of every core. -/
structure Inv (s : State) : Prop where
  cfg : s.cfg.wf = true
  mc : MCInv s.cfg s.mc
  core : CoreInv s.cfg s.core
  others : ∀ c ∈ s.others, CoreInv s.cfg c

end Sys2Proof.Machine
end

