-- ==== Sys2Proof/Certificates/Slice0/Obligations.lean ====
section
/-! DEFINITION. The statements for the provers, in the order of OBLIGATIONS.json. -/

open Sys2Proof Sys2Proof.Machine

/-! ## Encoding -/

/-- Decoding an encoded well-formed instruction gives it back, with every operand at every value (30_encoding.md R102, R107). -/
def Obligations.EncodeThenDecode : Prop := ∀ i : Instr, i.wf = true → decodeWord (encode i) = .ok i

/-- `DECODE` is total and injective on the words it accepts, and encoding a decoded word gives it back (30_encoding.md R111). -/
def Obligations.DecodeThenEncode : Prop :=
  (∀ w, (∃ i, decodeWord w = .ok i) ∨ ∃ e, decodeWord w = .error e)
    ∧ (∀ w i, decodeWord w = .ok i → encode i = w ∧ i.wf = true)
    ∧ ∀ w w' i, decodeWord w = .ok i → decodeWord w' = .ok i → w = w'

/-- A word is accepted exactly when it has a form of a row of the opcode table: its opcode is one of 1..48, its reserved bits are
zero, its register fields hold 0..38, and `LI` has `k = 0` (30_encoding.md R102, R107, R108). -/
def Obligations.DecodeAcceptsTableForms : Prop :=
  ∀ w, (∃ i, decodeWord w = .ok i) ↔ (tableForms.any fun f => f.has w) = true

/-- Words of every format, with the bits the spec's examples and tables give them, decode to the instructions they stand for. -/
def Obligations.SpecWordsDecode : Prop :=
  decodeWord 0x00050003 = .ok (.li (.gpr 0) 5)
    ∧ decodeWord 0x00080017 = .ok (.be (.imm 8))
    ∧ decodeWord 0x00009021 = .ok (.j (.reg (.gpr 4)))
    ∧ decodeWord 0x0018406F = .ok (.cas (.gpr 1) (.gpr 2) (.gpr 3))
    ∧ decodeWord 0x00030030 = .ok (.int (.imm 3))
    ∧ decodeWord 0xFFF04041 = .ok (.lw (.gpr 1) (.gpr 2) (-2))
    ∧ decodeWord 0x00004046 = .ok (.mov (.gpr 1) (.gpr 2))
    ∧ decodeWord 0x00003009 = .ok (.sub (.gpr 0) (.reg (.gpr 1)))
    ∧ decodeWord 0x0000084A = .ok (.inc .sp) ∧ decodeWord 0x000009CA = .error .noSuchRegister
    ∧ decodeWord 0x0000002A = .ok .retint
    ∧ decodeWord 0x00000000 = .error .illegalOpcode

/-! ## Registers and reset -/

/-- A register reads back what was written, `DS` and `CS` keep the low 8 bits and FLAGS bits 0..5, and no other register changes
(10_state.md R20, R25, R26). -/
def Obligations.RegisterWriteThenRead : Prop :=
  ∀ (g : Regs) (r : Reg) (v : Word),
    (g.write r v).read r = (match r with
      | .ds => v &&& 0x00FF
      | .cs => v &&& 0x00FF
      | .flags => v &&& 0x003F
      | _ => v)
    ∧ ∀ q, q ≠ r → (g.write r v).read q = g.read q

/-- FLAGS as a register value, bit by bit, and in the interrupt sequences: `enterInterrupt` pushes that value fourth, and
`exitInterrupt` unpacks the word it finds there (10_state.md R25; 60_exceptions.md R212, R214). -/
def Obligations.FlagsPacking : Prop :=
  (∀ g : Regs, (g.read .flags).toNat = g.flags.p.toNat + 2 * g.flags.h.toNat + 4 * g.flags.e.toNat
      + 8 * g.flags.z.toNat + 16 * g.flags.o.toNat + 32 * g.flags.s.toNat)
    ∧ (∀ (g : Regs) (v : Word), (g.write .flags v).flags
        = { p := v.getLsbD 0, h := v.getLsbD 1, e := v.getLsbD 2, z := v.getLsbD 3, o := v.getLsbD 4, s := v.getLsbD 5 })
    ∧ (∀ (s : State) (base count i : Nat) (v : IntVector) (p : Nat), EntryOk s base count i v p →
        ∃ t, enterInterrupt base count i s = .ok () t
          ∧ wordAt t (phys v.ds (pageTop p - 8)) = s.core.regs.read .flags)
    ∧ ∀ (s : State) (f : Frame) (p : Nat), ExitOk s f p →
        let w := wordAt s (stackSlot s.core.regs 34)
        ∃ t, exitInterrupt s = .ok () t ∧ t.core.regs.flags
          = { p := w.getLsbD 0, h := w.getLsbD 1, e := w.getLsbD 2, z := w.getLsbD 3, o := w.getLsbD 4, s := w.getLsbD 5 }

/-- The machine at power-on, for every configuration: no page, segment 0 claimed, no mapped region, every core in state `Reset`
with the power-on values, and no core fetches (70_reset_and_hazards.md R240, 10_state.md R35). -/
def Obligations.PowerOnState : Prop :=
  ∀ (cfg : Config) (sizes : CacheSizes) (others : List CacheSizes),
    let s := State.powerOn cfg sizes others
    s.cfg = cfg ∧ s.mc.pages = [] ∧ s.mc.segments = [0] ∧ s.mc.regions = [] ∧ s.others.length = others.length
      ∧ (∀ c ∈ s.core :: s.others,
          c.booted = false ∧ c.alive = false ∧ c.running = false ∧ c.idle = false ∧ c.exitCode = 0 ∧ c.fault = none
            ∧ c.frames = [] ∧ c.istack = [] ∧ c.pending = [] ∧ c.icache = [] ∧ c.dcache = []
            ∧ (∀ j : Fin 32, c.regs.read (.gpr j) = 0) ∧ c.regs.read .cnt = 0
            ∧ c.regs.read .flags = 0x0002 ∧ c.regs.flags.p = false ∧ c.regs.flags.h = true)
      ∧ ∀ t, step s ≠ .next t

/-- The machine at power-on meets the invariant, in every configuration within the bounds of 00_scope.md R5, and so does
`State.reset`. -/
def Obligations.PowerOnSatisfiesInvariant : Prop :=
  (∀ (cfg : Config) (sizes : CacheSizes) (others : List CacheSizes), cfg.wf = true →
      (∀ z ∈ sizes :: others, 1 ≤ z.icache ∧ 1 ≤ z.dcache) → Inv (State.powerOn cfg sizes others))
    ∧ Inv State.reset

/-- `boot` sets five registers and the run state, keeps every other field, and is enabled once (70_reset_and_hazards.md R242). -/
def Obligations.BootStartsCore : Prop :=
  ∀ (s : State) (b : BootArgs) (rest : List Choice), s.agenda = .host (.boot b) :: rest →
    (s.core.booted = false → s.core.alive = false →
        step s = .next { s with
          agenda := rest
          core := { s.core with
            regs := { s.core.regs with
              cs := b.cs.extractLsb' 0 8, ds := b.ds.extractLsb' 0 8, ip := b.ip, sp := b.sp, fp := b.fp }
            booted := true
            alive := true
            running := true } })
    ∧ (s.core.booted = true → ∀ t, step s ≠ .next t)

/-! ## The step -/

/-- A step runs the decoded instruction: on a miss the one that `DECODE` gives for the word at `CS:IP`, which enters the instruction
cache; on a hit the cached one, whatever memory holds. The fetch changes no register and no byte. The default `DECODE` is the
encoding of 30_encoding.md (00_scope.md R4, R5; 20_memory.md R71, R72; 60_exceptions.md R202). -/
def Obligations.StepRunsFetchedInstruction : Prop :=
  ∀ (s : State) (pa : Nat) (i : Instr), StepDue s → FetchOk s pa →
    (findIns pa s.core.icache = none → decodeWith s.cfg.decoder (s.mc.u32At pa) = some i →
        step s = exec i ((s.onTurn.touched (pageOf pa)).withIns
          ((if s.core.icache.length = s.core.sizes.icache then s.core.icache.tail else s.core.icache)
            ++ [{ addr := pa, ins := i }])))
    ∧ (findIns pa s.core.icache = some i →
        step s = exec i ((if s.cfg.fetchExecCheck = true then s.onTurn.touched (pageOf pa) else s.onTurn).withIns
          (removeIns pa s.core.icache ++ [{ addr := pa, ins := i }])))
    ∧ sameBytes s (s.touched (pageOf pa)) ∧ sameAccess s (s.touched (pageOf pa))
    ∧ ∀ w j, decodeWith .standard w = some j ↔ decodeWord w = .ok j

/-- The four ways a fetch kills the core, in the order they are checked: alignment, bounds, the execute flag, a word that `DECODE`
gives nothing for. Nothing is decoded or executed (20_memory.md R71; 60_exceptions.md R202, R209). -/
def Obligations.FetchFaultsKill : Prop :=
  ∀ s : State, StepDue s →
    let pa := phys s.core.regs.cs s.core.regs.ip
    (pa % 4 ≠ 0 → step s = .next (die (exc .misalignedAccess (.address pa)) (fetchSite s) s.onTurn))
    ∧ (pa % 4 = 0 → ¬ pa + 4 ≤ s.cfg.memSize →
        step s = .next (die (exc .accessViolation (.address pa)) (fetchSite s) s.onTurn))
    ∧ (pa % 4 = 0 → pa + 4 ≤ s.cfg.memSize → s.cfg.fetchExecCheck = true →
        (s.mc.pageView s.cfg (pageOf pa)).execute = false →
        step s = .next (die (exc .accessViolation (.address pa)) (fetchSite s) (s.onTurn.touched (pageOf pa))))
    ∧ (FetchOk s pa → findIns pa s.core.icache = none → decodeWith s.cfg.decoder (s.mc.u32At pa) = none →
        step s = .next (die (exc .invalidOpcode (.word (s.mc.u32At pa))) (fetchSite s) (s.onTurn.touched (pageOf pa))))

/-- A core with no transition of its own is stuck, by name: never booted, halted, suspended, or idle with no IRQ it can accept
(60_exceptions.md R200, R201, R228; 70_reset_and_hazards.md R252). That a stuck state is a fault, and the step of a core never booted
a refusal, is the model's choice (log 10). -/
def Obligations.StuckStates : Prop :=
  ∀ s : State, OwnTurn s →
    (s.core.booted = false → s.core.alive = false → step s = .refused .notBooted)
    ∧ (s.core.booted = true → s.core.alive = false → step s = .fault .halted)
    ∧ (s.core.booted = true → s.core.alive = true → s.core.running = false → step s = .fault .suspended)
    ∧ (s.core.booted = true → s.core.alive = true → s.core.running = true → s.core.idle = true →
        s.core.regs.flags.h = false ∨ s.core.pending = [] → step s = .fault .idle)

/-- The die transition: the first fault is recorded with the registers and frames at the raise, the exit code becomes 1, and the core
is not alive. A live core flushes its data cache: every dirty entry that may be written back is in memory and clean, in its place, a
refused one stays dirty, and every other byte is as it was; of a core that was not alive, cache and memory stay. Nothing of the other
cores, the configuration, the registers, or the frame, interrupt-stack and IRQ lists changes (60_exceptions.md R206, R208, R221;
20_memory.md R79). -/
def Obligations.DieHaltsTheCore : Prop :=
  ∀ (e : Exc) (site : FaultSite) (s : State),
    let t := die e site s
    sameSurroundings s t ∧ sameHost s t ∧ t.core.regs = s.core.regs ∧ t.core.evictions = s.core.evictions
      ∧ sameCoreRest { s.core with
          exitCode := 1
          fault := recorded s.core e site
          alive := false
          running := s.core.running && !s.core.alive } t.core
      ∧ (s.core.alive = true → DataKeysDistinct s → Flushed s t)
      ∧ (s.core.alive = false → t.core.dcache = s.core.dcache ∧ t.mc = s.mc)

/-- `Halted` is terminal: no transition and no host action leads out of it (60_exceptions.md R200). -/
def Obligations.HaltedIsTerminal : Prop :=
  ∀ s t : State, s.core.booted = true → s.core.alive = false → (∀ k, s.agenda.head? ≠ some (.select k)) →
    step s = .next t → t.core.booted = true ∧ t.core.alive = false

/-- `CLI`, `STI`, `HLT`, `RST` and `RETINT` need `P = 1`, before any other check; every other instruction that names no protected
register may run in either mode (45_privileged_io.md R180). -/
def Obligations.PrivilegedInstructionNeedsP : Prop :=
  ∀ (s : State) (i : Instr), s.core.regs.flags.p = false →
    ((i = .cli ∨ i = .sti ∨ (∃ o, i = .hlt o) ∨ i = .rst ∨ i = .retint) →
      exec i s = .next (die (exc .accessViolation .instruction) (siteOf i s) s.advanced))
    ∧ (¬ (i = .cli ∨ i = .sti ∨ (∃ o, i = .hlt o) ∨ i = .rst ∨ i = .retint) → (∀ r ∈ regFields i, r.num < 32) →
        Allowed i s = true)

/-- In unprivileged mode an instruction that names a protected register dies, the first such field being named, and has no effect
but the advance of `IP`; one that names none runs, whatever registers it uses implicitly (10_state.md R23). -/
def Obligations.ProtectedRegisterNeedsP : Prop :=
  ∀ (s : State) (i : Instr), isPrivileged i = false →
    ProtectedDies i s ∧ ((∀ r ∈ regFields i, r.num < 32) → Allowed i s = true)

/-- `CNT` counts every instruction that completes and no other: one that raises leaves `CNT` as it was, whatever registers it names.
Of an instruction that completes and names `CNT` as an operand, the statement of its result says what `CNT` is (10_state.md R28;
60_exceptions.md R202, R208). -/
def Obligations.CounterCountsCompletions : Prop :=
  ∀ (s t : State) (i : Instr), exec i s = .next t →
    (Reg.cnt ∉ regFields i →
      t.core.regs.cnt = s.core.regs.cnt + 1
        ∨ (t.core.regs.cnt = s.core.regs.cnt ∧ t.core.alive = false ∧ t.core.exitCode = 1 ∧ t.core.fault.isSome = true))
    ∧ (s.core.fault = none →
      (t.core.fault.isSome = true → t.core.regs.cnt = s.core.regs.cnt ∧ t.core.alive = false ∧ t.core.exitCode = 1)
      ∧ (t.core.fault = none → Reg.cnt ∉ regFields i → t.core.regs.cnt = s.core.regs.cnt + 1))

/-! ## Data movement -/

/-- `LI`: the immediate, `Z` and `S` from it, nothing else (40_data_movement.md R122). -/
def Obligations.LoadImmediateResult : Prop :=
  ∀ (s : State) (rd : Reg) (v : Word),
    (Allowed (.li rd v) s = true → exec (.li rd v) s = .next (s.afterRegs fun g => zsResult g rd v.toNat))
    ∧ ProtectedDies (.li rd v) s

/-- `MOV` and `SWP`: registers only, no flag (40_data_movement.md R125, R126). -/
def Obligations.MoveAndSwapResult : Prop :=
  ∀ (s : State) (rd rs : Reg),
    (Allowed (.mov rd rs) s = true → exec (.mov rd rs) s = .next (s.afterRegs fun g => g.write rd (g.read rs)))
    ∧ (Allowed (.swp rd rs) s = true →
        exec (.swp rd rs) s = .next (s.afterRegs fun g => (g.write rd (g.read rs)).write rs (g.read rd)))
    ∧ ProtectedDies (.mov rd rs) s ∧ ProtectedDies (.swp rd rs) s

/-- `LW`: the word the core sees at the effective address, `Z` and `S` from it; the data cache keeps it as its MRU entry, and no
byte of memory changes but those of an entry evicted to make room (40_data_movement.md R120; 20_memory.md R73, R75, R77). -/
def Obligations.LoadWordResult : Prop :=
  ∀ (s : State) (rd rb : Reg) (off : Int), Allowed (.lw rd rb off) s = true →
    let g := s.core.regs.advance
    let a := phys g.ds (BitVec.ofInt 16 ((g.read rb).toNat + off))
    LoadOk s a →
    ∃ t, exec (.lw rd rb off) s = .next t ∧ sameBut s t
      ∧ t.core.regs = (zsResult g rd (wordAt s a).toNat).count
      ∧ t.core.dcache = cacheAfterLoad s.core a (wordAt s a)
      ∧ (∀ b, t.mc.byteAt b = byteAfter s.mc (evictedBy s.core a) b) ∧ sameAccess s t ∧ sameTables s t

/-- `LB`: the zero-extended byte of memory, past the data cache, which does not change (40_data_movement.md R121). -/
def Obligations.LoadByteResult : Prop :=
  ∀ (s : State) (rd rb : Reg) (off : Int), Allowed (.lb rd rb off) s = true →
    let g := s.core.regs.advance
    let a := phys g.ds (BitVec.ofInt 16 ((g.read rb).toNat + off))
    a + 1 ≤ s.cfg.memSize → (s.mc.pageView s.cfg (pageOf a)).read = true →
    ∃ t, exec (.lb rd rb off) s = .next t ∧ sameSurroundings s t ∧ sameHost s t
      ∧ t.core = { s.core with regs := (zsResult g rd (s.mc.byteAt a).toNat).count }
      ∧ sameBytes s t ∧ sameAccess s t ∧ sameTables s t

/-- `STW`: the word enters the data cache, dirty; memory is not touched but by an eviction, and no flag changes
(40_data_movement.md R123; 20_memory.md R73, R76, R77). -/
def Obligations.StoreWordResult : Prop :=
  ∀ (s : State) (rb r : Reg) (off : Int), Allowed (.stw rb off r) s = true →
    let g := s.core.regs.advance
    let a := phys g.ds (BitVec.ofInt 16 ((g.read rb).toNat + off))
    StoreOk s a →
    ∃ t, exec (.stw rb off r) s = .next t ∧ sameBut s t ∧ t.core.regs = g.count
      ∧ t.core.dcache = cacheAfterStore s.core a (g.read r) ∧ wordAt t a = g.read r
      ∧ (∀ b, t.mc.byteAt b = byteAfter s.mc (evictedBy s.core a) b) ∧ sameAccess s t ∧ sameTables s t

/-- `STB`: the low byte goes to memory and marks its page dirty; the data cache and every other byte stay
(40_data_movement.md R124; 20_memory.md R61). -/
def Obligations.StoreByteResult : Prop :=
  ∀ (s : State) (rb r : Reg) (off : Int), Allowed (.stb rb off r) s = true →
    let g := s.core.regs.advance
    let a := phys g.ds (BitVec.ofInt 16 ((g.read rb).toNat + off))
    a + 1 ≤ s.cfg.memSize → (s.mc.pageView s.cfg (pageOf a)).write = true →
    ∃ t, exec (.stb rb off r) s = .next t ∧ sameSurroundings s t ∧ sameHost s t
      ∧ t.core = { s.core with regs := g.count }
      ∧ (∀ b, t.mc.byteAt b = if b = a then (g.read r).extractLsb' 0 8 else s.mc.byteAt b)
      ∧ (t.mc.pageView t.cfg (pageOf a)).dirty = true ∧ sameAccess s t ∧ sameTables s t

/-- A word stored is the word loaded next, whatever the page lets a load do: the load hits the cache (20_memory.md R75, R76). -/
def Obligations.LoadAfterStore : Prop :=
  ∀ (s : State) (b r d : Fin 32) (off : Int),
    StoreOk s (phys s.core.regs.ds (BitVec.ofInt 16 ((s.core.regs.read (.gpr b)).toNat + off))) →
    ∃ t u, exec (.stw (.gpr b) off (.gpr r)) s = .next t ∧ exec (.lw (.gpr d) (.gpr b) off) t = .next u
      ∧ u.core.regs.read (.gpr d) = s.core.regs.read (.gpr r)
      ∧ ∀ j, j ≠ d → u.core.regs.read (.gpr j) = s.core.regs.read (.gpr j)

/-- After `STW` a byte load of the same address still finds the byte of memory, and after `STB` a word load still finds the cached
word: the data cache is not coherent with the direct path (20_memory.md R78; 70_reset_and_hazards.md R244). -/
def Obligations.CacheIsNotCoherent : Prop :=
  ∀ (s : State) (b r d : Fin 32) (off : Int),
    let a := phys s.core.regs.ds (BitVec.ofInt 16 ((s.core.regs.read (.gpr b)).toNat + off))
    (StoreOk s a → evictedBy s.core a = none → (s.mc.pageView s.cfg (pageOf a)).read = true → a + 1 ≤ s.cfg.memSize →
        ∃ t u, exec (.stw (.gpr b) off (.gpr r)) s = .next t ∧ exec (.lb (.gpr d) (.gpr b) off) t = .next u
          ∧ u.core.regs.read (.gpr d) = (s.mc.byteAt a).setWidth 16)
    ∧ (∀ e, findData a s.core.dcache = some e → a % 2 = 0 → (s.mc.pageView s.cfg (pageOf a)).write = true →
        a + 1 ≤ s.cfg.memSize →
        ∃ t u, exec (.stb (.gpr b) off (.gpr r)) s = .next t ∧ exec (.lw (.gpr d) (.gpr b) off) t = .next u
          ∧ u.core.regs.read (.gpr d) = e.value)

/-! ## Arithmetic and bitwise -/

/-- `ADD` and `INC`: the sum modulo 2^16, `Z` and `S` from it, `O` the carry. `SUB` and `DEC`: the difference modulo 2^16, `Z` from
it, `S` the unsigned borrow, `O` cleared (41_arithmetic.md R130 to R133). -/
def Obligations.AddSubIncDecResult : Prop :=
  ∀ (s : State) (rd : Reg) (o : Operand),
    (Allowed (.add rd o) s = true → exec (.add rd o) s
        = .next (s.afterRegs fun g => sumResult g rd (g.read rd).toNat (operandValue g o).toNat))
    ∧ (Allowed (.inc rd) s = true → exec (.inc rd) s = .next (s.afterRegs fun g => sumResult g rd (g.read rd).toNat 1))
    ∧ (Allowed (.sub rd o) s = true → exec (.sub rd o) s
        = .next (s.afterRegs fun g => diffResult g rd (g.read rd).toNat (operandValue g o).toNat))
    ∧ (Allowed (.dec rd) s = true → exec (.dec rd) s = .next (s.afterRegs fun g => diffResult g rd (g.read rd).toNat 1))
    ∧ ∀ i ∈ [Instr.add rd o, .inc rd, .sub rd o, .dec rd], ProtectedDies i s

/-- `MUL`, and `DIV` and `MOD` by a divisor other than 0: the low 16 bits of the signed product, quotient and remainder
(41_arithmetic.md R134 to R136). -/
def Obligations.MulDivModResult : Prop :=
  ∀ (s : State) (rd : Reg) (o : Operand),
    (Allowed (.mul rd o) s = true → exec (.mul rd o) s
        = .next (s.afterRegs fun g => intResult g rd ((g.read rd).toInt * (operandValue g o).toInt)))
    ∧ (Allowed (.div rd o) s = true → operandValue s.core.regs.advance o ≠ 0 → exec (.div rd o) s
        = .next (s.afterRegs fun g =>
            intResult g rd (quot s.cfg.divRound (g.read rd).toInt (operandValue g o).toInt)))
    ∧ (Allowed (.mod rd o) s = true → operandValue s.core.regs.advance o ≠ 0 → exec (.mod rd o) s
        = .next (s.afterRegs fun g =>
            intResult g rd ((g.read rd).toInt
              - (operandValue g o).toInt * quot s.cfg.divRound (g.read rd).toInt (operandValue g o).toInt)))

/-- A zero divisor kills the core before any write (41_arithmetic.md R135, R136). -/
def Obligations.DivideByZeroKills : Prop :=
  ∀ (s : State) (rd : Reg) (o : Operand), operandValue s.core.regs.advance o = 0 →
    (Allowed (.div rd o) s = true → exec (.div rd o) s
        = .next (die (exc .arithmeticFault .divide) (siteOf (.div rd o) s) s.advanced))
    ∧ (Allowed (.mod rd o) s = true → exec (.mod rd o) s
        = .next (die (exc .arithmeticFault .modulo) (siteOf (.mod rd o) s) s.advanced))

/-- The quotient under each rounding, by its remainder: under `floor` the remainder has the sign of the divisor, under `trunc`
that of the dividend, and its size is below the divisor's (41_arithmetic.md R136, R137). -/
def Obligations.QuotientRounding : Prop :=
  ∀ x y : Int, y ≠ 0 →
    ((0 < y → 0 ≤ x - y * quot .floor x y ∧ x - y * quot .floor x y < y)
      ∧ (y < 0 → y < x - y * quot .floor x y ∧ x - y * quot .floor x y ≤ 0))
    ∧ ((0 ≤ x → 0 ≤ x - y * quot .trunc x y ∧ x - y * quot .trunc x y < |y|)
      ∧ (x ≤ 0 → -|y| < x - y * quot .trunc x y ∧ x - y * quot .trunc x y ≤ 0))
    ∧ ((0 ≤ x ∧ 0 < y ∨ x ≤ 0 ∧ y < 0 ∨ y ∣ x) → quot .floor x y = quot .trunc x y)

/-- `AND`, `OR`, `XOR`, `NOT`, and `SHIFTL` and `SHIFTR` by the whole unsigned count, never reduced modulo 16: the result with `Z`
and `S` (42_bitwise.md R140 to R145). -/
def Obligations.BitwiseResult : Prop :=
  ∀ (s : State) (rd : Reg) (o : Operand),
    (Allowed (.and rd o) s = true → exec (.and rd o) s
        = .next (s.afterRegs fun g => zsResult g rd ((g.read rd).toNat &&& (operandValue g o).toNat)))
    ∧ (Allowed (.or rd o) s = true → exec (.or rd o) s
        = .next (s.afterRegs fun g => zsResult g rd ((g.read rd).toNat ||| (operandValue g o).toNat)))
    ∧ (Allowed (.xor rd o) s = true → exec (.xor rd o) s
        = .next (s.afterRegs fun g => zsResult g rd ((g.read rd).toNat ^^^ (operandValue g o).toNat)))
    ∧ (Allowed (.not rd) s = true → exec (.not rd) s
        = .next (s.afterRegs fun g => zsResult g rd (65535 - (g.read rd).toNat)))
    ∧ (Allowed (.shiftl rd o) s = true → exec (.shiftl rd o) s
        = .next (s.afterRegs fun g => zsResult g rd ((g.read rd).toNat * 2 ^ (operandValue g o).toNat % 65536)))
    ∧ (Allowed (.shiftr rd o) s = true → exec (.shiftr rd o) s
        = .next (s.afterRegs fun g => zsResult g rd ((g.read rd).toNat / 2 ^ (operandValue g o).toNat)))
    ∧ ∀ i ∈ [Instr.and rd o, .or rd o, .xor rd o, .not rd, .shiftl rd o, .shiftr rd o], ProtectedDies i s

/-! ## Compare and branch -/

/-- `CMP` (signed) and `CMPU` (unsigned): `E`, `Z` and `S`, no register and no other flag (43_compare_branch.md R150, R151). -/
def Obligations.CompareResult : Prop :=
  ∀ (s : State) (rd : Reg) (o : Operand),
    (Allowed (.cmp rd o) s = true → exec (.cmp rd o) s
        = .next (s.afterRegs fun g => compareResult g (g.read rd).toInt (operandValue g o).toInt))
    ∧ (Allowed (.cmpu rd o) s = true → exec (.cmpu rd o) s
        = .next (s.afterRegs fun g => compareResult g (g.read rd).toNat (operandValue g o).toNat))
    ∧ ProtectedDies (.cmp rd o) s ∧ ProtectedDies (.cmpu rd o) s

/-- The ten conditional branches and `J`: what each tests, and where it goes; `IP` alone changes (43_compare_branch.md R152 to
R164). -/
def Obligations.BranchResult : Prop :=
  ∀ (s : State) (o : Operand),
    let f := s.core.regs.flags
    ∀ row ∈ [(Instr.be, f.e), (Instr.bne, !f.e), (Instr.bz, f.z), (Instr.bnz, !f.z), (Instr.bs, f.s), (Instr.bns, !f.s),
        (Instr.bg, !f.e && !f.s), (Instr.bge, f.e || !f.s), (Instr.bl, !f.e && f.s), (Instr.ble, f.e || f.s),
        (Instr.j, true)],
      (Allowed (row.1 o) s = true → exec (row.1 o) s = .next (s.afterRegs (branched row.2 o)))
        ∧ ProtectedDies (row.1 o) s

/-- After a compare the branches mean what their names say, for signed and for unsigned order (43_compare_branch.md R152). -/
def Obligations.CompareThenBranch : Prop :=
  ∀ (s : State) (rd : Reg) (o : Operand) (v : Word),
    let g := s.core.regs.advance
    let means (x y : Int) (t : State) : Prop :=
      ∀ row ∈ [(Instr.be, decide (x = y)), (Instr.bne, decide (x ≠ y)), (Instr.bz, decide (x = 0 ∧ y = 0)),
          (Instr.bnz, decide (¬ (x = 0 ∧ y = 0))), (Instr.bs, decide (x < y)), (Instr.bns, decide (x ≥ y)),
          (Instr.bg, decide (x > y)), (Instr.bge, decide (x ≥ y)), (Instr.bl, decide (x < y)), (Instr.ble, decide (x ≤ y))],
        exec (row.1 (.imm v)) t = .next (t.afterRegs (branched row.2 (.imm v)))
    (Allowed (.cmp rd o) s = true →
        ∃ t, exec (.cmp rd o) s = .next t ∧ means (g.read rd).toInt (operandValue g o).toInt t)
    ∧ (Allowed (.cmpu rd o) s = true →
        ∃ t, exec (.cmpu rd o) s = .next t ∧ means (g.read rd).toNat (operandValue g o).toNat t)

/-! ## Stack and calls -/

/-- `PUSH`: `SP` drops by 2 and the register's value before that enters the data cache at the new `SP` (44_stack_call.md R171). -/
def Obligations.PushResult : Prop :=
  ∀ (s : State) (r : Reg), Allowed (.push r) s = true →
    let g := s.core.regs.advance
    let a := phys g.ds (g.sp - 2)
    StoreOk s a →
    ∃ t, exec (.push r) s = .next t ∧ sameBut s t ∧ t.core.regs = { g with sp := g.sp - 2 }.count
      ∧ t.core.dcache = cacheAfterStore s.core a (g.read r) ∧ wordAt t a = g.read r
      ∧ (∀ b, t.mc.byteAt b = byteAfter s.mc (evictedBy s.core a) b) ∧ sameAccess s t ∧ sameTables s t

/-- `POP`: the word at `SP`, `SP` past it, and then the register, so a popped `SP` wins (44_stack_call.md R172). -/
def Obligations.PopResult : Prop :=
  ∀ (s : State) (r : Reg), Allowed (.pop r) s = true →
    let g := s.core.regs.advance
    let a := phys g.ds g.sp
    LoadOk s a →
    ∃ t, exec (.pop r) s = .next t ∧ sameBut s t
      ∧ t.core.regs = ({ g with sp := g.sp + 2 }.write r (wordAt s a)).count
      ∧ t.core.dcache = cacheAfterLoad s.core a (wordAt s a)
      ∧ (∀ b, t.mc.byteAt b = byteAfter s.mc (evictedBy s.core a) b) ∧ sameAccess s t ∧ sameTables s t

/-- `CALL`: the return address and the caller's `FP` are pushed, `FP` and `SP` point at them, a frame is recorded, and `IP` goes to
the target computed before (44_stack_call.md R173). -/
def Obligations.CallResult : Prop :=
  ∀ (s : State) (o : Operand), Allowed (.call o) s = true →
    let g := s.core.regs.advance
    AllWriteBackOk s → DataKeysDistinct s → Writable s (pushSlot g 0) → Writable s (pushSlot g 1) →
    ∃ t, exec (.call o) s = .next t ∧ sameSurroundings s t ∧ sameHost s t
      ∧ t.core.regs = { g with sp := g.sp - 4, fp := g.sp - 4, ip := branchTarget g o }.count
      ∧ sameCoreRest { s.core with
          frames := { cs := g.cs, ds := g.ds, fp := g.sp - 4, ip := g.ip } :: s.core.frames } t.core
      ∧ wordAt t (pushSlot g 0) = g.ip ∧ wordAt t (pushSlot g 1) = g.fp
      ∧ DataKept s t (fun a => a = pushSlot g 0 ∨ a = pushSlot g 1) []

/-- `RET`: `FP` and `IP` from the two words at `SP`, `SP` past them, the frame gone, nothing stored (44_stack_call.md R174). -/
def Obligations.RetResult : Prop :=
  ∀ (s : State) (f : Frame), s.core.frames.head? = some f →
    (s.cfg.frameCheck = true → s.core.regs.sp = f.fp) →
    AllWriteBackOk s → DataKeysDistinct s → Readable s (stackSlot s.core.regs 0) → Readable s (stackSlot s.core.regs 1) →
    Coherent s (stackSlot s.core.regs 1) →
    let g := s.core.regs
    ∃ t, exec .ret s = .next t ∧ sameSurroundings s t ∧ sameHost s t
      ∧ t.core.regs = { g with
          fp := wordAt s (stackSlot g 0), ip := wordAt s (stackSlot g 1), sp := g.sp + 4, cnt := g.cnt + 1 }
      ∧ sameCoreRest { s.core with frames := s.core.frames.tail } t.core
      ∧ DataKept s t (fun _ => False) []

/-- A call and an immediate return: every register but `CNT` is as before the call, `IP` is after it, the frames are as before
(44_stack_call.md R173, R174). -/
def Obligations.CallThenRet : Prop :=
  ∀ (s : State) (o : Operand), Allowed (.call o) s = true →
    let g := s.core.regs.advance
    AllWriteBackOk s → DataKeysDistinct s → Writable s (pushSlot g 0) → Writable s (pushSlot g 1) →
    Readable s (pushSlot g 0) → Readable s (pushSlot g 1) →
    ∃ t u, exec (.call o) s = .next t ∧ exec .ret t = .next u
      ∧ u.core.regs = { g with cnt := g.cnt + 2 } ∧ u.core.frames = s.core.frames
      ∧ DataKept s u (fun a => a = pushSlot g 0 ∨ a = pushSlot g 1) []

/-- `RET` and `RETINT` without a frame, with `SP` off the frame under `FRAME_CHECK`, and `RETINT` with no entry active: the core
dies before any pop (44_stack_call.md R174; 60_exceptions.md R214). -/
def Obligations.FrameFaultsKill : Prop :=
  ∀ s : State,
    (s.core.frames = [] →
        exec .ret s = .next (die (exc (.cpuException .frameUnderflow) .nothing) (siteOf .ret s) s.advanced)
        ∧ (s.core.regs.flags.p = true →
            exec .retint s = .next (die (exc (.cpuException .frameUnderflow) .nothing) (siteOf .retint s) s.advanced)))
    ∧ (∀ f, s.core.frames.head? = some f → s.cfg.frameCheck = true → s.core.regs.sp ≠ f.fp →
        exec .ret s = .next (die (exc (.cpuException .frameMismatch) .nothing) (siteOf .ret s) s.advanced)
        ∧ (s.core.regs.flags.p = true →
            exec .retint s = .next (die (exc (.cpuException .frameMismatch) .nothing) (siteOf .retint s) s.advanced)))
    ∧ (∀ f, s.core.frames.head? = some f → (s.cfg.frameCheck = true → s.core.regs.sp = f.fp) → s.core.istack = [] →
        s.core.regs.flags.p = true →
        exec .retint s = .next (die (exc (.cpuException .istackUnderflow) .nothing) (siteOf .retint s) s.advanced))

/-! ## Privileged instructions and ports -/

/-- `CLI`, `STI` and `RST` in privileged mode: `H`, or the general registers and all six flags; nothing else. In unprivileged mode
the core dies (45_privileged_io.md R181, R182, R184). -/
def Obligations.ClearSetAndReset : Prop :=
  ∀ s : State,
    (s.core.regs.flags.p = true →
      exec .cli s = .next (s.afterRegs fun g => { g with flags := { g.flags with h := false } })
      ∧ exec .sti s = .next (s.afterRegs fun g => { g with flags := { g.flags with h := true } })
      ∧ exec .rst s = .next (s.afterRegs fun g => { g with
          gpr := Vector.replicate 32 0
          flags := { p := false, h := true, e := false, z := false, o := false, s := false } }))
    ∧ (s.core.regs.flags.p = false → ∀ i ∈ [Instr.cli, .sti, .rst],
        exec i s = .next (die (exc .accessViolation .instruction) (siteOf i s) s.advanced))

/-- `HLT` in privileged mode, and the host's halt of a live core. If every write-back is permitted the core halts, `HLT` with its
exit code, the host's halt with the one it had, and every dirty word of the data cache is in memory and clean, in its place. If one is
refused the core dies of the first refused entry, with exit code 1, and the rest of the cache is flushed all the same; where the record
of the host's halt attributes the raise is the model's choice (log 19) (45_privileged_io.md R183; 60_exceptions.md R206, R221;
20_memory.md R79). -/
def Obligations.HaltFlushes : Prop :=
  (∀ (s : State) (o : Operand), s.core.regs.flags.p = true → s.core.alive = true → DataKeysDistinct s →
    let g := s.core.regs.advance
    (AllWriteBackOk s →
      ∃ t, exec (.hlt o) s = .next t ∧ sameSurroundings s t ∧ sameHost s t ∧ t.core.regs = g.count
        ∧ sameCoreRest (s.core.haltedWith (operandValue g o) s.core.fault) t.core
        ∧ (∀ e ∈ t.core.dcache, e.dirty = false) ∧ Flushed s t)
    ∧ ∀ d, FirstRefused s d →
      ∃ t, exec (.hlt o) s = .next t ∧ sameSurroundings s t ∧ sameHost s t ∧ t.core.regs = g
        ∧ sameCoreRest (s.core.haltedWith 1 (recorded s.advanced.core (refusal d) (siteOf (.hlt o) s))) t.core
        ∧ Flushed s t)
  ∧ ∀ (s : State) (rest : List Choice), s.agenda = .host .halt :: rest → s.core.alive = true → DataKeysDistinct s →
    (AllWriteBackOk s →
      ∃ t, step s = .next t ∧ sameSurroundings { s with agenda := rest } t ∧ sameHost s t ∧ t.core.regs = s.core.regs
        ∧ sameCoreRest (s.core.haltedWith s.core.exitCode s.core.fault) t.core
        ∧ (∀ e ∈ t.core.dcache, e.dirty = false) ∧ Flushed s t)
    ∧ ∀ d, FirstRefused s d →
      ∃ t, step s = .next t ∧ sameSurroundings { s with agenda := rest } t ∧ sameHost s t ∧ t.core.regs = s.core.regs
        ∧ sameCoreRest (s.core.haltedWith 1 (recorded s.core (refusal d) (outsideSite .hostHalt s))) t.core
        ∧ Flushed s t

/-- `IN`, `INB`, `OUT` and `OUTB` on a port the check lets through: the draw or the value handed over, what the host observes, and
nothing else; no flag (45_privileged_io.md R186 to R190). -/
def Obligations.PortTraffic : Prop :=
  ∀ (s : State) (o : Operand) (r : Reg),
    let g := s.core.regs.advance
    let p := operandValue g o
    PortOk s p →
    (Allowed (.inw r o) s = true → exec (.inw r o) s
        = .next ((s.portDrawn.noted (.portRead16 p (nextPort s))).withRegs (g.write r (nextPort s)).count))
    ∧ (Allowed (.inb r o) s = true → exec (.inb r o) s
        = .next ((s.portDrawn.noted (.portRead8 p ((nextPort s).extractLsb' 0 8))).withRegs
            (g.write r ((nextPort s) &&& 0x00FF)).count))
    ∧ (Allowed (.outw o r) s = true → exec (.outw o r) s
        = .next ((s.noted (.portWrite16 p (g.read r))).withRegs g.count))
    ∧ (Allowed (.outb o r) s = true → exec (.outb o r) s
        = .next ((s.noted (.portWrite8 p ((g.read r).extractLsb' 0 8))).withRegs g.count))

/-- A port that is not registered, and a protected port in unprivileged mode, kill the core; nothing is drawn or handed over
(45_privileged_io.md R186). -/
def Obligations.PortFaultsKill : Prop :=
  ∀ (s : State) (o : Operand) (r : Reg),
    let p := operandValue s.core.regs.advance o
    ∀ i ∈ [Instr.inw r o, Instr.inb r o, Instr.outw o r, Instr.outb o r], Allowed i s = true →
      (portMark p s.cfg.ports = none →
          exec i s = .next (die (exc .resourceNotFound (.port p)) (siteOf i s) s.advanced))
      ∧ (portMark p s.cfg.ports = some true → s.core.regs.flags.p = false →
          exec i s = .next (die (exc .accessViolation (.port p)) (siteOf i s) s.advanced))

/-! ## Atomic and interrupts -/

/-- `CAS`: on a match the new word goes to memory and `E` is set, else the observed word goes to `re` and `E` is cleared; the data
cache is not involved (46_atomic_interrupt.md R191; 20_memory.md R64). -/
def Obligations.CompareAndSwapResult : Prop :=
  ∀ (s : State) (ra re rn : Reg), Allowed (.cas ra re rn) s = true →
    let g := s.core.regs.advance
    let a := phys g.ds (g.read ra)
    a % 2 = 0 → a + 2 ≤ s.cfg.memSize → (s.mc.pageView s.cfg (pageOf a)).read = true →
    (s.mc.pageView s.cfg (pageOf a)).write = true →
    ∃ t, exec (.cas ra re rn) s = .next t ∧ sameSurroundings s t ∧ sameHost s t ∧ sameAccess s t ∧ sameTables s t
      ∧ (s.mc.u16At a = g.read re →
          t.core = { s.core with regs := (g.setFlags fun f => { f with e := true }).count }
          ∧ t.mc.u16At a = g.read rn ∧ (∀ b, b ≠ a → b ≠ a + 1 → t.mc.byteAt b = s.mc.byteAt b)
          ∧ (t.mc.pageView t.cfg (pageOf a)).dirty = true)
      ∧ (s.mc.u16At a ≠ g.read re →
          t.core = { s.core with
            regs := ((g.write re (s.mc.u16At a)).setFlags fun f => { f with e := false }).count }
          ∧ sameBytes s t)

/-- A data access that raises kills the core, with what was done before the raise. `LW`, `STW`, `PUSH`, `POP`, `CALL`, `RET` and
`RETINT` go through the data cache: misaligned, out of bounds, not permitted, or a refused write-back of the entry evicted to make room
(`LoadFails`, `StoreFails`); a push has moved `SP` by then, and the pushes and pops before the one that raises are done. `LB`, `STB`
and `CAS`, which needs both permissions, go past it: misaligned, out of bounds or not permitted, in that order (20_memory.md R60 to
R64, R75 to R77; 44_stack_call.md R170, R173, R174; 60_exceptions.md R214). -/
def Obligations.DataFaultsKill : Prop :=
  ∀ (s : State) (r b c : Reg) (o : Operand) (off : Int) (e : Exc) (t : State),
    let g := s.core.regs.advance
    let a := phys g.ds (BitVec.ofInt 16 ((g.read b).toNat + off))
    let x := phys g.ds (g.read r)
    let dies (i : Instr) (e : Exc) (t : State) : Prop := exec i s = .next (die e (siteOf i s) t)
    (Allowed (.lw r b off) s = true → LoadFails s.advanced a e t → dies (.lw r b off) e t)
    ∧ (Allowed (.stw b off r) s = true → StoreFails s.advanced a e t → dies (.stw b off r) e t)
    ∧ (Allowed (.push r) s = true → PushFails [g.read r] s.advanced e t → dies (.push r) e t)
    ∧ (Allowed (.pop r) s = true → LoadFails s.advanced (phys g.ds g.sp) e t → dies (.pop r) e t)
    ∧ (Allowed (.call o) s = true → PushFails [g.ip, g.fp] s.advanced e t → dies (.call o) e t)
    ∧ (∀ f, s.core.frames.head? = some f → (s.cfg.frameCheck = true → s.core.regs.sp = f.fp) →
        (PopFails 2 s.advanced e t → dies .ret e t)
        ∧ (s.core.regs.flags.p = true → s.core.istack ≠ [] → PopFails 38 s.advanced e t → dies .retint e t))
    ∧ (Allowed (.lb r b off) s = true →
      (¬ a + 1 ≤ s.cfg.memSize → dies (.lb r b off) (exc .accessViolation (.address a)) s.advanced)
      ∧ (a + 1 ≤ s.cfg.memSize → (s.mc.pageView s.cfg (pageOf a)).read = false →
          dies (.lb r b off) (exc .accessViolation (.address a)) (s.advanced.touched (pageOf a))))
    ∧ (Allowed (.stb b off r) s = true →
      (¬ a + 1 ≤ s.cfg.memSize → dies (.stb b off r) (exc .accessViolation (.address a)) s.advanced)
      ∧ (a + 1 ≤ s.cfg.memSize → (s.mc.pageView s.cfg (pageOf a)).write = false →
          dies (.stb b off r) (exc .accessViolation (.address a)) (s.advanced.touched (pageOf a))))
    ∧ (Allowed (.cas r b c) s = true →
      (x % 2 ≠ 0 → dies (.cas r b c) (exc .misalignedAccess (.address x)) s.advanced)
      ∧ (x % 2 = 0 → ¬ x + 2 ≤ s.cfg.memSize → dies (.cas r b c) (exc .accessViolation (.address x)) s.advanced)
      ∧ (x % 2 = 0 → x + 2 ≤ s.cfg.memSize →
          (s.mc.pageView s.cfg (pageOf x)).read = false ∨ (s.mc.pageView s.cfg (pageOf x)).write = false →
          dies (.cas r b c) (exc .accessViolation (.address x)) (s.advanced.touched (pageOf x))))

/-- `INT` of an index with a virtual handler: the handler's registers and its writes in order, or the core dies of its fault; no
entry is made (46_atomic_interrupt.md R192; 60_exceptions.md R219). For every answer of the host. -/
def Obligations.VirtualInterruptResult : Prop :=
  ∀ (s : State) (o : Operand), Allowed (.int o) s = true →
    let g := s.core.regs.advance
    let n := operandValue g o
    s.cfg.vint.contains n = true →
    (∀ gpr writes, nextVint s = .ok gpr writes → (∀ w ∈ writes, w.Ok s.cfg.memSize) →
        ∃ t, exec (.int o) s = .next t ∧ sameSurroundings s t
          ∧ sameHost (s.vintDrawn.noted (.virtualInterrupt n (nextVint s))) t
          ∧ t.core = { s.core with regs := { g with gpr := gpr }.count }
          ∧ (∀ b, t.mc.byteAt b = byteWritten b (s.mc.byteAt b) writes) ∧ sameAccess s t ∧ sameTables s t)
    ∧ (∀ kind info, nextVint s = .fail kind info →
        exec (.int o) s = .next (die { kind := kind, info := info, vint := some n } (siteOf (.int o) s)
          ((s.vintDrawn.noted (.virtualInterrupt n (nextVint s))).withRegs g)))

/-- `INT` of an index without one: a fresh page in the vector's data segment, the 38 words of the layout on it, a frame, privileged
mode with IRQs off, and the vector's `CS:IP` (46_atomic_interrupt.md R192; 60_exceptions.md R212). -/
def Obligations.SoftwareInterruptEntry : Prop :=
  ∀ (s : State) (o : Operand) (v : IntVector) (p : Nat), Allowed (.int o) s = true →
    let g := s.core.regs.advance
    let n := operandValue g o
    s.cfg.vint.contains n = false → EntryOk s s.cfg.intTableBase s.cfg.intCount n.toNat v p →
    ∃ t, exec (.int o) s = .next t ∧ sameSurroundings s t ∧ sameHost s t
      ∧ t.core.regs = (entryRegs g v p).count
      ∧ sameCoreRest { s.core with
          frames := { cs := g.cs, ds := v.ds, fp := pageTop p - 76, ip := g.ip } :: s.core.frames
          istack := p :: s.core.istack
          idle := false } t.core
      ∧ (∀ k (h : k < (entryWords g).length),
          wordAt t (phys v.ds (pageTop p - BitVec.ofNat 16 (2 * (k + 1)))) = (entryWords g)[k])
      ∧ (t.mc.pageView t.cfg p).read = true ∧ (t.mc.pageView t.cfg p).write = true
      ∧ (t.mc.pageView t.cfg p).execute = false
      ∧ DataKept s t (fun a => pageOf a = p) [p]

/-- An IRQ is taken before the next instruction, idle or not: the head of the queue, the IRQ table, the same entry; the `IP` it saves is
not advanced and `CNT` does not count (60_exceptions.md R201, R210, R212). -/
def Obligations.IrqEntry : Prop :=
  ∀ (s : State) (i : Nat) (rest : List Nat) (v : IntVector) (p : Nat), OwnTurn s →
    s.core.alive = true → s.core.running = true → s.core.regs.flags.h = true → s.core.pending = i :: rest →
    EntryOk s s.cfg.irqTableBase s.cfg.irqCount i v p →
    let g := s.core.regs
    ∃ t, step s = .next t ∧ sameSurroundings s.onTurn t ∧ sameHost s t
      ∧ t.core.regs = entryRegs g v p
      ∧ sameCoreRest { s.core with
          frames := { cs := g.cs, ds := v.ds, fp := pageTop p - 76, ip := g.ip } :: s.core.frames
          istack := p :: s.core.istack
          pending := rest
          idle := false } t.core
      ∧ (∀ k (h : k < (entryWords g).length),
          wordAt t (phys v.ds (pageTop p - BitVec.ofNat 16 (2 * (k + 1)))) = (entryWords g)[k])
      ∧ DataKept s t (fun a => pageOf a = p) [p]

/-- An interrupt entry that raises kills the core, by `INT` and by IRQ alike: a vector index past its table, a vector outside
memory, a data segment with no free page (one past the end of memory has none, log 11), or a push whose eviction is refused
(`EntryFails`). An accepted IRQ has left the queue by then, and where its record attributes the raise is the model's choice (log 19)
(60_exceptions.md R211, R212; 20_memory.md R56, R67, R77). -/
def Obligations.InterruptEntryFaultsKill : Prop :=
  (∀ (s : State) (o : Operand) (e : Exc) (t : State), Allowed (.int o) s = true →
    let n := operandValue s.core.regs.advance o
    s.cfg.vint.contains n = false → EntryFails s.advanced s.cfg.intTableBase s.cfg.intCount n.toNat e t →
    exec (.int o) s = .next (die e (siteOf (.int o) s) t))
  ∧ (∀ (s : State) (i : Nat) (rest : List Nat) (e : Exc) (t : State), OwnTurn s → s.core.alive = true →
    s.core.running = true → s.core.regs.flags.h = true → s.core.pending = i :: rest →
    EntryFails { s.onTurn with core := { s.core with pending := rest } } s.cfg.irqTableBase s.cfg.irqCount i e t →
    step s = .next (die e (outsideSite .irqAcceptance s) t))

/-- `RETINT`: the 38 words at `SP` give back the registers, flags, `CS`, `SP` and `DS`; the frame and the interrupt-stack entry go,
the page is freed and none of its words stays in the data cache (45_privileged_io.md R185; 60_exceptions.md R214;
20_memory.md R80). -/
def Obligations.ReturnFromInterrupt : Prop :=
  ∀ (s : State) (f : Frame) (p : Nat), s.core.regs.flags.p = true → ExitOk s f p →
    ∃ t, exec .retint s = .next t ∧ sameSurroundings s t ∧ sameHost s t
      ∧ t.core.regs = (exitRegs s.core.regs fun k => wordAt s (stackSlot s.core.regs k)).count
      ∧ sameCoreRest { s.core with frames := s.core.frames.tail, istack := s.core.istack.tail } t.core
      ∧ t.mc.page p = none ∧ (∀ e ∈ t.core.dcache, pageOf e.addr ≠ p)
      ∧ DataKept s t (fun a => pageOf a = p) [p]

/-- An interrupt left by `RETINT` with nothing in between restores the machine. Entered by `INT`: every register but `CNT`, `SP` and
the privilege among them, with `IP` after the `INT`; entered by an IRQ: every register but `CNT`, with `IP` where it was. The frames
and the interrupt stacks are as before, the page is gone, and no other word has changed (60_exceptions.md R212, R214, R216). -/
def Obligations.InterruptThenRetintRestores : Prop :=
  (∀ (s : State) (o : Operand) (v : IntVector) (p : Nat), Allowed (.int o) s = true →
    let g := s.core.regs.advance
    let n := operandValue g o
    s.cfg.vint.contains n = false → EntryOk s s.cfg.intTableBase s.cfg.intCount n.toNat v p →
    ∃ t u, exec (.int o) s = .next t ∧ exec .retint t = .next u
      ∧ u.core.regs = { g with cnt := g.cnt + 2 }
      ∧ u.core.frames = s.core.frames ∧ u.core.istack = s.core.istack
      ∧ u.mc.page p = none ∧ DataKept s u (fun a => pageOf a = p) [p])
  ∧ ∀ (s : State) (i : Nat) (rest : List Nat) (v : IntVector) (p : Nat), OwnTurn s →
    s.core.alive = true → s.core.running = true → s.core.regs.flags.h = true → s.core.pending = i :: rest →
    EntryOk s s.cfg.irqTableBase s.cfg.irqCount i v p →
    ∃ t u, step s = .next t ∧ exec .retint t = .next u
      ∧ u.core.regs = { s.core.regs with cnt := s.core.regs.cnt + 1 }
      ∧ u.core.frames = s.core.frames ∧ u.core.istack = s.core.istack ∧ u.core.pending = rest
      ∧ u.mc.page p = none ∧ DataKept s u (fun a => pageOf a = p) [p]

/-! ## Memory, write-backs and the host -/

/-- Memory in canonical form: a write keeps it, a byte read after a write gives the value written and every other byte stays, and
two memories that read the same are the same data (20_memory.md R53, R60, R61). -/
def Obligations.CanonicalMemory : Prop :=
  ∀ m : Memory, m.wf = true →
    (∀ a v, (m.write a v).wf = true ∧ ∀ b, (m.write a v).read b = if b = a then v else m.read b)
    ∧ ∀ n : Memory, n.wf = true → (∀ a, m.read a = n.read a) → m = n

/-- A spontaneous write-back puts one dirty word in memory and marks it clean, in its place; no register and no other byte
changes. One that raises kills the core; where the record attributes it is the model's choice (log 19) (20_memory.md R77, R81;
60_exceptions.md R201). -/
def Obligations.SpontaneousWriteBack : Prop :=
  ∀ (s : State) (d : DEntry) (rest : List Choice), s.agenda = .writeBack d.addr :: rest → s.core.alive = true →
    findData d.addr s.core.dcache = some d → d.dirty = true →
    (WriteBackOk s d → DataKeysDistinct s →
      ∃ t, step s = .next t ∧ sameSurroundings { s with agenda := rest } t ∧ sameHost s t
        ∧ t.core = { s.core with
            dcache := s.core.dcache.map fun c => if c.addr = d.addr then { d with dirty := false } else c }
        ∧ (∀ b, t.mc.byteAt b = byteAfter s.mc (some d) b) ∧ sameAccess s t ∧ sameTables s t)
    ∧ ∀ e t, WriteBackFails { s with agenda := rest } d e t → step s = .next (die e (outsideSite .writeBack s) t)

/-- What the host does to a core's run state and queue between two transitions: exactly one field each, and nothing by a halt of a
core that is not alive. Its halt of a live core is part of `HaltFlushes` (60_exceptions.md R211, R220, R221, R225, R228). -/
def Obligations.HostRunControl : Prop :=
  ∀ (s : State) (rest : List Choice),
    let after (c : Core) : State := { s with agenda := rest, core := c }
    (∀ i, s.agenda = .host (.enqueueIrq i) :: rest →
        step s = .next (after { s.core with pending := s.core.pending ++ [i] }))
    ∧ (s.agenda = .host .suspend :: rest → s.core.alive = true → step s = .next (after { s.core with running := false }))
    ∧ (s.agenda = .host .wakeUp :: rest → s.core.alive = true → step s = .next (after { s.core with running := true }))
    ∧ (s.agenda = .host .setIdle :: rest → s.core.alive = true → step s = .next (after { s.core with idle := true }))
    ∧ (s.agenda = .host .halt :: rest → s.core.alive = false → step s = .next (after s.core))

/-- A non-privileged write to a page without `write` raises, and succeeds once the host has set the flag on it
(20_memory.md R61, R88). -/
def Obligations.PageProtection : Prop :=
  ∀ (s : State) (a : Nat) (v : Byte) (d : Bool), a + 1 ≤ s.cfg.memSize →
    ((s.mc.pageView s.cfg (pageOf a)).write = false →
      memWrite8 a v false d s = .error (exc .accessViolation (.address a)) (s.touched (pageOf a)))
    ∧ ∃ t, updateAreaFlags a 1 .write true s = .ok () t ∧ sameBytes s t ∧ t.core = s.core
        ∧ (∀ q, q ≠ pageOf a → t.mc.page q = s.mc.page q)
        ∧ ∃ u, memWrite8 a v false d t = .ok () u ∧ ∀ b, u.mc.byteAt b = if b = a then v else s.mc.byteAt b

/-- The machine's exit code is the maximum over its cores (60_exceptions.md R207). -/
def Obligations.MachineExitCodeIsMaximum : Prop :=
  ∀ s : State, (∀ c ∈ s.core :: s.others, c.exitCode.toNat ≤ machineExitCode s)
    ∧ ∃ c ∈ s.core :: s.others, c.exitCode.toNat = machineExitCode s

/-! ## Whole-machine rules -/

/-- Every transition keeps the invariant: memory stays canonical and inside existing pages, the caches stay within capacity with
distinct, aligned keys, the run state stays legal (20_memory.md R53 to R55, R70, R74; 60_exceptions.md R200). -/
def Obligations.StepKeepsInvariant : Prop := ∀ s t : State, Inv s → step s = .next t → Inv t

/-- No instruction, completing or dying, changes the configuration, another core, the script, its own cache capacities, IRQ queue
or instruction cache (10_state.md R32, R36; 20_memory.md R72; 60_exceptions.md R206, R223). -/
def Obligations.NoInstructionReachesOutside : Prop :=
  ∀ (i : Instr) (s : State), ∃ t, exec i s = .next t ∧ sameSurroundings s t ∧ t.core.sizes = s.core.sizes
    ∧ t.core.booted = s.core.booted ∧ t.core.pending = s.core.pending ∧ t.core.icache = s.core.icache

/-- In unprivileged mode no instruction but `INT` changes `P`, `H`, `CS`, `DS` or the interrupt-stack list (10_state.md R23;
60_exceptions.md R216). -/
def Obligations.UserModeKeepsPrivilegedState : Prop :=
  ∀ (i : Instr) (s t : State), s.core.regs.flags.p = false → (∀ o, i ≠ .int o) → exec i s = .next t →
    t.core.regs.flags.p = false ∧ t.core.regs.flags.h = s.core.regs.flags.h ∧ t.core.regs.cs = s.core.regs.cs
      ∧ t.core.regs.ds = s.core.regs.ds ∧ t.core.istack = s.core.istack ∧ t.core.idle = s.core.idle

/-- Unprivileged code becomes privileged only through an accepted IRQ or an `INT` without a virtual handler; host actions and a
change of focus apart (60_exceptions.md R216). -/
def Obligations.PrivilegeOnlyThroughInterrupts : Prop :=
  ∀ s t : State, (∀ k, s.agenda.head? ≠ some (.select k)) → (∀ a, s.agenda.head? ≠ some (.host a)) → step s = .next t →
    s.core.regs.flags.p = false → t.core.regs.flags.p = true →
    OwnTurn s ∧ ((s.core.regs.flags.h = true ∧ s.core.pending ≠ [])
      ∨ ∃ o u, fetch s.onTurn = .ok (.int o) u ∧ s.cfg.vint.contains (operandValue u.core.regs.advance o) = false)
end

