-- ==== Sys2Proof/Laws/Assoc.lean ====
section
/-! SUPPORT. Lists of key and value in strictly rising order of key: what `lookup` finds after `put`, `drop` and a filter on
keys, and that each keeps the order. -/

namespace Sys2Proof.Machine

variable {β : Type}

theorem lookup_put_self (k : Nat) (v : β) (l : List (Nat × β)) : lookup k (put k v l) = some v := by
  induction l with
  | nil => simp [put, lookup]
  | cons c l ih =>
    obtain ⟨a, w⟩ := c
    unfold put
    split
    · next h => simp [lookup, ih, Nat.ne_of_lt h]
    · split <;> simp [lookup]

theorem lookup_put_of_ne {j k : Nat} (h : j ≠ k) (v : β) (l : List (Nat × β)) : lookup j (put k v l) = lookup j l := by
  induction l with
  | nil => simp [put, lookup, Ne.symm h]
  | cons c l ih =>
    obtain ⟨a, w⟩ := c
    unfold put
    split
    · simp [lookup, ih]
    · split
      · next he => simp at he; simp [lookup, he, Ne.symm h]
      · simp [lookup, Ne.symm h]

theorem lookup_put (j k : Nat) (v : β) (l : List (Nat × β)) :
    lookup j (put k v l) = if j = k then some v else lookup j l := by
  split
  · next h => rw [h, lookup_put_self]
  · next h => exact lookup_put_of_ne h v l

theorem risingFrom_mono {lo hi : Nat} (h : lo ≤ hi) {l : List (Nat × β)} (hl : risingFrom hi l = true) :
    risingFrom lo l = true := by
  cases l with
  | nil => rfl
  | cons c l =>
    obtain ⟨a, w⟩ := c
    simp only [risingFrom, Bool.and_eq_true, decide_eq_true_eq] at hl ⊢
    exact ⟨Nat.le_trans h hl.1, hl.2⟩

theorem lookup_eq_none_of_lt {k lo : Nat} (h : k < lo) {l : List (Nat × β)} (hl : risingFrom lo l = true) :
    lookup k l = none := by
  induction l generalizing lo with
  | nil => rfl
  | cons c l ih =>
    obtain ⟨a, w⟩ := c
    simp only [risingFrom, Bool.and_eq_true, decide_eq_true_eq] at hl
    have hne : a ≠ k := by omega
    simp only [lookup, beq_iff_eq, hne, if_false]
    exact ih (lo := a + 1) (by omega) hl.2

theorem mem_put {c : Nat × β} {k : Nat} {v : β} {l : List (Nat × β)} (h : c ∈ put k v l) : c = (k, v) ∨ c ∈ l := by
  induction l with
  | nil => simpa [put] using h
  | cons d l ih =>
    obtain ⟨a, w⟩ := d
    unfold put at h
    split at h
    · rcases List.mem_cons.1 h with h | h
      · exact .inr (by simp [h])
      · rcases ih h with h | h
        · exact .inl h
        · exact .inr (by simp [h])
    · split at h
      · rcases List.mem_cons.1 h with h | h
        · exact .inl h
        · exact .inr (by simp [h])
      · rcases List.mem_cons.1 h with h | h
        · exact .inl h
        · exact .inr h

theorem rising_put {k lo : Nat} (hk : lo ≤ k) (v : β) {l : List (Nat × β)} (hl : risingFrom lo l = true) :
    risingFrom lo (put k v l) = true := by
  induction l generalizing lo with
  | nil => simp [put, risingFrom, hk]
  | cons c l ih =>
    obtain ⟨a, w⟩ := c
    simp only [risingFrom, Bool.and_eq_true, decide_eq_true_eq] at hl
    unfold put
    split
    · next h =>
      simp only [risingFrom, Bool.and_eq_true, decide_eq_true_eq]
      exact ⟨hl.1, ih (by omega) hl.2⟩
    · next h =>
      split
      · next he =>
        simp only [beq_iff_eq] at he
        simp only [risingFrom, Bool.and_eq_true, decide_eq_true_eq]
        exact ⟨hk, he ▸ hl.2⟩
      · next he =>
        simp only [beq_iff_eq] at he
        simp only [risingFrom, Bool.and_eq_true, decide_eq_true_eq]
        exact ⟨hk, by omega, hl.2⟩

theorem rising_filter {lo : Nat} (f : Nat × β → Bool) {l : List (Nat × β)} (hl : risingFrom lo l = true) :
    risingFrom lo (l.filter f) = true := by
  induction l generalizing lo with
  | nil => rfl
  | cons c l ih =>
    obtain ⟨a, w⟩ := c
    simp only [risingFrom, Bool.and_eq_true, decide_eq_true_eq] at hl
    rw [List.filter_cons]
    split
    · simp only [risingFrom, Bool.and_eq_true, decide_eq_true_eq]
      exact ⟨hl.1, ih hl.2⟩
    · exact risingFrom_mono (by omega) (ih hl.2)

/-- A filter on keys hides the keys it rejects and leaves the others. -/
theorem lookup_filter (keep : Nat → Bool) (k : Nat) (l : List (Nat × β)) :
    lookup k (l.filter fun c => keep c.1) = if keep k then lookup k l else none := by
  induction l with
  | nil => simp [lookup]
  | cons c l ih =>
    obtain ⟨a, w⟩ := c
    rw [List.filter_cons]
    by_cases ha : a = k
    · subst ha
      by_cases hk : keep a = true
      · simp [lookup, hk]
      · simp only [hk, Bool.false_eq_true, if_false, ih]
    · by_cases hk : keep a = true
      · simp [lookup, hk, ha, ih]
      · simp [lookup, hk, ha, ih]

theorem lookup_drop (j k : Nat) (l : List (Nat × β)) : lookup j (drop k l) = if j = k then none else lookup j l := by
  rw [drop, lookup_filter (fun a => !(a == k))]
  by_cases h : j = k <;> simp [h]

theorem lookup_drop_self (k : Nat) (l : List (Nat × β)) : lookup k (drop k l) = none := by simp [lookup_drop]

theorem mem_of_mem_drop {c : Nat × β} {k : Nat} {l : List (Nat × β)} (h : c ∈ drop k l) : c ∈ l :=
  (List.mem_filter.1 h).1

theorem rising_drop (k : Nat) {lo : Nat} {l : List (Nat × β)} (hl : risingFrom lo l = true) :
    risingFrom lo (drop k l) = true := rising_filter _ hl

theorem lookup_isSome_of_mem {c : Nat × β} {l : List (Nat × β)} (h : c ∈ l) : (lookup c.1 l).isSome = true := by
  induction l with
  | nil => cases h
  | cons d l ih =>
    obtain ⟨a, w⟩ := d
    unfold lookup
    split
    · rfl
    · next hne =>
      rcases List.mem_cons.1 h with h | h
      · simp [h] at hne
      · exact ih h

theorem mem_of_lookup {k : Nat} {v : β} {l : List (Nat × β)} (h : lookup k l = some v) : (k, v) ∈ l := by
  induction l with
  | nil => simp [lookup] at h
  | cons d l ih =>
    obtain ⟨a, w⟩ := d
    unfold lookup at h
    split at h
    · next he =>
      simp only [beq_iff_eq] at he
      simp only [Option.some.injEq] at h
      simp [he, h]
    · exact List.mem_cons_of_mem _ (ih h)

end Sys2Proof.Machine
end

