-- ==== Sys2Proof/Laws/Monad.lean ====
section
/-! SUPPORT. What one line of pseudocode does to a state, and how lines compose: the lemmas by which a meaning is run
symbolically, and the two ways a property is carried through it (`Keeps`, `Same`). -/

namespace Sys2Proof.Machine

/-- The state a run leaves, whether it answered or raised. -/
def left {α : Type} : EStateM.Result Exc State α → State
  | .ok _ t => t
  | .error _ t => t

@[simp] theorem left_ok {α : Type} (a : α) (t : State) : left (.ok a t : EStateM.Result Exc State α) = t := rfl
@[simp] theorem left_error {α : Type} (e : Exc) (t : State) :
    left (.error e t : EStateM.Result Exc State α) = t := rfl

@[simp] theorem pure_run {α : Type} (a : α) (s : State) : (pure a : M α) s = .ok a s := rfl

theorem bind_run {α β : Type} (x : M α) (f : α → M β) (s : State) :
    (x >>= f) s = match x s with
      | .ok a t => f a t
      | .error e t => .error e t := by
  change EStateM.bind x f s = _
  unfold EStateM.bind
  cases x s <;> rfl

theorem map_run {α β : Type} (f : α → β) (x : M α) (s : State) :
    (f <$> x) s = match x s with
      | .ok a t => .ok (f a) t
      | .error e t => .error e t := by
  change EStateM.map f x s = _
  unfold EStateM.map
  cases x s <;> rfl

theorem bind_ok {α β : Type} {x : M α} {f : α → M β} {s t : State} {a : α} (h : x s = .ok a t) :
    (x >>= f) s = f a t := by rw [bind_run, h]

theorem bind_error {α β : Type} {x : M α} {f : α → M β} {s t : State} {e : Exc} (h : x s = .error e t) :
    (x >>= f) s = .error e t := by rw [bind_run, h]

@[simp] theorem ask_run {α : Type} (f : State → α) (s : State) : ask f s = .ok (f s) s := rfl
@[simp] theorem act_run (f : State → State) (s : State) : act f s = .ok () (f s) := rfl
@[simp] theorem actCore_run (f : Core → Core) (s : State) :
    actCore f s = .ok () { s with core := f s.core } := rfl
@[simp] theorem actRegs_run (f : Regs → Regs) (s : State) :
    actRegs f s = .ok () { s with core := { s.core with regs := f s.core.regs } } := rfl
@[simp] theorem actMC_run (f : MC → MC) (s : State) : actMC f s = .ok () { s with mc := f s.mc } := rfl
@[simp] theorem raise_run {α : Type} (k : ExcKind) (i : ExcInfo) (s : State) :
    (raise k i : M α) s = .error { kind := k, info := i } s := rfl
theorem require_run (c : Bool) (k : ExcKind) (i : ExcInfo) (s : State) :
    require c k i s = if c then .ok () s else .error { kind := k, info := i } s := rfl
@[simp] theorem require_true (k : ExcKind) (i : ExcInfo) (s : State) : require true k i s = .ok () s := rfl
@[simp] theorem require_false (k : ExcKind) (i : ExcInfo) (s : State) :
    require false k i s = .error { kind := k, info := i } s := rfl
@[simp] theorem whenever_true (x : M Unit) : whenever true x = x := rfl
@[simp] theorem whenever_false (x : M Unit) : whenever false x = pure () := rfl
@[simp] theorem forEach_nil {α : Type} (f : α → M Unit) : forEach f [] = pure () := rfl
theorem forEach_cons {α : Type} (f : α → M Unit) (a : α) (l : List α) :
    forEach f (a :: l) = (f a >>= fun _ => forEach f l) := rfl

theorem forEach_append {α : Type} (f : α → M Unit) (l m : List α) (s : State) :
    forEach f (l ++ m) s = (forEach f l >>= fun _ => forEach f m) s := by
  induction l generalizing s with
  | nil => rfl
  | cons a l ih =>
    rw [List.cons_append, forEach_cons, forEach_cons]
    simp only [bind_run]
    cases h : f a s with
    | ok b t => simp only []; rw [ih t, bind_run]
    | error e t => rfl

/-! ## A property that a run keeps, whether it answers or raises -/

/-- `x` keeps `I`: a raise too leaves a state with `I` (00_scope.md R10: earlier effects stay). -/
def Keeps (I : State → Prop) {α : Type} (x : M α) : Prop := ∀ s, I s → I (left (x s))

theorem Keeps.pure {I : State → Prop} {α : Type} (a : α) : Keeps I (pure a : M α) := fun _ h => h

theorem Keeps.bind {I : State → Prop} {α β : Type} {x : M α} {f : α → M β} (hx : Keeps I x) (hf : ∀ a, Keeps I (f a)) :
    Keeps I (x >>= f) := by
  intro s h
  have h1 := hx s h
  rw [bind_run]
  cases hr : x s with
  | ok a t => rw [hr] at h1; exact hf a t h1
  | error e t => rw [hr] at h1; exact h1

theorem Keeps.ask {I : State → Prop} {α : Type} (f : State → α) : Keeps I (ask f) := fun _ h => h

theorem Keeps.raise {I : State → Prop} {α : Type} (k : ExcKind) (i : ExcInfo) : Keeps I (raise k i : M α) := fun _ h => h

theorem Keeps.require {I : State → Prop} (c : Bool) (k : ExcKind) (i : ExcInfo) : Keeps I (require c k i) := by
  intro s h
  rw [require_run]
  split <;> exact h

theorem Keeps.act {I : State → Prop} {f : State → State} (h : ∀ s, I s → I (f s)) : Keeps I (act f) := h

theorem Keeps.whenever {I : State → Prop} {x : M Unit} (c : Bool) (h : Keeps I x) : Keeps I (whenever c x) := by
  cases c
  · exact Keeps.pure ()
  · exact h

theorem Keeps.forEach {I : State → Prop} {α : Type} {f : α → M Unit} (h : ∀ a, Keeps I (f a)) (l : List α) :
    Keeps I (forEach f l) := by
  induction l with
  | nil => exact Keeps.pure ()
  | cons a l ih => exact Keeps.bind (h a) fun _ => ih

/-- What `x` keeps of every state is what it leaves unchanged: a view `v` of the state. -/
def Same {γ : Type} (v : State → γ) {α : Type} (x : M α) : Prop := ∀ s, v (left (x s)) = v s

theorem Same.keeps {γ α : Type} {v : State → γ} {x : M α} (h : ∀ c, Keeps (fun s => v s = c) x) : Same v x :=
  fun s => h (v s) s rfl

theorem Same.toKeeps {γ α : Type} {v : State → γ} {x : M α} (h : Same v x) (c : γ) : Keeps (fun s => v s = c) x :=
  fun s hs => (h s).trans hs

theorem Same.ok {γ α : Type} {v : State → γ} {x : M α} (h : Same v x) {s t : State} {a : α} (hr : x s = .ok a t) :
    v t = v s := by have := h s; rwa [hr] at this

theorem Same.error {γ α : Type} {v : State → γ} {x : M α} (h : Same v x) {s t : State} {e : Exc} (hr : x s = .error e t) :
    v t = v s := by have := h s; rwa [hr] at this

theorem Same.pure {γ α : Type} {v : State → γ} (a : α) : Same v (pure a : M α) := fun _ => rfl

theorem Same.bind {γ α β : Type} {v : State → γ} {x : M α} {f : α → M β} (hx : Same v x) (hf : ∀ a, Same v (f a)) :
    Same v (x >>= f) := by
  intro s
  rw [bind_run]
  cases hr : x s with
  | ok a t => exact (hf a t).trans (hx.ok hr)
  | error e t => exact hx.error hr

theorem Same.ask {γ α : Type} {v : State → γ} (f : State → α) : Same v (ask f) := fun _ => rfl

theorem Same.raise {γ α : Type} {v : State → γ} (k : ExcKind) (i : ExcInfo) : Same v (raise k i : M α) := fun _ => rfl

theorem Same.require {γ : Type} {v : State → γ} (c : Bool) (k : ExcKind) (i : ExcInfo) : Same v (require c k i) := by
  intro s
  rw [require_run]
  split <;> rfl

theorem Same.act {γ : Type} {v : State → γ} {f : State → State} (h : ∀ s, v (f s) = v s) : Same v (act f) := h

theorem Same.whenever {γ : Type} {v : State → γ} {x : M Unit} (c : Bool) (h : Same v x) : Same v (whenever c x) := by
  cases c
  · exact Same.pure ()
  · exact h

theorem Same.forEach {γ α : Type} {v : State → γ} {f : α → M Unit} (h : ∀ a, Same v (f a)) (l : List α) :
    Same v (forEach f l) := by
  induction l with
  | nil => exact Same.pure ()
  | cons a l ih => exact Same.bind (h a) fun _ => ih

end Sys2Proof.Machine
end

