-- ==== Sys2Proof/Laws/Memory.lean ====
section
/-! SUPPORT. The memory controller (20_memory.md R53 to R64): a byte read after a write, what each controller operation does to
every byte and every page, that memory keeps its canonical form, and what an access answers when it is permitted. -/

namespace Sys2Proof.Machine

/-! ## The byte store -/

theorem Memory.read_write (m : Memory) (a b : Nat) (v : Byte) :
    (m.write a v).read b = if b = a then v else m.read b := by
  unfold Memory.read Memory.write
  by_cases hv : v = Memory.blank
  · simp only [hv, beq_self_eq_true, if_true, lookup_drop]
    split <;> rfl
  · simp only [beq_iff_eq, hv, if_false, lookup_put]
    split <;> rfl

theorem Memory.read_writeAll (m : Memory) (a b : Nat) (bs : List Byte) :
    (m.writeAll a bs).read b = if a ≤ b ∧ b < a + bs.length then bs.getD (b - a) 0 else m.read b := by
  induction bs generalizing m a with
  | nil => simp only [Memory.writeAll, List.length_nil]; rw [if_neg (by omega)]
  | cons v bs ih =>
    simp only [Memory.writeAll, ih, Memory.read_write, List.length_cons]
    by_cases h1 : a + 1 ≤ b ∧ b < a + 1 + bs.length
    · rw [if_pos h1, if_pos (by omega)]
      obtain ⟨k, rfl⟩ : ∃ k, b = a + 1 + k := ⟨b - (a + 1), by omega⟩
      have : a + 1 + k - a = k + 1 := by omega
      simp [this]
    · rw [if_neg h1]
      by_cases h2 : b = a
      · subst h2
        rw [if_pos rfl, if_pos (by omega)]
        simp
      · rw [if_neg h2, if_neg (by omega)]

theorem Memory.read_clearPage (m : Memory) (p b : Nat) :
    (m.clearPage p).read b = if pageOf b = p then Memory.blank else m.read b := by
  unfold Memory.read Memory.clearPage pageOf
  rw [lookup_filter (fun a => !(a / 256 == p))]
  by_cases h : b / 256 = p <;> simp [h]

theorem Memory.wf_iff (m : Memory) :
    m.wf = true ↔ risingFrom 0 m = true ∧ ∀ c ∈ m, c.2 ≠ Memory.blank := by
  simp [Memory.wf]

theorem Memory.write_wf {m : Memory} (h : m.wf = true) (a : Nat) (v : Byte) : (m.write a v).wf = true := by
  rw [Memory.wf_iff] at h ⊢
  unfold Memory.write
  split
  · exact ⟨rising_drop a h.1, fun c hc => h.2 c (mem_of_mem_drop hc)⟩
  · next hv =>
    simp only [beq_iff_eq] at hv
    refine ⟨rising_put (Nat.zero_le a) v h.1, fun c hc => ?_⟩
    rcases mem_put hc with rfl | hc
    · exact hv
    · exact h.2 c hc

theorem Memory.writeAll_wf {m : Memory} (h : m.wf = true) (a : Nat) (bs : List Byte) : (m.writeAll a bs).wf = true := by
  induction bs generalizing m a with
  | nil => exact h
  | cons v bs ih => exact ih (Memory.write_wf h a v) (a + 1)

theorem Memory.clearPage_wf {m : Memory} (h : m.wf = true) (p : Nat) : (m.clearPage p).wf = true := by
  rw [Memory.wf_iff] at h ⊢
  exact ⟨rising_filter _ h.1, fun c hc => h.2 c (List.mem_filter.1 hc).1⟩

theorem Memory.mem_write {m : Memory} {a : Nat} {v : Byte} {c : Host.Cell} (h : c ∈ m.write a v) : c.1 = a ∨ c ∈ m := by
  unfold Memory.write at h
  split at h
  · exact .inr (mem_of_mem_drop h)
  · rcases mem_put h with rfl | h
    · exact .inl rfl
    · exact .inr h

theorem Memory.mem_writeAll {m : Memory} {a : Nat} {bs : List Byte} {c : Host.Cell} (h : c ∈ m.writeAll a bs) :
    (a ≤ c.1 ∧ c.1 < a + bs.length) ∨ c ∈ m := by
  induction bs generalizing m a with
  | nil => exact .inr h
  | cons v bs ih =>
    simp only [List.length_cons]
    rcases ih h with h | h
    · exact .inl (by omega)
    · rcases Memory.mem_write h with h | h
      · exact .inl (by omega)
      · exact .inr h

/-! ## Pages -/

@[simp] theorem MC.page_createPage (mc : MC) (p q : Nat) (pg : Page) :
    (mc.createPage p pg).page q = if q = p then some pg else mc.page q := by
  simp [MC.page, MC.createPage, lookup_put]

theorem MC.byteAt_createPage (mc : MC) (p b : Nat) (pg : Page) :
    (mc.createPage p pg).byteAt b = if pageOf b = p then Memory.blank else mc.byteAt b := by
  unfold MC.byteAt
  rw [MC.page_createPage]
  by_cases h : pageOf b = p
  · simp [h, MC.createPage, Memory.read_clearPage]
  · simp [h, MC.createPage, Memory.read_clearPage]

theorem MC.page_touchPage (mc : MC) (cfg : Config) (p q : Nat) :
    (mc.touchPage cfg p).page q = if q = p then some (mc.pageView cfg p) else mc.page q := by
  unfold MC.touchPage MC.pageView
  cases h : mc.page p with
  | some pg =>
    by_cases hq : q = p
    · subst hq; simp [h]
    · simp [hq]
  | none => simp

theorem MC.touchPage_isSome (mc : MC) (cfg : Config) (p : Nat) : ((mc.touchPage cfg p).page p).isSome = true := by
  simp [MC.page_touchPage]

/-- `GetPage` changes no flag and no byte that an access can see (20_memory.md R54). -/
@[simp] theorem MC.pageView_touchPage (mc : MC) (cfg : Config) (p q : Nat) :
    (mc.touchPage cfg p).pageView cfg q = mc.pageView cfg q := by
  unfold MC.pageView
  rw [MC.page_touchPage]
  by_cases h : q = p
  · simp [h, MC.pageView]
  · simp [h]

@[simp] theorem MC.byteAt_touchPage (mc : MC) (cfg : Config) (p b : Nat) :
    (mc.touchPage cfg p).byteAt b = mc.byteAt b := by
  unfold MC.touchPage
  cases h : mc.page p with
  | some pg => rfl
  | none =>
    rw [MC.byteAt_createPage]
    split
    · next hb => simp [MC.byteAt, hb, h]
    · rfl

@[simp] theorem MC.u16At_touchPage (mc : MC) (cfg : Config) (p a : Nat) :
    (mc.touchPage cfg p).u16At a = mc.u16At a := by simp [MC.u16At]

@[simp] theorem MC.u32At_touchPage (mc : MC) (cfg : Config) (p a : Nat) :
    (mc.touchPage cfg p).u32At a = mc.u32At a := by simp [MC.u32At]

theorem MC.touchPage_of_some {mc : MC} {cfg : Config} {p : Nat} {pg : Page} (h : mc.page p = some pg) :
    mc.touchPage cfg p = mc := by simp [MC.touchPage, h]

@[simp] theorem MC.touchPage_segments (mc : MC) (cfg : Config) (p : Nat) :
    (mc.touchPage cfg p).segments = mc.segments := by
  unfold MC.touchPage; split <;> rfl

@[simp] theorem MC.touchPage_regions (mc : MC) (cfg : Config) (p : Nat) :
    (mc.touchPage cfg p).regions = mc.regions := by
  unfold MC.touchPage; split <;> rfl

/-! ## Stores -/

theorem MC.page_markDirty (mc : MC) (p q : Nat) :
    (mc.markDirty p).page q = if q = p then (mc.page p).map (fun pg => { pg with dirty := true }) else mc.page q := by
  unfold MC.markDirty
  cases h : mc.page p with
  | none =>
    by_cases hq : q = p
    · subst hq; simp [h]
    · simp [hq]
  | some pg =>
    simp only [MC.page, lookup_put]
    split <;> simp

theorem MC.page_store (mc : MC) (a q : Nat) (bs : List Byte) (d : Bool) :
    (mc.store a bs d).page q
      = if q = pageOf a ∧ d = true then (mc.page q).map (fun pg => { pg with dirty := true }) else mc.page q := by
  unfold MC.store
  cases d
  · simp [MC.page]
  · simp only [if_true, MC.page_markDirty, and_true]
    split
    · next h => subst h; rfl
    · rfl

theorem MC.page_store_isSome (mc : MC) (a q : Nat) (bs : List Byte) (d : Bool) :
    ((mc.store a bs d).page q).isSome = (mc.page q).isSome := by
  rw [MC.page_store]
  split <;> simp

theorem MC.store_cells (mc : MC) (a : Nat) (bs : List Byte) (d : Bool) :
    (mc.store a bs d).cells = mc.cells.writeAll a bs := by
  unfold MC.store MC.markDirty
  cases d
  · rfl
  · simp only [if_true]
    split <;> rfl

/-- A store changes the bytes it stores to and no other, where the pages it stores to exist (20_memory.md R61). -/
theorem MC.byteAt_store {mc : MC} {a : Nat} {bs : List Byte} (d : Bool)
    (h : ∀ k < bs.length, (mc.page (pageOf (a + k))).isSome = true) (b : Nat) :
    (mc.store a bs d).byteAt b = if a ≤ b ∧ b < a + bs.length then bs.getD (b - a) 0 else mc.byteAt b := by
  have hs := MC.page_store_isSome mc a (pageOf b) bs d
  unfold MC.byteAt
  rw [MC.store_cells, Memory.read_writeAll]
  by_cases hb : a ≤ b ∧ b < a + bs.length
  · have hp := h (b - a) (by omega)
    rw [show a + (b - a) = b by omega] at hp
    rw [hp] at hs
    obtain ⟨pg, hpg⟩ := Option.isSome_iff_exists.1 hs
    simp [hpg, hb]
  · rw [if_neg hb, if_neg hb]
    cases hq : mc.page (pageOf b) with
    | none => rw [hq] at hs; simp at hs; simp [hs]
    | some pg =>
      rw [hq] at hs
      obtain ⟨pg', hpg'⟩ := Option.isSome_iff_exists.1 hs
      simp [hpg']

/-- A store leaves every flag of every page but `dirty` (20_memory.md R61). -/
theorem MC.pageView_store (mc : MC) (cfg : Config) (a q : Nat) (bs : List Byte) (d : Bool) :
    ((mc.store a bs d).pageView cfg q).read = (mc.pageView cfg q).read
      ∧ ((mc.store a bs d).pageView cfg q).write = (mc.pageView cfg q).write
      ∧ ((mc.store a bs d).pageView cfg q).execute = (mc.pageView cfg q).execute
      ∧ ((mc.store a bs d).pageView cfg q).kind = (mc.pageView cfg q).kind := by
  unfold MC.pageView
  rw [MC.page_store]
  split
  · cases mc.page q <;> simp [lazyPage]
  · simp

theorem pageOf_aligned {a n k : Nat} (hn : n = 1 ∨ n = 2 ∨ n = 4) (ha : a % n = 0) (hk : k < n) :
    pageOf (a + k) = pageOf a := by
  unfold pageOf
  rcases hn with rfl | rfl | rfl <;> omega

@[simp] theorem bytesOfHalf_length (v : Word) : (bytesOfHalf v).length = 2 := rfl
@[simp] theorem bytesOfWord_length (v : InsnWord) : (bytesOfWord v).length = 4 := rfl

/-- The two bytes of a word, put together again, are the word (20_memory.md R59). -/
theorem half_of_bytes (v : Word) : (v.extractLsb' 8 8 ++ v.extractLsb' 0 8 : BitVec 16) = v := by
  ext i hi
  have : (v.extractLsb' 8 8 ++ v.extractLsb' 0 8 : BitVec 16).getLsbD i = v.getLsbD i := by
    rw [BitVec.getLsbD_append]
    split
    · next h => simp [h]
    · next h => simp only [BitVec.getLsbD_extractLsb']; rw [show 8 + (i - 8) = i by omega]; simp; omega
  simpa [BitVec.getLsbD_eq_getElem hi] using this

/-! ## Accesses (20_memory.md R60 to R64) -/

@[simp] theorem State.withMC_mc (s : State) (mc : MC) : (s.withMC mc).mc = mc := rfl
@[simp] theorem State.withMC_core (s : State) (mc : MC) : (s.withMC mc).core = s.core := rfl
@[simp] theorem State.withMC_cfg (s : State) (mc : MC) : (s.withMC mc).cfg = s.cfg := rfl
@[simp] theorem State.withMC_others (s : State) (mc : MC) : (s.withMC mc).others = s.others := rfl
@[simp] theorem State.withMC_withMC (s : State) (mc nc : MC) : (s.withMC mc).withMC nc = s.withMC nc := rfl
@[simp] theorem State.touched_core (s : State) (p : Nat) : (s.touched p).core = s.core := rfl
@[simp] theorem State.touched_cfg (s : State) (p : Nat) : (s.touched p).cfg = s.cfg := rfl
@[simp] theorem State.touched_others (s : State) (p : Nat) : (s.touched p).others = s.others := rfl
@[simp] theorem State.touched_mc (s : State) (p : Nat) : (s.touched p).mc = s.mc.touchPage s.cfg p := rfl

/-- What an access answers when its checks pass: the page exists from then on. -/
theorem access_ok {a n : Nat} {f : Page → Bool} {s : State} (ha : a % n = 0) (hb : a + n ≤ s.cfg.memSize)
    (hf : f (s.mc.pageView s.cfg (pageOf a)) = true) :
    access a n f s = .ok () (s.touched (pageOf a)) := by
  simp [access, getPage, bind_run, ha, hb, hf, State.touched, State.withMC]

/-- A misaligned access raises before anything else (20_memory.md R62). -/
theorem access_misaligned {a n : Nat} (f : Page → Bool) (s : State) (ha : a % n ≠ 0) :
    access a n f s = .error { kind := .misalignedAccess, info := .address a } s := by
  have : (a % n == 0) = false := by simp [ha]
  simp [access, bind_run, this]

/-- An aligned access out of bounds raises and changes nothing (20_memory.md R63). -/
theorem access_outOfBounds {a n : Nat} (f : Page → Bool) {s : State} (ha : a % n = 0) (hb : ¬ a + n ≤ s.cfg.memSize) :
    access a n f s = .error { kind := .accessViolation, info := .address a } s := by
  simp [access, bind_run, ha, hb]

/-- An access that is not permitted raises after `GetPage` (20_memory.md R60, R61). -/
theorem access_denied {a n : Nat} {f : Page → Bool} {s : State} (ha : a % n = 0) (hb : a + n ≤ s.cfg.memSize)
    (hf : f (s.mc.pageView s.cfg (pageOf a)) = false) :
    access a n f s = .error { kind := .accessViolation, info := .address a }
      (s.touched (pageOf a)) := by
  simp [access, getPage, bind_run, ha, hb, hf, State.touched, State.withMC]

/-- Everything an access can do. -/
theorem access_cases (a n : Nat) (f : Page → Bool) (s : State) :
    (a % n ≠ 0 ∧ access a n f s = .error { kind := .misalignedAccess, info := .address a } s)
      ∨ (a % n = 0 ∧ ¬ a + n ≤ s.cfg.memSize
          ∧ access a n f s = .error { kind := .accessViolation, info := .address a } s)
      ∨ (a % n = 0 ∧ a + n ≤ s.cfg.memSize ∧ f (s.mc.pageView s.cfg (pageOf a)) = false
          ∧ access a n f s = .error { kind := .accessViolation, info := .address a }
              (s.touched (pageOf a)))
      ∨ (a % n = 0 ∧ a + n ≤ s.cfg.memSize ∧ f (s.mc.pageView s.cfg (pageOf a)) = true
          ∧ access a n f s = .ok () (s.touched (pageOf a))) := by
  by_cases ha : a % n = 0
  · by_cases hb : a + n ≤ s.cfg.memSize
    · cases hf : f (s.mc.pageView s.cfg (pageOf a)) with
      | false => exact .inr (.inr (.inl ⟨ha, hb, rfl, access_denied ha hb hf⟩))
      | true => exact .inr (.inr (.inr ⟨ha, hb, rfl, access_ok ha hb hf⟩))
    · exact .inr (.inl ⟨ha, hb, access_outOfBounds f ha hb⟩)
  · exact .inl ⟨ha, access_misaligned f s ha⟩

theorem memRead8_ok {a : Nat} {priv : Bool} {s : State} (hb : a + 1 ≤ s.cfg.memSize)
    (hf : (priv || (s.mc.pageView s.cfg (pageOf a)).read) = true) :
    memRead8 a priv s = .ok (s.mc.byteAt a) (s.touched (pageOf a)) := by
  rw [memRead8, bind_ok (access_ok (Nat.mod_one a) hb hf)]
  simp

theorem memRead16_ok {a : Nat} {priv : Bool} {s : State} (ha : a % 2 = 0) (hb : a + 2 ≤ s.cfg.memSize)
    (hf : (priv || (s.mc.pageView s.cfg (pageOf a)).read) = true) :
    memRead16 a priv s = .ok (s.mc.u16At a) (s.touched (pageOf a)) := by
  rw [memRead16, bind_ok (access_ok ha hb hf)]
  simp

theorem memRead32_ok {a : Nat} {priv : Bool} {s : State} (ha : a % 4 = 0) (hb : a + 4 ≤ s.cfg.memSize)
    (hf : (priv || (s.mc.pageView s.cfg (pageOf a)).read) = true) :
    memRead32 a priv s = .ok (s.mc.u32At a) (s.touched (pageOf a)) := by
  rw [memRead32, bind_ok (access_ok ha hb hf)]
  simp

theorem memWrite8_ok {a : Nat} {v : Byte} {priv d : Bool} {s : State} (hb : a + 1 ≤ s.cfg.memSize)
    (hf : (priv || (s.mc.pageView s.cfg (pageOf a)).write) = true) :
    memWrite8 a v priv d s = .ok () (s.withMC ((s.mc.touchPage s.cfg (pageOf a)).store a [v] d)) := by
  rw [memWrite8, bind_ok (access_ok (Nat.mod_one a) hb hf)]
  rfl

theorem memWrite16_ok {a : Nat} {v : Word} {priv d : Bool} {s : State} (ha : a % 2 = 0) (hb : a + 2 ≤ s.cfg.memSize)
    (hf : (priv || (s.mc.pageView s.cfg (pageOf a)).write) = true) :
    memWrite16 a v priv d s = .ok () (s.withMC ((s.mc.touchPage s.cfg (pageOf a)).store a (bytesOfHalf v) d)) := by
  rw [memWrite16, bind_ok (access_ok ha hb hf)]
  rfl

/-- The bytes after a u16 has been stored at an even address. -/
theorem byteAt_store16 (mc : MC) (cfg : Config) {a : Nat} (ha : a % 2 = 0) (v : Word) (d : Bool) (b : Nat) :
    ((mc.touchPage cfg (pageOf a)).store a (bytesOfHalf v) d).byteAt b
      = if b = a then v.extractLsb' 0 8 else if b = a + 1 then v.extractLsb' 8 8 else mc.byteAt b := by
  rw [MC.byteAt_store]
  · simp only [bytesOfHalf_length, MC.byteAt_touchPage]
    by_cases h0 : b = a
    · subst h0; simp [bytesOfHalf]
    · by_cases h1 : b = a + 1
      · subst h1; simp [bytesOfHalf]
      · rw [if_neg (by omega), if_neg h0, if_neg h1]
  · intro k hk
    rw [bytesOfHalf_length] at hk
    rw [pageOf_aligned (.inr (.inl rfl)) ha hk]
    exact MC.touchPage_isSome mc cfg _

/-- A u16 read back where it was stored (20_memory.md R59). -/
theorem u16At_store16_self (mc : MC) (cfg : Config) {a : Nat} (ha : a % 2 = 0) (v : Word) (d : Bool) :
    ((mc.touchPage cfg (pageOf a)).store a (bytesOfHalf v) d).u16At a = v := by
  simp only [MC.u16At, byteAt_store16 mc cfg ha]
  rw [if_neg (show ¬ a + 1 = a by omega)]
  simp only [if_true]
  exact half_of_bytes v

/-- A u16 at another even address is not touched. -/
theorem u16At_store16_of_ne (mc : MC) (cfg : Config) {a b : Nat} (ha : a % 2 = 0) (hb : b % 2 = 0) (hne : b ≠ a) (v : Word)
    (d : Bool) : ((mc.touchPage cfg (pageOf a)).store a (bytesOfHalf v) d).u16At b = mc.u16At b := by
  simp only [MC.u16At, byteAt_store16 mc cfg ha]
  rw [if_neg (by omega), if_neg (by omega), if_neg hne, if_neg (by omega)]

/-! ## Freeing and allocating -/

@[simp] theorem MC.page_freePage (mc : MC) (p q : Nat) :
    (mc.freePage p).page q = if q = p then none else mc.page q := by
  simp [MC.page, MC.freePage, lookup_drop]

theorem MC.byteAt_freePage (mc : MC) (p b : Nat) :
    (mc.freePage p).byteAt b = if pageOf b = p then Memory.blank else mc.byteAt b := by
  unfold MC.byteAt
  rw [MC.page_freePage]
  by_cases h : pageOf b = p
  · simp [h]
  · simp [h, MC.freePage, Memory.read_clearPage]

/-- `alloc_page` answers the first index of its range with no page (20_memory.md R56). -/
theorem MC.firstFree_spec {mc : MC} {limit start n p : Nat} (h : mc.firstFree limit start n = some p) :
    mc.page p = none ∧ start ≤ p ∧ p < start + n ∧ p < limit ∧ ∀ q, start ≤ q → q < p → (mc.page q).isSome = true := by
  induction n generalizing start with
  | zero => simp [MC.firstFree] at h
  | succ n ih =>
    unfold MC.firstFree at h
    split at h
    · next hl =>
      cases hp : mc.page start with
      | none =>
        simp only [hp, Option.some.injEq] at h
        subst h
        exact ⟨hp, Nat.le_refl _, by omega, hl, fun q h1 h2 => by omega⟩
      | some pg =>
        simp only [hp] at h
        obtain ⟨h1, h2, h3, h4, h5⟩ := ih h
        refine ⟨h1, by omega, by omega, h4, fun q hq1 hq2 => ?_⟩
        by_cases hq : q = start
        · simp [hq, hp]
        · exact h5 q (by omega) hq2
    · simp at h

theorem allocPage_ok {seg : Option Byte} {pg : Page} {s : State} {p : Nat}
    (h : s.mc.firstFree (s.cfg.memSize / 256) (scanRange s.cfg seg).1 (scanRange s.cfg seg).2 = some p) :
    allocPage seg pg s = .ok p (s.withMC (s.mc.createPage p pg)) := by
  simp [allocPage, bind_run, map_run, h, State.withMC]

theorem allocPage_none {seg : Option Byte} {pg : Page} {s : State}
    (h : s.mc.firstFree (s.cfg.memSize / 256) (scanRange s.cfg seg).1 (scanRange s.cfg seg).2 = none) :
    allocPage seg pg s = .error { kind := .resourceExhausted, info := .nothing } s := by
  simp [allocPage, bind_run, h]

/-- `alloc_page` in a segment: the first of its 256 pages that is free, or none (20_memory.md R56). -/
theorem allocPage_segment_ok {seg : Byte} {pg : Page} {s : State} {p : Nat}
    (h : s.mc.firstFree (s.cfg.memSize / 256) (seg.toNat * 256) 256 = some p) :
    allocPage (some seg) pg s = .ok p (s.withMC (s.mc.createPage p pg)) :=
  allocPage_ok (by rw [scanRange]; exact h)

theorem allocPage_segment_none {seg : Byte} {pg : Page} {s : State}
    (h : s.mc.firstFree (s.cfg.memSize / 256) (seg.toNat * 256) 256 = none) :
    allocPage (some seg) pg s = .error { kind := .resourceExhausted, info := .nothing } s :=
  allocPage_none (by rw [scanRange]; exact h)

end Sys2Proof.Machine
end

