-- ==== Sys2Proof/Laws/State.lean ====
section
/-! SUPPORT. One lemma per field per update: what each named update of the state, the core and the registers changes and what it
leaves, so that no later proof unfolds a record update. -/

namespace Sys2Proof.Machine

/-! ## Registers -/

section
variable (g : Regs) (f : Flags → Flags)

@[simp] theorem Regs.advance_gpr : g.advance.gpr = g.gpr := rfl
@[simp] theorem Regs.advance_fp : g.advance.fp = g.fp := rfl
@[simp] theorem Regs.advance_sp : g.advance.sp = g.sp := rfl
@[simp] theorem Regs.advance_ds : g.advance.ds = g.ds := rfl
@[simp] theorem Regs.advance_cs : g.advance.cs = g.cs := rfl
@[simp] theorem Regs.advance_ip : g.advance.ip = g.ip + 4 := rfl
@[simp] theorem Regs.advance_flags : g.advance.flags = g.flags := rfl
@[simp] theorem Regs.advance_cnt : g.advance.cnt = g.cnt := rfl

@[simp] theorem Regs.count_gpr : g.count.gpr = g.gpr := rfl
@[simp] theorem Regs.count_fp : g.count.fp = g.fp := rfl
@[simp] theorem Regs.count_sp : g.count.sp = g.sp := rfl
@[simp] theorem Regs.count_ds : g.count.ds = g.ds := rfl
@[simp] theorem Regs.count_cs : g.count.cs = g.cs := rfl
@[simp] theorem Regs.count_ip : g.count.ip = g.ip := rfl
@[simp] theorem Regs.count_flags : g.count.flags = g.flags := rfl
@[simp] theorem Regs.count_cnt : g.count.cnt = g.cnt + 1 := rfl

@[simp] theorem Regs.setFlags_gpr : (g.setFlags f).gpr = g.gpr := rfl
@[simp] theorem Regs.setFlags_fp : (g.setFlags f).fp = g.fp := rfl
@[simp] theorem Regs.setFlags_sp : (g.setFlags f).sp = g.sp := rfl
@[simp] theorem Regs.setFlags_ds : (g.setFlags f).ds = g.ds := rfl
@[simp] theorem Regs.setFlags_cs : (g.setFlags f).cs = g.cs := rfl
@[simp] theorem Regs.setFlags_ip : (g.setFlags f).ip = g.ip := rfl
@[simp] theorem Regs.setFlags_flags : (g.setFlags f).flags = f g.flags := rfl
@[simp] theorem Regs.setFlags_cnt : (g.setFlags f).cnt = g.cnt := rfl
end

section
variable (g : Regs) (v : Word) (n : Fin 32)

@[simp] theorem Regs.write_gpr_gpr : (g.write (.gpr n) v).gpr = g.gpr.set n v := rfl
@[simp] theorem Regs.write_fp_fp : (g.write .fp v).fp = v := rfl
@[simp] theorem Regs.write_sp_sp : (g.write .sp v).sp = v := rfl
@[simp] theorem Regs.write_ds_ds : (g.write .ds v).ds = v.setWidth 8 := rfl
@[simp] theorem Regs.write_cs_cs : (g.write .cs v).cs = v.setWidth 8 := rfl
@[simp] theorem Regs.write_ip_ip : (g.write .ip v).ip = v := rfl
@[simp] theorem Regs.write_flags_flags : (g.write .flags v).flags = Flags.unpack v := rfl
@[simp] theorem Regs.write_cnt_cnt : (g.write .cnt v).cnt = v := rfl

/-- A write changes the register it names and no other (10_state.md R20, R26). -/
theorem Regs.write_other {r : Reg} :
    ((∀ m, r ≠ .gpr m) → (g.write r v).gpr = g.gpr) ∧ (r ≠ .fp → (g.write r v).fp = g.fp)
      ∧ (r ≠ .sp → (g.write r v).sp = g.sp) ∧ (r ≠ .ds → (g.write r v).ds = g.ds)
      ∧ (r ≠ .cs → (g.write r v).cs = g.cs) ∧ (r ≠ .ip → (g.write r v).ip = g.ip)
      ∧ (r ≠ .flags → (g.write r v).flags = g.flags) ∧ (r ≠ .cnt → (g.write r v).cnt = g.cnt) := by
  cases r <;> simp [Regs.write]

@[simp] theorem Regs.read_gpr : g.read (.gpr n) = g.gpr[n] := rfl
@[simp] theorem Regs.read_fp : g.read .fp = g.fp := rfl
@[simp] theorem Regs.read_sp : g.read .sp = g.sp := rfl
@[simp] theorem Regs.read_ds : g.read .ds = g.ds.setWidth 16 := rfl
@[simp] theorem Regs.read_cs : g.read .cs = g.cs.setWidth 16 := rfl
@[simp] theorem Regs.read_ip : g.read .ip = g.ip := rfl
@[simp] theorem Regs.read_flags : g.read .flags = g.flags.pack := rfl
@[simp] theorem Regs.read_cnt : g.read .cnt = g.cnt := rfl
end

/-! ## The state -/

section
variable (s : State) (g : Regs)

@[simp] theorem State.withRegs_cfg : (s.withRegs g).cfg = s.cfg := rfl
@[simp] theorem State.withRegs_regs : (s.withRegs g).core.regs = g := rfl
@[simp] theorem State.withRegs_sizes : (s.withRegs g).core.sizes = s.core.sizes := rfl
@[simp] theorem State.withRegs_booted : (s.withRegs g).core.booted = s.core.booted := rfl
@[simp] theorem State.withRegs_alive : (s.withRegs g).core.alive = s.core.alive := rfl
@[simp] theorem State.withRegs_running : (s.withRegs g).core.running = s.core.running := rfl
@[simp] theorem State.withRegs_idle : (s.withRegs g).core.idle = s.core.idle := rfl
@[simp] theorem State.withRegs_exitCode : (s.withRegs g).core.exitCode = s.core.exitCode := rfl
@[simp] theorem State.withRegs_fault : (s.withRegs g).core.fault = s.core.fault := rfl
@[simp] theorem State.withRegs_frames : (s.withRegs g).core.frames = s.core.frames := rfl
@[simp] theorem State.withRegs_istack : (s.withRegs g).core.istack = s.core.istack := rfl
@[simp] theorem State.withRegs_pending : (s.withRegs g).core.pending = s.core.pending := rfl
@[simp] theorem State.withRegs_icache : (s.withRegs g).core.icache = s.core.icache := rfl
@[simp] theorem State.withRegs_dcache : (s.withRegs g).core.dcache = s.core.dcache := rfl
@[simp] theorem State.withRegs_evictions : (s.withRegs g).core.evictions = s.core.evictions := rfl
@[simp] theorem State.withRegs_others : (s.withRegs g).others = s.others := rfl
@[simp] theorem State.withRegs_mc : (s.withRegs g).mc = s.mc := rfl
@[simp] theorem State.withRegs_agenda : (s.withRegs g).agenda = s.agenda := rfl
@[simp] theorem State.withRegs_portAnswers : (s.withRegs g).portAnswers = s.portAnswers := rfl
@[simp] theorem State.withRegs_vintAnswers : (s.withRegs g).vintAnswers = s.vintAnswers := rfl
@[simp] theorem State.withRegs_draws : (s.withRegs g).draws = s.draws := rfl
@[simp] theorem State.withRegs_history : (s.withRegs g).history = s.history := rfl
@[simp] theorem State.withRegs_started : (s.withRegs g).started = s.started := rfl
@[simp] theorem State.withRegs_withRegs (h : Regs) : (s.withRegs g).withRegs h = s.withRegs h := rfl
@[simp] theorem State.withRegs_self : s.withRegs s.core.regs = s := rfl

@[simp] theorem State.begun_cfg : s.begun.cfg = s.cfg := rfl
@[simp] theorem State.begun_core : s.begun.core = s.core := rfl
@[simp] theorem State.begun_others : s.begun.others = s.others := rfl
@[simp] theorem State.begun_mc : s.begun.mc = s.mc := rfl
@[simp] theorem State.begun_agenda : s.begun.agenda = s.agenda := rfl
@[simp] theorem State.begun_portAnswers : s.begun.portAnswers = s.portAnswers := rfl
@[simp] theorem State.begun_vintAnswers : s.begun.vintAnswers = s.vintAnswers := rfl
@[simp] theorem State.begun_draws : s.begun.draws = s.draws := rfl
@[simp] theorem State.begun_history : s.begun.history = s.history := rfl
@[simp] theorem State.begun_started : s.begun.started = true := rfl

@[simp] theorem State.onCore_core (f : Core → Core) : (s.onCore f).core = f s.core := rfl
@[simp] theorem State.onCore_cfg (f : Core → Core) : (s.onCore f).cfg = s.cfg := rfl
@[simp] theorem State.onCore_others (f : Core → Core) : (s.onCore f).others = s.others := rfl
@[simp] theorem State.onCore_mc (f : Core → Core) : (s.onCore f).mc = s.mc := rfl
end

section
variable (c : Core)

@[simp] theorem Core.stopped_regs : c.stopped.regs = c.regs := rfl
@[simp] theorem Core.stopped_sizes : c.stopped.sizes = c.sizes := rfl
@[simp] theorem Core.stopped_booted : c.stopped.booted = c.booted := rfl
@[simp] theorem Core.stopped_alive : c.stopped.alive = false := rfl
@[simp] theorem Core.stopped_running : c.stopped.running = false := rfl
@[simp] theorem Core.stopped_idle : c.stopped.idle = c.idle := rfl
@[simp] theorem Core.stopped_exitCode : c.stopped.exitCode = c.exitCode := rfl
@[simp] theorem Core.stopped_fault : c.stopped.fault = c.fault := rfl
@[simp] theorem Core.stopped_frames : c.stopped.frames = c.frames := rfl
@[simp] theorem Core.stopped_istack : c.stopped.istack = c.istack := rfl
@[simp] theorem Core.stopped_pending : c.stopped.pending = c.pending := rfl
@[simp] theorem Core.stopped_icache : c.stopped.icache = c.icache := rfl
@[simp] theorem Core.stopped_dcache : c.stopped.dcache = c.dcache := rfl
@[simp] theorem Core.stopped_evictions : c.stopped.evictions = c.evictions := rfl
end

/-! ## What a transition may not touch, as relations that compose -/

theorem sameSurroundings.refl (s : State) : sameSurroundings s s := ⟨rfl, rfl, rfl, rfl⟩

theorem sameSurroundings.trans {s t u : State} (h : sameSurroundings s t) (k : sameSurroundings t u) :
    sameSurroundings s u :=
  ⟨k.1.trans h.1, k.2.1.trans h.2.1, k.2.2.1.trans h.2.2.1, k.2.2.2.trans h.2.2.2⟩

theorem sameHost.refl (s : State) : sameHost s s := ⟨rfl, rfl, rfl, rfl⟩

theorem sameHost.trans {s t u : State} (h : sameHost s t) (k : sameHost t u) : sameHost s u :=
  ⟨k.1.trans h.1, k.2.1.trans h.2.1, k.2.2.1.trans h.2.2.1, k.2.2.2.trans h.2.2.2⟩

theorem sameCoreRest.refl (c : Core) : sameCoreRest c c := ⟨rfl, rfl, rfl, rfl, rfl, rfl, rfl, rfl, rfl, rfl, rfl⟩

theorem sameCoreRest.trans {c d e : Core} (h : sameCoreRest c d) (k : sameCoreRest d e) : sameCoreRest c e := by
  obtain ⟨h1, h2, h3, h4, h5, h6, h7, h8, h9, h10, h11⟩ := h
  obtain ⟨k1, k2, k3, k4, k5, k6, k7, k8, k9, k10, k11⟩ := k
  exact ⟨k1.trans h1, k2.trans h2, k3.trans h3, k4.trans h4, k5.trans h5, k6.trans h6, k7.trans h7, k8.trans h8,
    k9.trans h9, k10.trans h10, k11.trans h11⟩

theorem sameBut.refl (s : State) : sameBut s s := ⟨.refl s, .refl s, .refl s.core⟩

theorem sameBut.trans {s t u : State} (h : sameBut s t) (k : sameBut t u) : sameBut s u :=
  ⟨h.1.trans k.1, h.2.1.trans k.2.1, h.2.2.trans k.2.2⟩

theorem sameBut.withRegs (s : State) (g : Regs) : sameBut s (s.withRegs g) := ⟨.refl s, .refl s, .refl s.core⟩

end Sys2Proof.Machine
end

