-- ==== Sys2Proof/Laws/Cache.lean ====
section
/-! SUPPORT. The data cache (20_memory.md R73 to R81): what a load and a store through it answer when they are permitted, and what a
sequence of them leaves alone. -/

namespace Sys2Proof.Machine

/-! ## Lists of entries -/

theorem findData_append (pa : Nat) (l m : List DEntry) :
    findData pa (l ++ m) = (findData pa l).or (findData pa m) := by
  induction l with
  | nil => rfl
  | cons e l ih =>
    simp only [List.cons_append, findData]
    split
    · rfl
    · exact ih

theorem findData_removeData (pa qa : Nat) (l : List DEntry) :
    findData pa (removeData qa l) = if pa = qa then none else findData pa l := by
  unfold removeData
  induction l with
  | nil => simp [findData]
  | cons e l ih =>
    rw [List.filter_cons]
    by_cases hq : e.addr = qa
    · by_cases hp : pa = qa
      · subst hp; simpa [hq] using ih
      · have : ¬ qa = pa := fun h => hp h.symm
        simpa [hq, findData, hp, this] using ih
    · by_cases hp : pa = qa
      · subst hp; simp [hq, findData]; simpa using ih
      · simp [hq, findData, hp]; simp [hp] at ih; rw [ih]

theorem findData_mem {pa : Nat} {l : List DEntry} {e : DEntry} (h : findData pa l = some e) : e ∈ l ∧ e.addr = pa := by
  induction l with
  | nil => simp [findData] at h
  | cons d l ih =>
    unfold findData at h
    split at h
    · next hd =>
      simp only [beq_iff_eq] at hd
      simp only [Option.some.injEq] at h
      subst h
      exact ⟨by simp, hd⟩
    · obtain ⟨h1, h2⟩ := ih h
      exact ⟨List.mem_cons_of_mem _ h1, h2⟩

theorem findData_eq_none {pa : Nat} {l : List DEntry} : findData pa l = none ↔ ∀ e ∈ l, e.addr ≠ pa := by
  induction l with
  | nil => simp [findData]
  | cons d l ih =>
    by_cases h : d.addr = pa
    · simp [findData, h]
    · simp [findData, h, ih]

theorem findData_of_mem {l : List DEntry} (hk : (l.map DEntry.addr).Nodup) {e : DEntry} (h : e ∈ l) :
    findData e.addr l = some e := by
  induction l with
  | nil => cases h
  | cons d l ih =>
    simp only [List.map_cons, List.nodup_cons] at hk
    rcases List.mem_cons.1 h with rfl | h
    · simp [findData]
    · have : d.addr ≠ e.addr := fun hc => hk.1 (hc ▸ List.mem_map_of_mem h)
      simp [findData, this, ih hk.2 h]

theorem removeData_of_none {pa : Nat} {l : List DEntry} (h : findData pa l = none) : removeData pa l = l := by
  rw [findData_eq_none] at h
  unfold removeData
  rw [List.filter_eq_self]
  intro e he
  simp [h e he]

theorem mem_removeData {pa : Nat} {l : List DEntry} {e : DEntry} : e ∈ removeData pa l ↔ e ∈ l ∧ e.addr ≠ pa := by
  simp [removeData]

theorem nodup_removeData (pa : Nat) {l : List DEntry} (h : (l.map DEntry.addr).Nodup) :
    ((removeData pa l).map DEntry.addr).Nodup := (List.filter_sublist.map _).nodup h

theorem nodup_append_fresh {l : List DEntry} {e : DEntry} (h : (l.map DEntry.addr).Nodup) (hf : findData e.addr l = none) :
    ((l ++ [e]).map DEntry.addr).Nodup := by
  rw [findData_eq_none] at hf
  rw [List.map_append, List.nodup_append]
  refine ⟨h, by simp, ?_⟩
  intro a ha b hb
  simp only [List.map_cons, List.map_nil, List.mem_singleton] at hb
  obtain ⟨d, hd, rfl⟩ := List.mem_map.1 ha
  subst hb
  exact hf d hd

theorem nodup_mruData {l : List DEntry} (e : DEntry) (h : (l.map DEntry.addr).Nodup) :
    ((mruData e l).map DEntry.addr).Nodup :=
  nodup_append_fresh (nodup_removeData _ h) (by simp [findData_removeData])

theorem length_removeData_lt {pa : Nat} {l : List DEntry} {e : DEntry} (h : findData pa l = some e) :
    (removeData pa l).length < l.length := by
  obtain ⟨hm, ha⟩ := findData_mem h
  unfold removeData
  refine Nat.lt_of_le_of_ne (List.length_filter_le _ _) fun hc => ?_
  have := (List.length_filter_eq_length_iff.1 hc) e hm
  simp [ha] at this

theorem findData_cleanData (pa qa : Nat) (l : List DEntry) :
    findData pa (cleanData qa l)
      = (findData pa l).map fun e => if e.addr == qa then { e with dirty := false } else e := by
  unfold cleanData
  induction l with
  | nil => rfl
  | cons e l ih =>
    simp only [List.map_cons, findData]
    by_cases hq : e.addr = qa
    · by_cases hp : qa = pa
      · simp [hq, hp]
      · simp [hq, hp]; simpa [hq] using ih
    · by_cases hp : e.addr = pa
      · subst hp; simp [hq]
      · simp [hq, hp]; simpa using ih

theorem cleanData_map_addr (pa : Nat) (l : List DEntry) : (cleanData pa l).map DEntry.addr = l.map DEntry.addr := by
  unfold cleanData
  rw [List.map_map]
  apply List.map_congr_left
  intro e _
  simp only [Function.comp]
  split <;> rfl

/-! ## Write-backs and room -/

/-- The controller after the write-back of an entry. -/
def MC.afterWriteBack (mc : MC) (cfg : Config) (e : DEntry) : MC :=
  (mc.touchPage cfg (pageOf e.addr)).store e.addr (bytesOfHalf e.value) true

theorem writeBack_ok {s : State} {e : DEntry} (h : WriteBackOk s e) :
    writeBack e.addr e.value s = .ok () (s.withMC (s.mc.afterWriteBack s.cfg e)) := by
  obtain ⟨h1, h2, h3⟩ := h
  rw [writeBack, bind_ok (ask_run _ _), memWrite16_ok h1 h2]
  · rfl
  · rcases h3 with h3 | h3
    · simp [h3]
    · simp [h3]

theorem MC.pageView_afterWriteBack (mc : MC) (cfg : Config) (e : DEntry) (q : Nat) :
    ((mc.afterWriteBack cfg e).pageView cfg q).read = (mc.pageView cfg q).read
      ∧ ((mc.afterWriteBack cfg e).pageView cfg q).write = (mc.pageView cfg q).write
      ∧ ((mc.afterWriteBack cfg e).pageView cfg q).execute = (mc.pageView cfg q).execute
      ∧ ((mc.afterWriteBack cfg e).pageView cfg q).kind = (mc.pageView cfg q).kind := by
  have := MC.pageView_store (mc.touchPage cfg (pageOf e.addr)) cfg e.addr q (bytesOfHalf e.value) true
  simpa [MC.afterWriteBack] using this

theorem MC.store_segments (mc : MC) (a : Nat) (bs : List Byte) (d : Bool) : (mc.store a bs d).segments = mc.segments := by
  unfold MC.store MC.markDirty
  cases d
  · rfl
  · simp only [if_true]; split <;> rfl

theorem MC.store_regions (mc : MC) (a : Nat) (bs : List Byte) (d : Bool) : (mc.store a bs d).regions = mc.regions := by
  unfold MC.store MC.markDirty
  cases d
  · rfl
  · simp only [if_true]; split <;> rfl

theorem MC.afterWriteBack_byteAt (mc : MC) (cfg : Config) {e : DEntry} (he : e.addr % 2 = 0) (b : Nat) :
    (mc.afterWriteBack cfg e).byteAt b = byteAfter mc (some e) b := byteAt_store16 mc cfg he e.value true b

/-- The machine once there is room for an access to `pa` that misses. -/
def State.roomFor (s : State) (pa : Nat) : State :=
  if s.core.dcache.length = s.core.sizes.dcache ∧ s.core.dcache ≠ [] then
    { s with
      mc := match evictedBy s.core pa with
        | some e => s.mc.afterWriteBack s.cfg e
        | none => s.mc
      core := { s.core with dcache := s.core.dcache.tail, evictions := s.core.evictions + 1 } }
  else s

/-- `MakeSpace()` when the entry it evicts can be written back (20_memory.md R77). -/
theorem makeSpace_ok {s : State} {pa : Nat} (hm : findData pa s.core.dcache = none) (h : RoomOk s pa) :
    makeSpace s = .ok () (s.roomFor pa) := by
  unfold makeSpace State.roomFor
  rw [bind_ok (ask_run _ _)]
  by_cases hf : s.core.dcache.length = s.core.sizes.dcache
  · simp only [hf, beq_self_eq_true, if_true]
    rw [bind_ok (ask_run _ _)]
    cases hl : s.core.dcache with
    | nil => simp
    | cons e l =>
      simp only [List.head?_cons]
      by_cases hd : e.dirty = true
      · have he : evictedBy s.core pa = some e := by
          have hf' : (s.core.dcache.length == s.core.sizes.dcache) = true := by simp [hf]
          unfold evictedBy
          rw [hm, hf', hl]
          simp [hd]
        rw [hd, whenever_true, bind_ok (writeBack_ok (h e he))]
        simp only [actCore_run, he]
        rw [if_pos ⟨trivial, by simp⟩]
        simp [State.withMC, hl]
      · simp only [Bool.not_eq_true] at hd
        have he : evictedBy s.core pa = none := by simp [evictedBy, hl, hd]
        rw [hd, whenever_false, bind_ok (pure_run _ _)]
        simp [hl, he]
  · simp [hf]

@[simp] theorem State.roomFor_regs (s : State) (pa : Nat) : (s.roomFor pa).core.regs = s.core.regs := by
  unfold State.roomFor; split <;> rfl

@[simp] theorem State.roomFor_cfg (s : State) (pa : Nat) : (s.roomFor pa).cfg = s.cfg := by
  unfold State.roomFor; split <;> rfl

theorem State.roomFor_dcache (s : State) (pa : Nat) : (s.roomFor pa).core.dcache = roomMade s.core := by
  unfold State.roomFor roomMade
  by_cases hf : s.core.dcache.length = s.core.sizes.dcache
  · by_cases hn : s.core.dcache = []
    · rw [if_neg (by simp [hn]), if_pos hf]; simp [hn]
    · rw [if_pos ⟨hf, hn⟩, if_pos hf]
  · rw [if_neg (by simp [hf]), if_neg hf]

theorem State.roomFor_mc (s : State) (pa : Nat) :
    (s.roomFor pa).mc = match evictedBy s.core pa with
      | some e => s.mc.afterWriteBack s.cfg e
      | none => s.mc := by
  unfold State.roomFor
  split
  · rfl
  · next h =>
    have : evictedBy s.core pa = none := by
      unfold evictedBy
      split
      · next hc =>
        simp only [Bool.and_eq_true, beq_iff_eq] at hc
        have : s.core.dcache = [] := by
          by_cases hn : s.core.dcache = []
          · exact hn
          · exact absurd ⟨hc.2, hn⟩ h
        simp [this]
      · rfl
    simp [this]

theorem State.roomFor_rest (s : State) (pa : Nat) : sameBut s (s.roomFor pa) := by
  unfold State.roomFor
  split
  · exact ⟨⟨rfl, rfl, rfl, rfl⟩, ⟨rfl, rfl, rfl, rfl⟩, ⟨rfl, rfl, rfl, rfl, rfl, rfl, rfl, rfl, rfl, rfl, rfl⟩⟩
  · exact .refl s

theorem evictedBy_mem {c : Core} {pa : Nat} {e : DEntry} (h : evictedBy c pa = some e) :
    findData pa c.dcache = none ∧ c.dcache.length = c.sizes.dcache ∧ c.dcache.head? = some e ∧ e.dirty = true := by
  unfold evictedBy at h
  split at h
  · next hc =>
    simp only [Bool.and_eq_true, beq_iff_eq, Option.isNone_iff_eq_none] at hc
    rw [Option.filter_eq_some_iff] at h
    exact ⟨hc.1, hc.2, h.1, h.2⟩
  · simp at h

theorem State.roomFor_byteAt {s : State} {pa : Nat} (h : RoomOk s pa) (b : Nat) :
    (s.roomFor pa).mc.byteAt b = byteAfter s.mc (evictedBy s.core pa) b := by
  rw [State.roomFor_mc]
  cases he : evictedBy s.core pa with
  | none => rfl
  | some e => exact MC.afterWriteBack_byteAt s.mc s.cfg (h e he).1 b

theorem State.roomFor_access (s : State) (pa : Nat) : sameAccess s (s.roomFor pa) := by
  intro p
  rw [State.roomFor_mc, State.roomFor_cfg]
  cases evictedBy s.core pa with
  | none => exact ⟨rfl, rfl, rfl, rfl⟩
  | some e => exact MC.pageView_afterWriteBack s.mc s.cfg e p

theorem State.roomFor_tables (s : State) (pa : Nat) : sameTables s (s.roomFor pa) := by
  unfold sameTables
  rw [State.roomFor_mc]
  cases evictedBy s.core pa with
  | none => exact ⟨rfl, rfl⟩
  | some e => simp [MC.afterWriteBack, MC.store_segments, MC.store_regions]

/-! ## One access -/

/-- The state with another data cache in the core in focus. -/
def State.withData (s : State) (l : List DEntry) : State := { s with core := { s.core with dcache := l } }

theorem State.touched_rest (s : State) (p : Nat) : sameBut s (s.touched p) := ⟨.refl s, .refl s, .refl s.core⟩

theorem evictedBy_of_hit {c : Core} {pa : Nat} (h : (findData pa c.dcache).isSome = true) : evictedBy c pa = none := by
  unfold evictedBy
  cases hc : findData pa c.dcache with
  | none => simp [hc] at h
  | some e => simp

theorem RoomOk.touched {s : State} {pa : Nat} (h : RoomOk s pa) (p : Nat) : RoomOk (s.touched p) pa := by
  intro e he
  obtain ⟨h1, h2, h3⟩ := h e he
  refine ⟨h1, h2, ?_⟩
  simpa using h3

/-- `DRead16(pa)` when it is permitted: the value the core sees at `pa`, and exactly what changes (20_memory.md R75, R77). -/
theorem dRead16_ok {s : State} {pa : Nat} (h : LoadOk s pa) :
    ∃ t, dRead16 pa s = .ok (wordAt s pa) t ∧ sameBut s t ∧ t.core.regs = s.core.regs
      ∧ t.core.dcache = cacheAfterLoad s.core pa (wordAt s pa)
      ∧ (∀ b, t.mc.byteAt b = byteAfter s.mc (evictedBy s.core pa) b) ∧ sameAccess s t ∧ sameTables s t := by
  obtain ⟨ha, hp, hr⟩ := h
  unfold dRead16
  have h2 : (pa % 2 == 0) = true := by simp [ha]
  rw [h2, bind_ok (require_true _ _ _), bind_ok (ask_run _ _)]
  cases hc : findData pa s.core.dcache with
  | some e =>
    have he : evictedBy s.core pa = none := evictedBy_of_hit (by simp [hc])
    have hw : wordAt s pa = e.value := by simp [wordAt, hc]
    refine ⟨s.withData (mruData e s.core.dcache), ?_, ⟨.refl s, .refl s, .refl s.core⟩, rfl, ?_, fun b => ?_, fun p => ⟨rfl, rfl, rfl, rfl⟩, rfl, rfl⟩
    · rw [hw]; rfl
    · simp [cacheAfterLoad, hc, State.withData, mruData, (findData_mem hc).2]
    · rw [he]; rfl
  | none =>
    have hp : pa + 2 ≤ s.cfg.memSize ∧ (s.mc.pageView s.cfg (pageOf pa)).read = true := by simpa [hc] using hp
    have hw : wordAt s pa = s.mc.u16At pa := by simp [wordAt, hc]
    have hr' := hr.touched (pageOf pa)
    have hc' : findData pa (s.touched (pageOf pa)).core.dcache = none := hc
    simp only
    rw [bind_ok (memRead16_ok ha hp.1 (by simp [hp.2])), bind_ok (makeSpace_ok hc' hr')]
    have hrest := (State.touched_rest s (pageOf pa)).trans (State.roomFor_rest (s.touched (pageOf pa)) pa)
    refine ⟨((s.touched (pageOf pa)).roomFor pa).withData
      (roomMade s.core ++ [{ addr := pa, dirty := false, value := s.mc.u16At pa }]), ?_, ?_, ?_, ?_, fun b => ?_, ?_, ?_⟩
    · rw [hw]
      simp only [actData, bind_run, actCore_run, State.roomFor_dcache, pure_run]
      rfl
    · exact hrest
    · simp [State.withData]
    · simp [State.withData, cacheAfterLoad, hc, hw]
    · have := State.roomFor_byteAt hr' b
      simp only [State.withData, this, State.touched_core, State.touched_mc]
      cases evictedBy s.core pa <;> simp [byteAfter]
    · intro p
      have := State.roomFor_access (s.touched (pageOf pa)) pa p
      simpa [State.withData] using this
    · have := State.roomFor_tables (s.touched (pageOf pa)) pa
      simpa [sameTables, State.withData] using this

/-- `DWrite16(pa, v)` when it is permitted: exactly what changes (20_memory.md R76, R77). -/
theorem dWrite16_ok {s : State} {pa : Nat} (v : Word) (h : StoreOk s pa) :
    ∃ t, dWrite16 pa v s = .ok () t ∧ sameBut s t ∧ t.core.regs = s.core.regs
      ∧ t.core.dcache = cacheAfterStore s.core pa v
      ∧ (∀ b, t.mc.byteAt b = byteAfter s.mc (evictedBy s.core pa) b) ∧ sameAccess s t ∧ sameTables s t := by
  obtain ⟨ha, hp, hr⟩ := h
  have hcheck : ∃ u, whenever (s.cfg.writeCheck == .atStore) (storeCheck pa) s = .ok () u ∧ (u = s ∨ u = s.touched (pageOf pa)) := by
    by_cases hs : s.cfg.writeCheck = .atStore
    · obtain ⟨h1, h2⟩ := hp hs
      refine ⟨_, ?_, .inr rfl⟩
      simp [hs, storeCheck, bind_run, h1, getPage, h2, State.touched, State.withMC]
    · refine ⟨s, ?_, .inl rfl⟩
      have : (s.cfg.writeCheck == .atStore) = false := by simp [hs]
      rw [this]; rfl
  obtain ⟨u, hu, hus⟩ := hcheck
  have hub : sameBut s u := by rcases hus with rfl | rfl; exact .refl _; exact State.touched_rest _ _
  have huc : u.core = s.core := by rcases hus with rfl | rfl <;> rfl
  have hucfg : u.cfg = s.cfg := by rcases hus with rfl | rfl <;> rfl
  have hubyte : ∀ b, u.mc.byteAt b = s.mc.byteAt b := by rcases hus with rfl | rfl <;> simp
  have huacc : sameAccess s u := by rcases hus with rfl | rfl <;> intro p <;> simp
  have hutab : sameTables s u := by rcases hus with rfl | rfl <;> simp [sameTables]
  have hur : RoomOk u pa := by
    rcases hus with rfl | rfl
    · exact hr
    · exact hr.touched _
  unfold dWrite16
  have h2 : (pa % 2 == 0) = true := by simp [ha]
  rw [h2, bind_ok (require_true _ _ _), bind_ok (ask_run _ _), bind_ok hu, bind_ok (ask_run _ _), huc]
  cases hc : findData pa s.core.dcache with
  | some e =>
    have he : evictedBy s.core pa = none := evictedBy_of_hit (by simp [hc])
    refine ⟨u.withData (mruData { addr := pa, dirty := true, value := v } s.core.dcache), ?_, ?_, ?_, ?_, fun b => ?_, ?_, ?_⟩
    · simp only [actData, actCore_run, State.withData, huc]
    · exact hub.trans ⟨.refl u, .refl u, .refl u.core⟩
    · simp [State.withData, huc]
    · simp [cacheAfterStore, hc, State.withData, mruData]
    · rw [he]; exact hubyte b
    · exact huacc
    · exact hutab
  | none =>
    have hc' : findData pa u.core.dcache = none := by rw [huc]; exact hc
    simp only
    rw [bind_ok (makeSpace_ok hc' hur)]
    refine ⟨(u.roomFor pa).withData (roomMade s.core ++ [{ addr := pa, dirty := true, value := v }]), ?_, ?_, ?_, ?_, fun b => ?_, ?_, ?_⟩
    · simp only [actData, actCore_run, State.roomFor_dcache, State.withData, huc]
    · exact hub.trans (State.roomFor_rest u pa)
    · simp [State.withData, huc]
    · simp [State.withData, cacheAfterStore, hc]
    · have := State.roomFor_byteAt hur b
      simp only [State.withData, this, huc]
      cases evictedBy s.core pa <;> simp [byteAfter, hubyte]
    · intro p
      obtain ⟨h1, h2, h3, h4⟩ := State.roomFor_access u pa p
      obtain ⟨k1, k2, k3, k4⟩ := huacc p
      exact ⟨h1.trans k1, h2.trans k2, h3.trans k3, h4.trans k4⟩
    · have := State.roomFor_tables u pa
      exact ⟨this.1.trans hutab.1, this.2.trans hutab.2⟩

end Sys2Proof.Machine
end

