-- ==== Sys2Proof/Laws/Decode.lean ====
section
/-! SUPPORT. The bit fields of a word (30_encoding.md R102): what each field of a packed word reads as, and, for each format, that its
decoder inverts its encoder (`form…_enc`) and that every word it accepts is an encoding (`form…_inv`). -/

namespace Sys2Proof

/-! ## The fields of a packed word -/

theorem pack_getLsbD (hi : BitVec 13) (mid : BitVec 6) (k : BitVec 1) (lo : BitVec 6) (op : BitVec 6) (i : Nat) :
    (pack hi mid k lo op).getLsbD i = if i < 6 then op.getLsbD i else if i < 12 then lo.getLsbD (i - 6)
      else if i < 13 then k.getLsbD (i - 12) else if i < 19 then mid.getLsbD (i - 13) else hi.getLsbD (i - 19) := by
  have h1 : (pack hi mid k lo op).getLsbD i = ((((hi ++ mid) ++ k) ++ lo) ++ op).getLsbD i := rfl
  rw [h1]
  simp only [BitVec.getLsbD_append]
  by_cases h1 : i < 6
  · rw [if_pos h1, if_pos h1]
  rw [if_neg h1, if_neg h1]
  by_cases h2 : i < 12
  · rw [if_pos h2, if_pos (by omega)]
  rw [if_neg h2, if_neg (by omega)]
  by_cases h3 : i < 13
  · rw [if_pos h3, if_pos (by omega)]; congr 1
  rw [if_neg h3, if_neg (by omega)]
  by_cases h4 : i < 19
  · rw [if_pos h4, if_pos (by omega)]; congr 1
  · rw [if_neg h4, if_neg (by omega)]; congr 1

variable (hi : BitVec 13) (mid : BitVec 6) (k : BitVec 1) (lo : BitVec 6) (op : BitVec 6)

theorem pack_op : (pack hi mid k lo op).extractLsb' 0 6 = op := by
  apply BitVec.eq_of_getLsbD_eq; intro i h; simp [pack_getLsbD, h]

theorem pack_lo : (pack hi mid k lo op).extractLsb' 6 6 = lo := by
  apply BitVec.eq_of_getLsbD_eq; intro i h; simp [pack_getLsbD, h, show 6 + i < 12 by omega]

theorem pack_mid : (pack hi mid k lo op).extractLsb' 13 6 = mid := by
  apply BitVec.eq_of_getLsbD_eq; intro i h
  simp [pack_getLsbD, h, show ¬ 13 + i < 6 by omega, show ¬ 13 + i < 12 by omega,show ¬ 13 + i < 13 by omega, show 13 + i < 19 by omega]

theorem pack_hi : (pack hi mid k lo op).extractLsb' 19 13 = hi := by
  apply BitVec.eq_of_getLsbD_eq; intro i h
  simp [pack_getLsbD, h, show ¬ 19 + i < 6 by omega, show ¬ 19 + i < 12 by omega,show ¬ 19 + i < 13 by omega, show ¬ 19 + i < 19 by omega]

theorem pack_k : (pack hi mid k lo op).extractLsb' 12 1 = k := by
  apply BitVec.eq_of_getLsbD_eq; intro i h
  obtain rfl : i = 0 := by omega
  rw [BitVec.getLsbD_extractLsb', pack_getLsbD]
  simp

/-- Every word is packed from its five fields. -/
theorem eq_pack (w : InsnWord) : w = pack (w.extractLsb' 19 13) (w.extractLsb' 13 6) (w.extractLsb' 12 1) (w.extractLsb' 6 6) (w.extractLsb' 0 6) := by
  apply BitVec.eq_of_getLsbD_eq; intro i h
  rw [pack_getLsbD]
  simp only [BitVec.getLsbD_extractLsb']
  by_cases h1 : i < 6
  · simp [h1]
  rw [if_neg h1]
  by_cases h2 : i < 12
  · rw [if_pos h2, show 6 + (i-6) = i by omega]; simp [show i - 6 < 6 by omega]
  rw [if_neg h2]
  by_cases h3 : i < 13
  · rw [if_pos h3, show 12 + (i-12) = i by omega]; simp [show i - 12 < 1 by omega]
  rw [if_neg h3]
  by_cases h4 : i < 19
  · rw [if_pos h4, show 13 + (i-13) = i by omega]; simp [show i - 13 < 6 by omega]
  · rw [if_neg h4, show 19 + (i-19) = i by omega]; simp [show i - 19 < 13 by omega]

/-- The immediate field of a packed word. -/
theorem pack_imm : fImm (pack hi mid k lo op) = hi ++ mid.extractLsb' 3 3 := by
  have e : (pack hi mid k lo op).extractLsb' 16 16 = hi ++ mid.extractLsb' 3 3 := by
    apply BitVec.eq_of_getLsbD_eq; intro i h
    simp only [BitVec.getLsbD_extractLsb', pack_getLsbD, BitVec.getLsbD_append]
    rw [if_neg (by omega), if_neg (by omega), if_neg (by omega)]
    by_cases h4 : i < 3
    · simp [h4, show 16 + i < 19 by omega, h, show 16 + i - 13 = 3 + i by omega]
    · rw [if_neg h4, if_neg (by omega)]; simp [h, show 16 + i - 19 = i - 3 by omega]
  exact e

theorem Reg.ofNum_num (r : Reg) : Reg.ofNum r.num = some r := by
  cases r with
  | gpr n => simp [Reg.num, Reg.ofNum, n.isLt]
  | _ => rfl

theorem Reg.num_of_ofNum {n : Nat} {r : Reg} (h : Reg.ofNum n = some r) : r.num = n := by
  unfold Reg.ofNum at h
  split at h
  · cases h; rfl
  · split at h <;> cases h <;> rfl

theorem eReg_toNat (r : Reg) : (eReg r).toNat = r.num := by
  have : r.num < 64 := by cases r with
    | gpr n => have := n.isLt; simp [Reg.num]; omega
    | _ => decide
  simp [eReg, Nat.mod_eq_of_lt this]

theorem eReg_of_ofNum {v : BitVec 6} {r : Reg} (h : Reg.ofNum v.toNat = some r) : eReg r = v := by
  apply BitVec.eq_of_toNat_eq; rw [eReg_toNat, Reg.num_of_ofNum h]

theorem pack_k_bit : (pack hi mid k lo op).getLsbD 12 = k.getLsbD 0 := by rw [pack_getLsbD]; simp

theorem zero_lo : zeroBits (pack hi mid k lo op) 6 6 = (lo == 0) := by unfold zeroBits; rw [pack_lo]

theorem zero_k : zeroBits (pack hi mid k lo op) 12 1 = (k == 0) := by unfold zeroBits; rw [pack_k]

theorem zero_hi : zeroBits (pack hi mid k lo op) 19 13 = (hi == 0) := by unfold zeroBits; rw [pack_hi]

theorem zero_mid3 : zeroBits (pack hi mid k lo op) 13 3 = (mid.extractLsb' 0 3 == 0) := by
  unfold zeroBits
  have : (pack hi mid k lo op).extractLsb' 13 3 = mid.extractLsb' 0 3 := by
    apply BitVec.eq_of_getLsbD_eq; intro i h
    simp only [BitVec.getLsbD_extractLsb', pack_getLsbD]
    rw [if_neg (by omega), if_neg (by omega), if_neg (by omega), if_pos (by omega)]; simp
  rw [this]

theorem zero_hi7 : zeroBits (pack hi mid k lo op) 25 7 = (hi.extractLsb' 6 7 == 0) := by
  unfold zeroBits
  have : (pack hi mid k lo op).extractLsb' 25 7 = hi.extractLsb' 6 7 := by
    apply BitVec.eq_of_getLsbD_eq; intro i h
    simp only [BitVec.getLsbD_extractLsb', pack_getLsbD]
    rw [if_neg (by omega), if_neg (by omega), if_neg (by omega), if_neg (by omega), show 25 + i - 19 = 6 + i by omega]
  rw [this]

/-- A run of bits is zero exactly when its two parts are. -/
theorem zeroBits_split (w : InsnWord) (lo m n : Nat) : zeroBits w lo (m + n) = (zeroBits w lo m && zeroBits w (lo + m) n) := by
  unfold zeroBits
  rw [Bool.eq_iff_iff]
  simp only [Bool.and_eq_true, beq_iff_eq]
  constructor
  · intro h
    have hb : ∀ i, i < m + n → w.getLsbD (lo + i) = false := fun i hi => by
      have := congrArg (fun v => BitVec.getLsbD v i) h
      simpa [hi] using this
    constructor <;> apply BitVec.eq_of_getLsbD_eq <;> intro i hi
    · simpa [hi] using hb i (by omega)
    · simpa [hi, Nat.add_assoc] using hb (m + i) (by omega)
  · rintro ⟨h1, h2⟩
    apply BitVec.eq_of_getLsbD_eq; intro i hi
    by_cases hm : i < m
    · have := congrArg (fun v => BitVec.getLsbD v i) h1
      simpa [hi, hm] using this
    · have := congrArg (fun v => BitVec.getLsbD v (i - m)) h2
      simpa [hi, show i - m < n by omega, show lo + m + (i - m) = lo + i by omega] using this

theorem zero_20 : zeroBits (pack hi mid k lo op) 12 20 = (k == 0 && mid == 0 && hi == 0) := by
  rw [show (20 : Nat) = 7 + 13 from rfl, zeroBits_split, zero_hi, show (7 : Nat) = 1 + 6 from rfl, zeroBits_split, zero_k]
  unfold zeroBits; rw [pack_mid]

theorem zero_26 : zeroBits (pack hi mid k lo op) 6 26 = (lo == 0 && (k == 0 && mid == 0 && hi == 0)) := by
  rw [show (26 : Nat) = 6 + 20 from rfl, zeroBits_split, zero_lo, zero_20]

theorem fOpcode_pack : fOpcode (pack hi mid k lo op) = op.toNat := by unfold fOpcode; rw [pack_op]

theorem fRd_pack : fRd (pack hi mid k lo op) = lo.toNat := by unfold fRd; rw [pack_lo]

theorem fRs_pack : fRs (pack hi mid k lo op) = mid.toNat := by unfold fRs; rw [pack_mid]

theorem fOff_pack : fOff (pack hi mid k lo op) = hi.toInt := by unfold fOff; rw [pack_hi]

theorem fK_pack : fK (pack hi mid k lo op) = k.getLsbD 0 := by unfold fK; rw [pack_k_bit]

theorem fRn_pack : fRn (pack hi mid k lo op) = (hi.extractLsb' 0 6).toNat := by
  unfold fRn
  have : (pack hi mid k lo op).extractLsb' 19 6 = hi.extractLsb' 0 6 := by
    apply BitVec.eq_of_getLsbD_eq; intro i h
    simp only [BitVec.getLsbD_extractLsb', pack_getLsbD]
    rw [if_neg (by omega), if_neg (by omega), if_neg (by omega), if_neg (by omega), show 19 + i - 19 = 0 + i by omega]
  rw [this]

theorem regField_num (r : Reg) : regField (eReg r).toNat = .ok r := by
  unfold regField; rw [eReg_toNat, Reg.ofNum_num]

/-! ## Each format decodes what it encodes -/

theorem formR_enc (op : BitVec 6) (r : Reg) (mk : Reg → Instr) : formR (encR op (eReg r)) mk = .ok (mk r) := by
  simp [formR, encR, zero_20, reserved, fRd_pack, regField_num, bind, Except.bind, pure, Except.pure]

theorem formN_enc (op : BitVec 6) (i : Instr) : formN (encR op 0) i = .ok i := by
  simp [formN, encR, zero_26, reserved, bind, Except.bind, pure, Except.pure]

theorem formRR_enc (op : BitVec 6) (rd rs : Reg) (mk : Reg → Reg → Instr) : formRR (encRR op rd rs) mk = .ok (mk rd rs) := by
  simp [formRR, encRR, zero_hi, zero_k, reserved, fRd_pack, fRs_pack, regField_num, bind, Except.bind, pure, Except.pure]

theorem imm_split (v : Word) : v.extractLsb' 3 13 ++ (v.extractLsb' 0 3 ++ (0 : BitVec 3)).extractLsb' 3 3 = v := by
  apply BitVec.eq_of_getLsbD_eq; intro i h
  rw [BitVec.getLsbD_append]
  by_cases h3 : i < 3
  · rw [if_pos h3, BitVec.getLsbD_extractLsb', BitVec.getLsbD_append, if_neg (by omega)]
    simp [h3]
  · rw [if_neg h3]; simp [show i - 3 < 13 by omega, show 3 + (i - 3) = i by omega]

theorem low3 (v : Word) : (v.extractLsb' 0 3 ++ (0 : BitVec 3)).extractLsb' 0 3 = 0 := by
  apply BitVec.eq_of_getLsbD_eq; intro i h
  rw [BitVec.getLsbD_extractLsb', BitVec.getLsbD_append, if_pos (by omega)]; simp

theorem operandField_enc (op lo : BitVec 6) (o : Operand) : operandField (encRI op lo o) = .ok o := by
  cases o with
  | reg r => simp [operandField, encRI, fK_pack, zero_hi, reserved, fRs_pack, regField_num, bind, Except.bind, pure, Except.pure]
  | imm v =>
    simp only [operandField, encRI, fK_pack, zero_mid3, low3, pack_imm, imm_split]
    simp [reserved, bind, Except.bind, pure, Except.pure]

theorem fRd_encRI (op lo : BitVec 6) (o : Operand) : fRd (encRI op lo o) = lo.toNat := by
  cases o <;> exact fRd_pack ..

theorem formRI_enc (op : BitVec 6) (rd : Reg) (o : Operand) (mk : Reg → Operand → Instr) :
    formRI (encRI op (eReg rd) o) mk = .ok (mk rd o) := by
  simp [formRI, fRd_encRI, operandField_enc, regField_num, bind, Except.bind, pure, Except.pure]

theorem formI_enc (op : BitVec 6) (o : Operand) (mk : Operand → Instr) : formI (encRI op 0 o) mk = .ok (mk o) := by
  have : zeroBits (encRI op 0 o) 6 6 = true := by cases o <;> (simp only [encRI, zero_lo]; rfl)
  simp only [formI, this, reserved, operandField_enc, if_true]
  rfl

theorem formRIM_enc (op : BitVec 6) (rd : Reg) (v : Word) (mk : Reg → Word → Instr) :
    formRIM (encRI op (eReg rd) (.imm v)) mk = .ok (mk rd v) := by
  simp only [formRIM, encRI, fK_pack, zero_mid3, low3, pack_imm, imm_split, fRd_pack, regField_num]
  simp [reserved, bind, Except.bind, pure, Except.pure]

theorem formM_enc (op : BitVec 6) (r rb : Reg) (off : Int) (h : offsetOk off = true) (mk : Reg → Reg → Int → Instr) :
    formM (encM op r rb off) mk = .ok (mk r rb off) := by
  have h' : -4096 ≤ off ∧ off ≤ 4095 := by simpa [offsetOk] using h
  have : (BitVec.ofInt 13 off).toInt = off := by
    rw [BitVec.toInt_ofInt]; simp only [Int.bmod]; omega
  simp [formM, encM, zero_k, reserved, fRd_pack, fRs_pack, fOff_pack, this, regField_num, bind, Except.bind, pure, Except.pure]

theorem formC_enc (op : BitVec 6) (ra re rn : Reg) (mk : Reg → Reg → Reg → Instr) :
    formC (encC op ra re rn) mk = .ok (mk ra re rn) := by
  have e1 : ((0 : BitVec 7) ++ eReg rn).extractLsb' 6 7 = 0 := by
    apply BitVec.eq_of_getLsbD_eq; intro i h
    rw [BitVec.getLsbD_extractLsb', BitVec.getLsbD_append, if_neg (by omega)]; simp
  have e2 : ((0 : BitVec 7) ++ eReg rn).extractLsb' 0 6 = eReg rn := by
    apply BitVec.eq_of_getLsbD_eq; intro i h
    rw [BitVec.getLsbD_extractLsb', BitVec.getLsbD_append, if_pos (by omega)]; simp [h]
  simp only [formC, encC, zero_k, zero_hi7, fRd_pack, fRs_pack, fRn_pack, e1, e2, regField_num]
  simp [reserved, bind, Except.bind, pure, Except.pure]

theorem fOpcode_encRI (op lo : BitVec 6) (o : Operand) : fOpcode (encRI op lo o) = op.toNat := by
  cases o <;> exact fOpcode_pack ..

theorem fOpcode_enc : (∀ op lo, fOpcode (encR op lo) = op.toNat) ∧ (∀ op rd rs, fOpcode (encRR op rd rs) = op.toNat)
  ∧ (∀ op r rb off, fOpcode (encM op r rb off) = op.toNat) ∧ (∀ op a b c, fOpcode (encC op a b c) = op.toNat) :=
  ⟨fun _ _ => fOpcode_pack .., fun _ _ _ => fOpcode_pack .., fun _ _ _ _ => fOpcode_pack .., fun _ _ _ _ => fOpcode_pack ..⟩

/-! ## Each format accepts only what it encodes -/

/-- The opcode field as a bit vector. -/
def opOf (w : InsnWord) : BitVec 6 := w.extractLsb' 0 6

theorem reserved_bind {α : Type} {c : Bool} {f : Unit → Except DecodeError α} {a : α} (h : (reserved c >>= f) = .ok a) :
    c = true ∧ f () = .ok a := by
  cases c
  · simp [reserved, bind, Except.bind] at h
  · exact ⟨rfl, h⟩

theorem regField_bind {α : Type} {v : BitVec 6} {f : Reg → Except DecodeError α} {a : α} (h : (regField v.toNat >>= f) = .ok a) :
    ∃ r, v = eReg r ∧ f r = .ok a := by
  unfold regField at h
  cases hr : Reg.ofNum v.toNat with
  | none => simp [hr, bind, Except.bind] at h
  | some r => rw [hr] at h; exact ⟨r, (eReg_of_ofNum hr).symm, h⟩

theorem formR_inv {w : InsnWord} {mk : Reg → Instr} {i : Instr} (h : formR w mk = .ok i) :
    ∃ r, i = mk r ∧ encR (opOf w) (eReg r) = w := by
  obtain ⟨hi, mid, k, lo, op, rfl⟩ : ∃ hi mid k lo op, w = pack hi mid k lo op := ⟨_, _, _, _, _, eq_pack w⟩
  unfold formR at h
  obtain ⟨hz, h1⟩ := reserved_bind h
  rw [fRd_pack] at h1
  obtain ⟨r, rfl, h2⟩ := regField_bind h1
  rw [zero_20] at hz
  simp only [Bool.and_eq_true, beq_iff_eq] at hz
  obtain ⟨⟨rfl, rfl⟩, rfl⟩ := hz
  exact ⟨r, (Except.ok.inj h2).symm, by rw [opOf, pack_op]; rfl⟩

theorem formN_inv {w : InsnWord} {j i : Instr} (h : formN w j = .ok i) : i = j ∧ encR (opOf w) 0 = w := by
  obtain ⟨hi, mid, k, lo, op, rfl⟩ : ∃ hi mid k lo op, w = pack hi mid k lo op := ⟨_, _, _, _, _, eq_pack w⟩
  unfold formN at h
  obtain ⟨hz, h1⟩ := reserved_bind h
  rw [zero_26] at hz
  simp only [Bool.and_eq_true, beq_iff_eq] at hz
  obtain ⟨rfl, ⟨rfl, rfl⟩, rfl⟩ := hz
  exact ⟨(Except.ok.inj h1).symm, by rw [opOf, pack_op]; rfl⟩

theorem formRR_inv {w : InsnWord} {mk : Reg → Reg → Instr} {i : Instr} (h : formRR w mk = .ok i) :
    ∃ rd rs, i = mk rd rs ∧ encRR (opOf w) rd rs = w := by
  obtain ⟨hi, mid, k, lo, op, rfl⟩ : ∃ hi mid k lo op, w = pack hi mid k lo op := ⟨_, _, _, _, _, eq_pack w⟩
  unfold formRR at h
  obtain ⟨hz, h1⟩ := reserved_bind h
  rw [fRd_pack] at h1
  obtain ⟨r, rfl, h2⟩ := regField_bind h1
  rw [fRs_pack] at h2
  obtain ⟨q, rfl, h3⟩ := regField_bind h2
  rw [zero_hi, zero_k] at hz
  simp only [Bool.and_eq_true, beq_iff_eq] at hz
  obtain ⟨rfl, rfl⟩ := hz
  exact ⟨r, q, (Except.ok.inj h3).symm, by rw [opOf, pack_op]; rfl⟩

theorem imm_join {hi : BitVec 13} {mid : BitVec 6} (hz : mid.extractLsb' 0 3 = 0) :
    (hi ++ mid.extractLsb' 3 3).extractLsb' 3 13 = hi
      ∧ (hi ++ mid.extractLsb' 3 3).extractLsb' 0 3 ++ (0 : BitVec 3) = mid := by
  constructor
  · apply BitVec.eq_of_getLsbD_eq; intro i h
    rw [BitVec.getLsbD_extractLsb', BitVec.getLsbD_append, if_neg (by omega), show 3 + i - 3 = i by omega]; simp [h]
  · apply BitVec.eq_of_getLsbD_eq; intro i h
    rw [BitVec.getLsbD_append]
    by_cases h3 : i < 3
    · rw [if_pos h3]
      have := congrArg (fun v => BitVec.getLsbD v i) hz
      simpa [h3] using this.symm
    · rw [if_neg h3, BitVec.getLsbD_extractLsb', BitVec.getLsbD_append, if_pos (by omega)]
      simp [show i - 3 < 3 by omega, show 3 + (i - 3) = i by omega]

theorem one_of_bit {k : BitVec 1} : (k.getLsbD 0 = true → k = 1) ∧ (k.getLsbD 0 = false → k = 0) := by
  revert k; decide

theorem operandField_inv {hi mid k lo op} {o : Operand} (h : operandField (pack hi mid k lo op) = .ok o) :
    encRI op lo o = pack hi mid k lo op := by
  unfold operandField at h
  rw [fK_pack] at h
  cases hk : k.getLsbD 0 with
  | true =>
    rw [hk, if_pos rfl] at h
    obtain ⟨hz, h1⟩ := reserved_bind h
    rw [fRs_pack] at h1
    obtain ⟨r, rfl, h2⟩ := regField_bind h1
    rw [zero_hi] at hz
    simp only [beq_iff_eq] at hz
    obtain rfl := hz
    obtain rfl := one_of_bit.1 hk
    cases h2
    rfl
  | false =>
    rw [hk, if_neg (by simp)] at h
    obtain ⟨hz, h13⟩ := reserved_bind h
    rw [zero_mid3] at hz
    simp only [beq_iff_eq] at hz
    obtain rfl := one_of_bit.2 hk
    rw [pack_imm] at h13
    cases h13
    simp only [encRI]
    rw [(imm_join hz).1, (imm_join hz).2]

theorem formRI_inv {w : InsnWord} {mk : Reg → Operand → Instr} {i : Instr} (h : formRI w mk = .ok i) :
    ∃ rd o, i = mk rd o ∧ encRI (opOf w) (eReg rd) o = w := by
  obtain ⟨hi, mid, k, lo, op, rfl⟩ : ∃ hi mid k lo op, w = pack hi mid k lo op := ⟨_, _, _, _, _, eq_pack w⟩
  unfold formRI at h
  rw [fRd_pack] at h
  obtain ⟨r, rfl, h1⟩ := regField_bind h
  cases ho : operandField (pack hi mid k (eReg r) op) with
  | error e => rw [ho] at h1; cases h1
  | ok o =>
    rw [ho] at h1
    cases h1
    exact ⟨r, o, rfl, by rw [opOf, pack_op]; exact operandField_inv ho⟩

theorem formI_inv {w : InsnWord} {mk : Operand → Instr} {i : Instr} (h : formI w mk = .ok i) :
    ∃ o, i = mk o ∧ encRI (opOf w) 0 o = w := by
  obtain ⟨hi, mid, k, lo, op, rfl⟩ : ∃ hi mid k lo op, w = pack hi mid k lo op := ⟨_, _, _, _, _, eq_pack w⟩
  unfold formI at h
  obtain ⟨hz, h1⟩ := reserved_bind h
  rw [zero_lo] at hz
  simp only [beq_iff_eq] at hz
  obtain rfl := hz
  cases ho : operandField (pack hi mid k 0 op) with
  | error e => rw [ho] at h1; cases h1
  | ok o =>
    rw [ho] at h1
    cases h1
    exact ⟨o, rfl, by rw [opOf, pack_op]; exact operandField_inv ho⟩

theorem formRIM_inv {w : InsnWord} {mk : Reg → Word → Instr} {i : Instr} (h : formRIM w mk = .ok i) :
    ∃ rd v, i = mk rd v ∧ encRI (opOf w) (eReg rd) (.imm v) = w := by
  obtain ⟨hi, mid, k, lo, op, rfl⟩ : ∃ hi mid k lo op, w = pack hi mid k lo op := ⟨_, _, _, _, _, eq_pack w⟩
  unfold formRIM at h
  rw [fK_pack] at h
  cases hk : k.getLsbD 0 with
  | true => rw [hk, if_pos rfl] at h; cases h
  | false =>
    rw [hk, if_neg (by simp)] at h
    obtain ⟨hz, h11⟩ := reserved_bind h
    rw [fRd_pack] at h11
    obtain ⟨r, rfl, h12⟩ := regField_bind h11
    rw [zero_mid3] at hz
    simp only [beq_iff_eq] at hz
    obtain rfl := one_of_bit.2 hk
    rw [pack_imm] at h12
    refine ⟨r, _, (Except.ok.inj h12).symm, ?_⟩
    rw [opOf, pack_op]
    simp only [encRI]
    rw [(imm_join hz).1, (imm_join hz).2]

theorem formM_inv {w : InsnWord} {mk : Reg → Reg → Int → Instr} {i : Instr} (h : formM w mk = .ok i) :
    ∃ r rb off, i = mk r rb off ∧ offsetOk off = true ∧ encM (opOf w) r rb off = w := by
  obtain ⟨hi, mid, k, lo, op, rfl⟩ : ∃ hi mid k lo op, w = pack hi mid k lo op := ⟨_, _, _, _, _, eq_pack w⟩
  unfold formM at h
  obtain ⟨hz, h1⟩ := reserved_bind h
  rw [fRd_pack] at h1
  obtain ⟨r, rfl, h2⟩ := regField_bind h1
  rw [fRs_pack] at h2
  obtain ⟨q, rfl, h3⟩ := regField_bind h2
  rw [zero_k] at hz
  simp only [beq_iff_eq] at hz
  obtain rfl := hz
  refine ⟨r, q, _, (Except.ok.inj h3).symm, ?_, ?_⟩
  · rw [fOff_pack]
    have h1 := BitVec.toInt_lt (x := hi)
    have h2 := BitVec.le_toInt (x := hi)
    simp only [offsetOk, Bool.and_eq_true, decide_eq_true_eq]
    omega
  · rw [opOf, pack_op, fOff_pack]; simp only [encM, BitVec.ofInt_toInt]

theorem formC_inv {w : InsnWord} {mk : Reg → Reg → Reg → Instr} {i : Instr} (h : formC w mk = .ok i) :
    ∃ ra re rn, i = mk ra re rn ∧ encC (opOf w) ra re rn = w := by
  obtain ⟨hi, mid, k, lo, op, rfl⟩ : ∃ hi mid k lo op, w = pack hi mid k lo op := ⟨_, _, _, _, _, eq_pack w⟩
  unfold formC at h
  obtain ⟨hz, h1⟩ := reserved_bind h
  rw [fRd_pack] at h1
  obtain ⟨r, rfl, h2⟩ := regField_bind h1
  rw [fRs_pack] at h2
  obtain ⟨q, rfl, h3⟩ := regField_bind h2
  rw [fRn_pack] at h3
  obtain ⟨n, hn, h4⟩ := regField_bind h3
  rw [zero_hi7, zero_k] at hz
  simp only [Bool.and_eq_true, beq_iff_eq] at hz
  obtain ⟨hz, rfl⟩ := hz
  refine ⟨r, q, n, (Except.ok.inj h4).symm, ?_⟩
  rw [opOf, pack_op]
  simp only [encC, ← hn]
  congr 1
  apply BitVec.eq_of_getLsbD_eq; intro j hj
  rw [BitVec.getLsbD_append]
  by_cases h6 : j < 6
  · simp [h6]
  · have := congrArg (fun v => BitVec.getLsbD v (j - 6)) hz
    simpa [h6, show j - 6 < 7 by omega, show 6 + (j - 6) = j by omega] using this.symm

/-- Under the default, `DECODE` answers what the encoding gives, and nothing where it gives nothing (00_scope.md R5). -/
theorem decodeWith_standard_eq_some {w : InsnWord} {i : Instr} : decodeWith .standard w = some i ↔ decodeWord w = .ok i := by
  unfold decodeWith
  cases decodeWord w <;> simp

theorem decodeWith_standard_eq_none {w : InsnWord} : decodeWith .standard w = none ↔ ∃ e, decodeWord w = .error e := by
  unfold decodeWith
  cases decodeWord w <;> simp

theorem fOpcode_lt (w : InsnWord) : fOpcode w < 64 := (w.extractLsb' 0 6).isLt

theorem opOf_eq {w : InsnWord} {n : Nat} (h : fOpcode w = n) : opOf w = BitVec.ofNat 6 n := by
  apply BitVec.eq_of_toNat_eq
  have := fOpcode_lt w
  have h' : (opOf w).toNat = n := h
  rw [h', BitVec.toNat_ofNat, Nat.mod_eq_of_lt]; omega
end Sys2Proof
end

