-- ==== Sys2Proof/Laws/Same.lean ====
section
/-! SUPPORT. What memory and cache operations leave alone, whether they answer or raise: everything but the memory controller and
the data cache (20_memory.md R60 to R81). -/

namespace Sys2Proof.Machine

/-! ## What data accesses leave alone, whether they answer or raise -/

/-- Everything but the memory controller, the data cache and its eviction count. -/
def State.outside (s : State) : State :=
  { s with mc := MC.powerOn, core := { s.core with dcache := [], evictions := 0 } }

@[simp] theorem State.outside_withRegs (s : State) (g : Regs) : (s.withRegs g).outside = s.outside.withRegs g := rfl
@[simp] theorem State.outside_regs (s : State) : s.outside.core.regs = s.core.regs := rfl

theorem Same.getPage (p : Nat) : Same State.outside (getPage p) := fun _ => rfl

theorem Same.actMC {γ : Type} {v : State → γ} {f : MC → MC} (h : ∀ s, v { s with mc := f s.mc } = v s) :
    Same v (Machine.actMC f) := h

theorem Same.actCore {γ : Type} {v : State → γ} {f : Core → Core} (h : ∀ s, v { s with core := f s.core } = v s) :
    Same v (Machine.actCore f) := h

theorem Same.access (a n : Nat) (f : Page → Bool) : Same State.outside (access a n f) :=
  .bind (.require _ _ _) fun _ => .bind (.ask _) fun _ => .bind (.require _ _ _) fun _ => .bind (.getPage _) fun _ => .require _ _ _

theorem Same.memRead8 (a : Nat) (b : Bool) : Same State.outside (memRead8 a b) := .bind (.access _ _ _) fun _ => .ask _
theorem Same.memRead16 (a : Nat) (b : Bool) : Same State.outside (memRead16 a b) := .bind (.access _ _ _) fun _ => .ask _
theorem Same.memRead32 (a : Nat) (b : Bool) : Same State.outside (memRead32 a b) := .bind (.access _ _ _) fun _ => .ask _
theorem Same.memWrite8 (a : Nat) (v : Byte) (p d : Bool) : Same State.outside (memWrite8 a v p d) :=
  .bind (.access _ _ _) fun _ => .actMC fun _ => rfl
theorem Same.memWrite16 (a : Nat) (v : Word) (p d : Bool) : Same State.outside (memWrite16 a v p d) :=
  .bind (.access _ _ _) fun _ => .actMC fun _ => rfl
theorem Same.memWrite32 (a : Nat) (v : InsnWord) (p d : Bool) : Same State.outside (memWrite32 a v p d) :=
  .bind (.access _ _ _) fun _ => .actMC fun _ => rfl

theorem Same.memWritePriv (w : McWrite) : Same State.outside (memWritePriv w) := by
  cases w
  · exact .memWrite8 _ _ _ _
  · exact .memWrite16 _ _ _ _
  · exact .memWrite32 _ _ _ _

theorem Same.cas16 (a : Nat) (e n : Word) : Same State.outside (cas16 a e n) := by
  refine .bind (.access _ _ _) fun _ => .bind (.ask _) fun cur => ?_
  split
  · exact .bind (.actMC fun _ => rfl) fun _ => .pure _
  · exact .pure _

theorem Same.allocPage (seg : Option Byte) (pg : Page) : Same State.outside (allocPage seg pg) := by
  refine .bind (.ask _) fun found => ?_
  cases found with
  | none => exact .raise _ _
  | some p => exact .bind (.actMC fun _ => rfl) fun _ => .pure _

theorem Same.loadVector (base count i : Nat) : Same State.outside (loadVector base count i) :=
  .bind (.require _ _ _) fun _ => .bind (.memRead32 _ _) fun _ => .pure _

theorem Same.writeBack (pa : Nat) (v : Word) : Same State.outside (writeBack pa v) := .bind (.ask _) fun _ => .memWrite16 _ _ _ _

theorem Same.actData (f : List DEntry → List DEntry) : Same State.outside (actData f) := fun _ => rfl

theorem Same.makeSpace : Same State.outside makeSpace := by
  refine .bind (.ask _) fun full => ?_
  split
  · refine .bind (.ask _) fun lru => ?_
    cases lru with
    | none => exact .pure _
    | some e => exact .bind (.whenever _ (.writeBack _ _)) fun _ => .actCore fun _ => rfl
  · exact .pure _

theorem Same.dRead16 (pa : Nat) : Same State.outside (dRead16 pa) := by
  refine .bind (.require _ _ _) fun _ => .bind (.ask _) fun hit => ?_
  cases hit with
  | some e => exact .bind (.actData _) fun _ => .pure _
  | none =>
    exact .bind (.memRead16 _ _) fun _ => .bind .makeSpace fun _ => .bind (.actData _) fun _ => .pure _

theorem Same.storeCheck (pa : Nat) : Same State.outside (storeCheck pa) :=
  .bind (.ask _) fun _ => .bind (.require _ _ _) fun _ => .bind (.getPage _) fun _ => .require _ _ _

theorem Same.dWrite16 (pa : Nat) (v : Word) : Same State.outside (dWrite16 pa v) := by
  refine .bind (.require _ _ _) fun _ => .bind (.ask _) fun c => .bind (.whenever _ (.storeCheck _)) fun _ =>
    .bind (.ask _) fun hit => ?_
  cases hit with
  | some _ => exact .actData _
  | none => exact .bind .makeSpace fun _ => .actData _

theorem Same.cleanEntry (pa : Nat) : Same State.outside (cleanEntry pa) := by
  refine .bind (.ask _) fun hit => ?_
  cases hit with
  | some e => exact .whenever _ (.bind (.writeBack _ _) fun _ => .actData _)
  | none => exact .pure _

theorem Same.flush : Same State.outside flush := .bind (.ask _) fun _ => .forEach (fun _ => .cleanEntry _) _

theorem Same.removePageRefs (p : Nat) (wb : Bool) : Same State.outside (removePageRefs p wb) :=
  .bind (.ask _) fun _ => .forEach (fun _ => .bind (.whenever _ (.cleanEntry _)) fun _ => .actData _) _

theorem flushDying_outside (l : List Nat) (s : State) : (flushDying l s).outside = s.outside := by
  induction l generalizing s with
  | nil => rfl
  | cons pa l ih =>
    unfold flushDying
    cases h : cleanEntry pa s with
    | ok _ t => exact (ih t).trans ((Same.cleanEntry pa).ok h)
    | error _ t => exact (ih t).trans ((Same.cleanEntry pa).error h)

/-- What an equal outside means, field by field. -/
theorem outside_eq {s t : State} (h : t.outside = s.outside) : sameBut s t ∧ t.core.regs = s.core.regs := by
  simp only [State.outside, State.mk.injEq, Core.mk.injEq] at h
  obtain ⟨h1, ⟨c1, c2, c3, c4, c5, c6, c7, c8, c9, c10, c11, c12, -⟩, h3, -, h5, h6, h7, h8, h9, h10⟩ := h
  exact ⟨⟨⟨h1, h3, h5, h10⟩, ⟨h6, h7, h8, h9⟩, ⟨c1, c3, c4, c5, c6, c7, c8, c9, c10, c11, c12⟩⟩, c2⟩

end Sys2Proof.Machine
end

