-- ==== Sys2Proof/Laws/Stack.lean ====
section
/-! SUPPORT. Sequences of data accesses: what holds after any number of permitted loads and stores (`Chain`), and the stack
operations as such accesses (44_stack_call.md R170). -/

namespace Sys2Proof.Machine

/-! ## One access as the core sees it -/

theorem u16At_afterWriteBack (mc : MC) (cfg : Config) {e : DEntry} (he : e.addr % 2 = 0) {a : Nat} (ha : a % 2 = 0) :
    (mc.afterWriteBack cfg e).u16At a = if a = e.addr then e.value else mc.u16At a := by
  split
  · next h => subst h; exact u16At_store16_self mc cfg he e.value true
  · next h => exact u16At_store16_of_ne mc cfg he ha h e.value true

theorem u16At_congr {m n : MC} (h : ∀ b, m.byteAt b = n.byteAt b) (a : Nat) : m.u16At a = n.u16At a := by
  simp [MC.u16At, h]

/-- The word at an even address once an entry may have been written back. -/
def wordAfter (mc : MC) (ev : Option DEntry) (a : Nat) : Word :=
  match ev with
  | some e => if a = e.addr then e.value else mc.u16At a
  | none => mc.u16At a

theorem u16At_byteAfter {m : MC} {mc : MC} {ev : Option DEntry} (h : ∀ b, m.byteAt b = byteAfter mc ev b)
    (hev : ∀ e, ev = some e → e.addr % 2 = 0) {a : Nat} (ha : a % 2 = 0) :
    m.u16At a = wordAfter mc ev a := by
  unfold wordAfter
  cases ev with
  | none => exact u16At_congr h a
  | some e =>
    have he := hev e rfl
    simp only [MC.u16At, h, byteAfter]
    by_cases hae : a = e.addr
    · subst hae
      rw [if_neg (show ¬ e.addr + 1 = e.addr by omega)]
      simp only [if_true]
      exact half_of_bytes e.value
    · rw [if_neg (show ¬ a + 1 = e.addr by omega), if_neg (show ¬ a + 1 = e.addr + 1 by omega), if_neg hae,
        if_neg (show ¬ a = e.addr + 1 by omega), if_neg hae]

theorem findData_tail {l : List DEntry} {e : DEntry} (hk : (l.map DEntry.addr).Nodup) (hh : l.head? = some e) (a : Nat) :
    findData a l.tail = if a = e.addr then none else findData a l := by
  cases l with
  | nil => simp at hh
  | cons d l =>
    simp only [List.head?_cons, Option.some.injEq] at hh
    subst hh
    simp only [List.map_cons, List.nodup_cons] at hk
    simp only [List.tail_cons]
    split
    · next h =>
      subst h
      rw [findData_eq_none]
      intro f hf hc
      exact hk.1 (hc ▸ List.mem_map_of_mem hf)
    · next h => simp [findData, Ne.symm h]

theorem mem_roomMade {c : Core} {e : DEntry} (h : e ∈ roomMade c) : e ∈ c.dcache := by
  unfold roomMade at h
  split at h
  · exact List.mem_of_mem_tail h
  · exact h

theorem nodup_roomMade {c : Core} (h : (c.dcache.map DEntry.addr).Nodup) : ((roomMade c).map DEntry.addr).Nodup := by
  unfold roomMade
  split
  · exact ((List.tail_sublist _).map _).nodup h
  · exact h

theorem findData_roomMade_none {c : Core} {a : Nat} (h : findData a c.dcache = none) : findData a (roomMade c) = none := by
  rw [findData_eq_none] at h ⊢
  exact fun e he => h e (mem_roomMade he)

/-- What the cache still holds once there is room: everything but the entry that left. -/
theorem findData_roomMade {c : Core} (hk : (c.dcache.map DEntry.addr).Nodup) (a : Nat) :
    findData a (roomMade c) = findData a c.dcache
      ∨ (c.dcache.length = c.sizes.dcache ∧ ∃ e, c.dcache.head? = some e ∧ e.addr = a ∧ findData a c.dcache = some e
        ∧ findData a (roomMade c) = none) := by
  unfold roomMade
  by_cases hf : c.dcache.length = c.sizes.dcache
  · rw [if_pos hf]
    cases hh : c.dcache.head? with
    | none =>
      have : c.dcache = [] := by simpa using hh
      exact .inl (by simp [this])
    | some e =>
      rw [findData_tail hk hh]
      by_cases ha : a = e.addr
      · refine .inr ⟨hf, e, rfl, ha.symm, ?_, by simp [ha]⟩
        rw [ha]
        exact findData_of_mem hk (List.mem_of_head? hh)
      · exact .inl (by simp [ha])
  · rw [if_neg hf]; exact .inl rfl

/-! ## Sequences -/

/-- What any sequence of permitted data accesses leaves, `stored` being the even addresses stored to. -/
structure Chain (s t : State) (stored : List Nat) : Prop where
  cfg : t.cfg = s.cfg
  access : sameAccess s t
  kept : DataKept s t (· ∈ stored) []
  evictable : AllWriteBackOk t
  keys : DataKeysDistinct t
  coherent : ∀ a, a % 2 = 0 → (a ∈ stored ∨ Coherent s a) → Coherent t a
  dirty : ∀ e ∈ t.core.dcache, e.dirty = true → e.addr ∈ stored ∨ ∃ f ∈ s.core.dcache, f.dirty = true ∧ f.addr = e.addr
  even : ∀ a ∈ stored, a % 2 = 0

theorem sameAccess.refl (s : State) : sameAccess s s := fun _ => ⟨rfl, rfl, rfl, rfl⟩

theorem sameAccess.trans {s t u : State} (h : sameAccess s t) (k : sameAccess t u) : sameAccess s u := fun p =>
  ⟨(k p).1.trans (h p).1, (k p).2.1.trans (h p).2.1, (k p).2.2.1.trans (h p).2.2.1, (k p).2.2.2.trans (h p).2.2.2⟩

theorem Chain.refl {s : State} (h : AllWriteBackOk s) (hk : DataKeysDistinct s) : Chain s s [] where
  cfg := rfl
  access := .refl s
  kept := ⟨fun p _ => sameAccess.refl s p, ⟨rfl, rfl⟩, fun _ _ _ _ => rfl, fun _ _ _ => rfl⟩
  evictable := h
  keys := hk
  coherent := fun a _ hc => by simpa using hc
  dirty := fun e he hd => .inr ⟨e, he, hd, rfl⟩
  even := by simp

theorem Chain.trans {s t u : State} {l m : List Nat} (h : Chain s t l) (k : Chain t u m) : Chain s u (l ++ m) where
  cfg := k.cfg.trans h.cfg
  access := h.access.trans k.access
  kept :=
    { access := fun p _ => (h.access.trans k.access) p
      tables := ⟨k.kept.tables.1.trans h.kept.tables.1, k.kept.tables.2.trans h.kept.tables.2⟩
      words := fun a ha hn hc => by
        simp only [List.mem_append, not_or] at hn
        exact (k.kept.words a ha hn.2 (h.coherent a ha (.inr hc))).trans (h.kept.words a ha hn.1 hc)
      bytes := fun b hn hd => by
        simp only [List.mem_append, not_or] at hn
        refine (k.kept.bytes b hn.2 fun e he hed hc => ?_).trans (h.kept.bytes b hn.1 hd)
        rcases h.dirty e he hed with h1 | ⟨f, hf, hfd, hfa⟩
        · exact hn.1 (hc ▸ h1)
        · exact hd f hf hfd (hfa.trans hc) }
  evictable := k.evictable
  keys := k.keys
  coherent := fun a ha hc => by
    simp only [List.mem_append] at hc
    by_cases hm : a ∈ m
    · exact k.coherent a ha (.inl hm)
    · refine k.coherent a ha (.inr (h.coherent a ha ?_))
      rcases hc with (hc | hc) | hc
      · exact .inl hc
      · exact absurd hc hm
      · exact .inr hc
  dirty := fun e he hd => by
    simp only [List.mem_append]
    rcases k.dirty e he hd with h1 | ⟨f, hf, hfd, hfa⟩
    · exact .inl (.inr h1)
    · rcases h.dirty f hf hfd with h2 | ⟨g, hg, hgd, hga⟩
      · exact .inl (.inl (hfa ▸ h2))
      · exact .inr ⟨g, hg, hgd, hga.trans hfa⟩
  even := fun a ha => by
    rcases List.mem_append.1 ha with ha | ha
    · exact h.even a ha
    · exact k.even a ha

theorem AllWriteBackOk.roomOk {s : State} (h : AllWriteBackOk s) (pa : Nat) : RoomOk s pa := by
  intro e he
  obtain ⟨_, _, h3, h4⟩ := evictedBy_mem he
  exact h e (List.mem_of_head? h3) h4

theorem WriteBackOk.congr {s t : State} (hc : t.cfg = s.cfg) (ha : sameAccess s t) {e : DEntry} (h : WriteBackOk s e) :
    WriteBackOk t e := by
  obtain ⟨h1, h2, h3⟩ := h
  refine ⟨h1, hc ▸ h2, ?_⟩
  rcases h3 with h3 | h3
  · exact .inl (hc ▸ h3)
  · exact .inr (((ha _).2.1).trans h3)

/-- The common part of a load and a store: everything follows from what the data cache and the bytes become. -/
theorem Chain.of_access {s t : State} {pa : Nat} {new : DEntry} {stored : List Nat} (he : AllWriteBackOk s)
    (hk : DataKeysDistinct s) (hpa : pa % 2 = 0) (rest : t.cfg = s.cfg) (access : sameAccess s t) (tables : sameTables s t)
    (hnew : new.addr = pa)
    (hcache : (findData pa s.core.dcache ≠ none ∧ t.core.dcache = removeData pa s.core.dcache ++ [new])
      ∨ (findData pa s.core.dcache = none ∧ t.core.dcache = roomMade s.core ++ [new]))
    (hbytes : ∀ b, t.mc.byteAt b = byteAfter s.mc (evictedBy s.core pa) b)
    (hdirty : new.dirty = true → WriteBackOk s new)
    (hstored : (stored = [pa] ∧ new.dirty = true)
      ∨ (stored = [] ∧ new.value = wordAt s pa
          ∧ (new.dirty = true → ∃ f ∈ s.core.dcache, f.dirty = true ∧ f.addr = pa)
          ∧ (new.dirty = false → Coherent s pa → new.value = s.mc.u16At pa))) :
    Chain s t stored := by
  have hroom := he.roomOk pa
  have hev : ∀ e, evictedBy s.core pa = some e → e.addr % 2 = 0 := fun e h => (hroom e h).1
  have hmem : ∀ e ∈ t.core.dcache, e = new ∨ e ∈ s.core.dcache := by
    intro e h
    rcases hcache with ⟨_, hc⟩ | ⟨_, hc⟩ <;> rw [hc] at h <;> rcases List.mem_append.1 h with h | h
    · exact .inr (mem_removeData.1 h).1
    · exact .inl (by simpa using h)
    · exact .inr (mem_roomMade h)
    · exact .inl (by simpa using h)
  have hkeys : DataKeysDistinct t := by
    unfold DataKeysDistinct dataKeys
    rcases hcache with ⟨_, hc⟩ | ⟨hn, hc⟩ <;> rw [hc]
    · exact nodup_append_fresh (nodup_removeData _ hk) (by simp [hnew, findData_removeData])
    · exact nodup_append_fresh (nodup_roomMade hk) (by rw [hnew]; exact findData_roomMade_none hn)
  have hself : findData pa t.core.dcache = some new := by
    have := findData_of_mem hkeys (e := new) (by rcases hcache with ⟨_, hc⟩ | ⟨_, hc⟩ <;> simp [hc])
    rwa [hnew] at this
  have hother : ∀ a, a ≠ pa → findData a t.core.dcache = findData a s.core.dcache
      ∨ (evictedBy s.core pa = none ∨ ∃ e, evictedBy s.core pa = some e ∧ e.addr = a)
        ∧ (∃ e, findData a s.core.dcache = some e ∧ findData a t.core.dcache = none
          ∧ (e.dirty = true → evictedBy s.core pa = some e) ∧ (e.dirty = false → evictedBy s.core pa = none)) := by
    intro a ha
    rcases hcache with ⟨_, hc⟩ | ⟨hn, hc⟩ <;> rw [hc, findData_append]
    · left
      simp [findData_removeData, ha, findData, hnew, Ne.symm ha]
    · rcases findData_roomMade hk a with h | ⟨hf, e, hh, hea, hfe, hnone⟩
      · left; simp [h, findData, hnew, Ne.symm ha]
      · right
        have hev' : evictedBy s.core pa = if e.dirty = true then some e else none := by
          have hf' : (s.core.dcache.length == s.core.sizes.dcache) = true := by simp [hf]
          unfold evictedBy
          rw [hn, hf', hh]
          by_cases hd : e.dirty = true <;> simp [hd]
        refine ⟨?_, e, hfe, by simp [hnone, findData, hnew, Ne.symm ha], fun hd => by simp [hev', hd], fun hd => by simp [hev', hd]⟩
        by_cases hd : e.dirty = true
        · exact .inr ⟨e, by simp [hev', hd], hea⟩
        · exact .inl (by simp [hev', hd])
  have hu16 : ∀ a, a % 2 = 0 → (∀ e, evictedBy s.core pa = some e → a ≠ e.addr) → t.mc.u16At a = s.mc.u16At a := by
    intro a ha hne
    rw [u16At_byteAfter hbytes hev ha]
    cases h : evictedBy s.core pa with
    | none => rfl
    | some e => simp [wordAfter, hne e h]
  -- an address whose entry stays is not the evicted one
  have hstay : ∀ a e, findData a t.core.dcache = some e → a ≠ pa → ∀ f, evictedBy s.core pa = some f → a ≠ f.addr := by
    intro a e hfe hap f hf hc
    obtain ⟨hn, hfull, hh, hd⟩ := evictedBy_mem hf
    rcases hcache with ⟨hn', _⟩ | ⟨_, hc'⟩
    · exact hn' hn
    · rw [hc', findData_append] at hfe
      have hroomed : findData a (roomMade s.core) = none := by
        unfold roomMade
        rw [if_pos hfull, findData_tail hk hh]
        simp [hc]
      simp [hroomed, findData, hnew, Ne.symm hap] at hfe
  have hwords : ∀ a, a % 2 = 0 → a ≠ pa → Coherent s a → wordAt t a = wordAt s a := by
    intro a ha hap hco
    rcases hother a hap with h | ⟨_, e, hfe, hnone, hd1, hd2⟩
    · unfold wordAt
      rw [h]
      cases hfa : findData a s.core.dcache with
      | some e => rfl
      | none =>
        refine hu16 a ha fun f hf hc => ?_
        obtain ⟨_, _, hh, _⟩ := evictedBy_mem hf
        rw [hc, findData_of_mem hk (List.mem_of_head? hh)] at hfa
        simp at hfa
    · unfold wordAt
      rw [hnone, hfe]
      by_cases hd : e.dirty = true
      · rw [u16At_byteAfter hbytes hev ha, hd1 hd]
        simp [wordAfter, (findData_mem hfe).2]
      · simp only [Bool.not_eq_true] at hd
        rw [u16At_byteAfter hbytes hev ha, hd2 hd]
        exact (hco e hfe hd).symm
  have hself16 : t.mc.u16At pa = s.mc.u16At pa := by
    refine hu16 pa hpa fun f hf hc => ?_
    obtain ⟨hn, _, hh, _⟩ := evictedBy_mem hf
    rw [hc, findData_of_mem hk (List.mem_of_head? hh)] at hn
    simp at hn
  have hcoh : ∀ a, a % 2 = 0 → a ≠ pa → Coherent s a → Coherent t a := by
    intro a ha hap hco e hfe hd
    rw [hu16 a ha (hstay a e hfe hap)]
    rcases hother a hap with h | ⟨_, _, _, hnone, _⟩
    · exact hco e (h ▸ hfe) hd
    · rw [hnone] at hfe; simp at hfe
  refine ⟨rest, access, ⟨fun p _ => access p, tables, ?_, ?_⟩, ?_, hkeys, ?_, ?_, ?_⟩
  · intro a ha hns hco
    by_cases hap : a = pa
    · subst hap
      rcases hstored with ⟨hs, _⟩ | ⟨_, hv, _⟩
      · simp [hs] at hns
      · simp [wordAt, hself, hv]
    · exact hwords a ha hap hco
  · intro b _ hnd
    rw [hbytes]
    cases h : evictedBy s.core pa with
    | none => rfl
    | some e =>
      obtain ⟨_, _, hh, hd⟩ := evictedBy_mem h
      have := hnd e (List.mem_of_head? hh) hd
      have hev' := hev e h
      simp only [byteAfter]
      rw [if_neg (by omega), if_neg (by omega)]
  · intro e hm hd
    rcases hmem e hm with rfl | hm
    · exact (hdirty hd).congr rest access
    · exact (he e hm hd).congr rest access
  · intro a ha hco
    by_cases hap : a = pa
    · subst hap
      intro e hfe hd
      rw [hself, Option.some.injEq] at hfe
      subst hfe
      rcases hstored with ⟨_, hnd⟩ | ⟨hs, _, _, hcl⟩
      · rw [hnd] at hd; simp at hd
      · rw [hself16]
        refine hcl hd ?_
        simpa [hs] using hco
    · refine hcoh a ha hap ?_
      rcases hco with hco | hco
      · rcases hstored with ⟨hs, _⟩ | ⟨hs, _⟩
        · rw [hs] at hco; simp at hco; exact absurd hco hap
        · rw [hs] at hco; simp at hco
      · exact hco
  · intro e hm hd
    rcases hmem e hm with rfl | hm
    · rcases hstored with ⟨hs, _⟩ | ⟨_, _, hf, _⟩
      · left; simp [hs, hnew]
      · right; rw [hnew]; exact hf hd
    · exact .inr ⟨e, hm, hd, rfl⟩
  · intro a ha
    rcases hstored with ⟨hs, _⟩ | ⟨hs, _⟩
    · rw [hs] at ha; simp at ha; rw [ha]; exact hpa
    · rw [hs] at ha; simp at ha

theorem Readable.loadOk {s : State} (h : AllWriteBackOk s) {pa : Nat} (hr : Readable s pa) : LoadOk s pa :=
  ⟨hr.1, .inr hr.2, h.roomOk pa⟩

theorem Writable.storeOk {s : State} (h : AllWriteBackOk s) {pa : Nat} (hw : Writable s pa) : StoreOk s pa :=
  ⟨hw.1, fun _ => hw.2, h.roomOk pa⟩

/-- A permitted load as one link of a chain. -/
theorem dRead16_chain {s : State} {pa : Nat} (he : AllWriteBackOk s) (hk : DataKeysDistinct s) (hr : Readable s pa) :
    ∃ t, dRead16 pa s = .ok (wordAt s pa) t ∧ t.core.regs = s.core.regs ∧ Chain s t [] := by
  obtain ⟨t, h1, h2, h3, h4, h5, h6, h7⟩ := dRead16_ok (hr.loadOk he)
  refine ⟨t, h1, h3, ?_⟩
  cases hf : findData pa s.core.dcache with
  | some e =>
    obtain ⟨hm, ha⟩ := findData_mem hf
    refine Chain.of_access he hk hr.1 h2.1.1 h6 h7 ha (.inl ⟨by simp [hf], by simpa [cacheAfterLoad, hf] using h4⟩) h5 (he e hm) ?_
    exact .inr ⟨rfl, by simp [wordAt, hf], fun hd => ⟨e, hm, hd, ha⟩, fun hd hco => hco e hf hd⟩
  | none =>
    refine Chain.of_access (new := { addr := pa, dirty := false, value := wordAt s pa }) he hk hr.1 h2.1.1 h6 h7 rfl
      (.inr ⟨hf, by simpa [cacheAfterLoad, hf] using h4⟩) h5 (by simp) ?_
    exact .inr ⟨rfl, rfl, by simp, fun _ _ => by simp [wordAt, hf]⟩

/-- A permitted store as one link of a chain. -/
theorem dWrite16_chain {s : State} {pa : Nat} (v : Word) (he : AllWriteBackOk s) (hk : DataKeysDistinct s)
    (hw : Writable s pa) :
    ∃ t, dWrite16 pa v s = .ok () t ∧ t.core.regs = s.core.regs ∧ Chain s t [pa] ∧ wordAt t pa = v := by
  obtain ⟨t, h1, h2, h3, h4, h5, h6, h7⟩ := dWrite16_ok v (hw.storeOk he)
  have hc : Chain s t [pa] := by
    refine Chain.of_access (new := { addr := pa, dirty := true, value := v }) he hk hw.1 h2.1.1 h6 h7 rfl ?_ h5
      (fun _ => ⟨hw.1, hw.2.1, .inr hw.2.2⟩) (.inl ⟨rfl, rfl⟩)
    cases hf : findData pa s.core.dcache with
    | some e => exact .inl ⟨by simp, by simpa [cacheAfterStore, hf] using h4⟩
    | none => exact .inr ⟨rfl, by simpa [cacheAfterStore, hf] using h4⟩
  refine ⟨t, h1, h3, hc, ?_⟩
  have hm : ({ addr := pa, dirty := true, value := v } : DEntry) ∈ t.core.dcache := by
    rw [h4]; unfold cacheAfterStore; split <;> simp
  have := findData_of_mem hc.keys hm
  simp only at this
  simp [wordAt, this]

/-! ## Changing what data accesses do not look at -/

/-- Two states whose data cache, memory and configuration are the same. -/
def sameData (s t : State) : Prop :=
  t.cfg = s.cfg ∧ t.mc = s.mc ∧ t.core.dcache = s.core.dcache

theorem sameData.withRegs (s : State) (g : Regs) : sameData s (s.withRegs g) := ⟨rfl, rfl, rfl⟩

theorem sameData.wordAt {s t : State} (h : sameData s t) (a : Nat) : wordAt t a = wordAt s a := by
  simp only [Machine.wordAt, h.2.1, h.2.2]

theorem sameData.coherent {s t : State} (h : sameData s t) {a : Nat} (hc : Coherent s a) : Coherent t a := by
  intro e he hd
  rw [h.2.1]
  exact hc e (h.2.2 ▸ he) hd

theorem Chain.toData {s t u : State} {l : List Nat} (h : Chain s t l) (hd : sameData t u) : Chain s u l where
  cfg := hd.1.trans h.cfg
  access := fun p => by rw [hd.1, hd.2.1]; exact h.access p
  kept :=
    { access := fun p _ => by rw [hd.1, hd.2.1]; exact h.access p
      tables := by unfold sameTables; rw [hd.2.1]; exact h.kept.tables
      words := fun a ha hn hc => (hd.wordAt a).trans (h.kept.words a ha hn hc)
      bytes := fun b hn hc => by rw [hd.2.1]; exact h.kept.bytes b hn hc }
  evictable := fun e he hdirty => by
    have := h.evictable e (hd.2.2 ▸ he) hdirty
    unfold WriteBackOk at *
    rw [hd.1, hd.2.1]
    exact this
  keys := by
    have := h.keys
    unfold DataKeysDistinct dataKeys at *
    rw [hd.2.2]
    exact this
  coherent := fun a ha hc => hd.coherent (h.coherent a ha hc)
  dirty := fun e he hdirty => h.dirty e (hd.2.2 ▸ he) hdirty
  even := h.even

theorem Chain.ofData {s t u : State} {l : List Nat} (hd : sameData s t) (h : Chain t u l) : Chain s u l := by
  have h0 : ∀ a, Coherent s a → Coherent t a := fun a => hd.coherent
  have hacc : sameAccess s u := fun p => by
    have := h.access p
    rwa [hd.1, hd.2.1] at this
  refine
    { cfg := h.cfg.trans hd.1
      access := hacc
      kept := ⟨fun p _ => hacc p, ?_, fun a ha hn hc => ?_, fun b hn hc => ?_⟩
      evictable := h.evictable
      keys := h.keys
      coherent := fun a ha hc => h.coherent a ha (hc.imp id (h0 a))
      dirty := fun e he hdirty => ?_
      even := h.even }
  · have := h.kept.tables
    unfold sameTables at *
    rwa [hd.2.1] at this
  · exact (h.kept.words a ha hn (h0 a hc)).trans (hd.wordAt a)
  · rw [← hd.2.1]
    exact h.kept.bytes b hn (by rw [hd.2.2]; exact hc)
  · have := h.dirty e he hdirty
    rwa [hd.2.2] at this

theorem Chain.withRegs {s t : State} {l : List Nat} (h : Chain s t l) (g : Regs) : Chain s (t.withRegs g) l :=
  h.toData (.withRegs t g)

theorem Chain.ofRegs {s : State} {g : Regs} {t : State} {l : List Nat} (h : Chain (s.withRegs g) t l) : Chain s t l :=
  .ofData (.withRegs s g) h

theorem Chain.writable {s t : State} {l : List Nat} (h : Chain s t l) {pa : Nat} (hw : Writable s pa) : Writable t pa :=
  ⟨hw.1, h.cfg ▸ hw.2.1, ((h.access _).2.1).trans hw.2.2⟩

theorem Chain.readable {s t : State} {l : List Nat} (h : Chain s t l) {pa : Nat} (hr : Readable s pa) : Readable t pa :=
  ⟨hr.1, h.cfg ▸ hr.2.1, ((h.access _).1).trans hr.2.2⟩

/-! ## The stack -/

/-- `Push16(v)` when the slot below `SP` can be written (44_stack_call.md R170). -/
theorem push16_chain {s : State} (v : Word) (he : AllWriteBackOk s) (hk : DataKeysDistinct s)
    (hw : Writable s (phys s.core.regs.ds (s.core.regs.sp - 2))) :
    ∃ t, push16 v s = .ok () t ∧ t.outside = (s.withRegs { s.core.regs with sp := s.core.regs.sp - 2 }).outside
      ∧ Chain s t [phys s.core.regs.ds (s.core.regs.sp - 2)]
      ∧ wordAt t (phys s.core.regs.ds (s.core.regs.sp - 2)) = v := by
  obtain ⟨t, h1, -, h3, h4⟩ :=
    dWrite16_chain (s := s.withRegs { s.core.regs with sp := s.core.regs.sp - 2 }) v he hk hw
  refine ⟨t, ?_, (Same.dWrite16 _ _).ok h1, h3.ofRegs, h4⟩
  unfold push16
  rw [bind_ok (actRegs_run _ _), bind_ok (ask_run _ _)]
  exact h1

/-- `Pop16()` when the slot at `SP` can be read (44_stack_call.md R170). -/
theorem pop16_chain {s : State} (he : AllWriteBackOk s) (hk : DataKeysDistinct s)
    (hr : Readable s (phys s.core.regs.ds s.core.regs.sp)) :
    ∃ t, pop16 s = .ok (wordAt s (phys s.core.regs.ds s.core.regs.sp)) t
      ∧ t.outside = (s.withRegs { s.core.regs with sp := s.core.regs.sp + 2 }).outside ∧ Chain s t [] := by
  obtain ⟨t, h1, h2, h3⟩ := dRead16_chain he hk hr
  refine ⟨t.withRegs { s.core.regs with sp := s.core.regs.sp + 2 }, ?_, ?_, h3.withRegs _⟩
  · unfold pop16
    rw [bind_ok (ask_run _ _), bind_ok h1, bind_ok (actRegs_run _ _), h2]
    rfl
  · rw [State.outside_withRegs, (Same.dRead16 _).ok h1, State.outside_withRegs]

end Sys2Proof.Machine
end

