-- ==== Sys2Proof/Laws/Exec.lean ====
section
/-! SUPPORT. The frame of an instruction (60_exceptions.md R202), the die transition (R206), and what every instruction leaves alone:
`bodyOf` names the own rule of each instruction, and `exec_eq` says that `exec` runs it in that frame. -/

namespace Sys2Proof.Machine

/-! ## The frame -/

/-- Each instruction's own rule, between the checks and `CNT`. -/
def bodyOf : Instr → M Unit
  | .lw rd rb off => do
    let a ← effectiveAddress rb off
    let v ← dRead16 a
    loaded rd v
  | .lb rd rb off => do
    let a ← effectiveAddress rb off
    let b ← memRead8 a false
    loaded rd (b.setWidth 16)
  | .li rd v => loaded rd v
  | .stw rb off r => do
    let a ← effectiveAddress rb off
    let v ← readReg r
    dWrite16 a v
  | .stb rb off r => do
    let a ← effectiveAddress rb off
    let v ← readReg r
    memWrite8 a (v.setWidth 8) false true
  | .mov rd rs => do
    let v ← readReg rs
    writeReg rd v
  | .swp rd rs => do
    let t ← readReg rd
    let u ← readReg rs
    writeReg rd u
    writeReg rs t
  | .add rd o => do
    let a ← readReg rd
    let b ← operand o
    sumInto rd a b
  | .sub rd o => do
    let a ← readReg rd
    let b ← operand o
    diffInto rd a b
  | .inc r => do
    let a ← readReg r
    sumInto r a 1
  | .dec r => do
    let a ← readReg r
    diffInto r a 1
  | .mul rd o => do
    let a ← readReg rd
    let b ← operand o
    productInto rd (mulWord a b)
  | .div rd o => do
    let a ← readReg rd
    let b ← operand o
    require (!(b == 0)) .arithmeticFault .divide
    let round ← ask fun s => s.cfg.divRound
    productInto rd (divWord round a b)
  | .mod rd o => do
    let a ← readReg rd
    let b ← operand o
    require (!(b == 0)) .arithmeticFault .modulo
    let round ← ask fun s => s.cfg.divRound
    productInto rd (modWord round a b)
  | .and rd o => do
    let a ← readReg rd
    let b ← operand o
    bitsInto rd (a &&& b)
  | .or rd o => do
    let a ← readReg rd
    let b ← operand o
    bitsInto rd (a ||| b)
  | .xor rd o => do
    let a ← readReg rd
    let b ← operand o
    bitsInto rd (a ^^^ b)
  | .not r => do
    let a ← readReg r
    bitsInto r (a ^^^ 0xFFFF)
  | .shiftl rd o => do
    let a ← readReg rd
    let b ← operand o
    bitsInto rd (shiftLeftWord a b)
  | .shiftr rd o => do
    let a ← readReg rd
    let b ← operand o
    bitsInto rd (shiftRightWord a b)
  | .cmp rd o => do
    let x ← readReg rd
    let y ← operand o
    setFlags (Flags.compare x y (decide (x.toInt < y.toInt)))
  | .cmpu rd o => do
    let x ← readReg rd
    let y ← operand o
    setFlags (Flags.compare x y (decide (x.toNat < y.toNat)))
  | .be o => branch Flags.condE o
  | .bne o => branch Flags.condNE o
  | .bz o => branch Flags.condZ o
  | .bnz o => branch Flags.condNZ o
  | .bs o => branch Flags.condS o
  | .bns o => branch Flags.condNS o
  | .bg o => branch Flags.condG o
  | .bge o => branch Flags.condGE o
  | .bl o => branch Flags.condL o
  | .ble o => branch Flags.condLE o
  | .j o => branch (fun _ => true) o
  | .push r => do
    let v ← readReg r
    push16 v
  | .pop r => do
    let v ← pop16
    writeReg r v
  | .call o => do
    let t ← target o
    createFrame
    writeReg .ip t
  | .ret => do
    checkFrame
    destroyFrame
  | .cli => setFlags fun f => { f with h := false }
  | .sti => setFlags fun f => { f with h := true }
  | .hlt o => do
    let v ← operand o
    actCore fun c => { c with exitCode := v }
    haltCore
  | .rst => actRegs Regs.coreReset
  | .retint => exitInterrupt
  | .inw rd o => do
    let port ← operand o
    portCheck port
    let v ← drawPort
    note (.portRead16 port v)
    writeReg rd v
  | .outw o r => do
    let port ← operand o
    portCheck port
    let v ← readReg r
    note (.portWrite16 port v)
  | .inb rd o => do
    let port ← operand o
    portCheck port
    let v ← drawPort
    let b : Byte := v.setWidth 8
    note (.portRead8 port b)
    writeReg rd (b.setWidth 16)
  | .outb o r => do
    let port ← operand o
    portCheck port
    let v ← readReg r
    note (.portWrite8 port (v.setWidth 8))
  | .cas ra re rn => do
    let off ← readReg ra
    let a ← ask fun s => phys s.core.regs.ds off
    let e ← readReg re
    let n ← readReg rn
    let res ← cas16 a e n
    match res with
    | .success => setFlags fun f => { f with e := true }
    | .observed c => do
      writeReg re c
      setFlags fun f => { f with e := false }
  | .int o => do
    let n ← operand o
    let isVirtual ← ask fun s => s.cfg.vint.contains n
    let base ← ask fun s => s.cfg.intTableBase
    let count ← ask fun s => s.cfg.intCount
    if isVirtual then virtualInterrupt n
    else enterInterrupt base count n.toNat

theorem exec_eq (i : Instr) (s : State) : exec i s = complete i (bodyOf i) s := by cases i <;> rfl

/-! ## The two checks (60_exceptions.md R202) -/

@[simp] theorem State.advanced_regs (s : State) : s.advanced.core.regs = s.core.regs.advance := rfl
@[simp] theorem State.advanced_cfg (s : State) : s.advanced.cfg = s.cfg := rfl
@[simp] theorem State.advanced_mc (s : State) : s.advanced.mc = s.mc := rfl
@[simp] theorem State.advanced_others (s : State) : s.advanced.others = s.others := rfl
@[simp] theorem State.advanced_dcache (s : State) : s.advanced.core.dcache = s.core.dcache := rfl
@[simp] theorem State.advanced_frames (s : State) : s.advanced.core.frames = s.core.frames := rfl
@[simp] theorem State.advanced_istack (s : State) : s.advanced.core.istack = s.core.istack := rfl
@[simp] theorem State.advanced_alive (s : State) : s.advanced.core.alive = s.core.alive := rfl
@[simp] theorem State.advanced_withRegs (s : State) (g : Regs) : s.advanced.withRegs g = s.withRegs g := rfl
@[simp] theorem State.advanced_portAnswers (s : State) : s.advanced.portAnswers = s.portAnswers := rfl
@[simp] theorem State.advanced_vintAnswers (s : State) : s.advanced.vintAnswers = s.vintAnswers := rfl
@[simp] theorem State.advanced_draws (s : State) : s.advanced.draws = s.draws := rfl
@[simp] theorem State.advanced_history (s : State) : s.advanced.history = s.history := rfl

theorem checkPrivilege_run (i : Instr) (s : State) :
    checkPrivilege i s = if s.core.regs.flags.p || !isPrivileged i then .ok () s
      else .error { kind := .accessViolation, info := .instruction } s := rfl

theorem checkField_run (r : Reg) (s : State) :
    checkField r s = if s.core.regs.flags.p || !isProtectedReg r then .ok () s
      else .error { kind := .accessViolation, info := .register r.num } s := rfl

/-- The field checks: they pass, or name the first protected field (10_state.md R23, 60_exceptions.md R209). -/
theorem checkFields_run (l : List Reg) (s : State) :
    forEach checkField l s = match l.find? (fun r => !s.core.regs.flags.p && isProtectedReg r) with
      | none => .ok () s
      | some r => .error { kind := .accessViolation, info := .register r.num } s := by
  induction l with
  | nil => rfl
  | cons r l ih =>
    rw [forEach_cons, bind_run, checkField_run, List.find?_cons]
    cases hp : s.core.regs.flags.p <;> cases hr : isProtectedReg r <;> simp [hp] at ih ⊢ <;> exact ih

theorem guarded_eq (i : Instr) (body : M Unit) (s : State) :
    guarded i body s = (checkPrivilege i >>= fun _ => forEach checkField (regFields i) >>= fun _ =>
      body >>= fun _ => actRegs Regs.count) s.advanced := rfl

/-- An allowed instruction runs its own rule, and `CNT` counts it (60_exceptions.md R202). -/
theorem guarded_of_allowed {i : Instr} {s : State} (h : Allowed i s = true) (body : M Unit) :
    guarded i body s = (body >>= fun _ => actRegs Regs.count) s.advanced := by
  rw [guarded_eq]
  have h1 : checkPrivilege i s.advanced = .ok () s.advanced := by
    rw [checkPrivilege_run, if_pos]
    simp only [Allowed, Bool.or_eq_true, Bool.and_eq_true] at h
    simp only [State.advanced_regs, Regs.advance_flags, Bool.or_eq_true]
    rcases h with h | h
    · exact .inl h
    · exact .inr h.1
  have h2 : forEach checkField (regFields i) s.advanced = .ok () s.advanced := by
    rw [checkFields_run]
    have : (regFields i).find? (fun r => !s.advanced.core.regs.flags.p && isProtectedReg r) = none := by
      rw [List.find?_eq_none]
      intro r hr
      simp only [Allowed, Bool.or_eq_true, Bool.and_eq_true, List.all_eq_true] at h
      simp only [State.advanced_regs, Regs.advance_flags, Bool.and_eq_true, Bool.not_eq_true']
      rintro ⟨hp, hr'⟩
      rcases h with h | h
      · simp [h] at hp
      · have := h.2 r hr
        simp [hr'] at this
    rw [this]
  rw [bind_ok h1, bind_ok h2]

theorem complete_ok {i : Instr} {body : M Unit} {s t : State} (h : Allowed i s = true) (hb : body s.advanced = .ok () t) :
    complete i body s = .next (t.withRegs t.core.regs.count) := by
  unfold complete
  rw [guarded_of_allowed h, bind_ok hb, actRegs_run]
  rfl

theorem complete_error {i : Instr} {body : M Unit} {s t : State} {e : Exc} (h : Allowed i s = true)
    (hb : body s.advanced = .error e t) : complete i body s = .next (die e (siteOf i s) t) := by
  unfold complete
  rw [guarded_of_allowed h, bind_error hb]
  rfl

/-- A privileged instruction in unprivileged mode dies before any other check (45_privileged_io.md R180). -/
theorem complete_privileged {i : Instr} (body : M Unit) {s : State} (hp : s.core.regs.flags.p = false)
    (hi : isPrivileged i = true) :
    complete i body s = .next (die (exc .accessViolation .instruction) (siteOf i s) s.advanced) := by
  have h1 : checkPrivilege i s.advanced = .error (exc .accessViolation .instruction) s.advanced := by
    rw [checkPrivilege_run, if_neg (by simp [hp, hi])]; rfl
  unfold complete
  rw [guarded_eq, bind_error h1]
  rfl

/-- An instruction that names a protected register in unprivileged mode dies; its first such field is named
(10_state.md R23). -/
theorem complete_protected {i : Instr} (body : M Unit) {s : State} {r : Reg} (hp : s.core.regs.flags.p = false)
    (hi : isPrivileged i = false) (hr : (regFields i).find? isProtectedReg = some r) :
    complete i body s = .next (die (exc .accessViolation (.register r.num)) (siteOf i s) s.advanced) := by
  have h1 : checkPrivilege i s.advanced = .ok () s.advanced := by
    rw [checkPrivilege_run, if_pos (by simp [hi])]
  have h2 : forEach checkField (regFields i) s.advanced
      = .error (exc .accessViolation (.register r.num)) s.advanced := by
    rw [checkFields_run]
    simp only [State.advanced_regs, Regs.advance_flags, hp, Bool.not_false, Bool.true_and, hr]
    rfl
  unfold complete
  rw [guarded_eq, bind_ok h1, bind_error h2]
  rfl

/-- Every outcome of an instruction is a next state: it completes, or it dies (60_exceptions.md R202, R206). -/
theorem complete_next (i : Instr) (body : M Unit) (s : State) : ∃ t, complete i body s = .next t := by
  unfold complete
  cases guarded i body s with
  | ok _ t => exact ⟨_, rfl⟩
  | error e t => exact ⟨_, rfl⟩

theorem exec_next (i : Instr) (s : State) : ∃ t, exec i s = .next t := by
  rw [exec_eq]; exact complete_next _ _ _

/-- Which of the ways of R202 an instruction goes. -/
theorem exec_cases (i : Instr) (s : State) :
    (Allowed i s = true ∧ ∃ t, bodyOf i s.advanced = .ok () t ∧ exec i s = .next (t.withRegs t.core.regs.count))
      ∨ (Allowed i s = true ∧ ∃ e t, bodyOf i s.advanced = .error e t ∧ exec i s = .next (die e (siteOf i s) t))
      ∨ (Allowed i s = false ∧ ∃ e, exec i s = .next (die e (siteOf i s) s.advanced)) := by
  rw [exec_eq]
  cases ha : Allowed i s with
  | true =>
    cases hb : bodyOf i s.advanced with
    | ok u t => exact .inl ⟨rfl, t, rfl, complete_ok ha hb⟩
    | error e t => exact .inr (.inl ⟨rfl, e, t, rfl, complete_error ha hb⟩)
  | false =>
    refine .inr (.inr ⟨rfl, ?_⟩)
    simp only [Allowed, Bool.or_eq_false_iff, Bool.and_eq_false_iff] at ha
    obtain ⟨hp, hi⟩ := ha
    cases hpi : isPrivileged i with
    | true => exact ⟨_, complete_privileged _ hp hpi⟩
    | false =>
      cases hf : (regFields i).find? isProtectedReg with
      | some r => exact ⟨_, complete_protected _ hp hpi hf⟩
      | none =>
        exfalso
        rw [List.find?_eq_none] at hf
        rcases hi with hi | hi
        · simp [hpi] at hi
        · rw [List.all_eq_false] at hi
          obtain ⟨r, hr, hrp⟩ := hi
          exact hf r hr (by simpa using hrp)

/-! ## Die (60_exceptions.md R206) -/

/-- `HaltCore(dying = true)` clears `alive` and `running` of a live core; beside that only memory and the data cache can change
(60_exceptions.md R221). -/
theorem haltDying_spec (s : State) :
    sameSurroundings s (haltDying s) ∧ sameHost s (haltDying s) ∧ (haltDying s).core.regs = s.core.regs
      ∧ sameCoreRest { s.core with alive := false, running := s.core.running && !s.core.alive } (haltDying s).core := by
  unfold haltDying
  cases ha : s.core.alive with
  | false => simp [ha, sameSurroundings, sameHost, sameCoreRest]
  | true =>
    obtain ⟨⟨⟨h1, h2, h3, h4⟩, ⟨h5, h6, h7, h8⟩, ⟨k1, k2, k3, k4, k5, k6, k7, k8, k9, k10, k11⟩⟩, kr⟩ :=
      outside_eq (flushDying_outside (dataKeys s) s)
    simp [Core.stopped, sameSurroundings, sameHost, sameCoreRest, h1, h2, h3, h4, h5, h6, h7, h8, k1, k2, k5, k6, k7, k8, k9,
      k10, k11, kr]

/-- The state with the fault recorded, if none was, and exit code 1: the first two lines of `Die`. -/
def State.doomed (s : State) (e : Exc) (site : FaultSite) : State :=
  { s with core := { s.core with
      fault := if s.core.fault.isNone then some (faultRecord e site s.core) else s.core.fault
      exitCode := 1 } }

theorem die_eq (e : Exc) (site : FaultSite) (s : State) : die e site s = haltDying (s.doomed e site) := rfl

/-- Everything the die transition does outside memory and the data cache: the first fault is recorded, the exit code is 1, the
core is not alive, and nothing else has changed. -/
theorem die_spec (e : Exc) (site : FaultSite) (s : State) :
    sameSurroundings s (die e site s) ∧ sameHost s (die e site s) ∧ (die e site s).core.regs = s.core.regs
      ∧ sameCoreRest { (s.doomed e site).core with alive := false, running := s.core.running && !s.core.alive }
          (die e site s).core := haltDying_spec (s.doomed e site)

end Sys2Proof.Machine
end

