-- ==== Sys2Proof/Laws/Frames.lean ====
section
/-! SUPPORT. Sequences of pushes and pops, and call frames (44_stack_call.md R170, R173, R174). -/

namespace Sys2Proof.Machine

/-! ## Slots -/

theorem phys_inj {seg : Byte} {a b : Word} : phys seg a = phys seg b ↔ a = b := by
  unfold phys
  constructor
  · intro h; exact BitVec.eq_of_toNat_eq (by omega)
  · rintro rfl; rfl

theorem phys_mod_two (seg : Byte) (a : Word) : phys seg a % 2 = a.toNat % 2 := by unfold phys; omega

theorem two_toNat : (2 : Word).toNat = 2 := rfl
theorem four_toNat : (4 : Word).toNat = 4 := rfl

theorem sub_ofNat_ne {sp : Word} {m n : Nat} (hm : m < 65536) (hn : n < 65536) (h : m ≠ n) :
    sp - BitVec.ofNat 16 m ≠ sp - BitVec.ofNat 16 n := by
  intro hc
  apply h
  have := congrArg BitVec.toNat hc
  simp only [BitVec.toNat_sub, BitVec.toNat_ofNat] at this
  omega

theorem pushSlot_inj {g : Regs} {j k : Nat} (hj : j < 1000) (hk : k < 1000) : pushSlot g j = pushSlot g k ↔ j = k := by
  unfold pushSlot
  rw [phys_inj]
  constructor
  · intro h
    by_contra hne
    exact sub_ofNat_ne (by omega) (by omega) (show 2 * (j + 1) ≠ 2 * (k + 1) by omega) h
  · rintro rfl; rfl

theorem pushSlot_succ (g : Regs) (k : Nat) :
    pushSlot { g with sp := g.sp - 2 } k = pushSlot g (k + 1) := by
  unfold pushSlot
  rw [phys_inj]
  apply BitVec.eq_of_toNat_eq
  simp only [BitVec.toNat_sub, BitVec.toNat_ofNat, two_toNat]
  omega

theorem pushSlot_zero (g : Regs) : pushSlot g 0 = phys g.ds (g.sp - 2) := rfl

theorem stackSlot_zero (g : Regs) : stackSlot g 0 = phys g.ds g.sp := by simp [stackSlot]

theorem stackSlot_succ (g : Regs) (k : Nat) :
    stackSlot { g with sp := g.sp + 2 } k = stackSlot g (k + 1) := by
  unfold stackSlot
  rw [phys_inj]
  apply BitVec.eq_of_toNat_eq
  simp only [BitVec.toNat_add, BitVec.toNat_ofNat, two_toNat]
  omega

/-- What was pushed last is on top: the k-th word above the `SP` after n pushes is the word of push n - 1 - k. -/
theorem stackSlot_pushSlot (g : Regs) {n k : Nat} (h : k < n) :
    stackSlot { g with sp := g.sp - BitVec.ofNat 16 (2 * n) } k = pushSlot g (n - 1 - k) := by
  unfold stackSlot pushSlot
  rw [phys_inj]
  obtain ⟨m, rfl⟩ : ∃ m, n = k + 1 + m := ⟨n - (k + 1), by omega⟩
  have : k + 1 + m - 1 - k = m := by omega
  rw [this]
  apply BitVec.eq_of_toNat_eq
  simp only [BitVec.toNat_sub, BitVec.toNat_add, BitVec.toNat_ofNat]
  omega

/-! ## Sequences of pushes -/

/-- The addresses of the first n pushes. -/
def pushSlots (g : Regs) (n : Nat) : List Nat := (List.range n).map (pushSlot g)

theorem mem_pushSlots {g : Regs} {n a : Nat} : a ∈ pushSlots g n ↔ ∃ k < n, pushSlot g k = a := by
  simp [pushSlots]

theorem pushSlots_succ (g : Regs) (n a : Nat) :
    a ∈ pushSlots g (n + 1) ↔ a ∈ [pushSlot g 0] ++ pushSlots { g with sp := g.sp - 2 } n := by
  simp only [List.mem_append, List.mem_singleton, mem_pushSlots, pushSlot_succ]
  constructor
  · rintro ⟨k, hk, rfl⟩
    cases k with
    | zero => exact .inl rfl
    | succ k => exact .inr ⟨k, by omega, rfl⟩
  · rintro (rfl | ⟨k, hk, rfl⟩)
    · exact ⟨0, by omega, rfl⟩
    · exact ⟨k + 1, by omega, rfl⟩

theorem Chain.congr {s t : State} {l m : List Nat} (h : Chain s t l) (hm : ∀ a, a ∈ l ↔ a ∈ m) : Chain s t m where
  cfg := h.cfg
  access := h.access
  kept := ⟨h.kept.access, h.kept.tables, fun a ha hn => h.kept.words a ha (fun hc => hn ((hm a).1 hc)),
    fun b hn => h.kept.bytes b (fun hc => hn ((hm _).1 hc))⟩
  evictable := h.evictable
  keys := h.keys
  coherent := fun a ha hc => h.coherent a ha (hc.imp (hm a).2 id)
  dirty := fun e he hd => (h.dirty e he hd).imp (hm _).1 id
  even := fun a ha => h.even a ((hm a).2 ha)

/-- A word stored in the first part of a chain, not stored again in the second. -/
theorem Chain.stored_word {s t u : State} {l m : List Nat} (h : Chain s t l) (k : Chain t u m) {a : Nat} (ha : a ∈ l)
    (hn : a ∉ m) : wordAt u a = wordAt t a :=
  k.kept.words a (h.even a ha) hn (h.coherent a (h.even a ha) (.inl ha))

theorem regs_of_outside {s t : State} {g : Regs} (h : t.outside = (s.withRegs g).outside) : t.core.regs = g := by
  have := congrArg (fun u => u.core.regs) h
  simpa using this

/-- Pushing a list of words, each slot being writable (44_stack_call.md R170). -/
theorem pushes_chain (l : List Word) {s : State} (hl : l.length < 1000) (he : AllWriteBackOk s) (hk : DataKeysDistinct s)
    (hw : ∀ k < l.length, Writable s (pushSlot s.core.regs k)) :
    ∃ t, forEach push16 l s = .ok () t
      ∧ t.outside = (s.withRegs { s.core.regs with sp := s.core.regs.sp - BitVec.ofNat 16 (2 * l.length) }).outside
      ∧ Chain s t (pushSlots s.core.regs l.length)
      ∧ ∀ k (h : k < l.length), wordAt t (pushSlot s.core.regs k) = l[k] := by
  induction l generalizing s with
  | nil =>
    refine ⟨s, rfl, ?_, (Chain.refl he hk).congr (by simp [pushSlots]), by simp⟩
    simp only [List.length_nil, Nat.mul_zero, BitVec.sub_zero]
    rfl
  | cons v l ih =>
    simp only [List.length_cons] at hl hw
    obtain ⟨t, h1, h2, h3, h4⟩ := push16_chain v he hk (by simpa [pushSlot_zero] using hw 0 (by omega))
    have hg := regs_of_outside h2
    obtain ⟨u, k1, k2, k3, k4⟩ := ih (s := t) (by omega) h3.evictable h3.keys (fun k hk' => by
      rw [hg, pushSlot_succ]
      exact h3.writable (hw (k + 1) (by omega)))
    rw [hg] at k2 k3 k4
    refine ⟨u, ?_, ?_, ?_, ?_⟩
    · rw [forEach_cons, bind_ok h1]; exact k1
    · rw [k2, State.outside_withRegs, h2, State.outside_withRegs, State.outside_withRegs]
      simp only [State.withRegs_withRegs, List.length_cons]
      congr 2
      apply BitVec.eq_of_toNat_eq
      simp only [BitVec.toNat_sub, BitVec.toNat_ofNat, two_toNat]
      omega
    · exact (h3.trans k3).congr fun a => (pushSlots_succ _ _ _).symm
    · intro k hk'
      cases k with
      | zero =>
        simp only [List.getElem_cons_zero]
        rw [h3.stored_word k3 (a := pushSlot s.core.regs 0) (by simp [pushSlot_zero])]
        · exact h4
        · simp only [mem_pushSlots, pushSlot_succ, not_exists, not_and]
          intro j hj hc
          have := (pushSlot_inj (g := s.core.regs) (j := j + 1) (k := 0) (by omega) (by omega)).1 hc
          omega
      | succ k =>
        simp only [List.length_cons] at hk'
        have := k4 k (by omega)
        rw [pushSlot_succ] at this
        simpa using this

/-! ## Call frames -/

/-- The frame record that `CALL` and interrupt entry make (10_state.md R30, 44_stack_call.md R173). -/
def newFrame (g : Regs) : Frame := { cs := g.cs, ds := g.ds, fp := g.sp - 4, ip := g.ip }

/-- How `CALL` and interrupt entry create a call frame, when both slots are writable. -/
theorem createFrame_chain {s : State} (he : AllWriteBackOk s) (hk : DataKeysDistinct s)
    (hw : ∀ k < 2, Writable s (pushSlot s.core.regs k)) :
    ∃ t, createFrame s = .ok () t
      ∧ t.outside = ({ s with core := { s.core with
          regs := { s.core.regs with sp := s.core.regs.sp - 4, fp := s.core.regs.sp - 4 }
          frames := newFrame s.core.regs :: s.core.frames } } : State).outside
      ∧ Chain s t (pushSlots s.core.regs 2)
      ∧ wordAt t (pushSlot s.core.regs 0) = s.core.regs.ip ∧ wordAt t (pushSlot s.core.regs 1) = s.core.regs.fp := by
  obtain ⟨t, h1, h2, h3, h4⟩ := push16_chain s.core.regs.ip he hk (by simpa [pushSlot_zero] using hw 0 (by omega))
  have hg := regs_of_outside h2
  have hw1 : Writable t (phys t.core.regs.ds (t.core.regs.sp - 2)) := by
    have := h3.writable (hw 1 (by omega))
    rw [← pushSlot_zero, hg, pushSlot_succ]
    exact this
  obtain ⟨u, k1, k2, k3, k4⟩ := push16_chain s.core.regs.fp h3.evictable h3.keys hw1
  have hgu := regs_of_outside k2
  rw [← pushSlot_zero, hg, pushSlot_succ] at k3 k4
  have hsp : s.core.regs.sp - 2 - 2 = s.core.regs.sp - 4 := by
    apply BitVec.eq_of_toNat_eq
    simp only [BitVec.toNat_sub, two_toNat, four_toNat]
    omega
  have hslots : ∀ a, a ∈ [phys s.core.regs.ds (s.core.regs.sp - 2)] ++ [pushSlot s.core.regs (0 + 1)]
      ↔ a ∈ pushSlots s.core.regs 2 := by
    intro a
    simp only [List.mem_append, List.mem_singleton, mem_pushSlots, ← pushSlot_zero]
    constructor
    · rintro (rfl | rfl)
      · exact ⟨0, by omega, rfl⟩
      · exact ⟨1, by omega, rfl⟩
    · rintro ⟨k, hk, rfl⟩
      have : k = 0 ∨ k = 1 := by omega
      rcases this with rfl | rfl
      · exact .inl rfl
      · exact .inr rfl
  let w : State := { u with core := { u.core with
    regs := { u.core.regs with fp := u.core.regs.sp }
    frames := newFrame s.core.regs :: s.core.frames } }
  have hframes : u.core.frames = s.core.frames := by
    have h := (congrArg (fun x => x.core.frames) k2).trans (congrArg (fun x => x.core.frames) h2)
    exact h
  refine ⟨w, ?_, ?_, ((h3.trans k3).congr hslots).toData ⟨rfl, rfl, rfl⟩, ?_, ?_⟩
  · unfold createFrame
    rw [readReg, bind_ok (ask_run _ _), Regs.read_ip, bind_ok h1, readReg, bind_ok (ask_run _ _), Regs.read_fp,
      show t.core.regs.fp = s.core.regs.fp by rw [hg], bind_ok k1, bind_ok (actRegs_run _ _), actCore_run]
    simp only [w, newFrame, hframes, hgu, hg, hsp]
  · have : w.outside = ({ u.outside with core := { u.outside.core with
        regs := { u.core.regs with fp := u.core.regs.sp }, frames := newFrame s.core.regs :: s.core.frames } } : State) := rfl
    rw [this, k2, State.outside_withRegs, h2, hgu, hg]
    simp only [hsp]
    rfl
  · have := h3.stored_word k3 (a := pushSlot s.core.regs 0) (by simp [pushSlot_zero]) (by
      simp only [List.mem_singleton]
      intro hc
      have := (pushSlot_inj (g := s.core.regs) (by omega) (by omega)).1 hc
      omega)
    rw [show wordAt w (pushSlot s.core.regs 0) = wordAt u (pushSlot s.core.regs 0) from rfl, this]
    exact h4
  · exact k4

/-- The frame checks pass when a frame is there and, under `FRAME_CHECK`, `SP` is its `fp`. -/
theorem checkFrame_ok {s : State} {f : Frame} (hf : s.core.frames.head? = some f)
    (hm : s.cfg.frameCheck = true → s.core.regs.sp = f.fp) : checkFrame s = .ok () s := by
  unfold checkFrame
  rw [bind_ok (ask_run _ _), hf]
  simp only
  rw [bind_ok (ask_run _ _)]
  cases hc : s.cfg.frameCheck with
  | false => rfl
  | true => simp [hm hc]

theorem checkFrame_none {s : State} (hf : s.core.frames = []) :
    checkFrame s = .error (exc (.cpuException .frameUnderflow) .nothing) s := by
  unfold checkFrame
  rw [bind_ok (ask_run _ _), hf]
  rfl

theorem checkFrame_mismatch {s : State} {f : Frame} (hf : s.core.frames.head? = some f) (hc : s.cfg.frameCheck = true)
    (hm : s.core.regs.sp ≠ f.fp) : checkFrame s = .error (exc (.cpuException .frameMismatch) .nothing) s := by
  unfold checkFrame
  rw [bind_ok (ask_run _ _), hf]
  simp only
  rw [bind_ok (ask_run _ _)]
  have : (s.core.regs.sp == f.fp) = false := by simp [hm]
  simp [hc, this, exc]

/-- `FP <- Pop16(); IP <- Pop16(); frames.pop()` when both slots are readable and the second is not a stale copy. -/
theorem destroyFrame_chain {s : State} (he : AllWriteBackOk s) (hk : DataKeysDistinct s)
    (hr : ∀ k < 2, Readable s (stackSlot s.core.regs k)) (hc : Coherent s (stackSlot s.core.regs 1)) :
    ∃ t, destroyFrame s = .ok () t
      ∧ t.outside = ({ s with core := { s.core with
          regs := { s.core.regs with
            fp := wordAt s (stackSlot s.core.regs 0)
            ip := wordAt s (stackSlot s.core.regs 1)
            sp := s.core.regs.sp + 4 }
          frames := s.core.frames.tail } } : State).outside
      ∧ Chain s t [] := by
  obtain ⟨t, h1, h2, h3⟩ := pop16_chain he hk (by simpa [stackSlot_zero] using hr 0 (by omega))
  rw [← stackSlot_zero] at h1
  have hg := regs_of_outside h2
  let w := wordAt s (stackSlot s.core.regs 0)
  let t' := t.withRegs { t.core.regs with fp := w }
  have h3' : Chain s t' [] := h3.withRegs _
  have hslot : phys t'.core.regs.ds t'.core.regs.sp = stackSlot s.core.regs 1 := by
    simp only [t', State.withRegs_regs, hg]
    rw [show (1 : Nat) = 0 + 1 from rfl, ← stackSlot_succ, stackSlot_zero]
  obtain ⟨u, k1, k2, k3⟩ := pop16_chain (s := t') h3'.evictable h3'.keys (by rw [hslot]; exact h3'.readable (hr 1 (by omega)))
  rw [hslot] at k1
  have hw1 : wordAt t' (stackSlot s.core.regs 1) = wordAt s (stackSlot s.core.regs 1) :=
    h3'.kept.words _ (hr 1 (by omega)).1 (by simp) hc
  rw [hw1] at k1
  have hgu := regs_of_outside k2
  have hframes : u.core.frames = s.core.frames :=
    (congrArg (fun x => x.core.frames) k2).trans (congrArg (fun x => x.core.frames) h2)
  have hsp : s.core.regs.sp + 2 + 2 = s.core.regs.sp + 4 := by
    apply BitVec.eq_of_toNat_eq
    simp only [BitVec.toNat_add, two_toNat, four_toNat]
    omega
  let x : State := { u with core := { u.core with
    regs := { u.core.regs with ip := wordAt s (stackSlot s.core.regs 1) }
    frames := s.core.frames.tail } }
  refine ⟨x, ?_, ?_, (h3'.trans k3).toData ⟨rfl, rfl, rfl⟩⟩
  · unfold destroyFrame
    rw [bind_ok h1, writeReg, bind_ok (actRegs_run _ _)]
    have : (pop16 >>= fun ip => writeReg .ip ip >>= fun _ => actCore fun c => { c with frames := c.frames.tail }) t' = .ok () x := by
      rw [bind_ok k1, writeReg, bind_ok (actRegs_run _ _), actCore_run]
      simp only [x, hframes]
      rfl
    exact this
  · have : x.outside = ({ u.outside with core := { u.outside.core with
        regs := { u.core.regs with ip := wordAt s (stackSlot s.core.regs 1) }, frames := s.core.frames.tail } } : State) := rfl
    rw [this, k2, State.outside_withRegs, State.outside_withRegs, h2, hgu]
    simp only [t', State.withRegs_regs, hg, hsp]
    rfl

end Sys2Proof.Machine
end

