-- ==== Sys2Proof/Laws/Interrupt.lean ====
section
/-! SUPPORT. Interrupt entry and exit (60_exceptions.md R212, R214): what each does when it meets no raise. -/

namespace Sys2Proof.Machine

theorem bind_eq_ok {α β : Type} {x : M α} {f : α → M β} {s t : State} {b : β} (h : (x >>= f) s = .ok b t) :
    ∃ a u, x s = .ok a u ∧ f a u = .ok b t := by
  rw [bind_run] at h
  cases hx : x s with
  | ok a u => rw [hx] at h; exact ⟨a, u, rfl, h⟩
  | error e u => rw [hx] at h; simp at h

/-- Every register but `SP`. -/
def State.regsButSp (s : State) : Regs := { s.core.regs with sp := 0 }

theorem Same.ofOutside {α : Type} {x : M α} (h : Same State.outside x) : Same State.regsButSp x := fun s => by
  have := congrArg State.regsButSp (h s)
  exact this

theorem Same.push16 (v : Word) : Same State.regsButSp (push16 v) :=
  .bind (.act fun _ => rfl) fun _ => .bind (.ask _) fun _ => .ofOutside (.dWrite16 _ _)

/-! ## Entry -/

/-- A page created where none was shows every byte as it was (20_memory.md R54, R56). -/
theorem byteAt_createPage_absent {mc : MC} {p : Nat} (h : mc.page p = none) (pg : Page) (b : Nat) :
    (mc.createPage p pg).byteAt b = mc.byteAt b := by
  rw [MC.byteAt_createPage]
  split
  · next hb => simp [MC.byteAt, hb, h]
  · rfl

theorem MC.pageView_createPage (mc : MC) (cfg : Config) (p q : Nat) (pg : Page) :
    (mc.createPage p pg).pageView cfg q = if q = p then pg else mc.pageView cfg q := by
  unfold MC.pageView
  rw [MC.page_createPage]
  split <;> rfl

/-- The addresses of the entry's pushes lie in its page. -/
theorem entrySlot {seg : Byte} {p k : Nat} (hp : seg.toNat * 256 ≤ p ∧ p < seg.toNat * 256 + 256) (hk : k < 38) :
    phys seg (pageTop p - BitVec.ofNat 16 (2 * (k + 1))) = p * 256 + 254 - 2 * k := by
  unfold phys pageTop
  simp only [BitVec.toNat_sub, BitVec.toNat_ofNat]
  omega

theorem loadVector_ok {s : State} {base count i : Nat} (hi : i < count) (ha : base % 4 = 0)
    (hb : base + 4 * i + 4 ≤ s.cfg.memSize) :
    loadVector base count i s
      = .ok (IntVector.ofWord (s.mc.u32At (base + 4 * i))) (s.touched (pageOf (base + 4 * i))) := by
  unfold loadVector
  have : decide (i < count) = true := by simp [hi]
  rw [this, bind_ok (require_true _ _ _), bind_ok (memRead32_ok (by omega) hb (by simp))]
  rfl

theorem loadVector_bad {s : State} {base count i : Nat} (hi : ¬ i < count) :
    loadVector base count i s = .error (exc (.cpuException .badVector) (.vector i)) s := by
  unfold loadVector
  have : decide (i < count) = false := by simp [hi]
  rw [this, bind_error (require_false _ _ _)]
  rfl

/-- `EnterInterrupt` when it meets no raise: registers, frame list, interrupt-stack list, the 38 words, what it leaves alone, and
that it makes no stale copy and no dirty entry off its page. -/
theorem enterInterrupt_ok {s : State} {base count i : Nat} {v : IntVector} {p : Nat} (h : EntryOk s base count i v p) :
    ∃ t, enterInterrupt base count i s = .ok () t
      ∧ t.outside = ({ s with core := { s.core with
          regs := entryRegs s.core.regs v p
          frames := { cs := s.core.regs.cs, ds := v.ds, fp := pageTop p - 76, ip := s.core.regs.ip } :: s.core.frames
          istack := p :: s.core.istack
          idle := false } } : State).outside
      ∧ DataKept s t (fun a => pageOf a = p) [p] ∧ AllWriteBackOk t ∧ DataKeysDistinct t
      ∧ ((t.mc.pageView t.cfg p).read = true ∧ (t.mc.pageView t.cfg p).write = true
          ∧ (t.mc.pageView t.cfg p).execute = false)
      ∧ (∀ k (hk : k < (entryWords s.core.regs).length),
          wordAt t (phys v.ds (pageTop p - BitVec.ofNat 16 (2 * (k + 1)))) = (entryWords s.core.regs)[k])
      ∧ (∀ k < 38, Coherent t (phys v.ds (pageTop p - BitVec.ofNat 16 (2 * (k + 1)))))
      ∧ (∀ a, a % 2 = 0 → pageOf a ≠ p → Coherent s a → Coherent t a)
      ∧ ∀ e ∈ t.core.dcache, e.dirty = true →
          pageOf e.addr = p ∨ ∃ f ∈ s.core.dcache, f.dirty = true ∧ f.addr = e.addr := by
  obtain ⟨hi, hal, hb, hpg, hv, hfree, hev, hkeys⟩ := h
  obtain ⟨hnone, hlo, hhi, hlim, -⟩ := MC.firstFree_spec hfree
  have hseg : v.ds.toNat * 256 ≤ p ∧ p < v.ds.toNat * 256 + 256 := ⟨hlo, hhi⟩
  -- the state after the page is allocated, and after DS and SP are switched
  let s1 := s.touched (pageOf (base + 4 * i))
  let s2 := s1.withMC (s1.mc.createPage p stackPage)
  let s3 : State := { s2 with core := { s2.core with istack := p :: s.core.istack } }
  let g4 : Regs := { s.core.regs with ds := v.ds, sp := pageTop p }
  let s4 := s3.withRegs g4
  have hbyte : ∀ b, s4.mc.byteAt b = s.mc.byteAt b := fun b =>
    (byteAt_createPage_absent hnone stackPage b).trans (MC.byteAt_touchPage _ _ _ _)
  have hview : ∀ q, s4.mc.pageView s4.cfg q = if q = p then stackPage else s.mc.pageView s.cfg q := fun q => by
    change (s1.mc.createPage p stackPage).pageView s.cfg q = _
    rw [MC.pageView_createPage]
    simp [s1]
  have hwbk : ∀ e, WriteBackOk s e → WriteBackOk s4 e := by
    rintro e ⟨h1, h2, h3⟩
    refine ⟨h1, h2, h3.imp id fun h3 => ?_⟩
    rw [hview]
    split
    · rfl
    · exact h3
  have hev4 : AllWriteBackOk s4 := fun e he hd => hwbk e (hev e he hd)
  have hslot : ∀ k, pushSlot g4 k = phys v.ds (pageTop p - BitVec.ofNat 16 (2 * (k + 1))) := fun k => rfl
  have hpage : ∀ k < 38, pageOf (pushSlot g4 k) = p := fun k hk => by
    rw [hslot, entrySlot hseg hk]; unfold pageOf; omega
  have hw4 : ∀ k < 38, Writable s4 (pushSlot g4 k) := fun k hk => by
    refine ⟨?_, ?_, ?_⟩
    · rw [hslot, entrySlot hseg hk]; omega
    · rw [hslot, entrySlot hseg hk]; change _ ≤ s.cfg.memSize; omega
    · rw [hpage k hk, hview]; simp [stackPage]
  -- the first 36 pushes
  let first : List Word :=
    s.core.regs.ds.setWidth 16 :: s.core.regs.sp :: s.core.regs.cs.setWidth 16 :: s.core.regs.flags.pack :: s.core.regs.gpr.toList
  have hlen : first.length = 36 := by simp [first]
  obtain ⟨t5, h1, h2, h3, h4⟩ := pushes_chain first (s := s4) (by omega) hev4 hkeys (fun k hk => hw4 k (by omega))
  have hg5 := regs_of_outside h2
  rw [hlen] at h2 h3 hg5
  have hg4 : s4.core.regs = g4 := rfl
  rw [hg4] at h2 h3 h4 hg5
  have hslot5 : ∀ k, pushSlot t5.core.regs k = pushSlot g4 (k + 36) := fun k => by
    rw [hg5]
    unfold pushSlot
    rw [phys_inj]
    apply BitVec.eq_of_toNat_eq
    simp only [BitVec.toNat_sub, BitVec.toNat_ofNat]
    omega
  obtain ⟨t6, k1, k2, k3, k4, k5⟩ := createFrame_chain h3.evictable h3.keys (fun k hk => by
    rw [hslot5]; exact h3.writable (hw4 _ (by omega)))
  rw [hslot5] at k4 k5
  have hslots6 : ∀ a, a ∈ pushSlots t5.core.regs 2 ↔ a = pushSlot g4 36 ∨ a = pushSlot g4 37 := fun a => by
    simp only [mem_pushSlots, hslot5]
    constructor
    · rintro ⟨k, hk, rfl⟩
      have : k = 0 ∨ k = 1 := by omega
      rcases this with rfl | rfl
      · exact .inl rfl
      · exact .inr rfl
    · rintro (rfl | rfl)
      · exact ⟨0, by omega, rfl⟩
      · exact ⟨1, by omega, rfl⟩
  have hall : ∀ a, a ∈ pushSlots g4 36 ++ pushSlots t5.core.regs 2 → ∃ k < 38, pushSlot g4 k = a := fun a ha => by
    rcases List.mem_append.1 ha with ha | ha
    · obtain ⟨k, hk, rfl⟩ := mem_pushSlots.1 ha
      exact ⟨k, by omega, rfl⟩
    · rcases (hslots6 a).1 ha with rfl | rfl
      · exact ⟨36, by omega, rfl⟩
      · exact ⟨37, by omega, rfl⟩
  have hchain := h3.trans k3
  -- the final state
  let t : State := { t6 with core := { t6.core with
    idle := false
    regs := { t6.core.regs.setFlags (fun f => { f with p := true, h := false }) with cs := v.cs, ip := v.ip } } }
  have hdata : sameData t6 t := ⟨rfl, rfl, rfl⟩
  have hct := hchain.toData hdata
  have hword6 : ∀ k < 36, wordAt t (pushSlot g4 k) = wordAt t5 (pushSlot g4 k) := fun k hk => by
    rw [hdata.wordAt]
    refine h3.stored_word k3 (mem_pushSlots.2 ⟨k, hk, rfl⟩) fun hc => ?_
    rcases (hslots6 _).1 hc with hc | hc
    · have := (pushSlot_inj (g := g4) (by omega) (by omega)).1 hc; omega
    · have := (pushSlot_inj (g := g4) (by omega) (by omega)).1 hc; omega
  refine ⟨t, ?_, ?_, ⟨?_, ?_, ?_, ?_⟩, hct.evictable, hct.keys, ?_, ?_, ?_, ?_, ?_⟩
  · -- the run
    unfold enterInterrupt
    rw [bind_ok (loadVector_ok hi hal hb), hv]
    have hfree' : s1.mc.firstFree (s1.cfg.memSize / 256) (v.ds.toNat * 256) 256 = some p := hfree
    rw [bind_ok (allocPage_segment_ok hfree'), bind_ok (actCore_run _ _), readReg, bind_ok (ask_run _ _), readReg, bind_ok (ask_run _ _),
      bind_ok (actRegs_run _ _)]
    change (push16 (s.core.regs.ds.setWidth 16) >>= fun _ => push16 s.core.regs.sp >>= fun _ => _) s4 = _
    simp only [first, forEach_cons] at h1
    obtain ⟨⟨⟩, u1, e1, h1⟩ := bind_eq_ok h1
    obtain ⟨⟨⟩, u2, e2, h1⟩ := bind_eq_ok h1
    obtain ⟨⟨⟩, u3, e3, h1⟩ := bind_eq_ok h1
    obtain ⟨⟨⟩, u4, e4, h1⟩ := bind_eq_ok h1
    have r1 := (Same.push16 _).ok e1
    have r2 := ((Same.push16 _).ok e2).trans r1
    have r3 := ((Same.push16 _).ok e3).trans r2
    have r4 := ((Same.push16 _).ok e4).trans r3
    have c2 : u2.core.regs.cs = s.core.regs.cs := by have h := congrArg Regs.cs r2; exact h
    have f3 : u3.core.regs.flags = s.core.regs.flags := by have h := congrArg Regs.flags r3; exact h
    have gp4 : u4.core.regs.gpr = s.core.regs.gpr := by have h := congrArg Regs.gpr r4; exact h
    rw [bind_ok e1, bind_ok e2, readReg, bind_ok (ask_run _ _), Regs.read_cs, c2, bind_ok e3, readReg, bind_ok (ask_run _ _),
      Regs.read_flags, f3, bind_ok e4, bind_ok (ask_run _ _), gp4, bind_ok h1, bind_ok k1, setFlags, bind_ok (actRegs_run _ _),
      bind_ok (actCore_run _ _), actRegs_run]
  · -- everything but memory and the data cache
    have hr6 : t6.core.regs = { t5.core.regs with sp := t5.core.regs.sp - 4, fp := t5.core.regs.sp - 4 } := by
      have := congrArg (fun x => x.core.regs) k2
      exact this
    have hf5 : t5.core.frames = s.core.frames := congrArg (fun x => x.core.frames) h2
    have hsp : pageTop p - BitVec.ofNat 16 (2 * 36) - 4 = pageTop p - 76 := by
      apply BitVec.eq_of_toNat_eq
      simp only [BitVec.toNat_sub, BitVec.toNat_ofNat, four_toNat, show (76 : Word).toNat = 76 from rfl]
      omega
    have step : t.outside = ({ t6.outside with core := { t6.outside.core with
        idle := false
        regs := { t6.core.regs.setFlags (fun f => { f with p := true, h := false }) with cs := v.cs, ip := v.ip } } } : State) := rfl
    have step2 : ({ t5 with core := { t5.core with
          regs := { t5.core.regs with sp := t5.core.regs.sp - 4, fp := t5.core.regs.sp - 4 }
          frames := newFrame t5.core.regs :: t5.core.frames } } : State).outside
        = ({ t5.outside with core := { t5.outside.core with
          regs := { t5.core.regs with sp := t5.core.regs.sp - 4, fp := t5.core.regs.sp - 4 }
          frames := newFrame t5.core.regs :: t5.core.frames } } : State) := rfl
    rw [step, k2, step2, hf5, h2, hr6, hg5]
    simp only [newFrame, g4, hsp, entryRegs, Regs.setFlags, State.outside, State.withRegs, s4, s3, s2, s1, State.withMC, State.touched]
  · intro q hq
    have hq' : q ≠ p := by simpa using hq
    have := hct.access q
    rwa [hview, if_neg hq'] at this
  · have := hct.kept.tables
    exact ⟨this.1.trans (by simp [s4, s3, s2, s1, MC.createPage, State.withRegs]),
      this.2.trans (by simp [s4, s3, s2, s1, MC.createPage, State.withRegs])⟩
  · intro a ha hn hc
    have hns : ¬ a ∈ pushSlots g4 36 ++ pushSlots t5.core.regs 2 := fun hm => by
      obtain ⟨k, hk, rfl⟩ := hall a hm
      exact hn (hpage k hk)
    have hu : s4.mc.u16At a = s.mc.u16At a := u16At_congr hbyte a
    have hc4 : Coherent s4 a := fun e he hd => by rw [hu]; exact hc e he hd
    rw [hct.kept.words a ha hns hc4]
    unfold wordAt
    rw [hu]
    rfl
  · intro b hn hd
    have hns : ¬ 2 * (b / 2) ∈ pushSlots g4 36 ++ pushSlots t5.core.regs 2 := fun hm => by
      obtain ⟨k, hk, hkb⟩ := hall _ hm
      exact hn (hkb ▸ hpage k hk)
    rw [hct.kept.bytes b hns hd]
    exact hbyte b
  · obtain ⟨a1, a2, a3, -⟩ := hct.access p
    rw [hview] at a1 a2 a3
    simp only [if_true, stackPage] at a1 a2 a3
    exact ⟨a1, a2, a3⟩
  · intro k hk
    have hew : entryWords s.core.regs = first ++ [s.core.regs.ip, s.core.regs.fp] := rfl
    have hk38 : k < 38 := by rw [hew, List.length_append, hlen] at hk; simpa using hk
    rw [← hslot]
    by_cases hk36 : k < 36
    · rw [hword6 k hk36, h4 k (by omega)]
      simp only [hew]
      rw [List.getElem_append_left (by omega)]
    · have hr5 : t5.core.regs.ip = s.core.regs.ip ∧ t5.core.regs.fp = s.core.regs.fp := by rw [hg5]; exact ⟨rfl, rfl⟩
      have : k = 36 ∨ k = 37 := by omega
      rcases this with rfl | rfl
      · rw [hdata.wordAt, k4, hr5.1]
        simp only [hew]
        rw [List.getElem_append_right (by omega)]
        simp [hlen]
      · rw [hdata.wordAt, k5, hr5.2]
        simp only [hew]
        rw [List.getElem_append_right (by omega)]
        simp [hlen]
  · intro k hk
    rw [← hslot]
    have hmem : pushSlot g4 k ∈ pushSlots g4 36 ++ pushSlots t5.core.regs 2 := by
      by_cases hk36 : k < 36
      · exact List.mem_append_left _ (mem_pushSlots.2 ⟨k, hk36, rfl⟩)
      · have : k = 36 ∨ k = 37 := by omega
        refine List.mem_append_right _ ((hslots6 _).2 ?_)
        rcases this with rfl | rfl
        · exact .inl rfl
        · exact .inr rfl
    exact hct.coherent _ (hct.even _ hmem) (.inl hmem)
  · intro a ha hn hc
    exact hct.coherent a ha (.inr fun e he hd => by rw [u16At_congr hbyte a]; exact hc e he hd)
  · intro e he hd
    rcases hct.dirty e he hd with hm | hm
    · obtain ⟨k, hk, hka⟩ := hall _ hm
      exact .inl (hka ▸ hpage k hk)
    · exact .inr hm

/-! ## Exit -/

/-- The pops of a list of general registers, all slots readable and none a stale copy. -/
theorem popGprs_chain (js : List (Fin 32)) {s : State} (hn : js.Nodup) (hl : js.length ≤ 32) (he : AllWriteBackOk s)
    (hk : DataKeysDistinct s) (hr : ∀ k < js.length, Readable s (stackSlot s.core.regs k))
    (hc : ∀ k < js.length, Coherent s (stackSlot s.core.regs k)) :
    ∃ t, forEach popGpr js s = .ok () t
      ∧ t.outside = (s.withRegs { s.core.regs with
          gpr := t.core.regs.gpr, sp := s.core.regs.sp + BitVec.ofNat 16 (2 * js.length) }).outside
      ∧ Chain s t []
      ∧ (∀ k j, js[k]? = some j → t.core.regs.gpr[j] = wordAt s (stackSlot s.core.regs k))
      ∧ ∀ j, j ∉ js → t.core.regs.gpr[j] = s.core.regs.gpr[j] := by
  induction js generalizing s with
  | nil =>
    refine ⟨s, rfl, ?_, .refl he hk, by simp, by simp⟩
    simp only [List.length_nil, Nat.mul_zero, BitVec.add_zero]
    rfl
  | cons j js ih =>
    simp only [List.length_cons, List.nodup_cons] at hl hr hc hn
    obtain ⟨t, h1, h2, h3⟩ := pop16_chain he hk (by simpa [stackSlot_zero] using hr 0 (by omega))
    rw [← stackSlot_zero] at h1
    have hg := regs_of_outside h2
    let w := wordAt s (stackSlot s.core.regs 0)
    let t' := t.withRegs (t.core.regs.write (.gpr j) w)
    have h3' : Chain s t' [] := h3.withRegs _
    have hslot : ∀ k, stackSlot t'.core.regs k = stackSlot s.core.regs (k + 1) := fun k => by
      rw [← stackSlot_succ]
      change stackSlot (t.core.regs.write (.gpr j) w) k = _
      rw [hg]
      rfl
    obtain ⟨u, k1, k2, k3, k4, k5⟩ := ih (s := t') hn.2 (by omega) h3'.evictable h3'.keys
      (fun k hk' => by rw [hslot]; exact h3'.readable (hr (k + 1) (by omega)))
      (fun k hk' => by rw [hslot]; exact h3'.coherent _ (hr (k + 1) (by omega)).1 (.inr (hc (k + 1) (by omega))))
    refine ⟨u, ?_, ?_, h3'.trans k3, ?_, ?_⟩
    · have hp : popGpr j s = .ok () t' := by unfold popGpr; rw [bind_ok h1]; rfl
      rw [forEach_cons, bind_ok hp]
      exact k1
    · rw [k2, State.outside_withRegs, State.outside_withRegs, State.outside_withRegs, h2, State.outside_withRegs]
      simp only [State.withRegs_withRegs, t', State.withRegs_regs, hg, List.length_cons]
      have : s.core.regs.sp + 2 + BitVec.ofNat 16 (2 * js.length) = s.core.regs.sp + BitVec.ofNat 16 (2 * (js.length + 1)) := by
        apply BitVec.eq_of_toNat_eq
        simp only [BitVec.toNat_add, BitVec.toNat_ofNat, two_toNat]
        omega
      rw [← this]
      rfl
    · intro k i hk'
      cases k with
      | zero =>
        simp only [List.getElem?_cons_zero, Option.some.injEq] at hk'
        subst hk'
        rw [k5 j hn.1]
        simp [t', w]
      | succ k =>
        simp only [List.getElem?_cons_succ] at hk'
        have hlt : k < js.length := (List.getElem?_eq_some_iff.1 hk').1
        rw [k4 k i hk', hslot]
        exact h3'.kept.words _ (hr (k + 1) (by omega)).1 (by simp) (hc (k + 1) (by omega))
    · intro i hi
      simp only [List.mem_cons, not_or] at hi
      rw [k5 i hi.2]
      have hne : (j : Nat) ≠ i := fun h => hi.1 (Fin.ext h.symm)
      simp [t', hg, hne]

/-- `RemovePageRefs(p, false)`: every entry of the page leaves the data cache, nothing is written back (20_memory.md R80). -/
theorem removePageRefs_false (p : Nat) (s : State) :
    removePageRefs p false s = .ok () (s.withData (s.core.dcache.filter fun e => !(pageOf e.addr == p))) := by
  have key : ∀ (l : List Nat) (u : State), forEach (removeEntry false) l u
      = .ok () (u.withData (u.core.dcache.filter fun e => !l.contains e.addr)) := by
    intro l
    induction l with
    | nil => intro u; simp [State.withData]
    | cons a l ih =>
      intro u
      rw [forEach_cons]
      have : removeEntry false a u = .ok () (u.withData (removeData a u.core.dcache)) := rfl
      rw [bind_ok this, ih]
      simp only [State.withData, removeData, List.filter_filter]
      congr 4
      funext e
      by_cases h : e.addr = a <;> simp [h, Bool.and_comm]
  unfold removePageRefs
  rw [bind_ok (ask_run _ _), key]
  congr 2
  apply List.filter_congr
  intro e he
  by_cases h : pageOf e.addr = p
  · simp only [h, beq_self_eq_true, Bool.not_true, Bool.not_eq_false', List.contains_iff_mem, List.mem_filter,
      and_true]
    exact List.mem_map_of_mem he
  · simp [h]

theorem findData_filter_page {p a : Nat} (h : pageOf a ≠ p) (l : List DEntry) :
    findData a (l.filter fun e => !(pageOf e.addr == p)) = findData a l := by
  induction l with
  | nil => rfl
  | cons e l ih =>
    rw [List.filter_cons]
    by_cases he : e.addr = a
    · simp [findData, he, h]
    · by_cases hp : pageOf e.addr = p
      · simp [findData, he, hp, ih]
      · simp [findData, he, hp, ih]

/-- One more pop after a chain of loads, in a state whose registers are known. -/
theorem pop_link {s u : State} {k : Nat} (h : Regs) (hch : Chain s u []) (hu : u.core.regs = h) (hds : h.ds = s.core.regs.ds)
    (hsp : h.sp = s.core.regs.sp + BitVec.ofNat 16 (2 * k)) (hr : Readable s (stackSlot s.core.regs k))
    (hc : Coherent s (stackSlot s.core.regs k)) :
    ∃ v, pop16 u = .ok (wordAt s (stackSlot s.core.regs k)) v
      ∧ v.core.regs = { h with sp := s.core.regs.sp + BitVec.ofNat 16 (2 * (k + 1)) }
      ∧ v.outside = u.outside.withRegs v.core.regs ∧ Chain s v [] := by
  have hslot : phys u.core.regs.ds u.core.regs.sp = stackSlot s.core.regs k := by rw [hu, hds, hsp]; rfl
  obtain ⟨v, v1, v2, v3⟩ := pop16_chain (s := u) hch.evictable hch.keys (by rw [hslot]; exact hch.readable hr)
  rw [hslot, hch.kept.words _ hr.1 (by simp) hc] at v1
  have hsum : s.core.regs.sp + BitVec.ofNat 16 (2 * k) + 2 = s.core.regs.sp + BitVec.ofNat 16 (2 * (k + 1)) := by
    apply BitVec.eq_of_toNat_eq
    simp only [BitVec.toNat_add, BitVec.toNat_ofNat, two_toNat]
    omega
  have hg := regs_of_outside v2
  refine ⟨v, v1, ?_, ?_, hch.trans v3⟩
  · rw [hg, hu, hsp, hsum]
  · rw [v2, ← hg, State.outside_withRegs]

/-- The registers once the frame and the general registers have been popped. -/
def poppedRegs (g : Regs) (w : Nat → Word) : Regs :=
  { g with
    gpr := Vector.ofFn fun j : Fin 32 => w (33 - j.val)
    fp := w 0
    ip := w 1
    sp := g.sp + BitVec.ofNat 16 (2 * 34) }

theorem poppedRegs_ds (g : Regs) (w : Nat → Word) : (poppedRegs g w).ds = g.ds := by simp only [poppedRegs]
theorem poppedRegs_sp (g : Regs) (w : Nat → Word) : (poppedRegs g w).sp = g.sp + BitVec.ofNat 16 (2 * 34) := rfl

/-- The frame and the general registers popped. -/
theorem popFrameAndGprs {s : State} (hr : ∀ k < 38, Readable s (stackSlot s.core.regs k))
    (hc : ∀ k < 38, Coherent s (stackSlot s.core.regs k)) (he : AllWriteBackOk s) (hk : DataKeysDistinct s) :
    ∃ t1 t2, destroyFrame s = .ok () t1 ∧ forEach popGpr (List.finRange 32).reverse t1 = .ok () t2
      ∧ t2.core.regs = poppedRegs s.core.regs (fun k => wordAt s (stackSlot s.core.regs k))
      ∧ t2.outside = ({ s with core := { s.core with
          regs := t2.core.regs, frames := s.core.frames.tail } } : State).outside
      ∧ Chain s t2 [] := by
  obtain ⟨t1, a1, a2, a3⟩ := destroyFrame_chain he hk (fun k hk' => hr k (by omega)) (hc 1 (by omega))
  have hg1 : t1.core.regs = { s.core.regs with
      fp := wordAt s (stackSlot s.core.regs 0), ip := wordAt s (stackSlot s.core.regs 1), sp := s.core.regs.sp + 4 } :=
    congrArg (fun x => x.core.regs) a2
  have hslot1 : ∀ k, stackSlot t1.core.regs k = stackSlot s.core.regs (k + 2) := fun k => by
    rw [hg1]
    unfold stackSlot
    rw [phys_inj]
    apply BitVec.eq_of_toNat_eq
    simp only [BitVec.toNat_add, BitVec.toNat_ofNat, four_toNat]
    omega
  have hjs : (List.finRange 32).reverse.length = 32 := by simp
  obtain ⟨t2, b1, b2, b3, b4, -⟩ := popGprs_chain (List.finRange 32).reverse (s := t1)
    (List.nodup_reverse.2 (List.nodup_finRange 32)) (by omega) a3.evictable a3.keys
    (fun k hk' => by rw [hslot1]; exact a3.readable (hr (k + 2) (by omega)))
    (fun k hk' => by rw [hslot1]; exact a3.coherent _ (hr (k + 2) (by omega)).1 (.inr (hc (k + 2) (by omega))))
  rw [hjs] at b2
  have hgpr : t2.core.regs.gpr = Vector.ofFn fun j : Fin 32 => wordAt s (stackSlot s.core.regs (33 - j.val)) := by
    apply Vector.ext
    intro j hj
    have hidx : (List.finRange 32).reverse[31 - j]? = some ⟨j, hj⟩ := by
      rw [List.getElem?_eq_some_iff]
      refine ⟨by simp; omega, ?_⟩
      simp only [List.getElem_reverse, List.length_finRange, List.getElem_finRange]
      ext; simp; omega
    have h4 := b4 _ _ hidx
    rw [hslot1, a3.kept.words _ (hr _ (by omega)).1 (by simp) (hc _ (by omega)), show 31 - j + 2 = 33 - j by omega] at h4
    rw [Vector.getElem_ofFn]
    exact h4
  have h0 := regs_of_outside b2
  refine ⟨t1, t2, a1, b1, ?_, ?_, a3.trans b3⟩
  · rw [hgpr, hg1] at h0
    rw [h0, poppedRegs]
    have : s.core.regs.sp + 4 + BitVec.ofNat 16 (2 * 32) = s.core.regs.sp + BitVec.ofNat 16 (2 * 34) := by
      apply BitVec.eq_of_toNat_eq
      simp only [BitVec.toNat_add, BitVec.toNat_ofNat, four_toNat]
      omega
    simp only [this]
  · rw [b2, State.outside_withRegs, a2, ← h0]
    simp only [State.outside, State.withRegs]

/-- The rest of the pops: FLAGS, `CS`, `SP` and `DS`. -/
theorem popSpecials {s t2 : State} {w : Nat → Word} (hr : ∀ k < 38, Readable s (stackSlot s.core.regs k))
    (hc : ∀ k < 38, Coherent s (stackSlot s.core.regs k)) (hw : ∀ k, wordAt s (stackSlot s.core.regs k) = w k)
    (h2 : Chain s t2 []) (hg2 : t2.core.regs = poppedRegs s.core.regs w) :
    ∃ t3 t4 t5 t6, pop16 t2 = .ok (w 34) t3
      ∧ pop16 (t3.withRegs (t3.core.regs.write .flags (w 34))) = .ok (w 35) t4
      ∧ pop16 (t4.withRegs (t4.core.regs.write .cs (w 35))) = .ok (w 36) t5
      ∧ pop16 t5 = .ok (w 37) t6
      ∧ (t6.core.regs.write .sp (w 36)).write .ds (w 37) = exitRegs s.core.regs w
      ∧ t6.outside = t2.outside.withRegs t6.core.regs ∧ Chain s t6 [] := by
  obtain ⟨g, hg⟩ : ∃ g, g = poppedRegs s.core.regs w := ⟨_, rfl⟩
  have hds : g.ds = s.core.regs.ds := by rw [hg, poppedRegs_ds]
  have hsp : g.sp = s.core.regs.sp + BitVec.ofNat 16 (2 * 34) := by rw [hg, poppedRegs_sp]
  rw [← hg] at hg2
  obtain ⟨t3, d1, d2, d3, d4⟩ := pop_link (k := 34) g h2 hg2 hds hsp (hr 34 (by omega)) (hc 34 (by omega))
  obtain ⟨t4, e1, e2, e3, e4⟩ := pop_link (k := 35)
    { g with sp := s.core.regs.sp + BitVec.ofNat 16 (2 * 35), flags := Flags.unpack (w 34) }
    (d4.withRegs (t3.core.regs.write .flags (w 34))) (by rw [State.withRegs_regs, d2]; simp only [Regs.write])
    hds rfl (hr 35 (by omega)) (hc 35 (by omega))
  obtain ⟨t5, f1, f2, f3, f4⟩ := pop_link (k := 36)
    { g with sp := s.core.regs.sp + BitVec.ofNat 16 (2 * 36), flags := Flags.unpack (w 34), cs := (w 35).setWidth 8 }
    (e4.withRegs (t4.core.regs.write .cs (w 35))) (by rw [State.withRegs_regs, e2]; simp only [Regs.write])
    hds rfl (hr 36 (by omega)) (hc 36 (by omega))
  obtain ⟨t6, g1, g2, g3, g4⟩ := pop_link (k := 37)
    { g with sp := s.core.regs.sp + BitVec.ofNat 16 (2 * 37), flags := Flags.unpack (w 34), cs := (w 35).setWidth 8 } f4 f2
    hds rfl (hr 37 (by omega)) (hc 37 (by omega))
  rw [hw] at d1 e1 f1 g1
  refine ⟨t3, t4, t5, t6, d1, e1, f1, g1, ?_, ?_, g4⟩
  · rw [g2, hg]; simp only [Regs.write, exitRegs, poppedRegs]
  · rw [g3, f3, State.outside_withRegs, e3, State.outside_withRegs, d3]
    simp only [State.withRegs_withRegs]

/-- `ExitInterrupt` when it meets no raise: registers, frame list, interrupt-stack list, the freed page, and what it leaves alone. -/
theorem exitInterrupt_ok {s : State} {f : Frame} {p : Nat} (h : ExitOk s f p) :
    ∃ t, exitInterrupt s = .ok () t
      ∧ t.outside = ({ s with core := { s.core with
          regs := exitRegs s.core.regs fun k => wordAt s (stackSlot s.core.regs k)
          frames := s.core.frames.tail
          istack := s.core.istack.tail } } : State).outside
      ∧ DataKept s t (fun a => pageOf a = p) [p] ∧ AllWriteBackOk t ∧ DataKeysDistinct t
      ∧ t.mc.page p = none ∧ ∀ e ∈ t.core.dcache, pageOf e.addr ≠ p := by
  obtain ⟨hf, hm, hp, hr, hc, he, hk⟩ := h
  obtain ⟨t1, t2, a1, b1, hg2, ho2, c2⟩ := popFrameAndGprs hr hc he hk
  obtain ⟨t3, t4, t5, t6, d1, e1, f1, g1, hg7, ho6, c6⟩ := popSpecials hr hc (fun _ => rfl) c2 hg2
  let t7 := t6.withRegs ((t6.core.regs.write .sp (wordAt s (stackSlot s.core.regs 36))).write .ds
    (wordAt s (stackSlot s.core.regs 37)))
  have c7 : Chain s t7 [] := c6.withRegs _
  have ho7 : t7.outside = ({ s with core := { s.core with
      regs := exitRegs s.core.regs fun k => wordAt s (stackSlot s.core.regs k)
      frames := s.core.frames.tail } } : State).outside := by
    rw [State.outside_withRegs, ho6, ho2, hg7]
    simp only [State.outside, State.withRegs]
  have histack : t6.core.istack = s.core.istack := by
    have h6 := congrArg (fun x => x.core.istack) ho6
    have h2 := congrArg (fun x => x.core.istack) ho2
    simp only [State.outside, State.withRegs] at h6 h2
    exact h6.trans h2
  let t8 : State := { t7 with core := { t7.core with istack := s.core.istack.tail } }
  have c8 : Chain s t8 [] := c7.toData ⟨rfl, rfl, rfl⟩
  let t9 := t8.withData (t8.core.dcache.filter fun e => !(pageOf e.addr == p))
  let t := t9.withMC (t9.mc.freePage p)
  have hbyte : ∀ b, pageOf b ≠ p → t.mc.byteAt b = t8.mc.byteAt b := fun b hb => by
    change (t8.mc.freePage p).byteAt b = _
    rw [MC.byteAt_freePage, if_neg hb]
  have hview : ∀ q, q ≠ p → t.mc.pageView t.cfg q = t8.mc.pageView t8.cfg q := fun q hq => by
    change ((t8.mc.freePage p).page q).getD _ = _
    rw [MC.page_freePage, if_neg hq]
    rfl
  refine ⟨t, ?_, ?_, ⟨?_, ?_, ?_, ?_⟩, ?_, ?_, ?_, ?_⟩
  · unfold exitInterrupt
    rw [bind_ok (checkFrame_ok hf hm), bind_ok (ask_run _ _), hp]
    simp only
    rw [bind_ok a1, bind_ok b1, bind_ok d1, writeReg, bind_ok (actRegs_run _ _)]
    change (pop16 >>= fun cs => _) (t3.withRegs _) = _
    rw [bind_ok e1, writeReg, bind_ok (actRegs_run _ _)]
    change (pop16 >>= fun sp => _) (t4.withRegs _) = _
    rw [bind_ok f1, bind_ok g1, writeReg, bind_ok (actRegs_run _ _), writeReg, bind_ok (actRegs_run _ _), bind_ok (actCore_run _ _)]
    have hrm := removePageRefs_false p t8
    have : (removePageRefs p false >>= fun _ => actMC fun mc => mc.freePage p) t8 = .ok () t := by
      rw [bind_ok hrm, actMC_run]; rfl
    rw [← this]
    simp only [t8, t7, State.withRegs, histack]
  · have h8 : t.outside = ({ t7.outside with core := { t7.outside.core with istack := s.core.istack.tail } } : State) := rfl
    rw [h8, ho7]
    simp only [State.outside]
  · intro q hq
    have hq' : q ≠ p := by simpa using hq
    rw [hview q hq']
    exact c8.access q
  · exact c8.kept.tables
  · intro a ha hn hco
    rw [← c8.kept.words a ha (by simp) hco]
    unfold wordAt
    have h1 : findData a t.core.dcache = findData a t8.core.dcache := findData_filter_page hn _
    have h2 : t.mc.u16At a = t8.mc.u16At a := by
      unfold MC.u16At
      rw [hbyte a hn, hbyte (a + 1) (by rwa [pageOf_aligned (n := 2) (.inr (.inl rfl)) ha (by omega)])]
    rw [h1, h2]
  · intro b hn hd
    have hb : pageOf b ≠ p := by
      intro hc'
      apply hn
      unfold pageOf at *
      omega
    rw [hbyte b hb]
    exact c8.kept.bytes b (by simp) hd
  · intro e hmem hd
    have hmem' := List.mem_filter.1 (show e ∈ t8.core.dcache.filter _ from hmem)
    have hne : pageOf e.addr ≠ p := by simpa using hmem'.2
    obtain ⟨h1, h2, h3⟩ := c8.evictable e hmem'.1 hd
    refine ⟨h1, h2, h3.imp id fun h3 => ?_⟩
    rw [hview _ hne]
    exact h3
  · exact (List.filter_sublist.map _).nodup c8.keys
  · simp [t]
  · intro e hmem
    have hmem' := List.mem_filter.1 (show e ∈ t8.core.dcache.filter _ from hmem)
    simpa using hmem'.2

end Sys2Proof.Machine
end

