-- ==== Sys2Proof/Laws/Fixed.lean ====
section
/-! SUPPORT. What no instruction changes, whether it completes or dies: the configuration, the other cores, the script of choices,
and of its own core the cache capacities, the boot marker, the IRQ queue and the instruction cache (20_memory.md R72). -/

namespace Sys2Proof.Machine

/-- The parts of the state that no instruction's own rule changes; everything else is blanked out. -/
def State.fixed (s : State) : State :=
  { s with
    mc := MC.powerOn
    portAnswers := []
    vintAnswers := []
    draws := 0
    history := []
    core := { s.core with
      regs := Regs.powerOn
      alive := false
      running := false
      idle := false
      exitCode := 0
      frames := []
      istack := []
      dcache := []
      evictions := 0 } }

theorem Same.inside {α : Type} {x : M α} (h : Same State.outside x) : Same State.fixed x := fun s => by
  have := congrArg State.fixed (h s)
  exact this

theorem Same.actRegs_fixed (f : Regs → Regs) : Same State.fixed (actRegs f) := fun _ => rfl
theorem Same.readReg_fixed (r : Reg) : Same State.fixed (readReg r) := .ask _
theorem Same.writeReg_fixed (r : Reg) (v : Word) : Same State.fixed (writeReg r v) := .actRegs_fixed _
theorem Same.setFlags_fixed (f : Flags → Flags) : Same State.fixed (setFlags f) := .actRegs_fixed _
theorem Same.note_fixed (n : HostNote) : Same State.fixed (note n) := fun _ => rfl

theorem Same.drawPort_fixed : Same State.fixed drawPort := fun s => by
  unfold drawPort
  split <;> rfl

theorem Same.drawVint_fixed : Same State.fixed drawVint := fun s => by
  unfold drawVint
  split <;> rfl

theorem Same.push16_fixed (v : Word) : Same State.fixed (Machine.push16 v) :=
  .bind (.actRegs_fixed _) fun _ => .bind (.ask _) fun _ => .inside (.dWrite16 _ _)

theorem Same.pop16_fixed : Same State.fixed pop16 :=
  .bind (.ask _) fun _ => .bind (.inside (.dRead16 _)) fun _ => .bind (.actRegs_fixed _) fun _ => .pure _

theorem Same.createFrame_fixed : Same State.fixed createFrame :=
  .bind (.readReg_fixed _) fun _ => .bind (.push16_fixed _) fun _ => .bind (.readReg_fixed _) fun _ =>
    .bind (.push16_fixed _) fun _ => .bind (.actRegs_fixed _) fun _ => .actCore fun _ => rfl

theorem Same.checkFrame_fixed : Same State.fixed checkFrame := by
  refine .bind (.ask _) fun top => ?_
  cases top with
  | none => exact .raise _ _
  | some f => exact .bind (.ask _) fun _ => .require _ _ _

theorem Same.destroyFrame_fixed : Same State.fixed destroyFrame :=
  .bind .pop16_fixed fun _ => .bind (.writeReg_fixed _ _) fun _ => .bind .pop16_fixed fun _ =>
    .bind (.writeReg_fixed _ _) fun _ => .actCore fun _ => rfl

theorem Same.portCheck_fixed (p : Word) : Same State.fixed (portCheck p) := by
  refine .bind (.ask _) fun mark => ?_
  cases mark with
  | none => exact .raise _ _
  | some b => exact .bind (.ask _) fun _ => .require _ _ _

theorem Same.haltCore_fixed : Same State.fixed haltCore :=
  .bind (.ask _) fun _ => .whenever _ (.bind (.inside .flush) fun _ => .actCore fun _ => rfl)

theorem Same.enterInterrupt_fixed (base count i : Nat) : Same State.fixed (enterInterrupt base count i) :=
  .bind (.inside (.loadVector _ _ _)) fun _ => .bind (.inside (.allocPage _ _)) fun _ => .bind (.actCore fun _ => rfl) fun _ =>
    .bind (.readReg_fixed _) fun _ => .bind (.readReg_fixed _) fun _ => .bind (.actRegs_fixed _) fun _ =>
    .bind (.push16_fixed _) fun _ => .bind (.push16_fixed _) fun _ => .bind (.readReg_fixed _) fun _ =>
    .bind (.push16_fixed _) fun _ => .bind (.readReg_fixed _) fun _ => .bind (.push16_fixed _) fun _ => .bind (.ask _) fun _ =>
    .bind (.forEach (fun _ => .push16_fixed _) _) fun _ => .bind .createFrame_fixed fun _ => .bind (.setFlags_fixed _) fun _ =>
    .bind (.actCore fun _ => rfl) fun _ => .actRegs_fixed _

theorem Same.exitInterrupt_fixed : Same State.fixed exitInterrupt := by
  refine .bind .checkFrame_fixed fun _ => .bind (.ask _) fun top => ?_
  cases top with
  | none => exact .raise _ _
  | some p =>
    exact .bind .destroyFrame_fixed fun _ =>
      .bind (.forEach (fun _ => .bind .pop16_fixed fun _ => .writeReg_fixed _ _) _) fun _ =>
      .bind .pop16_fixed fun _ => .bind (.writeReg_fixed _ _) fun _ => .bind .pop16_fixed fun _ =>
      .bind (.writeReg_fixed _ _) fun _ => .bind .pop16_fixed fun _ => .bind .pop16_fixed fun _ =>
      .bind (.writeReg_fixed _ _) fun _ => .bind (.writeReg_fixed _ _) fun _ => .bind (.actCore fun _ => rfl) fun _ =>
      .bind (.inside (.removePageRefs _ _)) fun _ => .actMC fun _ => rfl

theorem Same.blame {γ : Type} {v : State → γ} (n : Word) {x : M Unit} (h : Same v x) : Same v (blame n x) := fun s => by
  have := h s
  unfold Machine.blame
  cases hr : x s with
  | ok a t => rw [hr] at this; exact this
  | error e t => rw [hr] at this; exact this

theorem Same.virtualInterrupt_fixed (n : Word) : Same State.fixed (virtualInterrupt n) := by
  refine .bind .drawVint_fixed fun out => .bind (.note_fixed _) fun _ => ?_
  cases out with
  | ok gpr writes => exact .bind (.actRegs_fixed _) fun _ => .blame _ (.forEach (fun _ => .inside (.memWritePriv _)) _)
  | fail k i => exact .blame _ (.raise _ _)

theorem Same.loaded_fixed (rd : Reg) (v : Word) : Same State.fixed (loaded rd v) :=
  .bind (.writeReg_fixed _ _) fun _ => .setFlags_fixed _
theorem Same.sumInto_fixed (rd : Reg) (a b : Word) : Same State.fixed (sumInto rd a b) :=
  .bind (.writeReg_fixed _ _) fun _ => .setFlags_fixed _
theorem Same.diffInto_fixed (rd : Reg) (a b : Word) : Same State.fixed (diffInto rd a b) :=
  .bind (.writeReg_fixed _ _) fun _ => .setFlags_fixed _
theorem Same.productInto_fixed (rd : Reg) (r : Word) : Same State.fixed (productInto rd r) :=
  .bind (.writeReg_fixed _ _) fun _ => .setFlags_fixed _
theorem Same.bitsInto_fixed (rd : Reg) (r : Word) : Same State.fixed (bitsInto rd r) :=
  .bind (.writeReg_fixed _ _) fun _ => .setFlags_fixed _
theorem Same.branch_fixed (c : Flags → Bool) (o : Operand) : Same State.fixed (branch c o) :=
  .bind (.ask _) fun _ => .bind (.ask _) fun _ => .whenever _ (.writeReg_fixed _ _)

theorem Same.bodyOf_fixed (i : Instr) : Same State.fixed (bodyOf i) := by
  cases i with
  | lw rd rb off => exact .bind (.ask _) fun _ => .bind (.inside (.dRead16 _)) fun _ => .loaded_fixed _ _
  | lb rd rb off => exact .bind (.ask _) fun _ => .bind (.inside (.memRead8 _ _)) fun _ => .loaded_fixed _ _
  | li rd v => exact .loaded_fixed _ _
  | stw rb off r => exact .bind (.ask _) fun _ => .bind (.ask _) fun _ => .inside (.dWrite16 _ _)
  | stb rb off r => exact .bind (.ask _) fun _ => .bind (.ask _) fun _ => .inside (.memWrite8 _ _ _ _)
  | mov rd rs => exact .bind (.ask _) fun _ => .writeReg_fixed _ _
  | swp rd rs => exact .bind (.ask _) fun _ => .bind (.ask _) fun _ => .bind (.writeReg_fixed _ _) fun _ => .writeReg_fixed _ _
  | add rd o => exact .bind (.ask _) fun _ => .bind (.ask _) fun _ => .sumInto_fixed _ _ _
  | sub rd o => exact .bind (.ask _) fun _ => .bind (.ask _) fun _ => .diffInto_fixed _ _ _
  | inc r => exact .bind (.ask _) fun _ => .sumInto_fixed _ _ _
  | dec r => exact .bind (.ask _) fun _ => .diffInto_fixed _ _ _
  | mul rd o => exact .bind (.ask _) fun _ => .bind (.ask _) fun _ => .productInto_fixed _ _
  | div rd o =>
    exact .bind (.ask _) fun _ => .bind (.ask _) fun _ => .bind (.require _ _ _) fun _ => .bind (.ask _) fun _ => .productInto_fixed _ _
  | mod rd o =>
    exact .bind (.ask _) fun _ => .bind (.ask _) fun _ => .bind (.require _ _ _) fun _ => .bind (.ask _) fun _ => .productInto_fixed _ _
  | and rd o => exact .bind (.ask _) fun _ => .bind (.ask _) fun _ => .bitsInto_fixed _ _
  | or rd o => exact .bind (.ask _) fun _ => .bind (.ask _) fun _ => .bitsInto_fixed _ _
  | xor rd o => exact .bind (.ask _) fun _ => .bind (.ask _) fun _ => .bitsInto_fixed _ _
  | not r => exact .bind (.ask _) fun _ => .bitsInto_fixed _ _
  | shiftl rd o => exact .bind (.ask _) fun _ => .bind (.ask _) fun _ => .bitsInto_fixed _ _
  | shiftr rd o => exact .bind (.ask _) fun _ => .bind (.ask _) fun _ => .bitsInto_fixed _ _
  | cmp rd o => exact .bind (.ask _) fun _ => .bind (.ask _) fun _ => .setFlags_fixed _
  | cmpu rd o => exact .bind (.ask _) fun _ => .bind (.ask _) fun _ => .setFlags_fixed _
  | be o => exact .branch_fixed _ _
  | bne o => exact .branch_fixed _ _
  | bz o => exact .branch_fixed _ _
  | bnz o => exact .branch_fixed _ _
  | bs o => exact .branch_fixed _ _
  | bns o => exact .branch_fixed _ _
  | bg o => exact .branch_fixed _ _
  | bge o => exact .branch_fixed _ _
  | bl o => exact .branch_fixed _ _
  | ble o => exact .branch_fixed _ _
  | j o => exact .branch_fixed (fun _ => true) o
  | push r => exact .bind (.ask _) fun _ => .push16_fixed _
  | pop r => exact .bind .pop16_fixed fun _ => .writeReg_fixed _ _
  | call o => exact .bind (.ask _) fun _ => .bind .createFrame_fixed fun _ => .writeReg_fixed _ _
  | ret => exact .bind .checkFrame_fixed fun _ => .destroyFrame_fixed
  | cli => exact .setFlags_fixed _
  | sti => exact .setFlags_fixed _
  | hlt o =>
    exact .bind (.ask _) fun _ => .bind (.actCore fun _ => rfl) fun _ => .haltCore_fixed
  | rst => exact .actRegs_fixed _
  | retint => exact .exitInterrupt_fixed
  | inw rd o =>
    exact .bind (.ask _) fun _ => .bind (.portCheck_fixed _) fun _ => .bind .drawPort_fixed fun _ => .bind (.note_fixed _) fun _ => .writeReg_fixed _ _
  | outw o r => exact .bind (.ask _) fun _ => .bind (.portCheck_fixed _) fun _ => .bind (.ask _) fun _ => .note_fixed _
  | inb rd o =>
    exact .bind (.ask _) fun _ => .bind (.portCheck_fixed _) fun _ => .bind .drawPort_fixed fun _ => .bind (.note_fixed _) fun _ => .writeReg_fixed _ _
  | outb o r => exact .bind (.ask _) fun _ => .bind (.portCheck_fixed _) fun _ => .bind (.ask _) fun _ => .note_fixed _
  | cas ra re rn =>
    refine .bind (.ask _) fun _ => .bind (.ask _) fun _ => .bind (.ask _) fun _ => .bind (.ask _) fun _ =>
      .bind (.inside (.cas16 _ _ _)) fun res => ?_
    cases res with
    | success => exact .setFlags_fixed _
    | observed c => exact .bind (.writeReg_fixed _ _) fun _ => .setFlags_fixed _
  | int o =>
    refine .bind (.ask _) fun _ => .bind (.ask _) fun b => .bind (.ask _) fun _ => .bind (.ask _) fun _ => ?_
    split
    · exact .virtualInterrupt_fixed _
    · exact .enterInterrupt_fixed _ _ _

/-- What an equal fixed part means, field by field. -/
theorem fixed_eq {s t : State} (h : t.fixed = s.fixed) :
    sameSurroundings s t ∧ t.core.sizes = s.core.sizes ∧ t.core.booted = s.core.booted ∧ t.core.fault = s.core.fault
      ∧ t.core.pending = s.core.pending ∧ t.core.icache = s.core.icache := by
  simp only [State.fixed, State.mk.injEq, Core.mk.injEq] at h
  obtain ⟨h1, ⟨c1, -, c3, -, -, -, -, c8, -, -, c11, c12, -⟩, h3, -, h5, -, -, -, -, h10⟩ := h
  exact ⟨⟨h1, h3, h5, h10⟩, c1, c3, c8, c11, c12⟩

/-- The fixed part after the die transition: only the fault record can differ. -/
theorem die_fixed (e : Exc) (site : FaultSite) (s : State) :
    sameSurroundings s (die e site s) ∧ (die e site s).core.sizes = s.core.sizes
      ∧ (die e site s).core.booted = s.core.booted ∧ (die e site s).core.pending = s.core.pending
      ∧ (die e site s).core.icache = s.core.icache := by
  obtain ⟨h1, -, -, k1, k2, -, -, -, -, -, -, -, k10, k11⟩ := die_spec e site s
  exact ⟨h1, k1, k2, k10, k11⟩

/-- What every instruction leaves alone, completing or dying. -/
theorem exec_fixed {i : Instr} {s t : State} (h : exec i s = .next t) :
    sameSurroundings s t ∧ t.core.sizes = s.core.sizes ∧ t.core.booted = s.core.booted
      ∧ t.core.pending = s.core.pending ∧ t.core.icache = s.core.icache := by
  rcases exec_cases i s with ⟨_, u, hu, he⟩ | ⟨_, e, u, hu, he⟩ | ⟨_, e, he⟩ <;> rw [he] at h <;>
    simp only [Host.Outcome.next.injEq] at h <;> subst h
  · obtain ⟨h1, h2, h3, -, h5, h6⟩ := fixed_eq ((Same.bodyOf_fixed i).ok hu)
    exact ⟨h1, h2, h3, h5, h6⟩
  · obtain ⟨h1, h2, h3, -, h5, h6⟩ := fixed_eq ((Same.bodyOf_fixed i).error hu)
    obtain ⟨k1, k2, k3, k5, k6⟩ := die_fixed e (siteOf i s) u
    exact ⟨h1.trans k1, k2.trans h2, k3.trans h3, k5.trans h5, k6.trans h6⟩
  · exact die_fixed e (siteOf i s) s.advanced

end Sys2Proof.Machine
end

