-- ==== Sys2Proof/Laws/Invariant.lean ====
section
/-! SUPPORT. The invariant of Safety.lean under every operation an instruction is made of: memory keeps its canonical form and stays
inside existing pages, page and segment tables stay in order and in range, caches stay within capacity with distinct, aligned
keys, and the run state stays legal. -/

namespace Sys2Proof.Machine

/-! ## The memory controller -/

theorem MCInv.createPage {cfg : Config} {mc : MC} (h : MCInv cfg mc) {p : Nat} (hp : p < cfg.memSize / 256) (pg : Page) :
    MCInv cfg (mc.createPage p pg) where
  cells := Memory.clearPage_wf h.cells p
  pages := rising_put (Nat.zero_le p) pg h.pages
  covered := fun c hc => by
    have hc' := List.mem_filter.1 (show c ∈ mc.cells.filter _ from hc)
    rw [MC.page_createPage]
    split
    · rfl
    · exact h.covered c hc'.1
  inRange := fun e he => by
    rcases mem_put he with rfl | he
    · exact hp
    · exact h.inRange e he
  segments := h.segments
  segmentsInRange := h.segmentsInRange
  segmentZero := h.segmentZero

theorem MCInv.touchPage {cfg : Config} {mc : MC} (h : MCInv cfg mc) {p : Nat} (hp : p < cfg.memSize / 256) :
    MCInv cfg (mc.touchPage cfg p) := by
  unfold MC.touchPage
  split
  · exact h
  · exact h.createPage hp _

/-- Replacing the flags of a page that exists keeps the invariant. -/
theorem MCInv.putPage {cfg : Config} {mc : MC} (h : MCInv cfg mc) {p : Nat} (hp : p < cfg.memSize / 256) (pg : Page) :
    MCInv cfg { mc with pages := put p pg mc.pages } where
  cells := h.cells
  pages := rising_put (Nat.zero_le p) pg h.pages
  covered := fun c hc => by
    have := h.covered c hc
    simp only [MC.page, lookup_put] at this ⊢
    split
    · rfl
    · exact this
  inRange := fun e he => by
    rcases mem_put he with rfl | he
    · exact hp
    · exact h.inRange e he
  segments := h.segments
  segmentsInRange := h.segmentsInRange
  segmentZero := h.segmentZero

theorem MC.page_mem {mc : MC} {p : Nat} {pg : Page} (h : mc.page p = some pg) : (p, pg) ∈ mc.pages := mem_of_lookup h

theorem MCInv.markDirty {cfg : Config} {mc : MC} (h : MCInv cfg mc) (p : Nat) : MCInv cfg (mc.markDirty p) := by
  unfold MC.markDirty
  split
  · next pg hpg => exact h.putPage (h.inRange _ (MC.page_mem hpg)) _
  · exact h

/-- Storing into existing pages keeps the invariant. -/
theorem MCInv.storeCells {cfg : Config} {mc : MC} (h : MCInv cfg mc) {a : Nat} {bs : List Byte}
    (hp : ∀ k < bs.length, (mc.page (pageOf (a + k))).isSome = true) :
    MCInv cfg { mc with cells := mc.cells.writeAll a bs } where
  cells := Memory.writeAll_wf h.cells a bs
  pages := h.pages
  covered := fun c hc => by
    rcases Memory.mem_writeAll hc with hc | hc
    · have := hp (c.1 - a) (by omega)
      rwa [show a + (c.1 - a) = c.1 by omega] at this
    · exact h.covered c hc
  inRange := h.inRange
  segments := h.segments
  segmentsInRange := h.segmentsInRange
  segmentZero := h.segmentZero

theorem MCInv.store {cfg : Config} {mc : MC} (h : MCInv cfg mc) {a : Nat} {bs : List Byte} (d : Bool)
    (hp : ∀ k < bs.length, (mc.page (pageOf (a + k))).isSome = true) : MCInv cfg (mc.store a bs d) := by
  unfold MC.store
  cases d
  · exact h.storeCells hp
  · exact (h.storeCells hp).markDirty _

theorem MCInv.freePage {cfg : Config} {mc : MC} (h : MCInv cfg mc) (p : Nat) : MCInv cfg (mc.freePage p) where
  cells := Memory.clearPage_wf h.cells p
  pages := rising_drop p h.pages
  covered := fun c hc => by
    have hc' := List.mem_filter.1 (show c ∈ mc.cells.filter _ from hc)
    have hne : pageOf c.1 ≠ p := by simpa [pageOf] using hc'.2
    rw [MC.page_freePage, if_neg hne]
    exact h.covered c hc'.1
  inRange := fun e he => h.inRange e (mem_of_mem_drop he)
  segments := h.segments
  segmentsInRange := h.segmentsInRange
  segmentZero := h.segmentZero

/-! ## The whole state -/

theorem Inv.memSize {s : State} (h : Inv s) : s.cfg.memSize % 65536 = 0 ∧ 65536 ≤ s.cfg.memSize := by
  have := h.cfg
  simp only [Config.wf, Bool.and_eq_true, decide_eq_true_eq] at this
  omega

theorem Inv.pageInRange {s : State} (h : Inv s) {a n : Nat} (hn : 0 < n) (ha : a + n ≤ s.cfg.memSize) :
    pageOf a < s.cfg.memSize / 256 := by
  have := h.memSize
  unfold pageOf
  omega

theorem Inv.setMC {s : State} (h : Inv s) {mc : MC} (hm : MCInv s.cfg mc) : Inv (s.withMC mc) := ⟨h.cfg, hm, h.core, h.others⟩

theorem Inv.setCore {s : State} (h : Inv s) {c : Core} (hc : CoreInv s.cfg c) : Inv { s with core := c } :=
  ⟨h.cfg, h.mc, hc, h.others⟩

theorem Inv.touched {s : State} (h : Inv s) {p : Nat} (hp : p < s.cfg.memSize / 256) : Inv (s.touched p) :=
  h.setMC (h.mc.touchPage hp)

theorem CoreInv.setRegs {cfg : Config} {c : Core} (h : CoreInv cfg c) (g : Regs) : CoreInv cfg { c with regs := g } :=
  ⟨h.sizes, h.icacheFits, h.dcacheFits, h.icacheKeys, h.dcacheKeys, h.icacheAligned, h.dcacheAligned, h.dcacheInBounds,
    h.runningAlive, h.aliveBooted, h.faultedHalted⟩

theorem Inv.setRegs {s : State} (h : Inv s) (g : Regs) : Inv (s.withRegs g) := h.setCore (h.core.setRegs g)

theorem Keeps.actRegs (f : Regs → Regs) : Keeps Inv (actRegs f) := fun s h => h.setRegs (f s.core.regs)

theorem Keeps.actCore {f : Core → Core} (hf : ∀ cfg c, CoreInv cfg c → CoreInv cfg (f c)) : Keeps Inv (actCore f) :=
  fun s h => h.setCore (hf s.cfg s.core h.core)

theorem Keeps.note (n : HostNote) : Keeps Inv (note n) := fun _ h => ⟨h.cfg, h.mc, h.core, h.others⟩

theorem Keeps.drawPort : Keeps Inv drawPort := fun s h => by
  unfold Machine.drawPort
  split <;> exact ⟨h.cfg, h.mc, h.core, h.others⟩

theorem Keeps.drawVint : Keeps Inv drawVint := fun s h => by
  unfold Machine.drawVint
  split <;> exact ⟨h.cfg, h.mc, h.core, h.others⟩

/-! ## Memory operations -/

theorem access_inv {a n : Nat} (hn : 0 < n) (f : Page → Bool) : Keeps Inv (access a n f) := fun s h => by
  rcases access_cases a n f s with ⟨_, hr⟩ | ⟨_, _, hr⟩ | ⟨_, hb, _, hr⟩ | ⟨_, hb, _, hr⟩ <;> rw [hr]
  · exact h
  · exact h
  · exact h.touched (h.pageInRange hn hb)
  · exact h.touched (h.pageInRange hn hb)

theorem Keeps.memRead8 (a : Nat) (b : Bool) : Keeps Inv (memRead8 a b) := .bind (access_inv (by omega) _) fun _ => .ask _
theorem Keeps.memRead16 (a : Nat) (b : Bool) : Keeps Inv (memRead16 a b) := .bind (access_inv (by omega) _) fun _ => .ask _
theorem Keeps.memRead32 (a : Nat) (b : Bool) : Keeps Inv (memRead32 a b) := .bind (access_inv (by omega) _) fun _ => .ask _

/-- An access of 1, 2 or 4 bytes followed by a store of at most that many keeps the invariant. -/
theorem accessStore_inv {a n : Nat} (hn : n = 1 ∨ n = 2 ∨ n = 4) (f : Page → Bool) {bs : List Byte} (hb : bs.length = n)
    (d : Bool) : Keeps Inv (access a n f >>= fun _ => actMC fun mc => mc.store a bs d) := fun s h => by
  have hk := access_inv (a := a) (n := n) (by omega) f s h
  rcases access_cases a n f s with ⟨_, hr⟩ | ⟨_, _, hr⟩ | ⟨_, _, _, hr⟩ | ⟨ha, hbd, _, hr⟩
  · rw [bind_error hr]; exact h
  · rw [bind_error hr]; exact h
  · rw [bind_error hr]; rw [hr] at hk; exact hk
  · rw [bind_ok hr]
    rw [hr] at hk
    refine hk.setMC (hk.mc.store d fun k hk' => ?_)
    rw [pageOf_aligned hn ha (by omega)]
    exact MC.touchPage_isSome _ _ _

theorem Keeps.memWrite8 (a : Nat) (v : Byte) (p d : Bool) : Keeps Inv (memWrite8 a v p d) :=
  accessStore_inv (.inl rfl) _ rfl d
theorem Keeps.memWrite16 (a : Nat) (v : Word) (p d : Bool) : Keeps Inv (memWrite16 a v p d) :=
  accessStore_inv (.inr (.inl rfl)) _ rfl d
theorem Keeps.memWrite32 (a : Nat) (v : InsnWord) (p d : Bool) : Keeps Inv (memWrite32 a v p d) :=
  accessStore_inv (.inr (.inr rfl)) _ rfl d

theorem Keeps.memWritePriv (w : McWrite) : Keeps Inv (memWritePriv w) := by
  cases w
  · exact .memWrite8 _ _ _ _
  · exact .memWrite16 _ _ _ _
  · exact .memWrite32 _ _ _ _

theorem Keeps.cas16 (a : Nat) (e n : Word) : Keeps Inv (cas16 a e n) := fun s h => by
  unfold Machine.cas16
  have hk := access_inv (a := a) (n := 2) (by omega) (fun pg => pg.read && pg.write) s h
  rcases access_cases a 2 (fun pg => pg.read && pg.write) s with ⟨_, hr⟩ | ⟨_, _, hr⟩ | ⟨_, _, _, hr⟩ | ⟨ha, _, _, hr⟩
  · rw [bind_error hr]; exact h
  · rw [bind_error hr]; exact h
  · rw [bind_error hr]; rw [hr] at hk; exact hk
  · rw [bind_ok hr, bind_ok (ask_run _ _)]
    rw [hr] at hk
    split
    · rw [bind_ok (actMC_run _ _)]
      refine hk.setMC (hk.mc.store true fun k hk' => ?_)
      rw [pageOf_aligned (n := 2) (.inr (.inl rfl)) ha (by simpa using hk')]
      exact MC.touchPage_isSome _ _ _
    · exact hk

theorem Keeps.allocPage (seg : Option Byte) (pg : Page) : Keeps Inv (allocPage seg pg) := fun s h => by
  cases hf : s.mc.firstFree (s.cfg.memSize / 256) (scanRange s.cfg seg).1 (scanRange s.cfg seg).2 with
  | none => rw [allocPage_none hf]; exact h
  | some p => rw [allocPage_ok hf]; exact h.setMC (h.mc.createPage (MC.firstFree_spec hf).2.2.2.1 _)

theorem Keeps.loadVector (base count i : Nat) : Keeps Inv (loadVector base count i) :=
  .bind (.require _ _ _) fun _ => .bind (.memRead32 _ _) fun _ => .pure _

theorem Keeps.saveVector (base i : Nat) (v : IntVector) : Keeps Inv (saveVector base i v) := .memWrite32 _ _ _ _

/-! ## The data cache -/

theorem CoreInv.setData {cfg : Config} {c : Core} (h : CoreInv cfg c) {l : List DEntry} {n : Nat}
    (hlen : l.length ≤ c.sizes.dcache) (hkeys : (l.map DEntry.addr).Nodup)
    (hold : ∀ e ∈ l, e ∈ c.dcache ∨ (e.addr % 2 = 0 ∧ (cfg.writeCheck = .atStore → e.addr + 2 ≤ cfg.memSize))) :
    CoreInv cfg { c with dcache := l, evictions := n } :=
  ⟨h.sizes, h.icacheFits, hlen, h.icacheKeys, hkeys, h.icacheAligned,
    fun e he => (hold e he).elim (h.dcacheAligned e) And.left,
    fun hw e he => (hold e he).elim (h.dcacheInBounds hw e) fun hb => hb.2 hw,
    h.runningAlive, h.aliveBooted, h.faultedHalted⟩

theorem Inv.setData {s : State} (h : Inv s) {l : List DEntry} (hlen : l.length ≤ s.core.sizes.dcache)
    (hkeys : (l.map DEntry.addr).Nodup)
    (hold : ∀ e ∈ l, e ∈ s.core.dcache ∨ (e.addr % 2 = 0 ∧ (s.cfg.writeCheck = .atStore → e.addr + 2 ≤ s.cfg.memSize))) :
    Inv (s.withData l) := h.setCore (h.core.setData hlen hkeys hold)

theorem Keeps.writeBack (pa : Nat) (v : Word) : Keeps Inv (writeBack pa v) := .bind (.ask _) fun _ => .memWrite16 _ _ _ _

/-- What `MakeSpace()` leaves when it answers: an invariant state with room in the cache, whose entries were there before. -/
theorem makeSpace_inv {s : State} (h : Inv s) :
    Inv (left (makeSpace s)) ∧ ∀ t, makeSpace s = .ok () t →
      t.cfg = s.cfg ∧ t.core.sizes = s.core.sizes ∧ t.core.dcache.length < s.core.sizes.dcache
        ∧ ∀ e ∈ t.core.dcache, e ∈ s.core.dcache := by
  unfold makeSpace
  rw [bind_ok (ask_run _ _)]
  by_cases hf : s.core.dcache.length = s.core.sizes.dcache
  · rw [hf, beq_self_eq_true, if_pos rfl, bind_ok (ask_run _ _)]
    cases hl : s.core.dcache with
    | nil =>
      have := h.core.sizes.2
      rw [hl] at hf
      simp at hf
      omega
    | cons e l =>
      simp only [List.head?_cons]
      have hw : Keeps Inv (whenever e.dirty (writeBack e.addr e.value)) := .whenever _ (.writeBack _ _)
      have ho : Same State.outside (whenever e.dirty (writeBack e.addr e.value)) := .whenever _ (.writeBack _ _)
      have hd : Same (fun s => s.core.dcache) (whenever e.dirty (writeBack e.addr e.value)) := by
        refine .whenever _ (.bind (.ask _) fun _ => .bind ?_ fun _ => .actMC fun _ => rfl)
        exact .bind (.require _ _ _) fun _ => .bind (.ask _) fun _ => .bind (.require _ _ _) fun _ =>
          .bind (.bind (.act fun _ => rfl) fun _ => .ask _) fun _ => .require _ _ _
      have hk := hw s h
      cases hr : whenever e.dirty (writeBack e.addr e.value) s with
      | error x t =>
        rw [bind_error hr]
        rw [hr] at hk
        exact ⟨hk, by simp⟩
      | ok u t =>
        rw [bind_ok hr]
        rw [hr] at hk
        have hdc : t.core.dcache = e :: l := (hd.ok hr).trans hl
        have hout := outside_eq (ho.ok hr)
        have hk' : Inv t := hk
        have hsz : t.core.sizes = s.core.sizes := hout.1.2.2.1
        have hfits := hk'.core.dcacheFits
        have hkeys := hk'.core.dcacheKeys
        rw [hdc] at hfits hkeys
        simp only [List.length_cons, List.map_cons, List.nodup_cons] at hfits hkeys
        refine ⟨?_, ?_⟩
        · refine hk'.setCore (hk'.core.setData ?_ ?_ ?_)
          · simp only [hdc, List.tail_cons]; omega
          · simp only [hdc, List.tail_cons]; exact hkeys.2
          · intro d hdm
            exact .inl (List.mem_of_mem_tail hdm)
        · intro t' ht'
          simp only [actCore_run, EStateM.Result.ok.injEq, true_and] at ht'
          subst ht'
          refine ⟨hout.1.1.1, hsz, ?_, ?_⟩
          · simp only [hdc, List.tail_cons, ← hsz]; omega
          · intro d hdm
            simp only [hdc, List.tail_cons] at hdm
            exact List.mem_cons_of_mem _ hdm
  · have hne : (s.core.dcache.length == s.core.sizes.dcache) = false := by simp [hf]
    rw [hne, if_neg (by simp)]
    refine ⟨h, fun t ht => ?_⟩
    simp only [pure_run, EStateM.Result.ok.injEq, true_and] at ht
    subst ht
    have := h.core.dcacheFits
    exact ⟨rfl, rfl, by omega, fun _ he => he⟩

/-- A miss: room is made and an entry for `pa` appended. -/
theorem makeSpace_insert_inv {pa : Nat} {d : Bool} {v : Word} {s : State} (h : Inv s) (hm : findData pa s.core.dcache = none)
    (ha : pa % 2 = 0) (hb : s.cfg.writeCheck = .atStore → pa + 2 ≤ s.cfg.memSize) :
    Inv (left ((makeSpace >>= fun _ => actData fun c => c ++ [{ addr := pa, dirty := d, value := v }]) s)) := by
  obtain ⟨h1, h2⟩ := makeSpace_inv h
  cases hr : makeSpace s with
  | error x t => rw [bind_error hr]; rw [hr] at h1; exact h1
  | ok u t =>
    rw [bind_ok hr]
    rw [hr] at h1
    have h1' : Inv t := h1
    obtain ⟨hcfg, hsz, hlen, hsub⟩ := h2 t hr
    have hm' : findData pa t.core.dcache = none := by
      rw [findData_eq_none] at hm ⊢
      exact fun e he => hm e (hsub e he)
    refine h1'.setData ?_ (nodup_append_fresh h1'.core.dcacheKeys hm') ?_
    · rw [List.length_append, hsz]; simp; omega
    · intro e he
      rcases List.mem_append.1 he with he | he
      · exact .inl he
      · simp only [List.mem_singleton] at he
        subst he
        exact .inr ⟨ha, by rw [hcfg]; exact hb⟩

theorem mruData_inv {s : State} (h : Inv s) {e e' : DEntry} (hf : findData e'.addr s.core.dcache = some e) :
    Inv (s.withData (mruData e' s.core.dcache)) := by
  obtain ⟨hm, ha⟩ := findData_mem hf
  refine h.setData ?_ (nodup_mruData e' h.core.dcacheKeys) ?_
  · have h1 := length_removeData_lt hf
    have h2 := h.core.dcacheFits
    simp only [mruData, List.length_append, List.length_singleton]
    omega
  · intro d hd
    rcases List.mem_append.1 hd with hd | hd
    · exact .inl (mem_removeData.1 hd).1
    · simp only [List.mem_singleton] at hd
      subst hd
      rw [← ha]
      exact .inr ⟨h.core.dcacheAligned e hm, fun hw => h.core.dcacheInBounds hw e hm⟩

theorem Keeps.dRead16 (pa : Nat) : Keeps Inv (dRead16 pa) := fun s h => by
  unfold Machine.dRead16
  by_cases ha : pa % 2 = 0
  · have h2 : (pa % 2 == 0) = true := by simp [ha]
    rw [h2, bind_ok (require_true _ _ _), bind_ok (ask_run _ _)]
    cases hc : findData pa s.core.dcache with
    | some e =>
      have := mruData_inv (e' := e) h (by rw [(findData_mem hc).2]; exact hc)
      exact this
    | none =>
      simp only
      have hk := Keeps.memRead16 pa false s h
      have ho := Same.memRead16 pa false
      have hd : Same (fun s => s.core.dcache) (Machine.memRead16 pa false) :=
        .bind (.bind (.require _ _ _) fun _ => .bind (.ask _) fun _ => .bind (.require _ _ _) fun _ =>
          .bind (.bind (.act fun _ => rfl) fun _ => .ask _) fun _ => .require _ _ _) fun _ => .ask _
      cases hr : Machine.memRead16 pa false s with
      | error x t => rw [bind_error hr]; rw [hr] at hk; exact hk
      | ok v t =>
        rw [hr] at hk
        have hk' : Inv t := hk
        have hbound : pa + 2 ≤ s.cfg.memSize := by
          unfold Machine.memRead16 at hr
          obtain ⟨u, w, hacc, _⟩ := bind_eq_ok hr
          rcases access_cases pa 2 (fun pg => false || pg.read) s with ⟨_, hr'⟩ | ⟨_, _, hr'⟩ | ⟨_, _, _, hr'⟩ | ⟨_, hb, _, _⟩
          · rw [hr'] at hacc; simp at hacc
          · rw [hr'] at hacc; simp at hacc
          · rw [hr'] at hacc; simp at hacc
          · exact hb
        have hins := makeSpace_insert_inv (d := false) (v := v) hk' (by rw [hd.ok hr]; exact hc) ha
          (fun _ => by rw [(outside_eq (ho.ok hr)).1.1.1]; exact hbound)
        rw [bind_ok hr]
        rw [bind_run] at hins ⊢
        cases hms : makeSpace t with
        | error x u => rw [hms] at hins; exact hins
        | ok x u => rw [hms] at hins; exact hins
  · have h2 : (pa % 2 == 0) = false := by simp [ha]
    rw [h2, bind_error (require_false _ _ _)]
    exact h

theorem storeCheck_cases {pa : Nat} {s : State} (h : Inv s) :
    Inv (left (storeCheck pa s)) ∧ ∀ t, storeCheck pa s = .ok () t → pa + 2 ≤ s.cfg.memSize := by
  unfold storeCheck
  rw [bind_ok (ask_run _ _)]
  by_cases hb : pa + 2 ≤ s.cfg.memSize
  · have hb' : decide (pa + 2 ≤ s.cfg.memSize) = true := by simp [hb]
    rw [hb', bind_ok (require_true _ _ _)]
    have hg : getPage (pageOf pa) s = .ok (s.mc.pageView s.cfg (pageOf pa)) (s.touched (pageOf pa)) := by
      simp [getPage, bind_run, State.touched, State.withMC]
    rw [bind_ok hg]
    refine ⟨?_, fun _ _ => hb⟩
    rw [require_run]
    split <;> exact h.touched (h.pageInRange (by omega) hb)
  · have hb' : decide (pa + 2 ≤ s.cfg.memSize) = false := by simp [hb]
    rw [hb', bind_error (require_false _ _ _)]
    exact ⟨h, by simp⟩

theorem Keeps.dWrite16 (pa : Nat) (v : Word) : Keeps Inv (dWrite16 pa v) := fun s h => by
  unfold Machine.dWrite16
  by_cases ha : pa % 2 = 0
  · have h2 : (pa % 2 == 0) = true := by simp [ha]
    rw [h2, bind_ok (require_true _ _ _), bind_ok (ask_run _ _)]
    have ho : Same State.outside (Machine.whenever (s.cfg.writeCheck == .atStore) (storeCheck pa)) := .whenever _ (.storeCheck _)
    have hd : Same (fun s => s.core.dcache) (Machine.whenever (s.cfg.writeCheck == .atStore) (storeCheck pa)) :=
      .whenever _ (.bind (.ask _) fun _ => .bind (.require _ _ _) fun _ =>
        .bind (.bind (.act fun _ => rfl) fun _ => .ask _) fun _ => .require _ _ _)
    have hkb : Inv (left (Machine.whenever (s.cfg.writeCheck == .atStore) (storeCheck pa) s))
        ∧ ∀ t, Machine.whenever (s.cfg.writeCheck == .atStore) (storeCheck pa) s = .ok () t →
          s.cfg.writeCheck = .atStore → pa + 2 ≤ s.cfg.memSize := by
      by_cases hs : s.cfg.writeCheck = .atStore
      · simp only [hs, beq_self_eq_true, whenever_true, forall_const]
        exact storeCheck_cases h
      · have hs' : (s.cfg.writeCheck == .atStore) = false := by simp [hs]
        rw [hs', whenever_false]
        exact ⟨h, fun _ _ hc => absurd hc hs⟩
    cases hr : Machine.whenever (s.cfg.writeCheck == .atStore) (storeCheck pa) s with
    | error x t => rw [bind_error hr]; rw [hr] at hkb; exact hkb.1
    | ok u t =>
      rw [bind_ok hr, bind_ok (ask_run _ _)]
      have hb := hkb.2 t hr
      rw [hr] at hkb
      have hk' : Inv t := hkb.1
      have hcfg : t.cfg = s.cfg := (outside_eq (ho.ok hr)).1.1.1
      cases hc : findData pa t.core.dcache with
      | some e => exact mruData_inv (e' := { addr := pa, dirty := true, value := v }) hk' hc
      | none => exact makeSpace_insert_inv hk' hc ha (by rw [hcfg]; exact hb)
  · have h2 : (pa % 2 == 0) = false := by simp [ha]
    rw [h2, bind_error (require_false _ _ _)]
    exact h

theorem Keeps.cleanData (pa : Nat) : Keeps Inv (actData (cleanData pa)) := fun s h => by
  refine h.setData ?_ (by rw [cleanData_map_addr]; exact h.core.dcacheKeys) ?_
  · simp only [Machine.cleanData, List.length_map]; exact h.core.dcacheFits
  · intro e he
    obtain ⟨d, hd, rfl⟩ := List.mem_map.1 he
    right
    have : (if (d.addr == pa) = true then { d with dirty := false } else d : DEntry).addr = d.addr := by split <;> rfl
    rw [this]
    exact ⟨h.core.dcacheAligned d hd, fun hw => h.core.dcacheInBounds hw d hd⟩

theorem Keeps.cleanEntry (pa : Nat) : Keeps Inv (cleanEntry pa) := by
  refine .bind (.ask _) fun hit => ?_
  cases hit with
  | some e => exact .whenever _ (.bind (.writeBack _ _) fun _ => .cleanData _)
  | none => exact .pure _

theorem Keeps.flush : Keeps Inv flush := .bind (.ask _) fun _ => .forEach (fun _ => .cleanEntry _) _

theorem Keeps.removeData (pa : Nat) : Keeps Inv (actData (removeData pa)) := fun s h => by
  refine h.setData ?_ (nodup_removeData pa h.core.dcacheKeys) ?_
  · exact Nat.le_trans (List.length_filter_le _ _) h.core.dcacheFits
  · exact fun e he => .inl (mem_removeData.1 he).1

theorem Keeps.removePageRefs (p : Nat) (wb : Bool) : Keeps Inv (removePageRefs p wb) :=
  .bind (.ask _) fun _ => .forEach (fun _ => .bind (.whenever _ (.cleanEntry _)) fun _ => .removeData _) _

theorem flushDying_inv (l : List Nat) {s : State} (h : Inv s) : Inv (flushDying l s) := by
  induction l generalizing s with
  | nil => exact h
  | cons pa l ih =>
    unfold flushDying
    have := Keeps.cleanEntry pa s h
    cases hr : cleanEntry pa s with
    | ok _ t => rw [hr] at this; exact ih this
    | error _ t => rw [hr] at this; exact ih this

/-! ## Registers, the stack, ports, the run state -/

theorem Keeps.readReg (r : Reg) : Keeps Inv (readReg r) := .ask _
theorem Keeps.writeReg (r : Reg) (v : Word) : Keeps Inv (writeReg r v) := .actRegs _
theorem Keeps.setFlags (f : Flags → Flags) : Keeps Inv (setFlags f) := .actRegs _
theorem Keeps.push16 (v : Word) : Keeps Inv (push16 v) := .bind (.actRegs _) fun _ => .bind (.ask _) fun _ => .dWrite16 _ _
theorem Keeps.pop16 : Keeps Inv pop16 :=
  .bind (.ask _) fun _ => .bind (.dRead16 _) fun _ => .bind (.actRegs _) fun _ => .pure _

/-- An effect on a core that touches none of the fields the invariant is about. -/
theorem CoreInv.congr {cfg : Config} {c d : Core} (h : CoreInv cfg c) (h1 : d.sizes = c.sizes) (h2 : d.booted = c.booted)
    (h3 : d.alive = c.alive) (h4 : d.running = c.running) (h5 : d.fault = c.fault) (h6 : d.icache = c.icache)
    (h7 : d.dcache = c.dcache) : CoreInv cfg d := by
  obtain ⟨a1, a2, a3, a4, a5, a6, a7, a8, a9, a10, a11⟩ := h
  constructor <;> simp only [h1, h2, h3, h4, h5, h6, h7] <;> assumption

theorem Keeps.createFrame : Keeps Inv createFrame :=
  .bind (.readReg _) fun _ => .bind (.push16 _) fun _ => .bind (.readReg _) fun _ => .bind (.push16 _) fun _ =>
    .bind (.actRegs _) fun _ => .actCore fun _ _ h => h.congr rfl rfl rfl rfl rfl rfl rfl

theorem Keeps.checkFrame : Keeps Inv checkFrame := by
  refine .bind (.ask _) fun top => ?_
  cases top with
  | none => exact .raise _ _
  | some f => exact .bind (.ask _) fun _ => .require _ _ _

theorem Keeps.destroyFrame : Keeps Inv destroyFrame :=
  .bind .pop16 fun _ => .bind (.writeReg _ _) fun _ => .bind .pop16 fun _ => .bind (.writeReg _ _) fun _ =>
    .actCore fun _ _ h => h.congr rfl rfl rfl rfl rfl rfl rfl

theorem Keeps.portCheck (p : Word) : Keeps Inv (portCheck p) := by
  refine .bind (.ask _) fun mark => ?_
  cases mark with
  | none => exact .raise _ _
  | some b => exact .bind (.ask _) fun _ => .require _ _ _

theorem CoreInv.stopped {cfg : Config} {c : Core} (h : CoreInv cfg c) : CoreInv cfg c.stopped :=
  ⟨h.sizes, h.icacheFits, h.dcacheFits, h.icacheKeys, h.dcacheKeys, h.icacheAligned, h.dcacheAligned, h.dcacheInBounds,
    fun hc => hc, fun hc => by simp at hc, fun hc => ⟨(h.faultedHalted hc).1, rfl⟩⟩

theorem Keeps.haltCore : Keeps Inv haltCore :=
  .bind (.ask _) fun _ => .whenever _ (.bind .flush fun _ => .actCore fun _ _ h => h.stopped)

theorem haltDying_inv {s : State} (h : Inv s) : Inv (haltDying s) := by
  unfold haltDying
  split
  · have := flushDying_inv (dataKeys s) h
    exact this.setCore this.core.stopped
  · exact h

/-- The state with another fault record and exit code. -/
def State.withFault (f : Option FaultRecord) (n : Word) (s : State) : State :=
  { s with core := { s.core with fault := f, exitCode := n } }

/-- `x` neither reads nor writes the fault record and the exit code. -/
def Blind {α : Type} (x : M α) : Prop := ∀ f n s, x (s.withFault f n) = match x s with
  | .ok a t => .ok a (t.withFault f n)
  | .error e t => .error e (t.withFault f n)

theorem Blind.bind {α β : Type} {x : M α} {g : α → M β} (hx : Blind x) (hg : ∀ a, Blind (g a)) : Blind (x >>= g) := by
  intro f n s
  rw [bind_run, bind_run, hx f n s]
  cases x s with
  | ok a t => exact hg a f n t
  | error e t => rfl

theorem Blind.pure {α : Type} (a : α) : Blind (pure a : M α) := fun _ _ _ => rfl

theorem Blind.ask {α : Type} {g : State → α} (h : ∀ f n s, g (State.withFault f n s) = g s) : Blind (ask g) := fun f n s => by
  rw [ask_run, ask_run, h]

theorem Blind.act {g : State → State} (h : ∀ f n s, g (State.withFault f n s) = (g s).withFault f n) : Blind (act g) :=
  fun f n s => by rw [act_run, act_run, h]

theorem Blind.require (c : Bool) (k : ExcKind) (i : ExcInfo) : Blind (require c k i) := fun f n s => by
  rw [require_run, require_run]; cases c <;> rfl

theorem Blind.whenever {x : M Unit} (c : Bool) (h : Blind x) : Blind (whenever c x) := by
  cases c
  · exact .pure ()
  · exact h

theorem Blind.cleanEntry (pa : Nat) : Blind (cleanEntry pa) := by
  refine .bind (.ask fun _ _ _ => rfl) fun hit => ?_
  cases hit with
  | none => exact .pure ()
  | some e =>
    refine .whenever _ (.bind (.bind (.ask fun _ _ _ => rfl) fun _ => .bind ?_ fun _ => .act fun _ _ _ => rfl)
      fun _ => .act fun _ _ _ => rfl)
    exact .bind (.require _ _ _) fun _ => .bind (.ask fun _ _ _ => rfl) fun _ => .bind (.require _ _ _) fun _ =>
      .bind (.bind (.act fun _ _ _ => rfl) fun _ => .ask fun _ _ _ => rfl) fun _ => .require _ _ _

theorem flushDying_blind (l : List Nat) (s : State) (f : Option FaultRecord) (n : Word) :
    flushDying l (s.withFault f n) = (flushDying l s).withFault f n := by
  induction l generalizing s with
  | nil => rfl
  | cons pa l ih =>
    unfold flushDying
    rw [Blind.cleanEntry pa f n s]
    cases Machine.cleanEntry pa s with
    | ok a t => exact ih t
    | error e t => exact ih t

/-- The die transition of a booted core keeps the invariant, although in between a fault is recorded in a core that is still
alive. -/
theorem die_inv (e : Exc) (site : FaultSite) {s : State} (h : Inv s) (hb : s.core.booted = true) : Inv (die e site s) := by
  rw [die_eq]
  unfold haltDying
  change Inv (if s.core.alive = true then _ else _)
  cases ha : s.core.alive with
  | false =>
    rw [if_neg (by simp)]
    obtain ⟨a1, a2, a3, a4, a5, a6, a7, a8, a9, a10, -⟩ := h.core
    exact h.setCore ⟨a1, a2, a3, a4, a5, a6, a7, a8, a9, a10, fun _ => ⟨hb, ha⟩⟩
  | true =>
    rw [if_pos rfl]
    have hflush := flushDying_inv (dataKeys s) h
    have hout := outside_eq (flushDying_outside (dataKeys s) s)
    have hk := flushDying_blind (dataKeys s) s (if s.core.fault.isNone then some (faultRecord e site s.core) else s.core.fault) 1
    change Inv { flushDying (dataKeys s) (s.doomed e site) with
      core := (flushDying (dataKeys s) (s.doomed e site)).core.stopped }
    have hd : s.doomed e site = s.withFault (if s.core.fault.isNone then some (faultRecord e site s.core) else s.core.fault) 1 := rfl
    rw [hd, hk]
    obtain ⟨a1, a2, a3, a4, a5, a6, a7, a8, a9, a10, -⟩ := hflush.core
    refine ⟨hflush.cfg, hflush.mc, ⟨a1, a2, a3, a4, a5, a6, a7, a8, ?_, ?_, ?_⟩, hflush.others⟩
    · intro hc; simp [Core.stopped] at hc
    · intro hc; simp [Core.stopped] at hc
    · intro _; exact ⟨hout.1.2.2.2.1.trans hb, rfl⟩

/-! ## Interrupts -/

theorem Keeps.enterInterrupt (base count i : Nat) : Keeps Inv (enterInterrupt base count i) :=
  .bind (.loadVector _ _ _) fun _ => .bind (.allocPage _ _) fun _ =>
    .bind (.actCore fun _ _ h => h.congr rfl rfl rfl rfl rfl rfl rfl) fun _ => .bind (.readReg _) fun _ =>
    .bind (.readReg _) fun _ => .bind (.actRegs _) fun _ => .bind (.push16 _) fun _ => .bind (.push16 _) fun _ =>
    .bind (.readReg _) fun _ => .bind (.push16 _) fun _ => .bind (.readReg _) fun _ => .bind (.push16 _) fun _ =>
    .bind (.ask _) fun _ => .bind (.forEach (fun _ => .push16 _) _) fun _ => .bind .createFrame fun _ =>
    .bind (.setFlags _) fun _ => .bind (.actCore fun _ _ h => h.congr rfl rfl rfl rfl rfl rfl rfl) fun _ => .actRegs _

theorem Keeps.exitInterrupt : Keeps Inv exitInterrupt := by
  refine .bind .checkFrame fun _ => .bind (.ask _) fun top => ?_
  cases top with
  | none => exact .raise _ _
  | some p =>
    exact .bind .destroyFrame fun _ => .bind (.forEach (fun _ => .bind .pop16 fun _ => .writeReg _ _) _) fun _ =>
      .bind .pop16 fun _ => .bind (.writeReg _ _) fun _ => .bind .pop16 fun _ => .bind (.writeReg _ _) fun _ =>
      .bind .pop16 fun _ => .bind .pop16 fun _ => .bind (.writeReg _ _) fun _ => .bind (.writeReg _ _) fun _ =>
      .bind (.actCore fun _ _ h => h.congr rfl rfl rfl rfl rfl rfl rfl) fun _ => .bind (.removePageRefs _ _) fun _ =>
      fun s h => h.setMC (h.mc.freePage p)

theorem Keeps.blame {I : State → Prop} (n : Word) {x : M Unit} (h : Keeps I x) : Keeps I (blame n x) := fun s hs => by
  have := h s hs
  unfold Machine.blame
  cases hr : x s with
  | ok a t => rw [hr] at this; exact this
  | error e t => rw [hr] at this; exact this

theorem Keeps.virtualInterrupt (n : Word) : Keeps Inv (virtualInterrupt n) := by
  refine .bind .drawVint fun out => .bind (.note _) fun _ => ?_
  cases out with
  | ok gpr writes => exact .bind (.actRegs _) fun _ => .blame _ (.forEach (fun _ => .memWritePriv _) _)
  | fail k i => exact .blame _ (.raise _ _)

/-! ## Every instruction's own rule -/

theorem Keeps.loaded (rd : Reg) (v : Word) : Keeps Inv (loaded rd v) := .bind (.writeReg _ _) fun _ => .setFlags _
theorem Keeps.sumInto (rd : Reg) (a b : Word) : Keeps Inv (sumInto rd a b) := .bind (.writeReg _ _) fun _ => .setFlags _
theorem Keeps.diffInto (rd : Reg) (a b : Word) : Keeps Inv (diffInto rd a b) := .bind (.writeReg _ _) fun _ => .setFlags _
theorem Keeps.productInto (rd : Reg) (r : Word) : Keeps Inv (productInto rd r) := .bind (.writeReg _ _) fun _ => .setFlags _
theorem Keeps.bitsInto (rd : Reg) (r : Word) : Keeps Inv (bitsInto rd r) := .bind (.writeReg _ _) fun _ => .setFlags _
theorem Keeps.branch (c : Flags → Bool) (o : Operand) : Keeps Inv (branch c o) :=
  .bind (.ask _) fun _ => .bind (.ask _) fun _ => .whenever _ (.writeReg _ _)

theorem Keeps.bodyOf (i : Instr) : Keeps Inv (bodyOf i) := by
  cases i with
  | lw rd rb off => exact .bind (.ask _) fun _ => .bind (.dRead16 _) fun _ => .loaded _ _
  | lb rd rb off => exact .bind (.ask _) fun _ => .bind (.memRead8 _ _) fun _ => .loaded _ _
  | li rd v => exact .loaded _ _
  | stw rb off r => exact .bind (.ask _) fun _ => .bind (.ask _) fun _ => .dWrite16 _ _
  | stb rb off r => exact .bind (.ask _) fun _ => .bind (.ask _) fun _ => .memWrite8 _ _ _ _
  | mov rd rs => exact .bind (.ask _) fun _ => .writeReg _ _
  | swp rd rs => exact .bind (.ask _) fun _ => .bind (.ask _) fun _ => .bind (.writeReg _ _) fun _ => .writeReg _ _
  | add rd o => exact .bind (.ask _) fun _ => .bind (.ask _) fun _ => .sumInto _ _ _
  | sub rd o => exact .bind (.ask _) fun _ => .bind (.ask _) fun _ => .diffInto _ _ _
  | inc r => exact .bind (.ask _) fun _ => .sumInto _ _ _
  | dec r => exact .bind (.ask _) fun _ => .diffInto _ _ _
  | mul rd o => exact .bind (.ask _) fun _ => .bind (.ask _) fun _ => .productInto _ _
  | div rd o =>
    exact .bind (.ask _) fun _ => .bind (.ask _) fun _ => .bind (.require _ _ _) fun _ => .bind (.ask _) fun _ => .productInto _ _
  | mod rd o =>
    exact .bind (.ask _) fun _ => .bind (.ask _) fun _ => .bind (.require _ _ _) fun _ => .bind (.ask _) fun _ => .productInto _ _
  | and rd o => exact .bind (.ask _) fun _ => .bind (.ask _) fun _ => .bitsInto _ _
  | or rd o => exact .bind (.ask _) fun _ => .bind (.ask _) fun _ => .bitsInto _ _
  | xor rd o => exact .bind (.ask _) fun _ => .bind (.ask _) fun _ => .bitsInto _ _
  | not r => exact .bind (.ask _) fun _ => .bitsInto _ _
  | shiftl rd o => exact .bind (.ask _) fun _ => .bind (.ask _) fun _ => .bitsInto _ _
  | shiftr rd o => exact .bind (.ask _) fun _ => .bind (.ask _) fun _ => .bitsInto _ _
  | cmp rd o => exact .bind (.ask _) fun _ => .bind (.ask _) fun _ => .setFlags _
  | cmpu rd o => exact .bind (.ask _) fun _ => .bind (.ask _) fun _ => .setFlags _
  | be o => exact .branch _ _
  | bne o => exact .branch _ _
  | bz o => exact .branch _ _
  | bnz o => exact .branch _ _
  | bs o => exact .branch _ _
  | bns o => exact .branch _ _
  | bg o => exact .branch _ _
  | bge o => exact .branch _ _
  | bl o => exact .branch _ _
  | ble o => exact .branch _ _
  | j o => exact .branch (fun _ => true) o
  | push r => exact .bind (.ask _) fun _ => .push16 _
  | pop r => exact .bind .pop16 fun _ => .writeReg _ _
  | call o => exact .bind (.ask _) fun _ => .bind .createFrame fun _ => .writeReg _ _
  | ret => exact .bind .checkFrame fun _ => .destroyFrame
  | cli => exact .setFlags _
  | sti => exact .setFlags _
  | hlt o =>
    exact .bind (.ask _) fun _ => .bind (.actCore fun _ _ h => h.congr rfl rfl rfl rfl rfl rfl rfl) fun _ => .haltCore
  | rst => exact .actRegs _
  | retint => exact .exitInterrupt
  | inw rd o =>
    exact .bind (.ask _) fun _ => .bind (.portCheck _) fun _ => .bind .drawPort fun _ => .bind (.note _) fun _ => .writeReg _ _
  | outw o r => exact .bind (.ask _) fun _ => .bind (.portCheck _) fun _ => .bind (.ask _) fun _ => .note _
  | inb rd o =>
    exact .bind (.ask _) fun _ => .bind (.portCheck _) fun _ => .bind .drawPort fun _ => .bind (.note _) fun _ => .writeReg _ _
  | outb o r => exact .bind (.ask _) fun _ => .bind (.portCheck _) fun _ => .bind (.ask _) fun _ => .note _
  | cas ra re rn =>
    refine .bind (.ask _) fun _ => .bind (.ask _) fun _ => .bind (.ask _) fun _ => .bind (.ask _) fun _ =>
      .bind (.cas16 _ _ _) fun res => ?_
    cases res with
    | success => exact .setFlags _
    | observed c => exact .bind (.writeReg _ _) fun _ => .setFlags _
  | int o =>
    refine .bind (.ask _) fun _ => .bind (.ask _) fun b => .bind (.ask _) fun _ => .bind (.ask _) fun _ => ?_
    split
    · exact .virtualInterrupt _
    · exact .enterInterrupt _ _ _

end Sys2Proof.Machine
end

