-- ==== Sys2Proof/Laws/Fetch.lean ====
section
/-! SUPPORT. Instruction fetch (20_memory.md R71): what it answers on a hit and on a miss, when it raises, and that it keeps the
invariant. -/

namespace Sys2Proof.Machine

@[simp] theorem State.withIns_cfg (s : State) (l : List IEntry) : (s.withIns l).cfg = s.cfg := rfl
@[simp] theorem State.withIns_mc (s : State) (l : List IEntry) : (s.withIns l).mc = s.mc := rfl

/-- The state after the execute check of a fetch at `pa`, when that check is on. -/
def State.checked (s : State) (pa : Nat) : State := if s.cfg.fetchExecCheck then s.touched (pageOf pa) else s

@[simp] theorem State.checked_cfg (s : State) (pa : Nat) : (s.checked pa).cfg = s.cfg := by
  unfold State.checked; split <;> rfl
@[simp] theorem State.checked_core (s : State) (pa : Nat) : (s.checked pa).core = s.core := by
  unfold State.checked; split <;> rfl

theorem getPage_run (p : Nat) (s : State) : getPage p s = .ok (s.mc.pageView s.cfg p) (s.touched p) := by
  simp [getPage, bind_run, State.touched, State.withMC]

theorem executeCheck_ok {pa : Nat} {s : State} (hx : (s.mc.pageView s.cfg (pageOf pa)).execute = true) :
    executeCheck pa s = .ok () (s.touched (pageOf pa)) := by
  unfold executeCheck
  rw [bind_ok (getPage_run _ _), hx]
  rfl

theorem executeCheck_denied {pa : Nat} {s : State} (hx : (s.mc.pageView s.cfg (pageOf pa)).execute = false) :
    executeCheck pa s = .error (exc .accessViolation (.address pa)) (s.touched (pageOf pa)) := by
  unfold executeCheck
  rw [bind_ok (getPage_run _ _), hx]
  rfl

theorem execCheck_run {pa : Nat} {s : State}
    (hx : s.cfg.fetchExecCheck = true → (s.mc.pageView s.cfg (pageOf pa)).execute = true) :
    whenever s.cfg.fetchExecCheck (executeCheck pa) s = .ok () (s.checked pa) := by
  unfold State.checked
  cases hc : s.cfg.fetchExecCheck with
  | false => rfl
  | true => rw [whenever_true, executeCheck_ok (hx hc)]; rfl

/-- A fetch that hits (20_memory.md R71): memory is not read, the entry becomes the MRU one. -/
theorem iFetch_hit {pa : Nat} {s : State} {i : Instr} (ha : pa % 4 = 0) (hb : pa + 4 ≤ s.cfg.memSize)
    (hx : s.cfg.fetchExecCheck = true → (s.mc.pageView s.cfg (pageOf pa)).execute = true)
    (hf : findIns pa s.core.icache = some i) :
    iFetch pa s = .ok i ((s.checked pa).withIns (touchIns pa i s.core.icache)) := by
  unfold iFetch
  have h1 : (pa % 4 == 0) = true := by simp [ha]
  have h2 : decide (pa + 4 ≤ s.cfg.memSize) = true := by simp [hb]
  rw [h1, bind_ok (require_true _ _ _), bind_ok (ask_run _ _), h2, bind_ok (require_true _ _ _), bind_ok (ask_run _ _),
    bind_ok (execCheck_run hx), bind_ok (ask_run _ _), State.checked_core, hf]
  simp only [actIns, bind_run, actCore_run, pure_run, State.checked_core, State.withIns]

theorem u32At_checked (s : State) (pa a : Nat) : (s.checked pa).mc.u32At a = s.mc.u32At a := by
  unfold State.checked; split <;> simp

/-- A fetch that misses on a legal word (20_memory.md R71). -/
theorem iFetch_miss {pa : Nat} {s : State} {i : Instr} (ha : pa % 4 = 0) (hb : pa + 4 ≤ s.cfg.memSize)
    (hx : s.cfg.fetchExecCheck = true → (s.mc.pageView s.cfg (pageOf pa)).execute = true)
    (hf : findIns pa s.core.icache = none) (hd : decodeWith s.cfg.decoder (s.mc.u32At pa) = some i) :
    iFetch pa s = .ok i (((s.checked pa).touched (pageOf pa)).withIns
      (insertIns s.core.sizes.icache pa i s.core.icache)) := by
  unfold iFetch
  have h1 : (pa % 4 == 0) = true := by simp [ha]
  have h2 : decide (pa + 4 ≤ s.cfg.memSize) = true := by simp [hb]
  rw [h1, bind_ok (require_true _ _ _), bind_ok (ask_run _ _), h2, bind_ok (require_true _ _ _), bind_ok (ask_run _ _),
    bind_ok (execCheck_run hx), bind_ok (ask_run _ _), State.checked_core, hf]
  simp only [fetchMiss]
  rw [bind_ok (memRead32_ok ha (by simpa using hb) (by simp)), u32At_checked, bind_ok (ask_run _ _), State.touched_cfg,
    State.checked_cfg, hd]
  simp only [actIns, bind_run, actCore_run, pure_run, State.touched_core, State.checked_core, State.withIns]

/-- A fetch that misses on an illegal word raises InvalidOpcode and caches nothing (20_memory.md R71). -/
theorem iFetch_illegal {pa : Nat} {s : State} (ha : pa % 4 = 0) (hb : pa + 4 ≤ s.cfg.memSize)
    (hx : s.cfg.fetchExecCheck = true → (s.mc.pageView s.cfg (pageOf pa)).execute = true)
    (hf : findIns pa s.core.icache = none) (hd : decodeWith s.cfg.decoder (s.mc.u32At pa) = none) :
    iFetch pa s = .error (exc .invalidOpcode (.word (s.mc.u32At pa))) ((s.checked pa).touched (pageOf pa)) := by
  unfold iFetch
  have h1 : (pa % 4 == 0) = true := by simp [ha]
  have h2 : decide (pa + 4 ≤ s.cfg.memSize) = true := by simp [hb]
  rw [h1, bind_ok (require_true _ _ _), bind_ok (ask_run _ _), h2, bind_ok (require_true _ _ _), bind_ok (ask_run _ _),
    bind_ok (execCheck_run hx), bind_ok (ask_run _ _), State.checked_core, hf]
  simp only [fetchMiss]
  rw [bind_ok (memRead32_ok ha (by simpa using hb) (by simp)), u32At_checked, bind_ok (ask_run _ _), State.touched_cfg,
    State.checked_cfg, hd]
  rfl

theorem iFetch_misaligned {pa : Nat} {s : State} (ha : pa % 4 ≠ 0) :
    iFetch pa s = .error (exc .misalignedAccess (.address pa)) s := by
  unfold iFetch
  have h1 : (pa % 4 == 0) = false := by simp [ha]
  rw [h1, bind_error (require_false _ _ _)]
  rfl

theorem iFetch_outOfBounds {pa : Nat} {s : State} (ha : pa % 4 = 0) (hb : ¬ pa + 4 ≤ s.cfg.memSize) :
    iFetch pa s = .error (exc .accessViolation (.address pa)) s := by
  unfold iFetch
  have h1 : (pa % 4 == 0) = true := by simp [ha]
  have h2 : decide (pa + 4 ≤ s.cfg.memSize) = false := by simp [hb]
  rw [h1, bind_ok (require_true _ _ _), bind_ok (ask_run _ _), h2, bind_error (require_false _ _ _)]
  rfl

theorem iFetch_denied {pa : Nat} {s : State} (ha : pa % 4 = 0) (hb : pa + 4 ≤ s.cfg.memSize)
    (hc : s.cfg.fetchExecCheck = true) (hx : (s.mc.pageView s.cfg (pageOf pa)).execute = false) :
    iFetch pa s = .error (exc .accessViolation (.address pa)) (s.touched (pageOf pa)) := by
  unfold iFetch
  have h1 : (pa % 4 == 0) = true := by simp [ha]
  have h2 : decide (pa + 4 ≤ s.cfg.memSize) = true := by simp [hb]
  rw [h1, bind_ok (require_true _ _ _), bind_ok (ask_run _ _), h2, bind_ok (require_true _ _ _), bind_ok (ask_run _ _), hc,
    whenever_true, bind_error (executeCheck_denied hx)]

theorem fetch_eq (s : State) : fetch s = iFetch (phys s.core.regs.cs s.core.regs.ip) s := by
  unfold fetch
  rw [bind_ok (ask_run _ _)]

/-- Everything a fetch can do (20_memory.md R71). -/
theorem iFetch_cases (pa : Nat) (s : State) :
    (pa % 4 ≠ 0 ∧ iFetch pa s = .error (exc .misalignedAccess (.address pa)) s)
      ∨ (pa % 4 = 0 ∧ ¬ pa + 4 ≤ s.cfg.memSize ∧ iFetch pa s = .error (exc .accessViolation (.address pa)) s)
      ∨ (pa % 4 = 0 ∧ pa + 4 ≤ s.cfg.memSize
          ∧ iFetch pa s = .error (exc .accessViolation (.address pa)) (s.touched (pageOf pa)))
      ∨ (pa % 4 = 0 ∧ pa + 4 ≤ s.cfg.memSize ∧ ∃ i, findIns pa s.core.icache = some i
          ∧ iFetch pa s = .ok i ((s.checked pa).withIns (touchIns pa i s.core.icache)))
      ∨ (pa % 4 = 0 ∧ pa + 4 ≤ s.cfg.memSize ∧ findIns pa s.core.icache = none ∧ ∃ i, decodeWith s.cfg.decoder (s.mc.u32At pa) = some i
          ∧ iFetch pa s = .ok i (((s.checked pa).touched (pageOf pa)).withIns
              (insertIns s.core.sizes.icache pa i s.core.icache)))
      ∨ (pa % 4 = 0 ∧ pa + 4 ≤ s.cfg.memSize
          ∧ iFetch pa s = .error (exc .invalidOpcode (.word (s.mc.u32At pa))) ((s.checked pa).touched (pageOf pa))) := by
  by_cases ha : pa % 4 = 0
  · by_cases hb : pa + 4 ≤ s.cfg.memSize
    · by_cases hx : s.cfg.fetchExecCheck = true → (s.mc.pageView s.cfg (pageOf pa)).execute = true
      · cases hf : findIns pa s.core.icache with
        | some i => exact .inr (.inr (.inr (.inl ⟨ha, hb, i, rfl, iFetch_hit ha hb hx hf⟩)))
        | none =>
          cases hd : decodeWith s.cfg.decoder (s.mc.u32At pa) with
          | some i => exact .inr (.inr (.inr (.inr (.inl ⟨ha, hb, rfl, i, rfl, iFetch_miss ha hb hx hf hd⟩))))
          | none => exact .inr (.inr (.inr (.inr (.inr ⟨ha, hb, iFetch_illegal ha hb hx hf hd⟩))))
      · simp only [Classical.not_imp, Bool.not_eq_true] at hx
        exact .inr (.inr (.inl ⟨ha, hb, iFetch_denied ha hb hx.1 hx.2⟩))
    · exact .inr (.inl ⟨ha, hb, iFetch_outOfBounds ha hb⟩)
  · exact .inl ⟨ha, iFetch_misaligned ha⟩

/-! ## The instruction cache -/

theorem findIns_mem {pa : Nat} {l : List IEntry} {i : Instr} (h : findIns pa l = some i) :
    ∃ e ∈ l, e.addr = pa ∧ e.ins = i := by
  induction l with
  | nil => simp [findIns] at h
  | cons d l ih =>
    unfold findIns at h
    split at h
    · next hd =>
      simp only [beq_iff_eq] at hd
      simp only [Option.some.injEq] at h
      exact ⟨d, by simp, hd, h⟩
    · obtain ⟨e, he, h1, h2⟩ := ih h
      exact ⟨e, List.mem_cons_of_mem _ he, h1, h2⟩

theorem findIns_eq_none {pa : Nat} {l : List IEntry} : findIns pa l = none ↔ ∀ e ∈ l, e.addr ≠ pa := by
  induction l with
  | nil => simp [findIns]
  | cons d l ih =>
    by_cases h : d.addr = pa
    · simp [findIns, h]
    · simp [findIns, h, ih]

theorem findIns_removeIns (pa : Nat) (l : List IEntry) : findIns pa (removeIns pa l) = none := by
  rw [findIns_eq_none]
  intro e he
  simpa using (List.mem_filter.1 he).2

theorem nodup_append_fresh_ins {l : List IEntry} {e : IEntry} (h : (l.map IEntry.addr).Nodup) (hf : ∀ d ∈ l, d.addr ≠ e.addr) :
    ((l ++ [e]).map IEntry.addr).Nodup := by
  rw [List.map_append, List.nodup_append]
  refine ⟨h, by simp, ?_⟩
  intro a ha b hb
  simp only [List.map_cons, List.map_nil, List.mem_singleton] at hb
  obtain ⟨d, hd, rfl⟩ := List.mem_map.1 ha
  subst hb
  exact hf d hd

theorem CoreInv.setIns {cfg : Config} {c : Core} (h : CoreInv cfg c) {l : List IEntry} (hlen : l.length ≤ c.sizes.icache)
    (hkeys : (l.map IEntry.addr).Nodup) (hal : ∀ e ∈ l, e.addr % 4 = 0) : CoreInv cfg { c with icache := l } :=
  ⟨h.sizes, hlen, h.dcacheFits, hkeys, h.dcacheKeys, hal, h.dcacheAligned, h.dcacheInBounds, h.runningAlive, h.aliveBooted,
    h.faultedHalted⟩

theorem CoreInv.touchIns {cfg : Config} {c : Core} (h : CoreInv cfg c) {pa : Nat} {i : Instr} (ha : pa % 4 = 0)
    (hf : findIns pa c.icache = some i) : CoreInv cfg { c with icache := touchIns pa i c.icache } := by
  obtain ⟨e, he, hea, -⟩ := findIns_mem hf
  refine h.setIns ?_ ?_ ?_
  · have hlt : (removeIns pa c.icache).length < c.icache.length := by
      refine Nat.lt_of_le_of_ne (List.length_filter_le _ _) fun hc => ?_
      have := (List.length_filter_eq_length_iff.1 hc) e he
      simp [hea] at this
    have := h.icacheFits
    simp only [Machine.touchIns, List.length_append, List.length_singleton]
    omega
  · refine nodup_append_fresh_ins ((List.filter_sublist.map _).nodup h.icacheKeys) fun d hd => ?_
    simpa using (List.mem_filter.1 hd).2
  · intro d hd
    rcases List.mem_append.1 hd with hd | hd
    · exact h.icacheAligned d (List.mem_filter.1 hd).1
    · simp only [List.mem_singleton] at hd
      subst hd
      exact ha

theorem CoreInv.insertIns {cfg : Config} {c : Core} (h : CoreInv cfg c) {pa : Nat} (i : Instr) (ha : pa % 4 = 0)
    (hf : findIns pa c.icache = none) : CoreInv cfg { c with icache := insertIns c.sizes.icache pa i c.icache } := by
  rw [findIns_eq_none] at hf
  have hsub : (if (c.icache.length == c.sizes.icache) = true then c.icache.tail else c.icache).Sublist c.icache := by
    split
    · exact List.tail_sublist _
    · exact List.Sublist.refl _
  refine h.setIns ?_ ?_ ?_
  · have h1 := h.icacheFits
    have h2 := h.sizes.1
    simp only [Machine.insertIns, List.length_append, List.length_singleton]
    split
    · next hc =>
      simp only [beq_iff_eq] at hc
      simp only [List.length_tail]
      omega
    · next hc =>
      simp only [beq_iff_eq] at hc
      omega
  · exact nodup_append_fresh_ins ((hsub.map _).nodup h.icacheKeys) fun d hd => hf d (hsub.mem hd)
  · intro d hd
    rcases List.mem_append.1 hd with hd | hd
    · exact h.icacheAligned d (hsub.mem hd)
    · simp only [List.mem_singleton] at hd
      subst hd
      exact ha

theorem Inv.checked {s : State} (h : Inv s) {pa : Nat} (hb : pa + 4 ≤ s.cfg.memSize) : Inv (s.checked pa) := by
  unfold State.checked
  split
  · exact h.touched (h.pageInRange (by omega) hb)
  · exact h

theorem Keeps.iFetch (pa : Nat) : Keeps Inv (iFetch pa) := fun s h => by
  rcases iFetch_cases pa s with ⟨_, hr⟩ | ⟨_, _, hr⟩ | ⟨_, hb, hr⟩ | ⟨ha, hb, i, hf, hr⟩ | ⟨ha, hb, hf, i, _, hr⟩ | ⟨_, hb, hr⟩ <;>
    rw [hr]
  · exact h
  · exact h
  · exact h.touched (h.pageInRange (by omega) hb)
  · have hc := h.checked hb
    refine hc.setCore ?_
    have := CoreInv.touchIns hc.core ha (by simpa using hf)
    simpa using this
  · have hc := (h.checked hb).touched (p := pageOf pa) (by simpa using h.pageInRange (n := 4) (by omega) hb)
    refine hc.setCore ?_
    have := CoreInv.insertIns hc.core i ha (by simpa using hf)
    simpa using this
  · exact (h.checked hb).touched (by simpa using h.pageInRange (n := 4) (by omega) hb)

theorem Keeps.fetch : Keeps Inv fetch := .bind (.ask _) fun _ => .iFetch _

/-- Everything but the memory controller and the instruction cache. -/
def State.offFetch (s : State) : State := { s with mc := MC.powerOn, core := { s.core with icache := [] } }

theorem Same.fetch : Same State.offFetch fetch := fun s => by
  rw [fetch_eq]
  rcases iFetch_cases (phys s.core.regs.cs s.core.regs.ip) s with
    ⟨_, hr⟩ | ⟨_, _, hr⟩ | ⟨_, _, hr⟩ | ⟨_, _, i, _, hr⟩ | ⟨_, _, _, i, _, hr⟩ | ⟨_, _, hr⟩ <;> rw [hr]
  · rfl
  · rfl
  · rfl
  · simp only [left_ok, State.offFetch, State.withIns, State.checked_core, State.checked_cfg]
    unfold State.checked
    split <;> rfl
  · simp only [left_ok, State.offFetch, State.withIns, State.touched_core, State.checked_core]
    unfold State.checked
    split <;> rfl
  · simp only [left_error, State.offFetch, State.touched_core, State.checked_core]
    unfold State.checked
    split <;> rfl

end Sys2Proof.Machine
end

