-- ==== Sys2Proof/Laws/Raises.lean ====
section
/-! SUPPORT. Data accesses that raise: what a write-back, a load and a store through the data cache answer when one of their checks
fails, the eviction's included (20_memory.md R75 to R77). -/

namespace Sys2Proof.Machine

/-! ## The write-back of one entry -/

theorem WriteBackFails.error {s t : State} {d : DEntry} {e : Exc} (h : WriteBackFails s d e t) :
    writeBack d.addr d.value s = .error e t := by
  unfold writeBack
  rw [bind_ok (ask_run _ _)]
  unfold memWrite16
  rcases h with ⟨h1, rfl, rfl⟩ | ⟨h1, h2, rfl, rfl⟩ | ⟨h1, h2, h3, h4, rfl, rfl⟩
  · exact bind_error (access_misaligned _ _ h1)
  · exact bind_error (access_outOfBounds _ h1 h2)
  · exact bind_error (access_denied h1 h2 (by simp [h3, h4]))

theorem WriteBackFails.not_ok {s t : State} {d : DEntry} {e : Exc} (h : WriteBackFails s d e t) : ¬ WriteBackOk s d := by
  rintro ⟨k1, k2, k3⟩
  rcases h with ⟨h1, -⟩ | ⟨-, h2, -⟩ | ⟨-, -, h3, h4, -⟩
  · exact h1 k1
  · exact h2 k2
  · rcases k3 with k3 | k3
    · rw [h3] at k3; cases k3
    · rw [h4] at k3; cases k3

/-- A raise leaves the state as it was but for a page that came to be (20_memory.md R54). -/
theorem WriteBackFails.state {s t : State} {d : DEntry} {e : Exc} (h : WriteBackFails s d e t) :
    t = s ∨ t = s.touched (pageOf d.addr) := by
  rcases h with ⟨-, -, h⟩ | ⟨-, -, -, h⟩ | ⟨-, -, -, -, -, h⟩
  · exact .inl h
  · exact .inl h
  · exact .inr h

theorem exists_writeBackFails {s : State} {d : DEntry} (h : ¬ WriteBackOk s d) : ∃ t, WriteBackFails s d (refusal d) t := by
  unfold refusal
  by_cases h1 : d.addr % 2 = 0
  · by_cases h2 : d.addr + 2 ≤ s.cfg.memSize
    · cases hw : s.cfg.writeCheck with
      | atStore => exact absurd ⟨h1, h2, .inl hw⟩ h
      | atWriteback =>
        cases hp : (s.mc.pageView s.cfg (pageOf d.addr)).write with
        | true => exact absurd ⟨h1, h2, .inr hp⟩ h
        | false => exact ⟨_, .inr (.inr ⟨h1, h2, hw, hp, by simp [h1], rfl⟩)⟩
    · exact ⟨_, .inr (.inl ⟨h1, h2, by simp [h1], rfl⟩)⟩
  · exact ⟨_, .inl ⟨h1, by simp [h1], rfl⟩⟩

/-! ## A load and a store -/

theorem makeSpace_error {s t : State} {pa : Nat} {d : DEntry} {e : Exc} (hd : evictedBy s.core pa = some d)
    (h : WriteBackFails s d e t) : makeSpace s = .error e t := by
  obtain ⟨-, h2, h3, h4⟩ := evictedBy_mem hd
  unfold makeSpace
  rw [bind_ok (ask_run _ _)]
  simp only [h2, beq_self_eq_true, if_true]
  rw [bind_ok (ask_run _ _), h3]
  simp only [h4, whenever_true]
  exact bind_error h.error

theorem evictedBy_miss {c : Core} {pa : Nat} {d : DEntry} (h : evictedBy c pa = some d) : findData pa c.dcache = none :=
  (evictedBy_mem h).1

/-- `DRead16(pa)` raises in each of the ways of R75. -/
theorem LoadFails.error {s t : State} {pa : Nat} {e : Exc} (h : LoadFails s pa e t) : dRead16 pa s = .error e t := by
  unfold dRead16
  rcases h with ⟨h1, rfl, rfl⟩ | ⟨h1, h2, h3, rfl, rfl⟩ | ⟨h1, h2, h3, h4, rfl, rfl⟩ | ⟨h1, h3, h4, d, hd, hf⟩
  · exact bind_error (by simp [require_run, h1, exc])
  · rw [bind_ok (t := t) (a := ()) (by simp [require_run, h1]), bind_ok (ask_run _ _), h2]
    exact bind_error (bind_error (access_outOfBounds _ h1 h3))
  · rw [bind_ok (t := s) (a := ()) (by simp [require_run, h1]), bind_ok (ask_run _ _), h2]
    exact bind_error (bind_error (access_denied h1 h3 (by simpa using h4)))
  · rw [bind_ok (t := s) (a := ()) (by simp [require_run, h1]), bind_ok (ask_run _ _), evictedBy_miss hd]
    simp only []
    rw [bind_ok (memRead16_ok h1 h3 (by simpa using h4))]
    exact bind_error (makeSpace_error (pa := pa) hd hf)

theorem storeCheck_ok {s : State} {pa : Nat} (hb : pa + 2 ≤ s.cfg.memSize)
    (hw : (s.mc.pageView s.cfg (pageOf pa)).write = true) : storeCheck pa s = .ok () (s.touched (pageOf pa)) := by
  simp [storeCheck, getPage, bind_run, hb, hw, State.touched, State.withMC]

/-- `DWrite16(pa, v)` raises in each of the ways of R76. -/
theorem StoreFails.error {s t : State} {pa : Nat} {e : Exc} (v : Word) (h : StoreFails s pa e t) :
    dWrite16 pa v s = .error e t := by
  unfold dWrite16
  rcases h with ⟨h1, rfl, rfl⟩ | ⟨h1, h2, h3, rfl, rfl⟩ | ⟨h1, h2, h3, h4, rfl, rfl⟩ | ⟨h1, h2, d, hd, hf⟩
  · exact bind_error (by simp [require_run, h1, exc])
  · rw [bind_ok (t := t) (a := ()) (by simp [require_run, h1]), bind_ok (ask_run _ _), h2]
    exact bind_error (by simp [storeCheck, bind_run, h3, exc])
  · rw [bind_ok (t := s) (a := ()) (by simp [require_run, h1]), bind_ok (ask_run _ _), h2]
    exact bind_error (by simp [storeCheck, getPage, bind_run, h3, h4, exc, State.touched, State.withMC])
  · rw [bind_ok (t := s) (a := ()) (by simp [require_run, h1]), bind_ok (ask_run _ _)]
    have hc : whenever (s.cfg.writeCheck == .atStore) (storeCheck pa) s = .ok () (s.storeChecked pa) := by
      unfold State.storeChecked
      cases hw : s.cfg.writeCheck with
      | atStore => exact storeCheck_ok (h2 hw).1 (h2 hw).2
      | atWriteback => rfl
    have hd' : evictedBy (s.storeChecked pa).core pa = some d := by
      unfold State.storeChecked; split <;> exact hd
    rw [bind_ok hc, bind_ok (ask_run _ _), evictedBy_miss hd']
    exact bind_error (makeSpace_error (pa := pa) hd' hf)

/-! ## Stack accesses (44_stack_call.md R170) -/

/-- `Push16(v)` raises as its store does; `SP` has moved. -/
theorem push16_error {s t : State} {e : Exc} (v : Word)
    (h : StoreFails (s.withRegs { s.core.regs with sp := s.core.regs.sp - 2 })
      (phys s.core.regs.ds (s.core.regs.sp - 2)) e t) : push16 v s = .error e t := by
  unfold push16
  rw [bind_ok (actRegs_run _ _), bind_ok (ask_run _ _)]
  exact h.error v

/-- `Pop16()` raises as its load does. -/
theorem pop16_error {s t : State} {e : Exc} (h : LoadFails s (phys s.core.regs.ds s.core.regs.sp) e t) :
    pop16 s = .error e t := by
  unfold pop16
  rw [bind_ok (ask_run _ _), bind_error h.error]

/-- A sequence of pushes raises at the first push that does. -/
theorem PushFails.error {words : List Word} {s t : State} {e : Exc} (h : PushFails words s e t) :
    forEach push16 words s = .error e t := by
  obtain ⟨k, hk, u, hu, hf⟩ := h
  induction words generalizing k s with
  | nil => cases hk
  | cons w words ih =>
    rw [forEach_cons]
    cases k with
    | zero =>
      cases hu
      exact bind_error (push16_error w hf)
    | succ k =>
      rw [List.take_succ_cons, forEach_cons] at hu
      cases hp : push16 w s with
      | error e' t' => rw [bind_error hp] at hu; cases hu
      | ok a t' =>
        rw [bind_ok hp] at hu
        rw [bind_ok hp]
        exact ih k (by simpa using hk) hu

end Sys2Proof.Machine
end

