-- ==== Sys2Proof/Laws/Flush.lean ====
section
/-! SUPPORT. What a flush does, permitted or not (20_memory.md R79; 60_exceptions.md R221). -/

namespace Sys2Proof.Machine

/-! ## One entry -/

/-- The entries at these addresses have been flushed as far as their write-backs are permitted, and nothing else has changed. -/
structure FlushedIn (l : List Nat) (s t : State) : Prop where
  cfg : t.cfg = s.cfg
  evictions : t.core.evictions = s.core.evictions
  cache : t.core.dcache = s.core.dcache.map fun e => if e.addr ∈ l ∧ WriteBackOk s e then { e with dirty := false } else e
  written : ∀ e ∈ s.core.dcache, e.dirty = true → e.addr ∈ l → WriteBackOk s e → t.mc.u16At e.addr = e.value
  bytes : ∀ b, (∀ e ∈ s.core.dcache, e.dirty = true → e.addr ∈ l → WriteBackOk s e → e.addr ≠ 2 * (b / 2)) →
    t.mc.byteAt b = s.mc.byteAt b
  access : sameAccess s t
  tables : sameTables s t

theorem sameAccess.touched (s : State) (p : Nat) : sameAccess s (s.touched p) := fun q => by simp

theorem sameTables.touched (s : State) (p : Nat) : sameTables s (s.touched p) := by simp [sameTables]

/-- Nothing at these addresses is written: each entry there is clean or refused. -/
theorem FlushedIn.idle {l : List Nat} {s : State}
    (h : ∀ e ∈ s.core.dcache, e.addr ∈ l → WriteBackOk s e → e.dirty = false) : FlushedIn l s s where
  cfg := rfl
  evictions := rfl
  cache := by
    nth_rw 1 [← List.map_id s.core.dcache]
    apply List.map_congr_left
    intro e he
    split
    · next hc => have := h e he hc.1 hc.2; cases e; simp only at this; subst this; rfl
    · rfl
  written := fun e he hd ha hw => by rw [h e he ha hw] at hd; cases hd
  bytes := fun _ _ => rfl
  access := .refl s
  tables := ⟨rfl, rfl⟩

theorem FlushedIn.touch {l : List Nat} {s t : State} (h : FlushedIn l s t) (p : Nat) : FlushedIn l s (t.touched p) where
  cfg := h.cfg
  evictions := h.evictions
  cache := h.cache
  written := fun e he hd ha hw => by simpa using h.written e he hd ha hw
  bytes := fun b hb => by simpa using h.bytes b hb
  access := h.access.trans (.touched t p)
  tables := ⟨(sameTables.touched t p).1.trans h.tables.1, (sameTables.touched t p).2.trans h.tables.2⟩

theorem DataKeysDistinct.unique {s : State} (hk : DataKeysDistinct s) {d e : DEntry} (hd : d ∈ s.core.dcache)
    (he : e ∈ s.core.dcache) (h : d.addr = e.addr) : d = e := by
  have h1 := findData_of_mem hk hd
  rw [h, findData_of_mem hk he] at h1
  exact (Option.some.inj h1).symm

/-- A dirty entry written back and marked clean, when that is permitted. -/
theorem cleanEntry_written {s : State} {e : DEntry} (hm : e ∈ s.core.dcache) (hk : DataKeysDistinct s) (hd : e.dirty = true)
    (hw : WriteBackOk s e) :
    cleanEntry e.addr s = .ok () ((s.withMC (s.mc.afterWriteBack s.cfg e)).withData (cleanData e.addr s.core.dcache)) := by
  unfold cleanEntry
  rw [bind_ok (ask_run _ _), findData_of_mem hk hm]
  simp only [hd, whenever_true]
  rw [bind_ok (writeBack_ok hw)]
  rfl

/-- A dirty entry whose write-back raises stays. -/
theorem cleanEntry_refused {s t : State} {e : DEntry} {x : Exc} (hm : findData e.addr s.core.dcache = some e)
    (hd : e.dirty = true) (hw : WriteBackFails s e x t) : cleanEntry e.addr s = .error x t := by
  unfold cleanEntry
  rw [bind_ok (ask_run _ _), hm]
  simp only [hd, whenever_true]
  exact bind_error hw.error

/-- A clean entry stays. -/
theorem cleanEntry_clean {s : State} {e : DEntry} (hm : e ∈ s.core.dcache) (hk : DataKeysDistinct s) (hd : e.dirty = false) :
    cleanEntry e.addr s = .ok () s := by
  unfold cleanEntry
  rw [bind_ok (ask_run _ _), findData_of_mem hk hm]
  simp only [hd, whenever_false]
  rfl

theorem cleanEntry_absent {a : Nat} {s : State} (h : findData a s.core.dcache = none) : cleanEntry a s = .ok () s := by
  unfold cleanEntry
  rw [bind_ok (ask_run _ _), h]
  rfl

/-- One entry flushed: everything `cleanEntry` can do, whether it answers or raises. -/
theorem cleanEntry_flushes (a : Nat) {s : State} (hk : DataKeysDistinct s) : FlushedIn [a] s (left (cleanEntry a s)) := by
  cases hf : findData a s.core.dcache with
  | none =>
    rw [cleanEntry_absent hf]
    exact .idle fun e he ha _ => absurd (by simpa using ha) (findData_eq_none.1 hf e he)
  | some e =>
    obtain ⟨hm, rfl⟩ := findData_mem hf
    have only : ∀ d ∈ s.core.dcache, d.addr ∈ [e.addr] → d = e := fun d hd ha => hk.unique hd hm (by simpa using ha)
    cases hd : e.dirty with
    | false =>
      rw [cleanEntry_clean hm hk hd]
      exact .idle fun d hd' ha _ => (only d hd' ha) ▸ hd
    | true =>
      by_cases hw : WriteBackOk s e
      · rw [cleanEntry_written hm hk hd hw]
        refine ⟨rfl, rfl, ?_, ?_, ?_, fun q => ?_, ?_⟩
        · apply List.map_congr_left
          intro d hd'
          by_cases ha : d.addr = e.addr
          · rw [hk.unique hd' hm ha]; simp [hw]
          · simp [ha]
        · intro d hd' _ ha _
          rw [only d hd' ha]
          exact (u16At_afterWriteBack _ _ hw.1 hw.1).trans (if_pos rfl)
        · intro b hb
          have h1 := hb e hm hd (by simp) hw
          have h2 := hw.1
          refine (MC.afterWriteBack_byteAt _ _ hw.1 b).trans ?_
          simp only [byteAfter]
          rw [if_neg (by omega), if_neg (by omega)]
        · exact MC.pageView_afterWriteBack s.mc s.cfg e q
        · simp [sameTables, State.withData, MC.afterWriteBack, MC.store_segments, MC.store_regions]
      · obtain ⟨t, ht⟩ := exists_writeBackFails hw
        rw [cleanEntry_refused (findData_of_mem hk hm) hd ht]
        have idle : FlushedIn [e.addr] s s := .idle fun d hd' ha hwd => absurd ((only d hd' ha) ▸ hwd) hw
        rcases ht.state with h | h <;> rw [left_error, h]
        · exact idle
        · exact idle.touch _

/-! ## Several entries -/

theorem WriteBackOk.congr_iff {s t : State} (hc : t.cfg = s.cfg) (ha : sameAccess s t) {d e : DEntry} (h : d.addr = e.addr) :
    WriteBackOk t d ↔ WriteBackOk s e := by
  unfold WriteBackOk
  rw [h, (ha _).2.1, hc]

theorem FlushedIn.addr {l : List Nat} {s : State} (e : DEntry) :
    (if e.addr ∈ l ∧ WriteBackOk s e then { e with dirty := false } else e : DEntry).addr = e.addr := by split <;> rfl

theorem FlushedIn.keys {l : List Nat} {s t : State} (h : FlushedIn l s t) : dataKeys t = dataKeys s := by
  unfold dataKeys
  rw [h.cache, List.map_map]
  exact List.map_congr_left fun e _ => FlushedIn.addr e

theorem FlushedIn.distinct {l : List Nat} {s t : State} (h : FlushedIn l s t) (hk : DataKeysDistinct s) : DataKeysDistinct t := by
  unfold DataKeysDistinct; rw [h.keys]; exact hk

/-- An entry dirty after a flush was so before, and was not flushed. -/
theorem FlushedIn.dirty {l : List Nat} {s t : State} (h : FlushedIn l s t) {e : DEntry} (he : e ∈ t.core.dcache)
    (hd : e.dirty = true) : e ∈ s.core.dcache ∧ ¬ (e.addr ∈ l ∧ WriteBackOk s e) := by
  rw [h.cache] at he
  obtain ⟨d, hm, rfl⟩ := List.mem_map.1 he
  split at hd
  · cases hd
  · next hn => rw [if_neg hn]; exact ⟨hm, hn⟩

/-- Flushes compose. -/
theorem FlushedIn.trans {l m : List Nat} {s t u : State} (hk : DataKeysDistinct s) (h : FlushedIn l s t) (k : FlushedIn m t u) :
    FlushedIn (l ++ m) s u where
  cfg := k.cfg.trans h.cfg
  evictions := k.evictions.trans h.evictions
  cache := by
    rw [k.cache, h.cache, List.map_map]
    apply List.map_congr_left
    intro e _
    simp only [Function.comp, FlushedIn.addr, WriteBackOk.congr_iff h.cfg h.access (FlushedIn.addr (l := l) (s := s) e)]
    split_ifs with h1 h2 h3 h3 h2 h3 h3 <;> first | rfl | (rw [List.mem_append] at h3; tauto)
  written := by
    intro e he hd ha hw
    by_cases hl : e.addr ∈ l
    · have hev := hw.1
      have hb : ∀ b, b / 2 = e.addr / 2 → u.mc.byteAt b = t.mc.byteAt b := by
        intro b hb
        refine k.bytes b fun d hd' hdd _ _ hc => ?_
        obtain ⟨h1, h2⟩ := h.dirty hd' hdd
        have : d = e := hk.unique h1 he (by omega)
        subst this
        exact h2 ⟨hl, hw⟩
      rw [← h.written e he hd hl hw]
      simp only [MC.u16At]
      rw [hb _ (by omega), hb _ (by omega)]
    · have he' : e ∈ t.core.dcache := by
        rw [h.cache]
        exact List.mem_map.2 ⟨e, he, by simp [hl]⟩
      exact k.written e he' hd (by simpa [hl] using ha) ((WriteBackOk.congr_iff h.cfg h.access rfl).2 hw)
  bytes := by
    intro b hb
    rw [k.bytes, h.bytes]
    · exact fun e he hd ha hw => hb e he hd (by simp [ha]) hw
    · intro e he hd ha hw
      obtain ⟨h1, -⟩ := h.dirty he hd
      exact hb e h1 hd (by simp [ha]) ((WriteBackOk.congr_iff h.cfg h.access rfl).1 hw)
  access := h.access.trans k.access
  tables := ⟨k.tables.1.trans h.tables.1, k.tables.2.trans h.tables.2⟩

/-- The flush of a dying core: a refused entry is skipped (60_exceptions.md R221). -/
theorem flushDying_flushes (l : List Nat) {s : State} (hk : DataKeysDistinct s) : FlushedIn l s (flushDying l s) := by
  induction l generalizing s with
  | nil => exact .idle (by simp)
  | cons a l ih =>
    have h1 := cleanEntry_flushes a hk
    unfold flushDying
    cases hc : cleanEntry a s with
    | ok _ t => rw [hc] at h1; exact h1.trans hk (ih (h1.distinct hk))
    | error _ t => rw [hc] at h1; exact h1.trans hk (ih (h1.distinct hk))

/-- A flush up to the first refused entry answers, and has flushed all before it. -/
theorem cleanEntries_ok (l : List Nat) {s : State} (hk : DataKeysDistinct s)
    (hw : ∀ e ∈ s.core.dcache, e.addr ∈ l → e.dirty = true → WriteBackOk s e) :
    ∃ t, forEach cleanEntry l s = .ok () t ∧ FlushedIn l s t := by
  induction l generalizing s with
  | nil => exact ⟨s, rfl, .idle (by simp)⟩
  | cons a l ih =>
    have h1 := cleanEntry_flushes a hk
    have h2 : ∃ u, cleanEntry a s = .ok () u := by
      cases hf : findData a s.core.dcache with
      | none => exact ⟨s, cleanEntry_absent hf⟩
      | some e =>
        obtain ⟨hm, rfl⟩ := findData_mem hf
        cases hd : e.dirty with
        | false => exact ⟨_, cleanEntry_clean hm hk hd⟩
        | true => exact ⟨_, cleanEntry_written hm hk hd (hw e hm (by simp) hd)⟩
    obtain ⟨u, hu⟩ := h2
    rw [hu] at h1
    obtain ⟨t, k1, k2⟩ := ih (s := u) (h1.distinct hk) fun e he ha hd =>
      (WriteBackOk.congr_iff h1.cfg h1.access rfl).2 (hw e (h1.dirty he hd).1 (by simp [ha]) hd)
    refine ⟨t, ?_, h1.trans hk k2⟩
    rw [forEach_cons, bind_ok hu]
    exact k1

/-! ## The whole cache -/

theorem FlushedIn.all {l : List Nat} {s t : State} (hl : ∀ e ∈ s.core.dcache, e.addr ∈ l) (h : FlushedIn l s t) : Flushed s t where
  cache := by
    rw [h.cache]
    exact List.map_congr_left fun e he => by simp [hl e he]
  written := fun e he hd hw => h.written e he hd (hl e he) hw
  bytes := fun b hb => h.bytes b fun e he hd _ hw => hb e he hd hw
  access := h.access
  tables := h.tables

theorem mem_dataKeys {s : State} {e : DEntry} (he : e ∈ s.core.dcache) : e.addr ∈ dataKeys s := List.mem_map.2 ⟨e, he, rfl⟩

/-- `HaltCore(dying = true)` of a live core: its data cache is flushed (60_exceptions.md R221). -/
theorem haltDying_flushes {s : State} (ha : s.core.alive = true) (hk : DataKeysDistinct s) :
    FlushedIn (dataKeys s) s (haltDying s) := by
  have h := flushDying_flushes (dataKeys s) hk
  unfold haltDying
  rw [if_pos ha]
  exact ⟨h.cfg, h.evictions, h.cache, h.written, h.bytes, h.access, h.tables⟩

/-- A live core that dies flushes its data cache; a core that does not live leaves it, and memory, alone (60_exceptions.md R206,
R221). -/
theorem die_flushes (e : Exc) (site : FaultSite) {s : State} (ha : s.core.alive = true) (hk : DataKeysDistinct s) :
    FlushedIn (dataKeys s) s (die e site s) := by
  have h := haltDying_flushes (s := s.doomed e site) ha hk
  rw [die_eq]
  exact ⟨h.cfg, h.evictions, h.cache, h.written, h.bytes, h.access, h.tables⟩

theorem die_of_not_alive (e : Exc) (site : FaultSite) {s : State} (ha : s.core.alive = false) : die e site s = s.doomed e site := by
  rw [die_eq, haltDying, if_neg (by simp [State.doomed, ha])]

/-- `Flush()` when every write-back is permitted (20_memory.md R79). -/
theorem flush_ok {s : State} (hk : DataKeysDistinct s) (hw : AllWriteBackOk s) :
    ∃ t, flush s = .ok () t ∧ t.outside = s.outside
      ∧ t.core.dcache = s.core.dcache.map (fun e => { e with dirty := false })
      ∧ (∀ e ∈ s.core.dcache, e.dirty = true → t.mc.u16At e.addr = e.value)
      ∧ (∀ b, (∀ e ∈ s.core.dcache, e.dirty = true → e.addr ≠ 2 * (b / 2)) → t.mc.byteAt b = s.mc.byteAt b)
      ∧ sameAccess s t ∧ sameTables s t := by
  obtain ⟨t, h1, h⟩ := cleanEntries_ok (dataKeys s) hk fun e he _ hd => hw e he hd
  have hf : flush s = .ok () t := h1
  have hall := h.all fun e he => mem_dataKeys he
  refine ⟨t, hf, Same.flush.ok hf, ?_, fun e he hd => hall.written e he hd (hw e he hd),
    fun b hb => hall.bytes b fun e he hd _ => hb e he hd, h.access, h.tables⟩
  rw [hall.cache]
  apply List.map_congr_left
  intro e he
  split
  · rfl
  · next hn =>
    cases hd : e.dirty with
    | true => exact absurd (hw e he hd) hn
    | false => cases e; simp only at hd; subst hd; rfl

/-- `Flush()` raises at the first dirty entry that is refused, with everything before it flushed (20_memory.md R79). -/
theorem flush_refused {s : State} {d : DEntry} (hk : DataKeysDistinct s) (h : FirstRefused s d) :
    ∃ t l, flush s = .error (refusal d) t ∧ FlushedIn l s t := by
  obtain ⟨hd, hw, older, newer, heq, hold⟩ := h
  have hkeys : dataKeys s = older.map DEntry.addr ++ d.addr :: newer.map DEntry.addr := by simp [dataKeys, heq]
  have hdm : d ∈ s.core.dcache := by simp [heq]
  obtain ⟨u, h1, h2⟩ := cleanEntries_ok (older.map DEntry.addr) hk fun e he ha hde => by
    obtain ⟨f, hf, hfe⟩ := List.mem_map.1 ha
    have : f = e := hk.unique (by simp [heq, hf]) he hfe
    subst this
    exact hold f hf hde
  have hno : d.addr ∉ older.map DEntry.addr := by
    have := hk
    unfold DataKeysDistinct at this
    rw [hkeys, List.nodup_append] at this
    intro hc
    exact this.2.2 _ hc _ (by simp) rfl
  have hdu : d ∈ u.core.dcache := by
    rw [h2.cache]
    exact List.mem_map.2 ⟨d, hdm, if_neg fun hc => hno hc.1⟩
  obtain ⟨t, ht⟩ := exists_writeBackFails (s := u) (d := d) fun hc => hw ((WriteBackOk.congr_iff h2.cfg h2.access rfl).1 hc)
  refine ⟨t, older.map DEntry.addr, ?_, ?_⟩
  · unfold flush
    rw [bind_ok (ask_run _ _), hkeys, forEach_append, bind_ok h1, forEach_cons]
    exact bind_error (cleanEntry_refused (findData_of_mem (h2.distinct hk) hdu) hd ht)
  · rcases ht.state with h | h <;> rw [h]
    · exact h2
    · exact h2.touch _

end Sys2Proof.Machine
end

