-- ==== Sys2Proof/Laws/Host.lean ====
section
/-! SUPPORT. The invariant under the transitions that are not an instruction: IRQ acceptance, write-backs and what the host may do
(60_exceptions.md R201, R225). -/

namespace Sys2Proof.Machine

theorem exec_inv {i : Instr} {s t : State} (h : Inv s) (hb : s.core.booted = true) (he : exec i s = .next t) : Inv t := by
  have hadv : Inv s.advanced := h.setRegs _
  rcases exec_cases i s with ⟨_, u, hu, hx⟩ | ⟨_, e, u, hu, hx⟩ | ⟨_, e, hx⟩ <;> rw [hx] at he <;>
    simp only [Host.Outcome.next.injEq] at he <;> subst he
  · have := Keeps.bodyOf i _ hadv
    rw [hu] at this
    exact Inv.setRegs this _
  · have := Keeps.bodyOf i _ hadv
    rw [hu] at this
    exact die_inv e _ this ((fixed_eq ((Same.bodyOf_fixed i).error hu)).2.2.1.trans hb)
  · exact die_inv e _ hadv hb

theorem acceptIrq_inv {s : State} (h : Inv s) (hb : s.core.booted = true) : Inv (acceptIrq s) := by
  unfold acceptIrq
  simp only
  have h0 : Inv ({ s with core := { s.core with pending := s.core.pending.tail } } : State) :=
    h.setCore (h.core.congr rfl rfl rfl rfl rfl rfl rfl)
  have hk := Keeps.enterInterrupt s.cfg.irqTableBase s.cfg.irqCount (s.core.pending.headD 0) _ h0
  have hs := Same.enterInterrupt_fixed s.cfg.irqTableBase s.cfg.irqCount (s.core.pending.headD 0)
    ({ s with core := { s.core with pending := s.core.pending.tail } } : State)
  cases hr : enterInterrupt s.cfg.irqTableBase s.cfg.irqCount (s.core.pending.headD 0)
      { s with core := { s.core with pending := s.core.pending.tail } } with
  | ok a t => rw [hr] at hk; exact hk
  | error e t =>
    rw [hr] at hk hs
    exact die_inv e _ hk ((fixed_eq hs).2.2.1.trans hb)

theorem Same.booted_of_outside {s t : State} (h : t.outside = s.outside) : t.core.booted = s.core.booted :=
  (outside_eq h).1.2.2.2.1

theorem spontaneousWriteBack_inv {pa : Nat} {s t : State} (h : Inv s) (ht : spontaneousWriteBack pa s = some t) : Inv t := by
  unfold spontaneousWriteBack at ht
  cases hf : findData pa s.core.dcache with
  | none => rw [hf] at ht; simp at ht
  | some e =>
    rw [hf] at ht
    simp only at ht
    split at ht
    · next hc =>
      simp only [Bool.and_eq_true] at hc
      have hk := Keeps.cleanEntry pa s h
      have hs := Same.cleanEntry pa s
      cases hr : cleanEntry pa s with
      | ok a u =>
        rw [hr] at ht hk
        simp only [Option.some.injEq] at ht
        subst ht
        exact hk
      | error e u =>
        rw [hr] at ht hk hs
        simp only [Option.some.injEq] at ht
        subst ht
        exact die_inv e _ hk ((Same.booted_of_outside hs).trans (h.core.aliveBooted hc.1))
    · simp at ht

theorem selectCore_inv {k : Nat} {s t : State} (h : Inv s) (ht : selectCore k s = .next t) : Inv t := by
  unfold selectCore at ht
  cases hk : s.others[k]? with
  | none => rw [hk] at ht; simp at ht
  | some c =>
    rw [hk] at ht
    simp only [Host.Outcome.next.injEq] at ht
    subst ht
    refine ⟨h.cfg, h.mc, h.others c (List.mem_of_getElem? hk), fun d hd => ?_⟩
    rcases List.mem_or_eq_of_mem_set hd with hd | hd
    · exact h.others d hd
    · subst hd; exact h.core

theorem hostFailed_inv {e : HostError} {s t : State} (h : Inv s) (ht : hostFailed e s = .next t) : Inv t := by
  simp only [hostFailed, Host.Outcome.next.injEq] at ht
  subst ht
  exact ⟨h.cfg, h.mc, h.core, h.others⟩

theorem hostRun_inv {x : M Unit} {s t : State} (hx : Inv (left (x s))) (h : Inv s) (ht : hostRun x s = .next t) : Inv t := by
  unfold hostRun at ht
  cases hr : x s with
  | ok a u => rw [hr] at ht hx; simp only [Host.Outcome.next.injEq] at ht; subst ht; exact hx
  | error e u => rw [hr] at ht; exact hostFailed_inv h ht

theorem loadRun_inv {x : M Unit} {s t : State} (hx : Inv (left (x s))) (ht : loadRun x s = .next t) : Inv t := by
  unfold loadRun at ht
  cases hr : x s with
  | ok a u => rw [hr] at ht hx; simp only [Host.Outcome.next.injEq] at ht; subst ht; exact hx
  | error e u => rw [hr] at ht; simp at ht

/-! ## Page flags and segments -/

theorem mem_pagesOver {addr size p : Nat} (h : p ∈ pagesOver addr size) : pageOf addr ≤ p ∧ p ≤ pageOf (addr + size - 1) ∧ 0 < size := by
  unfold pagesOver at h
  split at h
  · simp at h
  · next hs =>
    simp only [beq_iff_eq] at hs
    rw [List.mem_range'_1] at h
    exact ⟨h.1, by omega, by omega⟩

theorem pagesOver_inRange {s : State} (h : Inv s) {addr size p : Nat} (hb : addr + size ≤ s.cfg.memSize)
    (hp : p ∈ pagesOver addr size) : p < s.cfg.memSize / 256 := by
  obtain ⟨_, h2, h3⟩ := mem_pagesOver hp
  have := h.memSize
  unfold pageOf at h2
  omega

/-- A property that a loop keeps when its body keeps it for every element, and the configuration does not change. -/
theorem forEach_inv {α : Type} {f : α → M Unit} (l : List α) (s : State) (h : Inv s)
    (hf : ∀ a ∈ l, ∀ u, Inv u → u.cfg = s.cfg → Inv (left (f a u)) ∧ (left (f a u)).cfg = s.cfg) :
    Inv (left (forEach f l s)) ∧ (left (forEach f l s)).cfg = s.cfg := by
  induction l generalizing s with
  | nil => exact ⟨h, rfl⟩
  | cons a l ih =>
    rw [forEach_cons, bind_run]
    have h1 := hf a (by simp) s h rfl
    cases hr : f a s with
    | error e t => rw [hr] at h1; exact h1
    | ok u t =>
      rw [hr] at h1
      have ht : t.cfg = s.cfg := h1.2
      have := ih t h1.1 fun b hb u hu hc => by
        have := hf b (by simp [hb]) u hu (hc.trans ht)
        exact ⟨this.1, this.2.trans ht.symm⟩
      exact ⟨this.1, this.2.trans ht⟩

theorem setPageFlag_inv {flag : PageFlag} {v : Bool} {p : Nat} {s : State} (h : Inv s) (hp : p < s.cfg.memSize / 256) :
    Inv (left (setPageFlag flag v p s)) ∧ (left (setPageFlag flag v p s)).cfg = s.cfg := by
  unfold setPageFlag
  rw [bind_ok (getPage_run _ _), actMC_run]
  exact ⟨(h.touched hp).setMC ((h.touched hp).mc.putPage hp _), rfl⟩

theorem updateAreaFlags_inv {addr size : Nat} {flag : PageFlag} {v : Bool} {s : State} (h : Inv s)
    (hb : addr + size ≤ s.cfg.memSize) :
    Inv (left (updateAreaFlags addr size flag v s)) ∧ (left (updateAreaFlags addr size flag v s)).cfg = s.cfg :=
  forEach_inv _ s h fun p hp u hu hc => by
    have := setPageFlag_inv (flag := flag) (v := v) (p := p) hu (by rw [hc]; exact pagesOver_inRange h hb hp)
    exact ⟨this.1, this.2.trans hc⟩

theorem mem_claim {n a : Nat} {l : List Nat} (h : a ∈ claim n l) : a = n ∨ a ∈ l := by
  induction l with
  | nil => left; simpa [claim] using h
  | cons b l ih =>
    unfold claim at h
    split at h
    · rcases List.mem_cons.1 h with h | h
      · exact .inr (by simp [h])
      · exact (ih h).imp id (List.mem_cons_of_mem _)
    · split at h
      · exact .inr h
      · rcases List.mem_cons.1 h with h | h
        · exact .inl h
        · exact .inr h

theorem mem_claim_of_mem {n a : Nat} {l : List Nat} (h : a ∈ l) : a ∈ claim n l := by
  induction l with
  | nil => cases h
  | cons b l ih =>
    unfold claim
    split
    · rcases List.mem_cons.1 h with h | h
      · simp [h]
      · exact List.mem_cons_of_mem _ (ih h)
    · split
      · exact h
      · exact List.mem_cons_of_mem _ h

theorem claim_rising {n : Nat} {l : List Nat} (h : l.Pairwise (· < ·)) : (claim n l).Pairwise (· < ·) := by
  induction l with
  | nil => simp [claim]
  | cons b l ih =>
    rw [List.pairwise_cons] at h
    unfold claim
    split
    · next hb =>
      rw [List.pairwise_cons]
      refine ⟨fun a ha => ?_, ih h.2⟩
      rcases mem_claim ha with rfl | ha
      · exact hb
      · exact h.1 a ha
    · split
      · rw [List.pairwise_cons]; exact h
      · next h1 h2 =>
        simp only [beq_iff_eq] at h2
        rw [List.pairwise_cons, List.pairwise_cons]
        refine ⟨fun a ha => ?_, h⟩
        rcases List.mem_cons.1 ha with rfl | ha
        · omega
        · have := h.1 a ha
          omega

theorem firstUnclaimed_spec {l : List Nat} {n k m : Nat} (h : firstUnclaimed l n k = some m) : m < n + k ∧ m ∉ l := by
  induction k generalizing n with
  | zero => simp [firstUnclaimed] at h
  | succ k ih =>
    unfold firstUnclaimed at h
    split at h
    · obtain ⟨h1, h2⟩ := ih h
      exact ⟨by omega, h2⟩
    · next hc =>
      simp only [Option.some.injEq] at h
      subst h
      exact ⟨by omega, by simpa using hc⟩

theorem allocSegment_inv {s : State} (h : Inv s) :
    Inv (left (allocSegment s)) ∧ (left (allocSegment s)).cfg = s.cfg
      ∧ ∀ n t, allocSegment s = .ok n t → n < s.cfg.memSize / 65536 := by
  unfold allocSegment
  rw [bind_ok (ask_run _ _)]
  cases hf : firstUnclaimed s.mc.segments 0 (s.cfg.memSize / 65536) with
  | none => exact ⟨h, rfl, fun n t ht => by simp at ht⟩
  | some m =>
    have hm := firstUnclaimed_spec hf
    simp only
    rw [bind_ok (actMC_run _ _)]
    refine ⟨h.setMC ⟨h.mc.cells, h.mc.pages, h.mc.covered, h.mc.inRange, claim_rising h.mc.segments, ?_,
      mem_claim_of_mem h.mc.segmentZero⟩, rfl, ?_⟩
    · intro n hn
      rcases mem_claim hn with rfl | hn
      · omega
      · exact h.mc.segmentsInRange n hn
    · intro n t ht
      simp only [pure_run, EStateM.Result.ok.injEq] at ht
      omega

/-- A segment other than 0 freed: the rest of the pool is as it was (20_memory.md R55). -/
theorem MCInv.freeSegment {cfg : Config} {mc : MC} (h : MCInv cfg mc) {n : Nat} (hn : n ≠ 0) : MCInv cfg (mc.freeSegment n) where
  cells := h.cells
  pages := h.pages
  covered := h.covered
  inRange := h.inRange
  segments := List.Pairwise.filter _ h.segments
  segmentsInRange := fun m hm => h.segmentsInRange m (List.mem_filter.1 hm).1
  segmentZero := List.mem_filter.2 ⟨h.segmentZero, by simpa using hn.symm⟩

/-! ## The loader -/

theorem keeps_cfg {α : Type} {x : M α} (h : Same State.outside x) (s : State) : (left (x s)).cfg = s.cfg := by
  have := h s
  exact (outside_eq this).1.1.1

theorem writeWords_inv (ws : List InsnWord) (a : Nat) : Keeps Inv (writeWords a ws) ∧ Same State.outside (writeWords a ws) := by
  induction ws generalizing a with
  | nil => exact ⟨.pure _, .pure _⟩
  | cons w ws ih =>
    exact ⟨.bind (.memWrite32 _ _ _ _) fun _ => (ih _).1, .bind (.memWrite32 _ _ _ _) fun _ => (ih _).2⟩

theorem writeBytes_inv (bs : List Byte) (a : Nat) : Keeps Inv (writeBytes a bs) ∧ Same State.outside (writeBytes a bs) := by
  induction bs generalizing a with
  | nil => exact ⟨.pure _, .pure _⟩
  | cons b bs ih =>
    exact ⟨.bind (.memWrite8 _ _ _ _) fun _ => (ih _).1, .bind (.memWrite8 _ _ _ _) fun _ => (ih _).2⟩

theorem Section.wf_bound {x : Section} (h : x.wf = true) : x.base + x.body.size ≤ 65536 := by
  unfold Section.wf at h
  simp only [Bool.and_eq_true, decide_eq_true_eq] at h
  exact h.1

theorem loadContents_inv {seg : Nat} {x : Section} {s : State} (h : Inv s) (hseg : seg < s.cfg.memSize / 65536)
    (hx : x.wf = true) : Inv (left (loadContents seg x s)) ∧ (left (loadContents seg x s)).cfg = s.cfg := by
  have hb := Section.wf_bound hx
  unfold loadContents
  cases hbody : x.body with
  | text ws => exact ⟨(writeWords_inv ws _).1 s h, keeps_cfg (writeWords_inv ws _).2 s⟩
  | data bs => exact ⟨(writeBytes_inv bs _).1 s h, keeps_cfg (writeBytes_inv bs _).2 s⟩
  | bss n =>
    rw [hbody] at hb
    simp only [SectionBody.size] at hb
    refine forEach_inv _ s h fun p hp u hu hc => ?_
    have hp' : p < u.cfg.memSize / 256 := by
      rw [hc]
      exact pagesOver_inRange h (by have := h.memSize; omega) hp
    rw [bind_ok (getPage_run _ _)]
    exact ⟨hu.touched hp', hc⟩

theorem loadFlags_inv {seg : Nat} {x : Section} {s : State} (h : Inv s) (hseg : seg < s.cfg.memSize / 65536)
    (hx : x.wf = true) : Inv (left (loadFlags seg x s)) ∧ (left (loadFlags seg x s)).cfg = s.cfg := by
  have hb : seg * 65536 + x.base + x.body.size ≤ s.cfg.memSize := by
    have := Section.wf_bound hx
    have := h.memSize
    omega
  have step : ∀ (flag : PageFlag) (v : Bool) (k : M Unit),
      (∀ u, Inv u → u.cfg = s.cfg → Inv (left (k u)) ∧ (left (k u)).cfg = s.cfg) → ∀ u, Inv u → u.cfg = s.cfg →
        Inv (left ((updateAreaFlags (seg * 65536 + x.base) x.body.size flag v >>= fun _ => k) u))
          ∧ (left ((updateAreaFlags (seg * 65536 + x.base) x.body.size flag v >>= fun _ => k) u)).cfg = s.cfg := by
    intro flag v k hk u hu hc
    have h1 := updateAreaFlags_inv (addr := seg * 65536 + x.base) (size := x.body.size) (flag := flag) (v := v) hu
      (by rw [hc]; exact hb)
    rw [bind_run]
    cases hr : updateAreaFlags (seg * 65536 + x.base) x.body.size flag v u with
    | ok a t => rw [hr] at h1; exact hk t h1.1 (h1.2.trans hc)
    | error e t => rw [hr] at h1; exact ⟨h1.1, h1.2.trans hc⟩
  refine step _ _ _ (step _ _ _ fun u hu hc => ?_) s h rfl
  have h1 := updateAreaFlags_inv (addr := seg * 65536 + x.base) (size := x.body.size) (flag := .execute)
    (v := x.access.execute) hu (by rw [hc]; exact hb)
  exact ⟨h1.1, h1.2.trans hc⟩

theorem loadProgram_inv {image : Image} {s : State} (h : Inv s) (hx : image.sections.all Section.wf = true) :
    Inv (left (loadProgram image s)) := by
  unfold loadProgram
  obtain ⟨h1, h2, h3⟩ := allocSegment_inv h
  rw [bind_run]
  cases hr : allocSegment s with
  | error e t => rw [hr] at h1; exact h1
  | ok seg t =>
    have hseg := h3 seg t hr
    rw [hr] at h1 h2
    have h1' : Inv t := h1
    have h2' : t.cfg = s.cfg := h2
    rw [List.all_eq_true] at hx
    simp only
    have hc := forEach_inv (f := loadContents seg) image.sections t h1' fun x hxm u hu hcu => by
      have := loadContents_inv (seg := seg) (x := x) hu (by rw [hcu, h2']; exact hseg) (hx x hxm)
      exact ⟨this.1, this.2.trans hcu⟩
    rw [bind_run]
    cases hr2 : forEach (loadContents seg) image.sections t with
    | error e u => rw [hr2] at hc; exact hc.1
    | ok a u =>
      rw [hr2] at hc
      have hu : Inv u := hc.1
      have huc : u.cfg = s.cfg := hc.2.trans h2'
      have hfl := forEach_inv (f := loadFlags seg) image.sections u hu fun x hxm w hw hcw => by
        have := loadFlags_inv (seg := seg) (x := x) hw (by rw [hcw, huc]; exact hseg) (hx x hxm)
        exact ⟨this.1, this.2.trans hcw⟩
      simp only
      rw [bind_run]
      cases hr3 : forEach (loadFlags seg) image.sections u with
      | error e w => rw [hr3] at hfl; exact hfl.1
      | ok b w =>
        rw [hr3] at hfl
        have hk : Keeps Inv (loadStack seg image.stack >>= fun sp => note (.loaded
            { codeSegment := BitVec.ofNat 8 seg, dataSegment := BitVec.ofNat 8 seg, sp := sp, entry := image.entry
              symbols := image.symbols })) := by
          refine .bind ?_ fun _ => .note _
          unfold loadStack
          split
          · exact .bind (.allocPage _ _) fun _ => .pure _
          · exact .pure _
        exact hk w hfl.1

/-! ## Regions -/

theorem MCInv.createPages {cfg : Config} (ps : List Nat) {mc : MC} (h : MCInv cfg mc) (hp : ∀ p ∈ ps, p < cfg.memSize / 256)
    (pg : Page) :
    MCInv cfg (ps.foldl (fun m p => m.createPage p pg) mc)
      ∧ ∀ q, (q ∈ ps ∨ (mc.page q).isSome = true) → ((ps.foldl (fun m p => m.createPage p pg) mc).page q).isSome = true := by
  induction ps generalizing mc with
  | nil => exact ⟨h, fun q hq => by simpa using hq⟩
  | cons p ps ih =>
    simp only [List.foldl_cons]
    have h1 := ih (h.createPage (hp p (by simp)) pg) fun q hq => hp q (by simp [hq])
    refine ⟨h1.1, fun q hq => h1.2 q ?_⟩
    rw [MC.page_createPage]
    by_cases hqp : q = p
    · right; simp [hqp]
    · rcases hq with hq | hq
      · rcases List.mem_cons.1 hq with hq | hq
        · exact absurd hq hqp
        · exact .inl hq
      · right; simpa [hqp] using hq

theorem mmapRegion_inv {r : Region} {contents : List Byte} {s t : State} (h : Inv s) (hb : r.address + r.size ≤ s.cfg.memSize)
    (ht : mmapRegion r contents s = .next t) : Inv t := by
  unfold mmapRegion at ht
  split at ht
  · exact hostFailed_inv h ht
  · simp only [Host.Outcome.next.injEq] at ht
    subst ht
    obtain ⟨h1, h2⟩ := h.mc.createPages r.pages (fun p hp => pagesOver_inRange h hb hp) r.page
    have hc := h1.storeCells (a := r.address) (bs := contents.take r.size) fun k hk => by
      refine h2 _ (.inl ?_)
      simp only [List.length_take] at hk
      unfold Region.pages pagesOver
      rw [if_neg (by simp; omega), List.mem_range'_1]
      unfold pageOf
      omega
    exact h.setMC ⟨hc.cells, hc.pages, hc.covered, hc.inRange, hc.segments, hc.segmentsInRange, hc.segmentZero⟩

theorem MCInv.freePages {cfg : Config} (ps : List Nat) {mc : MC} (h : MCInv cfg mc) : MCInv cfg (ps.foldl MC.freePage mc) := by
  induction ps generalizing mc with
  | nil => exact h
  | cons p ps ih => exact ih (h.freePage p)

theorem unmapRegion_inv {a : Nat} {s t : State} (h : Inv s) (ht : unmapRegion a s = .next t) : Inv t := by
  unfold unmapRegion at ht
  cases hr : s.mc.regionAt a with
  | none => rw [hr] at ht; simp at ht
  | some r =>
    rw [hr] at ht
    simp only [Host.Outcome.next.injEq] at ht
    subst ht
    have hf := h.mc.freePages r.pages
    exact h.setMC ⟨hf.cells, hf.pages, hf.covered, hf.inRange, hf.segments, hf.segmentsInRange, hf.segmentZero⟩

theorem sharedByte_inv {a : Nat} {v : Byte} {s : State} (h : Inv s) (hs : s.mc.isShared a = true) :
    Inv (s.withMC { s.mc with cells := s.mc.cells.write a v }) := by
  have hp : (s.mc.page (pageOf a)).isSome = true := by
    unfold MC.isShared at hs
    simp only [Bool.and_eq_true] at hs
    cases hq : s.mc.page (pageOf a) with
    | none => rw [hq] at hs; simp at hs
    | some pg => rfl
  have := h.mc.storeCells (a := a) (bs := [v]) fun k hk => by
    have : k = 0 := by simpa using hk
    subst this
    exact hp
  exact h.setMC this

/-! ## Cores -/

theorem CoreInv.boot {cfg : Config} {c : Core} (h : CoreInv cfg c) (hb : c.booted = false) (b : BootArgs) :
    CoreInv cfg (c.boot b) :=
  ⟨h.sizes, h.icacheFits, h.dcacheFits, h.icacheKeys, h.dcacheKeys, h.icacheAligned, h.dcacheAligned, h.dcacheInBounds,
    fun _ => rfl, fun _ => rfl, fun hf => by
      have := (h.faultedHalted hf).1
      rw [hb] at this
      simp at this⟩

theorem CoreInv.setRunning {cfg : Config} {c : Core} (h : CoreInv cfg c) (ha : c.alive = true) (v : Bool) :
    CoreInv cfg { c with running := v } :=
  ⟨h.sizes, h.icacheFits, h.dcacheFits, h.icacheKeys, h.dcacheKeys, h.icacheAligned, h.dcacheAligned, h.dcacheInBounds,
    fun _ => ha, h.aliveBooted, h.faultedHalted⟩

theorem hostHalt_inv {s : State} (h : Inv s) : Inv (hostHalt s) := by
  unfold hostHalt
  have hk := Keeps.haltCore s h
  have hs := Same.haltCore_fixed s
  cases hr : haltCore s with
  | ok a t => rw [hr] at hk; exact hk
  | error e t =>
    rw [hr] at hk hs
    have halive : s.core.alive = true := by
      unfold haltCore at hr
      rw [bind_ok (ask_run _ _)] at hr
      cases ha : s.core.alive with
      | true => rfl
      | false => rw [ha] at hr; simp at hr
    exact die_inv e _ hk ((fixed_eq hs).2.2.1.trans (h.core.aliveBooted halive))

end Sys2Proof.Machine
end

