-- ==== Sys2Proof/Laws/HostValues.lean ====
section
/-! SUPPORT. The privileged writes a host asks for, in integers of bytes, and the draws (60_exceptions.md R219, R225). -/

namespace Sys2Proof.Machine

/-- A byte after an aligned store of `n` bytes. -/
theorem MC.byteAt_touchStore (mc : MC) (cfg : Config) (a n : Nat) (hn : n = 1 ∨ n = 2 ∨ n = 4) (ha : a % n = 0) (l : List Byte) (hl : l.length = n) (d b) :
    ((mc.touchPage cfg (pageOf a)).store a l d).byteAt b = if a ≤ b ∧ b < a + n then (l[b - a]?).getD 0 else mc.byteAt b := by
  rw [MC.byteAt_store]
  · by_cases h : a ≤ b ∧ b < a + l.length
    · rw [if_pos h, if_pos (hl ▸ h), List.getD_eq_getElem?_getD]
    · rw [if_neg h, if_neg (hl ▸ h)]; simp
  · intro k hk
    rw [pageOf_aligned hn ha (by omega)]
    exact MC.touchPage_isSome _ _ _

theorem bytesOfWord_getElem (v : InsnWord) (k : Nat) (hk : k < 4) : (bytesOfWord v)[k]? = some (v.extractLsb' (8 * k) 8) := by
  have : k = 0 ∨ k = 1 ∨ k = 2 ∨ k = 3 := by omega
  rcases this with rfl | rfl | rfl | rfl <;> rfl

/-- One privileged MC write that is aligned and in bounds (20_memory.md R61). -/
theorem memWritePriv_ok {w : McWrite} {s : State} (h : w.Ok s.cfg.memSize) :
    ∃ t, memWritePriv w s = .ok () t ∧ t.outside = s.outside ∧ t.core = s.core
      ∧ (∀ b, t.mc.byteAt b = (w.byteFor b).getD (s.mc.byteAt b)) ∧ sameAccess s t ∧ sameTables s t := by
  have key : ∀ (a n : Nat) (l : List Byte) (hn : n = 1 ∨ n = 2 ∨ n = 4) (ha : a % n = 0) (hl : l.length = n) (hb : a + n ≤ s.cfg.memSize),
     (do access a n fun pg => true || pg.write; actMC fun mc => mc.store a l true) s = .ok () (s.withMC ((s.mc.touchPage s.cfg (pageOf a)).store a l true)) := by
    intro a n l hn ha hl hb
    rw [bind_ok (access_ok ha hb rfl)]; rfl
  have acc : ∀ a l, sameAccess s (s.withMC ((s.mc.touchPage s.cfg (pageOf a)).store a l true)) := by
    intro a l p
    have := MC.pageView_store (s.mc.touchPage s.cfg (pageOf a)) s.cfg a p l true
    simpa [State.withMC] using this
  have tab : ∀ a l, sameTables s (s.withMC ((s.mc.touchPage s.cfg (pageOf a)).store a l true)) := by
    intro a l; simp [sameTables, State.withMC, MC.store_segments, MC.store_regions]
  cases w with
  | byte a v =>
    refine ⟨_, key a 1 [v] (.inl rfl) (Nat.mod_one a) rfl h, rfl, rfl, ?_, acc _ _, tab _ _⟩
    intro b
    show MC.byteAt _ b = _
    simp only [State.withMC]
    rw [MC.byteAt_touchStore _ _ _ 1 (.inl rfl) (Nat.mod_one a) _ rfl]
    simp only [McWrite.byteFor]
    by_cases hb : b = a
    · subst hb; simp
    · rw [if_neg (by omega), if_neg hb]; rfl
  | half a v =>
    refine ⟨_, key a 2 (bytesOfHalf v) (.inr (.inl rfl)) h.1 rfl h.2, rfl, rfl, ?_, acc _ _, tab _ _⟩
    intro b
    simp only [State.withMC]
    rw [MC.byteAt_touchStore _ _ _ 2 (.inr (.inl rfl)) h.1 _ rfl]
    simp only [McWrite.byteFor]
    by_cases hb : a ≤ b ∧ b < a + 2
    · rw [if_pos hb, if_pos hb]
      have : b - a = 0 ∨ b - a = 1 := by omega
      rcases this with h | h <;> rw [h] <;> rfl
    · rw [if_neg hb, if_neg hb]; rfl
  | word a v =>
    refine ⟨_, key a 4 (bytesOfWord v) (.inr (.inr rfl)) h.1 rfl h.2, rfl, rfl, ?_, acc _ _, tab _ _⟩
    intro b
    simp only [State.withMC]
    rw [MC.byteAt_touchStore _ _ _ 4 (.inr (.inr rfl)) h.1 _ rfl]
    simp only [McWrite.byteFor]
    by_cases hb : a ≤ b ∧ b < a + 4
    · rw [if_pos hb, if_pos hb, bytesOfWord_getElem _ _ (by omega)]; rfl
    · rw [if_neg hb, if_neg hb]; rfl

/-- Privileged MC writes in order. -/
theorem memWritesPriv_ok (ws : List McWrite) {s : State} (h : ∀ w ∈ ws, w.Ok s.cfg.memSize) :
    ∃ t, forEach memWritePriv ws s = .ok () t ∧ t.outside = s.outside ∧ t.core = s.core
      ∧ (∀ b, t.mc.byteAt b = byteWritten b (s.mc.byteAt b) ws) ∧ sameAccess s t ∧ sameTables s t := by
  induction ws generalizing s with
  | nil => exact ⟨s, rfl, rfl, rfl, fun _ => rfl, .refl s, rfl, rfl⟩
  | cons w ws ih =>
    obtain ⟨t, h1, h2, h3, h4, h5, h6⟩ := memWritePriv_ok (h w (by simp))
    have hc : t.cfg = s.cfg := congrArg (fun u => u.cfg) h2
    obtain ⟨u, k1, k2, k3, k4, k5, k6⟩ := ih (s := t) (fun x hx => by rw [hc]; exact h x (by simp [hx]))
    refine ⟨u, by rw [forEach_cons, bind_ok h1]; exact k1, k2.trans h2, k3.trans h3, ?_, h5.trans k5, k6.1.trans h6.1, k6.2.trans h6.2⟩
    intro b; rw [k4, h4]; rfl

theorem drawVint_run (s : State) : drawVint s = .ok (nextVint s) s.vintDrawn := by
  unfold drawVint nextVint State.vintDrawn
  cases hv : s.vintAnswers <;> simp

theorem drawPort_run (s : State) : drawPort s = .ok (nextPort s) s.portDrawn := by
  unfold drawPort nextPort State.portDrawn
  cases hv : s.portAnswers <;> simp

end Sys2Proof.Machine
end

