-- ==== Sys2Proof/Laws/InterruptRaises.lean ====
section
/-! SUPPORT. Calls, returns, interrupt entries and exits whose stack accesses raise (44_stack_call.md R170, R173, R174;
60_exceptions.md R212, R214): what was done before the raise stays. -/

namespace Sys2Proof.Machine

/-- Two sequences with the same beginning raise alike if what follows does. -/
theorem bind_error_of {α β γ : Type} {x : M α} {f : α → M β} {g : α → M γ} {s t : State} {e : Exc}
    (h : (x >>= f) s = .error e t) (k : ∀ a u, x s = .ok a u → f a u = .error e t → g a u = .error e t) :
    (x >>= g) s = .error e t := by
  rw [bind_run] at h ⊢
  cases hx : x s with
  | ok a u => rw [hx] at h; exact k a u hx h
  | error e' u => rw [hx] at h; cases h; rfl

/-! ## Pushes -/

/-- What pushes keep of the registers. -/
theorem regs_of_butSp {s u : State} (h : u.regsButSp = s.regsButSp) :
    u.core.regs.cs = s.core.regs.cs ∧ u.core.regs.flags = s.core.regs.flags ∧ u.core.regs.gpr = s.core.regs.gpr
      ∧ u.core.regs.ip = s.core.regs.ip ∧ u.core.regs.fp = s.core.regs.fp := by
  simp only [State.regsButSp, Regs.mk.injEq] at h
  exact ⟨h.2.2.2.2.1, h.2.2.2.2.2.2.1, h.1, h.2.2.2.2.2.1, h.2.1⟩

theorem entryOpened_regs (s : State) (a : Nat) (v : IntVector) (p : Nat) :
    (entryOpened s a v p).core.regs = { s.core.regs with ds := v.ds, sp := pageTop p } := rfl

/-- A call frame's two pushes (44_stack_call.md R173). -/
theorem createFrame_error {s t : State} {e : Exc} (h : PushFails [s.core.regs.ip, s.core.regs.fp] s e t) :
    createFrame s = .error e t := by
  have h := h.error
  unfold createFrame readReg
  rw [bind_ok (ask_run _ _)]
  refine bind_error_of h fun _ u hu h => ?_
  have hfp : u.core.regs.fp = s.core.regs.fp := (regs_of_butSp ((Same.push16 _).ok hu)).2.2.2.2
  rw [bind_ok (ask_run _ _)]
  refine bind_error_of (f := fun _ => forEach push16 []) ?_ fun _ v _ h => by cases h
  rw [Regs.read_fp, hfp]
  exact h

/-- An interrupt entry whose pushes begin raises at the first push that does (60_exceptions.md R212). -/
theorem EntryOpens.error {s t : State} {base count i : Nat} {v : IntVector} {p : Nat} {e : Exc}
    (h : EntryOpens s base count i v p) (hp : PushFails (entryWords s.core.regs) (entryOpened s (base + 4 * i) v p) e t) :
    enterInterrupt base count i s = .error e t := by
  obtain ⟨hi, hal, hb, hv, hfree⟩ := h
  have hp := hp.error
  unfold enterInterrupt
  rw [bind_ok (loadVector_ok hi hal hb), hv]
  have hfree' : (s.touched (pageOf (base + 4 * i))).mc.firstFree ((s.touched (pageOf (base + 4 * i))).cfg.memSize / 256)
      (v.ds.toNat * 256) 256 = some p := hfree
  rw [bind_ok (allocPage_segment_ok hfree'), bind_ok (actCore_run _ _), readReg, bind_ok (ask_run _ _), readReg,
    bind_ok (ask_run _ _), bind_ok (actRegs_run _ _)]
  change (push16 (s.core.regs.ds.setWidth 16) >>= fun _ => push16 s.core.regs.sp >>= fun _ => _)
    (entryOpened s (base + 4 * i) v p) = _
  simp only [entryWords, List.cons_append, List.nil_append, forEach_cons] at hp
  refine bind_error_of hp fun _ u1 e1 hp => bind_error_of hp fun _ u2 e2 hp => ?_
  have r1 := (Same.push16 _).ok e1
  have r2 := ((Same.push16 _).ok e2).trans r1
  have c2 : u2.core.regs.cs = s.core.regs.cs := by rw [(regs_of_butSp r2).1, entryOpened_regs]
  rw [readReg, bind_ok (ask_run _ _), Regs.read_cs, c2]
  refine bind_error_of hp fun _ u3 e3 hp => ?_
  have r3 := ((Same.push16 _).ok e3).trans r2
  have f3 : u3.core.regs.flags = s.core.regs.flags := by rw [(regs_of_butSp r3).2.1, entryOpened_regs]
  rw [readReg, bind_ok (ask_run _ _), Regs.read_flags, f3]
  refine bind_error_of hp fun _ u4 e4 hp => ?_
  have r4 := ((Same.push16 _).ok e4).trans r3
  have q4 : u4.core.regs.gpr = s.core.regs.gpr := by rw [(regs_of_butSp r4).2.2.1, entryOpened_regs]
  rw [bind_ok (ask_run _ _), q4]
  rw [forEach_append] at hp
  refine bind_error_of hp fun _ u5 e5 hp => bind_error ?_
  have r5 := ((Same.forEach (fun _ => Same.push16 _) _).ok e5).trans r4
  have i5 : u5.core.regs.ip = s.core.regs.ip := by rw [(regs_of_butSp r5).2.2.2.1, entryOpened_regs]
  unfold createFrame readReg
  rw [bind_ok (ask_run _ _), Regs.read_ip, i5]
  rw [forEach_cons] at hp
  refine bind_error_of hp fun _ u6 e6 hp => ?_
  have p6 : u6.core.regs.fp = s.core.regs.fp := by
    rw [(regs_of_butSp (((Same.push16 _).ok e6).trans r5)).2.2.2.2, entryOpened_regs]
  rw [bind_ok (ask_run _ _), Regs.read_fp, p6]
  rw [forEach_cons] at hp
  exact bind_error_of hp fun _ v _ h => by cases h

/-- An interrupt entry raises in each of the ways of R212. -/
theorem EntryFails.error {s t : State} {base count i : Nat} {e : Exc} (h : EntryFails s base count i e t) :
    enterInterrupt base count i s = .error e t := by
  rcases h with ⟨h1, rfl, rfl⟩ | ⟨h1, h2, rfl, rfl⟩ | ⟨h1, h2, h3, rfl, rfl⟩ | ⟨h1, h2, h3, h4, rfl, rfl⟩ | ⟨v, p, h1, h2⟩
  · exact bind_error (loadVector_bad h1)
  · refine bind_error ?_
    unfold loadVector
    rw [show decide (i < count) = true by simp [h1], bind_ok (require_true _ _ _)]
    exact bind_error (bind_error (access_misaligned _ _ h2))
  · refine bind_error ?_
    unfold loadVector
    rw [show decide (i < count) = true by simp [h1], bind_ok (require_true _ _ _)]
    exact bind_error (bind_error (access_outOfBounds _ h2 h3))
  · unfold enterInterrupt
    rw [bind_ok (loadVector_ok h1 (by omega) h3)]
    exact bind_error (allocPage_segment_none h4)
  · exact h1.error h2

/-! ## Pops -/

/-- The pops of `RET` and `RETINT`, from the k-th on. -/
def popsFrom (k : Nat) : Nat → M Unit
  | 0 => pure ()
  | n + 1 => do
    let v ← pop16
    actCore (poppedInto k v)
    popsFrom (k + 1) n

theorem popsFrom_succ (k n : Nat) :
    popsFrom k (n + 1) = (pop16 >>= fun v => actCore (poppedInto k v) >>= fun _ => popsFrom (k + 1) n) := rfl

theorem popsFrom_add (k m n : Nat) : popsFrom k (m + n) = (popsFrom k m >>= fun _ => popsFrom (k + m) n) := by
  induction m generalizing k with
  | zero => simp [popsFrom]
  | succ m ih =>
    rw [show m + 1 + n = (m + n) + 1 by omega, popsFrom_succ, popsFrom_succ, ih, show k + 1 + m = k + (m + 1) by omega]
    simp only [bind_assoc]

theorem afterPops_run {k : Nat} {s u : State} (h : afterPops k s = some u) : popsFrom 0 k s = .ok () u := by
  induction k generalizing u with
  | zero => cases h; rfl
  | succ k ih =>
    unfold afterPops at h
    cases ha : afterPops k s with
    | none => rw [ha] at h; cases h
    | some v =>
      rw [ha] at h
      simp only at h
      rw [popsFrom_add, bind_ok (ih ha)]
      cases hp : pop16 v with
      | error e t => rw [hp] at h; cases h
      | ok w t =>
        rw [hp] at h
        cases h
        unfold popsFrom
        rw [bind_ok hp, Nat.zero_add]
        rfl

theorem PopFails.error {n : Nat} {s t : State} {e : Exc} (h : PopFails n s e t) : popsFrom 0 n s = .error e t := by
  obtain ⟨k, hk, u, hu, hf⟩ := h
  obtain ⟨m, rfl⟩ : ∃ m, n = k + (m + 1) := ⟨n - k - 1, by omega⟩
  rw [popsFrom_add, bind_ok (afterPops_run hu)]
  unfold popsFrom
  exact bind_error (pop16_error hf)

theorem destroyFrame_eq : destroyFrame = popsFrom 0 2 := by
  funext s
  unfold destroyFrame popsFrom popsFrom popsFrom
  rfl

theorem popGprs_eq (n k : Nat) (hk : 2 ≤ k) (hn : k + n ≤ 34) :
    popsFrom k n = forEach popGpr ((List.range' k n).map fun j => Fin.ofNat 32 (33 - j)) := by
  induction n generalizing k with
  | zero => rfl
  | succ n ih =>
    unfold popsFrom
    rw [List.range'_succ, List.map_cons, forEach_cons, ih (k + 1) (by omega) (by omega)]
    unfold popGpr
    simp only [bind_assoc]
    congr 1
    funext v
    have : poppedInto k v = fun c => { c with regs := c.regs.write (.gpr (Fin.ofNat 32 (33 - k))) v } := by
      funext c
      unfold poppedInto
      rw [if_neg (by omega), if_neg (by omega), if_pos (by omega)]
    rw [this]
    rfl

theorem popGprs_all : popsFrom 2 32 = forEach popGpr (List.finRange 32).reverse := by
  rw [popGprs_eq 32 2 (by omega) (by omega)]
  congr 1

/-- `RETINT` past its checks raises at the first pop that does (60_exceptions.md R214). -/
theorem exitInterrupt_error {s t : State} {f : Frame} {e : Exc} (hf : s.core.frames.head? = some f)
    (hm : s.cfg.frameCheck = true → s.core.regs.sp = f.fp) (hi : s.core.istack ≠ []) (h : PopFails 38 s e t) :
    exitInterrupt s = .error e t := by
  obtain ⟨p, l, hp⟩ := List.exists_cons_of_ne_nil hi
  unfold exitInterrupt
  rw [bind_ok (checkFrame_ok hf hm), bind_ok (ask_run _ _), hp]
  simp only [List.head?_cons]
  have h := h.error
  rw [show 38 = 2 + (32 + 4) by rfl, popsFrom_add, popsFrom_add, ← destroyFrame_eq, popGprs_all] at h
  refine bind_error_of h fun _ u1 _ h => bind_error_of h fun _ u2 _ h => ?_
  unfold popsFrom at h
  refine bind_error_of h fun v3 u3 _ h => ?_
  rw [bind_ok (actCore_run _ _)] at h
  rw [writeReg, bind_ok (actRegs_run _ _)]
  unfold popsFrom at h
  refine bind_error_of h fun v4 u4 _ h => ?_
  rw [bind_ok (actCore_run _ _)] at h
  rw [writeReg, bind_ok (actRegs_run _ _)]
  unfold popsFrom at h
  refine bind_error_of h fun v5 u5 _ h => ?_
  rw [bind_ok (actCore_run _ _)] at h
  unfold popsFrom at h
  refine bind_error_of h fun v6 u6 _ h => ?_
  cases h

end Sys2Proof.Machine
end

