-- ==== Sys2Proof/Laws/PerInstr.lean ====
section
/-! SUPPORT. The statements made once per instruction. -/

namespace Sys2Proof.Laws

/-- The opcode of an instruction's row in the opcode map (30_encoding.md R107). -/
def OpcodeField.opcode : Instr → Nat
  | .lw _ _ _ => 1
  | .lb _ _ _ => 2
  | .li _ _ => 3
  | .stw _ _ _ => 4
  | .stb _ _ _ => 5
  | .mov _ _ => 6
  | .swp _ _ => 7
  | .add _ _ => 8
  | .sub _ _ => 9
  | .inc _ => 10
  | .dec _ => 11
  | .mul _ _ => 12
  | .div _ _ => 13
  | .mod _ _ => 14
  | .and _ _ => 15
  | .or _ _ => 16
  | .xor _ _ => 17
  | .not _ => 18
  | .shiftl _ _ => 19
  | .shiftr _ _ => 20
  | .cmp _ _ => 21
  | .cmpu _ _ => 22
  | .be _ => 23
  | .bne _ => 24
  | .bz _ => 25
  | .bnz _ => 26
  | .bs _ => 27
  | .bns _ => 28
  | .bg _ => 29
  | .bge _ => 30
  | .bl _ => 31
  | .ble _ => 32
  | .j _ => 33
  | .push _ => 34
  | .pop _ => 35
  | .call _ => 36
  | .ret => 37
  | .cli => 38
  | .sti => 39
  | .hlt _ => 40
  | .rst => 41
  | .retint => 42
  | .inw _ _ => 43
  | .outw _ _ => 44
  | .inb _ _ => 45
  | .outb _ _ => 46
  | .cas _ _ _ => 47
  | .int _ => 48

/-- The encoded word carries the row's opcode in `w[5:0]` (30_encoding.md R102, R107). -/
def OpcodeField.Statement (i : Instr) : Prop := fOpcode (encode i) = OpcodeField.opcode i

theorem OpcodeField.lw (rd rb : Reg) (off : Int) : OpcodeField.Statement (.lw rd rb off) := fOpcode_enc.2.2.1 _ _ _ _
theorem OpcodeField.lb (rd rb : Reg) (off : Int) : OpcodeField.Statement (.lb rd rb off) := fOpcode_enc.2.2.1 _ _ _ _
theorem OpcodeField.li (rd : Reg) (v : Word) : OpcodeField.Statement (.li rd v) := fOpcode_encRI _ _ _
theorem OpcodeField.stw (rb : Reg) (off : Int) (r : Reg) : OpcodeField.Statement (.stw rb off r) := fOpcode_enc.2.2.1 _ _ _ _
theorem OpcodeField.stb (rb : Reg) (off : Int) (r : Reg) : OpcodeField.Statement (.stb rb off r) := fOpcode_enc.2.2.1 _ _ _ _
theorem OpcodeField.mov (rd rs : Reg) : OpcodeField.Statement (.mov rd rs) := fOpcode_enc.2.1 _ _ _
theorem OpcodeField.swp (rd rs : Reg) : OpcodeField.Statement (.swp rd rs) := fOpcode_enc.2.1 _ _ _
theorem OpcodeField.add (rd : Reg) (o : Operand) : OpcodeField.Statement (.add rd o) := fOpcode_encRI _ _ _
theorem OpcodeField.sub (rd : Reg) (o : Operand) : OpcodeField.Statement (.sub rd o) := fOpcode_encRI _ _ _
theorem OpcodeField.inc (r : Reg) : OpcodeField.Statement (.inc r) := fOpcode_enc.1 _ _
theorem OpcodeField.dec (r : Reg) : OpcodeField.Statement (.dec r) := fOpcode_enc.1 _ _
theorem OpcodeField.mul (rd : Reg) (o : Operand) : OpcodeField.Statement (.mul rd o) := fOpcode_encRI _ _ _
theorem OpcodeField.div (rd : Reg) (o : Operand) : OpcodeField.Statement (.div rd o) := fOpcode_encRI _ _ _
theorem OpcodeField.mod (rd : Reg) (o : Operand) : OpcodeField.Statement (.mod rd o) := fOpcode_encRI _ _ _
theorem OpcodeField.and (rd : Reg) (o : Operand) : OpcodeField.Statement (.and rd o) := fOpcode_encRI _ _ _
theorem OpcodeField.or (rd : Reg) (o : Operand) : OpcodeField.Statement (.or rd o) := fOpcode_encRI _ _ _
theorem OpcodeField.xor (rd : Reg) (o : Operand) : OpcodeField.Statement (.xor rd o) := fOpcode_encRI _ _ _
theorem OpcodeField.not (r : Reg) : OpcodeField.Statement (.not r) := fOpcode_enc.1 _ _
theorem OpcodeField.shiftl (rd : Reg) (o : Operand) : OpcodeField.Statement (.shiftl rd o) := fOpcode_encRI _ _ _
theorem OpcodeField.shiftr (rd : Reg) (o : Operand) : OpcodeField.Statement (.shiftr rd o) := fOpcode_encRI _ _ _
theorem OpcodeField.cmp (rd : Reg) (o : Operand) : OpcodeField.Statement (.cmp rd o) := fOpcode_encRI _ _ _
theorem OpcodeField.cmpu (rd : Reg) (o : Operand) : OpcodeField.Statement (.cmpu rd o) := fOpcode_encRI _ _ _
theorem OpcodeField.be (o : Operand) : OpcodeField.Statement (.be o) := fOpcode_encRI _ _ _
theorem OpcodeField.bne (o : Operand) : OpcodeField.Statement (.bne o) := fOpcode_encRI _ _ _
theorem OpcodeField.bz (o : Operand) : OpcodeField.Statement (.bz o) := fOpcode_encRI _ _ _
theorem OpcodeField.bnz (o : Operand) : OpcodeField.Statement (.bnz o) := fOpcode_encRI _ _ _
theorem OpcodeField.bs (o : Operand) : OpcodeField.Statement (.bs o) := fOpcode_encRI _ _ _
theorem OpcodeField.bns (o : Operand) : OpcodeField.Statement (.bns o) := fOpcode_encRI _ _ _
theorem OpcodeField.bg (o : Operand) : OpcodeField.Statement (.bg o) := fOpcode_encRI _ _ _
theorem OpcodeField.bge (o : Operand) : OpcodeField.Statement (.bge o) := fOpcode_encRI _ _ _
theorem OpcodeField.bl (o : Operand) : OpcodeField.Statement (.bl o) := fOpcode_encRI _ _ _
theorem OpcodeField.ble (o : Operand) : OpcodeField.Statement (.ble o) := fOpcode_encRI _ _ _
theorem OpcodeField.j (o : Operand) : OpcodeField.Statement (.j o) := fOpcode_encRI _ _ _
theorem OpcodeField.push (r : Reg) : OpcodeField.Statement (.push r) := fOpcode_enc.1 _ _
theorem OpcodeField.pop (r : Reg) : OpcodeField.Statement (.pop r) := fOpcode_enc.1 _ _
theorem OpcodeField.call (o : Operand) : OpcodeField.Statement (.call o) := fOpcode_encRI _ _ _
theorem OpcodeField.ret : OpcodeField.Statement (.ret) := fOpcode_enc.1 _ _
theorem OpcodeField.cli : OpcodeField.Statement (.cli) := fOpcode_enc.1 _ _
theorem OpcodeField.sti : OpcodeField.Statement (.sti) := fOpcode_enc.1 _ _
theorem OpcodeField.hlt (o : Operand) : OpcodeField.Statement (.hlt o) := fOpcode_encRI _ _ _
theorem OpcodeField.rst : OpcodeField.Statement (.rst) := fOpcode_enc.1 _ _
theorem OpcodeField.retint : OpcodeField.Statement (.retint) := fOpcode_enc.1 _ _
theorem OpcodeField.inw (rd : Reg) (o : Operand) : OpcodeField.Statement (.inw rd o) := fOpcode_encRI _ _ _
theorem OpcodeField.outw (o : Operand) (r : Reg) : OpcodeField.Statement (.outw o r) := fOpcode_encRI _ _ _
theorem OpcodeField.inb (rd : Reg) (o : Operand) : OpcodeField.Statement (.inb rd o) := fOpcode_encRI _ _ _
theorem OpcodeField.outb (o : Operand) (r : Reg) : OpcodeField.Statement (.outb o r) := fOpcode_encRI _ _ _
theorem OpcodeField.cas (ra re rn : Reg) : OpcodeField.Statement (.cas ra re rn) := fOpcode_enc.2.2.2 _ _ _ _
theorem OpcodeField.int (o : Operand) : OpcodeField.Statement (.int o) := fOpcode_encRI _ _ _

end Sys2Proof.Laws
end

