-- ==== Sys2Proof/Laws/Results.lean ====
section
/-! SUPPORT. The results of the register instructions in integers: the flag helpers of Machine/Flags.lean meet `zsResult`,
`sumResult`, `diffResult`, `intResult` and `branched` of Safety.lean. -/

namespace Sys2Proof.Machine

/-- An allowed instruction whose own rule only writes registers. -/
theorem exec_afterRegs {i : Instr} {s : State} {f : Regs → Regs} (h : Allowed i s = true)
    (hb : bodyOf i s.advanced = .ok () (s.advanced.withRegs (f s.core.regs.advance))) :
    exec i s = .next (s.afterRegs f) := by
  rw [exec_eq, complete_ok h hb]; rfl

/-- In unprivileged mode an unprivileged instruction that names a protected register dies of it (10_state.md R23). -/
theorem exec_protectedDies (i : Instr) (s : State) (h : isPrivileged i = false) : ProtectedDies i s := by
  intro hp r hr
  rw [exec_eq]
  exact complete_protected _ hp h hr

theorem Word.msb_eq (v : Word) : v.msb = decide (32768 ≤ v.toNat) := by
  rw [BitVec.msb_eq_decide]

theorem Word.beq_zero (v : Word) : (v == 0) = decide (v.toNat = 0) := by
  rw [Bool.eq_iff_iff]; simp [← BitVec.toNat_inj]

theorem Regs.setFlags_setFlags (g : Regs) (f h : Flags → Flags) : (g.setFlags f).setFlags h = g.setFlags fun x => h (f x) := rfl

/-- `Z` and `S` of a result (41_arithmetic.md to 42_bitwise.md). -/
theorem write_zs (g : Regs) (rd : Reg) (v : Word) : (g.write rd v).setFlags (Flags.zs v) = zsResult g rd v.toNat := by
  unfold zsResult
  rw [BitVec.ofNat_toNat, BitVec.setWidth_eq]
  congr 1; funext f
  simp only [Flags.zs, Word.msb_eq, Word.beq_zero]

/-- A sum and its flags (41_arithmetic.md R130). -/
theorem write_sum (g : Regs) (rd : Reg) (a b : Word) :
    (g.write rd (a + b)).setFlags (Flags.sum a b) = sumResult g rd a.toNat b.toNat := by
  unfold sumResult zsResult
  rw [Regs.setFlags_setFlags]
  have e : BitVec.ofNat 16 ((a.toNat + b.toNat) % 65536) = a + b := by
    apply BitVec.eq_of_toNat_eq; simp [BitVec.toNat_add]
  have e2 : (a + b).toNat = (a.toNat + b.toNat) % 65536 := BitVec.toNat_add ..
  rw [e]
  congr 1; funext f
  simp only [Flags.sum, Word.msb_eq, Word.beq_zero, e2]

/-- A difference and its flags (41_arithmetic.md R131). -/
theorem write_diff (g : Regs) (rd : Reg) (a b : Word) :
    (g.write rd (a - b)).setFlags (Flags.diff a b) = diffResult g rd a.toNat b.toNat := by
  unfold diffResult zsResult
  rw [Regs.setFlags_setFlags]
  have e2 : (a - b).toNat = (a.toNat + 65536 - b.toNat) % 65536 := by
    rw [BitVec.toNat_sub]; have := b.isLt; have := a.isLt; omega
  have e : BitVec.ofNat 16 ((a.toNat + 65536 - b.toNat) % 65536) = a - b := by
    apply BitVec.eq_of_toNat_eq; rw [e2]; simp
  rw [e]
  congr 1; funext f
  simp only [Flags.diff, Word.beq_zero, e2]

/-- The low 16 bits of an integer and its flags (41_arithmetic.md R134 to R136). -/
theorem write_product (g : Regs) (rd : Reg) (x : Int) :
    (g.write rd (BitVec.ofInt 16 x)).setFlags (Flags.product (BitVec.ofInt 16 x)) = intResult g rd x := by
  unfold intResult zsResult
  rw [Regs.setFlags_setFlags]
  have e2 : (BitVec.ofInt 16 x).toNat = (x % 65536).toNat := by simp [BitVec.toNat_ofInt]
  rw [← e2, BitVec.ofNat_toNat, BitVec.setWidth_eq]
  congr 1; funext f
  simp only [Flags.product, Word.msb_eq, Word.beq_zero]

/-- The effective address in integers (30_encoding.md R105, 20_memory.md R52). -/
theorem eaValue_eq (g : Regs) (rb : Reg) (off : Int) :
    eaValue g rb off = phys g.ds (BitVec.ofInt 16 ((g.read rb).toNat + off)) := by
  unfold eaValue offsetAddress
  congr 1
  rw [BitVec.ofInt_add, BitVec.ofInt_natCast, BitVec.ofNat_toNat, BitVec.setWidth_eq]

theorem targetValue_eq (g : Regs) (o : Operand) : targetValue g o = branchTarget g o := by
  cases o with
  | reg r => rfl
  | imm v =>
    simp only [targetValue, branchTarget]
    apply BitVec.eq_of_toNat_eq
    simp [BitVec.toNat_add]

/-- `Branch(cond)` (43_compare_branch.md R153). -/
theorem branch_run (s : State) (o : Operand) (cond : Flags → Bool) :
    branch cond o s = .ok () (s.withRegs (branched (cond s.core.regs.flags) o s.core.regs)) := by
  simp only [branch, target, bind_run, ask_run, targetValue_eq]
  cases h : cond s.core.regs.flags <;> rfl

/-- The data cache holds what was stored last (20_memory.md R76). -/
theorem wordAt_cacheAfterStore {t : State} {c : Core} {a : Nat} {v : Word} (h : t.core.dcache = cacheAfterStore c a v) :
    wordAt t a = v := by
  unfold wordAt
  rw [h]
  unfold cacheAfterStore
  cases hf : findData a c.dcache with
  | some e => simp [findData_append, findData_removeData, findData]
  | none =>
    have : findData a (roomMade c) = none := by
      rw [findData_eq_none] at hf ⊢
      exact fun e he => hf e (mem_roomMade he)
    simp [findData_append, this, findData]

end Sys2Proof.Machine
end

