-- ==== Sys2Proof/Laws/Transition.lean ====
section
/-! SUPPORT. The ways the core in focus makes its own transition (60_exceptions.md R201), and what each keeps. -/

namespace Sys2Proof.Machine

/-- A next state of the core's own transition comes from an IRQ acceptance, an instruction, or a raise of the fetch. -/
theorem coreTransition_cases {s t : State} (h : coreTransition s = .next t) :
    (acceptEnabled s = true ∧ t = acceptIrq s.begun)
      ∨ (acceptEnabled s = false ∧ stepEnabled s = true
        ∧ ((∃ i u, fetch s.begun = .ok i u ∧ exec i u = .next t)
          ∨ ∃ e u, fetch s.begun = .error e u ∧ t = dieAtFetch e s u)) := by
  unfold coreTransition at h
  cases ha : acceptEnabled s with
  | true => simp only [ha, if_true, Host.Outcome.next.injEq] at h; exact .inl ⟨rfl, h.symm⟩
  | false =>
    cases hs : stepEnabled s with
    | true =>
      simp only [ha, hs, if_true, Bool.false_eq_true, if_false] at h
      cases hf : fetch s.begun with
      | ok i u => rw [hf] at h; exact .inr ⟨rfl, rfl, .inl ⟨i, u, rfl, h⟩⟩
      | error e u => rw [hf] at h; simp only [Host.Outcome.next.injEq] at h; exact .inr ⟨rfl, rfl, .inr ⟨e, u, rfl, h.symm⟩⟩
    | false =>
      simp only [ha, hs, Bool.false_eq_true, if_false, stuck] at h
      split at h
      · cases h
      · split at h
        · cases h
        · split at h <;> cases h

/-- A turn of the core in focus is its own transition, whichever way the script says so. -/
theorem step_of_ownTurn {s : State} (h : OwnTurn s) :
    ∃ u : State, u.core = s.core ∧ u.cfg = s.cfg ∧ u.mc = s.mc ∧ u.begun = s.onTurn ∧ step s = coreTransition u := by
  rcases h with h | ⟨r, h⟩
  · exact ⟨s, rfl, rfl, rfl, by simp [State.begun, State.onTurn, h], by simp [step, h]⟩
  · exact ⟨{ s with agenda := r }, rfl, rfl, rfl, by simp [State.begun, State.onTurn, h], by simp [step, h]⟩

/-- A step that is due fetches and then runs the instruction, or dies at the fetch. -/
theorem step_of_stepDue {s : State} (h : StepDue s) :
    (∀ i t, fetch s.onTurn = .ok i t → step s = exec i t)
      ∧ ∀ e t, fetch s.onTurn = .error e t → step s = .next (die e (fetchSite s) t) := by
  obtain ⟨u, hu, hc, hm, hb, hs⟩ := step_of_ownTurn h.turn
  have hae : acceptEnabled u = false := by
    simp only [acceptEnabled, hu]
    rcases h.noIrq with h | h <;> simp [h]
  have hse : stepEnabled u = true := by simp [stepEnabled, hu, h.alive, h.running, h.awake]
  constructor
  · intro i t hf
    rw [hs]; unfold coreTransition; simp [hae, hse, hb, hf]
  · intro i t hf
    rw [hs]; unfold coreTransition; simp [hae, hse, hb, hf, dieAtFetch, hu]; rfl

theorem fetch_keeps {s u : State} {i : Instr} (h : fetch s = .ok i u) :
    u.core.regs = s.core.regs ∧ u.cfg = s.cfg ∧ u.core.booted = s.core.booted ∧ u.core.alive = s.core.alive := by
  have := Same.fetch.ok h
  simp only [State.offFetch, State.mk.injEq, Core.mk.injEq] at this
  simp_all

theorem fetch_error_keeps {s u : State} {e : Exc} (h : fetch s = .error e u) :
    u.core.regs = s.core.regs ∧ u.cfg = s.cfg ∧ u.core.booted = s.core.booted ∧ u.core.alive = s.core.alive := by
  have := Same.fetch.error h
  simp only [State.offFetch, State.mk.injEq, Core.mk.injEq] at this
  simp_all

/-- What the die transition leaves: the registers, the interrupt stacks, a halted core with exit code 1 and a fault record
(60_exceptions.md R206). -/
theorem die_leaves (e : Exc) (site : FaultSite) (s : State) :
    (die e site s).core.regs = s.core.regs ∧ (die e site s).core.alive = false ∧ (die e site s).core.exitCode = 1
      ∧ (die e site s).core.fault.isSome = true ∧ (die e site s).core.istack = s.core.istack
      ∧ (die e site s).core.idle = s.core.idle ∧ (die e site s).core.booted = s.core.booted := by
  obtain ⟨-, -, h3, -, k2, k3, -, k5, k6, k7, -, k9, -, -⟩ := die_spec e site s
  refine ⟨h3, k3, k6, ?_, k9, k5, k2⟩
  rw [k7]
  show (s.doomed e site).core.fault.isSome = true
  cases hh : s.core.fault <;> simp [State.doomed, hh]

end Sys2Proof.Machine
end

