-- ==== Sys2Proof/Tests/Slice0.lean ====
section
/-! SUPPORT. Tests: the refusals of WellFormed, the decoding of words laid out by the table of 30_encoding.md R102, single steps with
the results that 95_test_vectors.md gives (the V- numbers are its rows), and for every obligation with hypotheses a state and
operands that meet them. -/

namespace Sys2Proof.Tests

set_option Elab.async false

open Machine

/-! ## WellFormed (30_encoding.md R105) -/

theorem test_wf_lw : (Instr.lw .sp .fp 4096).wf = false ∧ (Instr.lw .sp .fp (-4097)).wf = false
    ∧ (Instr.lw .sp .fp 4095).wf = true ∧ (Instr.lw .sp .fp (-4096)).wf = true := by decide
theorem test_wf_lb : (Instr.lb .sp .fp 4096).wf = false ∧ (Instr.lb .sp .fp (-4097)).wf = false := by decide
theorem test_wf_stw : (Instr.stw .sp 4096 .fp).wf = false ∧ (Instr.stw .sp (-4097) .fp).wf = false := by decide
theorem test_wf_stb : (Instr.stb .sp 4096 .fp).wf = false ∧ (Instr.stb .sp (-4097) .fp).wf = false := by decide

/-! ## Decoding: fields laid out by R102, opcodes from R107 -/

theorem test_decode_data_movement :
    decodeWord 0xFFF182C1 = .ok (.lw (.gpr 11) (.gpr 12) (-2))
      ∧ decodeWord 0x000C4642 = .ok (.lb (.gpr 25) .ds 1)
      ∧ decodeWord 0x80010483 = .ok (.li (.gpr 18) 0x8001)
      ∧ decodeWord 0x80034344 = .ok (.stw (.gpr 26) (-4096) (.gpr 13))
      ∧ decodeWord 0x7FF8C545 = .ok (.stb (.gpr 6) 4095 (.gpr 21))
      ∧ decodeWord 0x00048246 = .ok (.mov (.gpr 9) .ip)
      ∧ decodeWord 0x00016987 = .ok (.swp .cnt (.gpr 11)) := by decide

theorem test_decode_arithmetic :
    decodeWord 0x00009948 = .ok (.add .flags (.reg (.gpr 4)))
      ∧ decodeWord 0x855D0948 = .ok (.add .flags (.imm 0x855D))
      ∧ decodeWord 0x00023709 = .ok (.sub (.gpr 28) (.reg (.gpr 17)))
      ∧ decodeWord 0x841D0709 = .ok (.sub (.gpr 28) (.imm 0x841D))
      ∧ decodeWord 0x0000038A = .ok (.inc (.gpr 14))
      ∧ decodeWord 0x0000078B = .ok (.dec (.gpr 30))
      ∧ decodeWord 0x0000B28C = .ok (.mul (.gpr 10) (.reg (.gpr 5)))
      ∧ decodeWord 0x8177028C = .ok (.mul (.gpr 10) (.imm 0x8177))
      ∧ decodeWord 0x0001798D = .ok (.div .cnt (.reg (.gpr 11)))
      ∧ decodeWord 0x8589098D = .ok (.div .cnt (.imm 0x8589))
      ∧ decodeWord 0x0000994E = .ok (.mod .flags (.reg (.gpr 4)))
      ∧ decodeWord 0x855D094E = .ok (.mod .flags (.imm 0x855D)) := by decide

theorem test_decode_bitwise :
    decodeWord 0x0002370F = .ok (.and (.gpr 28) (.reg (.gpr 17)))
      ∧ decodeWord 0x841D070F = .ok (.and (.gpr 28) (.imm 0x841D))
      ∧ decodeWord 0x00043390 = .ok (.or (.gpr 14) (.reg .sp))
      ∧ decodeWord 0x82270390 = .ok (.or (.gpr 14) (.imm 0x8227))
      ∧ decodeWord 0x0003F791 = .ok (.xor (.gpr 30) (.reg (.gpr 31)))
      ∧ decodeWord 0x84750791 = .ok (.xor (.gpr 30) (.imm 0x8475))
      ∧ decodeWord 0x00000292 = .ok (.not (.gpr 10))
      ∧ decodeWord 0x00017993 = .ok (.shiftl .cnt (.reg (.gpr 11)))
      ∧ decodeWord 0x85890993 = .ok (.shiftl .cnt (.imm 0x8589))
      ∧ decodeWord 0x00009954 = .ok (.shiftr .flags (.reg (.gpr 4)))
      ∧ decodeWord 0x855D0954 = .ok (.shiftr .flags (.imm 0x855D)) := by decide

theorem test_decode_compare_branch :
    decodeWord 0x00023715 = .ok (.cmp (.gpr 28) (.reg (.gpr 17)))
      ∧ decodeWord 0x841D0715 = .ok (.cmp (.gpr 28) (.imm 0x841D))
      ∧ decodeWord 0x00043396 = .ok (.cmpu (.gpr 14) (.reg .sp))
      ∧ decodeWord 0x82270396 = .ok (.cmpu (.gpr 14) (.imm 0x8227))
      ∧ decodeWord 0x0003F017 = .ok (.be (.reg (.gpr 31)))
      ∧ decodeWord 0x84750017 = .ok (.be (.imm 0x8475))
      ∧ decodeWord 0x0000B018 = .ok (.bne (.reg (.gpr 5)))
      ∧ decodeWord 0x81770018 = .ok (.bne (.imm 0x8177))
      ∧ decodeWord 0x00017019 = .ok (.bz (.reg (.gpr 11)))
      ∧ decodeWord 0x85890019 = .ok (.bz (.imm 0x8589))
      ∧ decodeWord 0x0000901A = .ok (.bnz (.reg (.gpr 4)))
      ∧ decodeWord 0x855D001A = .ok (.bnz (.imm 0x855D))
      ∧ decodeWord 0x0002301B = .ok (.bs (.reg (.gpr 17)))
      ∧ decodeWord 0x841D001B = .ok (.bs (.imm 0x841D))
      ∧ decodeWord 0x0004301C = .ok (.bns (.reg .sp))
      ∧ decodeWord 0x8227001C = .ok (.bns (.imm 0x8227))
      ∧ decodeWord 0x0003F01D = .ok (.bg (.reg (.gpr 31)))
      ∧ decodeWord 0x8475001D = .ok (.bg (.imm 0x8475))
      ∧ decodeWord 0x0000B01E = .ok (.bge (.reg (.gpr 5)))
      ∧ decodeWord 0x8177001E = .ok (.bge (.imm 0x8177))
      ∧ decodeWord 0x0001701F = .ok (.bl (.reg (.gpr 11)))
      ∧ decodeWord 0x8589001F = .ok (.bl (.imm 0x8589))
      ∧ decodeWord 0x00009020 = .ok (.ble (.reg (.gpr 4)))
      ∧ decodeWord 0x855D0020 = .ok (.ble (.imm 0x855D))
      ∧ decodeWord 0x00023021 = .ok (.j (.reg (.gpr 17)))
      ∧ decodeWord 0x841D0021 = .ok (.j (.imm 0x841D)) := by decide

theorem test_decode_stack_call :
    decodeWord 0x000003A2 = .ok (.push (.gpr 14))
      ∧ decodeWord 0x000007A3 = .ok (.pop (.gpr 30))
      ∧ decodeWord 0x0000B024 = .ok (.call (.reg (.gpr 5)))
      ∧ decodeWord 0x81770024 = .ok (.call (.imm 0x8177))
      ∧ decodeWord 0x00000025 = .ok (.ret) := by decide

theorem test_decode_privileged_io :
    decodeWord 0x00000026 = .ok (.cli)
      ∧ decodeWord 0x00000027 = .ok (.sti)
      ∧ decodeWord 0x00043028 = .ok (.hlt (.reg .sp))
      ∧ decodeWord 0x82270028 = .ok (.hlt (.imm 0x8227))
      ∧ decodeWord 0x00000029 = .ok (.rst)
      ∧ decodeWord 0x0000002A = .ok (.retint)
      ∧ decodeWord 0x000179AB = .ok (.inw .cnt (.reg (.gpr 11)))
      ∧ decodeWord 0x858909AB = .ok (.inw .cnt (.imm 0x8589))
      ∧ decodeWord 0x0000996C = .ok (.outw (.reg (.gpr 4)) .flags)
      ∧ decodeWord 0x855D096C = .ok (.outw (.imm 0x855D) .flags)
      ∧ decodeWord 0x0002372D = .ok (.inb (.gpr 28) (.reg (.gpr 17)))
      ∧ decodeWord 0x841D072D = .ok (.inb (.gpr 28) (.imm 0x841D))
      ∧ decodeWord 0x000433AE = .ok (.outb (.reg .sp) (.gpr 14))
      ∧ decodeWord 0x822703AE = .ok (.outb (.imm 0x8227) (.gpr 14)) := by decide

theorem test_decode_atomic_interrupt :
    decodeWord 0x005BE7AF = .ok (.cas (.gpr 30) (.gpr 31) (.gpr 11))
      ∧ decodeWord 0x0000B030 = .ok (.int (.reg (.gpr 5)))
      ∧ decodeWord 0x81770030 = .ok (.int (.imm 0x8177)) := by decide

/-- What R108 rejects: V-EN-1 to V-EN-8, V-EN-10 to V-EN-13, V-EN-15 to V-EN-18, V-EN-20 to V-EN-22, V-EN-24. -/
theorem test_decode_rejects :
    ([0x00000000, 0x00000031, 0x0000003F].all fun w => decodeWord w == .error .illegalOpcode) = true
      ∧ ([0x00000065, 0x00001025, 0x00010025, 0x0000100A, 0x00052003, 0x00083008, 0x00052008, 0x00000057, 0x00001046,
          0x02000006, 0x00005041, 0x0218406F, 0x0000009E].all fun w => decodeWord w == .error .reservedBit) = true
      ∧ ([0x000009CA, 0x0004F017, 0x0138406F].all fun w => decodeWord w == .error .noSuchRegister) = true
      ∧ decodeWord 0x00001003 = .error .liRegisterForm := by decide

/-- Little-endian bytes, and too few of them (20_memory.md R59, 30_encoding.md R100). -/
theorem test_decode_bytes : decodeBytes [0x03, 0x00, 0x05, 0x00, 0xFF] = .ok (.li (.gpr 0) 5, [0xFF])
    ∧ decodeBytes [0x03, 0x00, 0x05] = .error .truncated := by decide

/-! ## Single steps from the start state S0 of 95_test_vectors.md -/

/-- A page with the given flags. -/
def page (r w x : Bool) : Page := { read := r, write := w, execute := x, dirty := false, kind := .anonymous }

/-- S0: configuration K0, a code page 0x100 and a data page 0x101, booted at segment 1. -/
def s0 : State :=
  { State.reset with
    core := (Core.powerOn { icache := 8, dcache := 8 }).boot { cs := 1, ds := 1, ip := 0, sp := 0x200, fp := 0x200 }
    mc := { MC.powerOn with pages := [(0x100, page true false true), (0x101, page true true false)] } }

/-- A register set. -/
def set (r : Reg) (v : Word) (s : State) : State := s.withRegs (s.core.regs.write r v)

/-- A general register set. -/
def gpr (n : Fin 32) (v : Word) (s : State) : State := set (.gpr n) v s

/-- A word of memory set. -/
def half (a : Nat) (v : Word) (s : State) : State := s.withMC { s.mc with cells := s.mc.cells.writeAll a (bytesOfHalf v) }

/-- Privileged mode with IRQs on: FLAGS = 0x0003. -/
def priv (s : State) : State := set .flags 3 s

/-- The state after a step that runs this word at CS:IP. -/
def ran (w : Nat) (s : State) : State :=
  match step (s.withFetchWord 32 w) with
  | .next t => t
  | _ => s

/-- General register n, FLAGS, and the kind and info of a recorded fault. -/
def rd (n : Fin 32) (s : State) : Word := s.core.regs.read (.gpr n)
def fl (s : State) : Word := s.core.regs.read .flags
def fault (s : State) : Option (ExcKind × ExcInfo) := s.core.fault.map fun f => (f.exc.kind, f.exc.info)

theorem test_fetch_misaligned : -- V-FE-1
    let t := match step (set .ip 2 s0) with | .next t => t | _ => s0
    fault t = some (.misalignedAccess, .address 0x10002) ∧ t.core.regs.ip = 2 ∧ t.core.alive = false := by decide +kernel
theorem test_fetch_illegal : -- V-FE-4
    let t := match step (set .ip 4 s0) with | .next t => t | _ => s0
    fault t = some (.invalidOpcode, .word 0) ∧ t.core.icache = [] := by decide +kernel
theorem test_lw : -- V-DM-1
    let t := ran 0x00004041 (half 0x10110 0xBEEF (gpr 2 0x110 s0))
    rd 1 t = 0xBEEF ∧ fl t = 0x22 ∧ t.core.dcache = [⟨0x10110, false, 0xBEEF⟩] := by decide +kernel
theorem test_lw_misaligned : -- V-DM-4
    let t := ran 0x00084041 (gpr 2 0x110 s0)
    fault t = some (.misalignedAccess, .address 0x10111) ∧ rd 1 t = 0 := by decide +kernel
theorem test_lb : -- V-DM-7
    let t := ran 0x000040C2 (half 0x10110 0x80 (gpr 2 0x110 s0))
    rd 3 t = 0x80 ∧ fl t = 2 := by decide +kernel
theorem test_li : -- V-DM-9
    let t := ran 0x80000003 s0
    rd 0 t = 0x8000 ∧ fl t = 0x22 ∧ t.core.regs.ip = 4 ∧ t.core.regs.cnt = 1 := by decide +kernel
theorem test_li_cnt : (ran 0xFFFF0983 (priv s0)).core.regs.cnt = 0 := by decide +kernel -- V-RG-5
theorem test_stw : -- V-DM-11
    let t := ran 0x00004044 (gpr 1 0x1234 (gpr 2 0x120 s0))
    t.core.dcache = [⟨0x10120, true, 0x1234⟩] ∧ t.mc.u16At 0x10120 = 0 := by decide +kernel
theorem test_stw_denied : -- V-DM-13
    let t := ran 0x00004044 (gpr 1 0x1234 (gpr 2 0x10 s0))
    fault t = some (.accessViolation, .address 0x10010) ∧ t.core.dcache = [] := by decide +kernel
theorem test_stb : -- V-DM-15
    (ran 0x00084045 (gpr 1 0xABCD (gpr 2 0x130 s0))).mc.u16At 0x10130 = 0xCD00 := by decide +kernel
theorem test_mov_ds : (ran 0x00002886 (gpr 1 0x1203 (priv s0))).core.regs.ds = 3 := by decide +kernel -- V-DM-18
theorem test_mov_ip : rd 1 (ran 0x00048046 (priv s0)) = 4 := by decide +kernel -- V-DM-19
theorem test_swp : -- V-DM-20
    let t := ran 0x00004047 (gpr 1 1 (gpr 2 2 s0))
    rd 1 t = 2 ∧ rd 2 t = 1 := by decide +kernel
theorem test_add_carry : -- V-AR-1
    let t := ran 0x00010008 (gpr 0 0xFFFF s0)
    rd 0 t = 0 ∧ fl t = 0x1A := by decide +kernel
theorem test_add_sign : -- V-AR-2
    let t := ran 0x00010008 (gpr 0 0x7FFF s0)
    rd 0 t = 0x8000 ∧ fl t = 0x22 := by decide +kernel
theorem test_sub_borrow : -- V-AR-7
    let t := ran 0x00003009 (gpr 0 1 (gpr 1 0x8000 s0))
    rd 0 t = 0x8001 ∧ fl t = 0x22 := by decide +kernel
theorem test_sub_self : -- V-AR-8
    let t := ran 0x00003049 (set .flags 0x12 (gpr 1 0x5555 s0))
    rd 1 t = 0 ∧ fl t = 0x0A := by decide +kernel
theorem test_inc : -- V-AR-10
    let t := ran 0x0000000A (gpr 0 0x7FFF s0)
    rd 0 t = 0x8000 ∧ fl t = 0x22 := by decide +kernel
theorem test_inc_protected : -- V-RG-1
    let t := ran 0x0000084A s0
    fault t = some (.accessViolation, .register 33) ∧ t.core.regs.sp = 0x200 := by decide +kernel
theorem test_dec : -- V-AR-11
    let t := ran 0x0000000B s0
    rd 0 t = 0xFFFF ∧ fl t = 0x22 := by decide +kernel
theorem test_mul : -- V-AR-13
    let t := ran 0x0000300C (gpr 0 0x8000 (gpr 1 0xFFFF s0))
    rd 0 t = 0x8000 ∧ fl t = 0x22 := by decide +kernel
theorem test_div_floor : -- V-AR-17
    let t := ran 0x0002000D (gpr 0 0xFFF9 s0)
    rd 0 t = 0xFFFC ∧ fl t = 0x22 := by decide +kernel
theorem test_div_trunc : -- V-AR-16
    rd 0 (ran 0x0002000D (gpr 0 0xFFF9 { s0 with cfg := { s0.cfg with divRound := .trunc } })) = 0xFFFD := by decide +kernel
theorem test_mod_floor : -- V-AR-21
    let t := ran 0xFFFE000E (gpr 0 7 s0)
    rd 0 t = 0xFFFF ∧ fl t = 0x22 := by decide +kernel
theorem test_mod_zero : -- V-AR-27
    let t := ran 0x0000000E (gpr 0 0xFFFF s0)
    fault t = some (.arithmeticFault, .modulo) ∧ rd 0 t = 0xFFFF := by decide +kernel
theorem test_and : -- V-BW-2
    let t := ran 0x0000004F (set .flags 0x12 (gpr 1 0xF0F0 s0))
    rd 1 t = 0 ∧ fl t = 0x1A := by decide +kernel
theorem test_or : rd 1 (ran 0x80010050 (gpr 1 0x0F00 s0)) = 0x8F01 := by decide +kernel -- V-BW-3
theorem test_xor : rd 1 (ran 0x00003051 (gpr 1 0xABCD s0)) = 0 := by decide +kernel -- V-BW-4
theorem test_not : rd 4 (ran 0x00000112 (gpr 4 0xFF s0)) = 0xFF00 := by decide +kernel -- V-BW-5
theorem test_shiftl : rd 1 (ran 0x00010053 (gpr 1 0x4001 s0)) = 0x8002 := by decide +kernel -- V-BW-7
theorem test_shiftl_whole : rd 1 (ran 0x00100053 (gpr 1 1 s0)) = 0 := by decide +kernel -- V-BW-9
theorem test_shiftr : rd 1 (ran 0x00010054 (gpr 1 0x8000 s0)) = 0x4000 := by decide +kernel -- V-BW-13
theorem test_shiftr_whole : rd 1 (ran 0x00110054 (gpr 1 0xFFFF s0)) = 0 := by decide +kernel -- V-BW-14
theorem test_cmp : -- V-CB-6, V-CB-7
    fl (ran 0x00003015 (gpr 0 0x8000 (gpr 1 0x7FFF s0))) = 0x22 ∧ fl (ran 0x00003015 (gpr 0 1 (gpr 1 0xFFFF s0))) = 2 := by
  decide +kernel
theorem test_cmpu : -- V-CB-6, V-CB-4
    fl (ran 0x00003016 (gpr 0 0x8000 (gpr 1 0x7FFF s0))) = 2 ∧ fl (ran 0x00003016 s0) = 0x0E := by decide +kernel
/-- V-CB-9: after a compare of x < y, each branch `B 8`. -/
theorem test_branches_less :
    ([0x17, 0x18, 0x19, 0x1A, 0x1B, 0x1C, 0x1D, 0x1E, 0x1F, 0x20, 0x21].map fun op =>
        (ran (0x80000 + op) (set .flags 0x22 s0)).core.regs.ip)
      = [4, 12, 4, 12, 12, 4, 4, 4, 12, 12, 12] := by decide +kernel
/-- V-CB-11: after a compare of 0 with 0. -/
theorem test_branches_equal :
    ([0x17, 0x18, 0x19, 0x1A, 0x1B, 0x1C, 0x1D, 0x1E, 0x1F, 0x20, 0x21].map fun op =>
        (ran (0x80000 + op) (set .flags 0x0E s0)).core.regs.ip)
      = [12, 4, 12, 4, 4, 12, 4, 12, 4, 12, 12] := by decide +kernel
theorem test_j_register : (ran 0x00009021 (gpr 4 0x100 s0)).core.regs.ip = 0x100 := by decide +kernel -- V-CB-13
theorem test_push : -- V-SC-3
    let t := ran 0x00000862 (priv s0)
    t.core.regs.sp = 0x1FE ∧ t.core.dcache = [⟨0x101FE, true, 0x200⟩] := by decide +kernel
theorem test_push_misaligned : -- V-SC-5
    let t := ran 0x00000062 (set .sp 0x201 s0)
    fault t = some (.misalignedAccess, .address 0x101FF) ∧ t.core.regs.sp = 0x1FF := by decide +kernel
theorem test_pop : -- V-SC-4
    (ran 0x00000863 (half 0x101FE 0x150 (set .sp 0x1FE (priv s0)))).core.regs.sp = 0x150 := by decide +kernel
theorem test_call : -- V-SC-9
    let t := ran 0x0000B024 (gpr 5 0x40 s0)
    t.core.regs.ip = 0x40 ∧ t.core.regs.sp = 0x1FC ∧ t.core.regs.fp = 0x1FC
      ∧ t.core.dcache = [⟨0x101FE, true, 4⟩, ⟨0x101FC, true, 0x200⟩] := by decide +kernel
theorem test_ret : -- the second half of V-SC-11
    let t := ran 0x00000025 (ran 0x00000024 s0)
    t.core.regs.ip = 4 ∧ t.core.regs.sp = 0x200 ∧ t.core.regs.fp = 0x200 ∧ t.core.frames = [] := by decide +kernel
theorem test_ret_underflow : -- V-SC-10
    fault (ran 0x00000025 s0) = some (.cpuException .frameUnderflow, .nothing) := by decide +kernel
theorem test_cli : fl (ran 0x00000026 (priv s0)) = 1 := by decide +kernel -- V-PR-2
theorem test_cli_user : -- V-PR-1
    fault (ran 0x00000026 s0) = some (.accessViolation, .instruction) := by decide +kernel
theorem test_sti : fl (ran 0x00000027 (set .flags 1 s0)) = 3 := by decide +kernel -- V-PR-3
theorem test_hlt : -- V-PR-5
    let t := ran 0x00030028 (priv s0)
    t.core.exitCode = 3 ∧ t.core.alive = false ∧ t.core.running = false ∧ t.core.regs.cnt = 1 := by decide +kernel
theorem test_hlt_flush : -- the second half of V-PR-7
    let t := ran 0x00000028 (priv { s0 with core := { s0.core with dcache := [⟨0x10120, true, 0x1234⟩] } })
    t.mc.u16At 0x10120 = 0x1234 ∧ t.core.dcache = [⟨0x10120, false, 0x1234⟩] := by decide +kernel
theorem test_rst : -- V-PR-8
    let t := ran 0x00000029 (set .cnt 7 (gpr 5 9 (set .flags 0x29 s0)))
    rd 5 t = 0 ∧ fl t = 2 ∧ t.core.regs.sp = 0x200 ∧ t.core.regs.cnt = 8 := by decide +kernel
theorem test_retint_underflow : -- V-PR-9
    fault (ran 0x0000002A (priv s0)) = some (.cpuException .frameUnderflow, .nothing) := by decide +kernel
theorem test_in : rd 0 (ran 0x0100002B { s0 with portAnswers := [0x41] }) = 0x41 := by decide +kernel -- V-PR-11
theorem test_inb : rd 2 (ran 0x020000AD (priv { s0 with portAnswers := [0x1234] })) = 0x34 := by decide +kernel -- V-PR-12
theorem test_out : -- V-PR-16
    (ran 0x0000316C (gpr 1 0x100 (gpr 5 0x0A0D s0))).history = [.portWrite16 0x100 0x0A0D] := by decide +kernel
theorem test_out_absent : -- V-PR-14
    fault (ran 0x0300016C s0) = some (.resourceNotFound, .port 0x300) := by decide +kernel
theorem test_outb : (ran 0x0100016E (gpr 5 0x1241 s0)).history = [.portWrite8 0x100 0x41] := by decide +kernel -- V-PR-15
theorem test_cas : -- V-AT-1
    let t := ran 0x0018406F (gpr 1 0x140 (gpr 3 1 s0))
    t.mc.u16At 0x10140 = 1 ∧ fl t = 6 ∧ rd 2 t = 0 := by decide +kernel
theorem test_cas_observed : -- V-AT-5
    let t := ran 0x0018206F (half 0x10140 7 (gpr 1 0x140 (gpr 3 5 s0)))
    rd 1 t = 7 ∧ fl t = 2 ∧ t.mc.u16At 0x10140 = 7 := by decide +kernel

/-- M0 of 95_test_vectors.md: S0 with INT vector 0 at 2:0000, IRQ vector 1 at 2:0010 and a handler page. -/
def m0 : State :=
  half 0x40 0x202 (half 6 0x10 (half 4 0x202 { s0 with
    mc := { s0.mc with pages := [(0, page false false false), (0x100, page true false true), (0x101, page true true false),
      (0x200, page true false true)] } }))

theorem test_int_virtual : -- V-AT-8
    let t := ran 0x00050030 { s0 with
      cfg := { s0.cfg with vint := [5] }
      vintAnswers := [.ok ((Vector.replicate 32 0).set 0 0x77) [.half 0x10150 0xCAFE]] }
    rd 0 t = 0x77 ∧ t.mc.u16At 0x10150 = 0xCAFE ∧ t.core.regs.ip = 4 ∧ t.core.dcache = [] := by decide +kernel
theorem test_int_entry : -- L3, the common end state before the handler runs
    let t := ran 0x00000030 m0
    t.core.regs.cs = 2 ∧ t.core.regs.ds = 2 ∧ t.core.regs.ip = 0 ∧ t.core.regs.sp = 0x1B4 ∧ fl t = 1
      ∧ t.core.istack = [0x201] ∧ t.core.evictions = 30 := by decide +kernel
theorem test_irq_then_retint : -- L1-4, points c and e
    let t := match step { m0 with core := { m0.core with idle := true, pending := [1] } } with | .next t => t | _ => m0
    let u := ran 0x0000002A t
    t.core.regs.ip = 0x10 ∧ t.core.idle = false ∧ fl t = 1 ∧ u.core.regs.cs = 1 ∧ u.core.regs.ds = 1 ∧ u.core.regs.ip = 0
      ∧ u.core.regs.sp = 0x200 ∧ fl u = 2 ∧ u.core.istack = [] ∧ u.core.frames = [] ∧ u.core.dcache = []
      ∧ u.mc.page 0x201 = none := by decide +kernel

/-- DECODE as a parameter (00_scope.md R4): a decoder in which the word 0 is INC R1 and no other word is an instruction. -/
theorem test_decoder_table :
    let s : State := { s0 with cfg := { s0.cfg with decoder := .table [(0, .inc (.gpr 1))] } }
    rd 1 (ran 0 s) = 1 ∧ fault (ran 0x00050003 s) = some (.invalidOpcode, .word 0x00050003) := by decide +kernel

/-- What a run of host actions from power-on leaves. -/
def asks (l : List HostAction) : State :=
  l.foldl (fun s a => match hostAction a s with | .next t => t | _ => s) State.reset

/-- A freed segment is the next one allocated, and segment 0 is not freed (20_memory.md R55; log 27). -/
theorem test_segment_pool :
    (asks [.allocSegment, .allocSegment, .freeSegment 1]).mc.segments = [0, 2]
      ∧ (asks [.allocSegment, .freeSegment 1, .allocSegment]).history = [.segment 1, .segment 1]
      ∧ (asks [.freeSegment 0, .freeSegment 3]).mc.segments = [0] := by decide +kernel
/-- Pages by segment and in the whole space (20_memory.md R56). -/
theorem test_alloc_page :
    (asks [.allocPage (some 1) ⟨true, true, false⟩, .allocPage none ⟨true, true, false⟩,
      .allocPage none ⟨true, true, false⟩]).history = [.page 0x100, .page 0, .page 1] := by decide +kernel

/-! ## Witnesses: for each obligation with hypotheses, a state and operands that meet them, clause by clause -/

theorem coherent_of {s : State} {a : Nat}
    (h : (match findData a s.core.dcache with
      | some e => e.dirty || e.value == s.mc.u16At a
      | none => true) = true) : Coherent s a := by
  intro e he hd
  rw [he] at h
  simpa [hd] using h

theorem roomOk_of {s : State} {a : Nat} (h : evictedBy s.core a = none) : RoomOk s a := by
  intro e he
  rw [h] at he
  cases he

/-- S0 with a dirty word in the data cache. -/
def s1 : State := { s0 with core := { s0.core with dcache := [⟨0x10120, true, 0x1234⟩] } }

/-- A run that answers, by evaluation. -/
theorem ok_left {x : M Unit} {s : State} (h : (match x s with | .ok _ _ => true | .error _ _ => false) = true) :
    x s = .ok () (left (x s)) := by
  cases hx : x s with
  | ok _ t => rfl
  | error _ t => rw [hx] at h; cases h

theorem eq_some_getD {o : Option State} {d : State} (h : o.isSome = true) : o = some (o.getD d) := by
  cases o with
  | none => cases h
  | some s => rfl

/-- The end of memory: `DS` = 3 and a data page 0x3FF, whose last word is at 0x3FFFE. -/
def edge : State :=
  gpr 1 0xFFFE (gpr 2 0xFFFF (set .ds 3 { s1 with
    mc := { s1.mc with pages := [(0x100, page true false true), (0x101, page true true false), (0x3FF, page true true false)] } }))

/-- A data cache of one entry, full and dirty: the next miss evicts it. -/
def full : State :=
  { edge with core := { edge.core with sizes := ⟨1, 1⟩, dcache := [⟨0x10120, true, 0x1234⟩] } }

/-- Stores are checked at their write-back, and a data cache of one entry holds a dirty word of page 0x100, which may not be written:
the next miss is refused. -/
def refused : State :=
  { edge with
    cfg := { edge.cfg with writeCheck := .atWriteback }
    core := { edge.core with sizes := ⟨1, 1⟩, dcache := [⟨0x10010, true, 0x1234⟩] } }

/-- The raise of that write-back, in every state that data accesses see alike. -/
theorem refused_fails (s : State) (h : s.cfg = refused.cfg) (hp : (s.mc.pageView s.cfg 0x100).write = false) :
    WriteBackFails s ⟨0x10010, true, 0x1234⟩ (refusal ⟨0x10010, true, 0x1234⟩) (s.touched 0x100) :=
  .inr (.inr ⟨by decide, by rw [h]; decide, by rw [h]; rfl, hp, rfl, rfl⟩)

/-- A cache with a refused dirty word before a permitted one. -/
def mixed : State :=
  priv { refused with core := { refused.core with sizes := ⟨8, 8⟩, dcache := [⟨0x10010, true, 0x1234⟩, ⟨0x10120, true, 7⟩] } }

theorem firstRefused_mixed : FirstRefused mixed ⟨0x10010, true, 0x1234⟩ ∧ DataKeysDistinct mixed
    ∧ mixed.core.regs.flags.p = true ∧ mixed.core.alive = true ∧ WriteBackOk mixed ⟨0x10120, true, 7⟩ := by
  refine ⟨⟨rfl, by unfold WriteBackOk; decide +kernel, [], [⟨0x10120, true, 7⟩], rfl, by simp⟩, ?_, rfl, rfl, ?_⟩
  · unfold DataKeysDistinct; decide +kernel
  · unfold WriteBackOk; decide +kernel

theorem wit_evictable_s1 : AllWriteBackOk s1 ∧ DataKeysDistinct s1 := by
  unfold AllWriteBackOk WriteBackOk DataKeysDistinct; decide +kernel
theorem wit_evictable_edge : AllWriteBackOk edge ∧ DataKeysDistinct edge := by
  unfold AllWriteBackOk WriteBackOk DataKeysDistinct; decide +kernel
theorem wit_evictable_full : AllWriteBackOk full ∧ DataKeysDistinct full := by
  unfold AllWriteBackOk WriteBackOk DataKeysDistinct; decide +kernel

theorem wit_EncodeThenDecode : (Instr.lw .cnt .ip 4095).wf = true ∧ (Instr.stb .cnt (-4096) .fp).wf = true := by decide
theorem wit_DecodeThenEncode : decodeWord 0xFFF04041 = .ok (.lw (.gpr 1) (.gpr 2) (-2)) := by decide
theorem wit_DecodeAcceptsTableForms : (tableForms.any fun f => f.has 0x000009AA) = false
    ∧ (tableForms.any fun f => f.has 0x0000098A) = true ∧ decodeWord 0x0000098A = .ok (.inc .cnt) := by decide
theorem wit_RegisterWriteThenRead : (Reg.gpr 31) ≠ .fp ∧ (Reg.ds) ≠ .cs := by decide
theorem wit_PowerOnSatisfiesInvariant :
    Config.wf { Config.k0 with memSize := 65536 } = true ∧ Config.wf { Config.k0 with memSize := 16777216 } = true
      ∧ ∀ z ∈ [CacheSizes.mk 1 1, CacheSizes.mk 8 8], 1 ≤ z.icache ∧ 1 ≤ z.dcache := by decide

/-- A host action first in the script. -/
def asked (a : HostAction) (s : State) : State := { s with agenda := [.host a] }

theorem wit_BootStartsCore :
    (asked (.boot ⟨1, 1, 0, 0x200, 0x200⟩) State.reset).core.booted = false
      ∧ (asked (.boot ⟨1, 1, 0, 0x200, 0x200⟩) State.reset).core.alive = false
      ∧ (asked (.boot ⟨1, 1, 0, 0x200, 0x200⟩) s0).core.booted = true := by decide

/-- S0 with a word at the last place of its code page, where `IP` points. -/
def atFC (w : Nat) (s : State) : State :=
  let t := set .ip 0xFC s
  t.withMC { t.mc with cells := t.mc.cells.writeAll 0x100FC (bytesOfWord (BitVec.ofNat 32 w)) }

theorem stepDue_s0 (a : Nat) : StepDue (atFC a s0) := ⟨.inl rfl, rfl, rfl, rfl, .inr rfl⟩
theorem fetchOk_s0 (a : Nat) : FetchOk (atFC a s0) 0x100FC :=
  ⟨(by decide : 0x100FC = phys 1 0xFC), by decide, (by decide : 0x100FC + 4 ≤ 0x40000), fun _ => rfl⟩

theorem wit_StepRunsFetchedInstruction_miss :
    StepDue (atFC 0x00050003 s0) ∧ FetchOk (atFC 0x00050003 s0) 0x100FC
      ∧ findIns 0x100FC (atFC 0x00050003 s0).core.icache = none
      ∧ decodeWith (atFC 0x00050003 s0).cfg.decoder ((atFC 0x00050003 s0).mc.u32At 0x100FC) = some (.li (.gpr 0) 5) :=
  ⟨stepDue_s0 _, fetchOk_s0 _, rfl, by decide +kernel⟩
theorem wit_StepRunsFetchedInstruction_table :
    let s : State := { atFC 0 s0 with cfg := { s0.cfg with decoder := .table [(0, .inc (.gpr 1))] } }
    StepDue s ∧ FetchOk s 0x100FC ∧ findIns 0x100FC s.core.icache = none
      ∧ decodeWith s.cfg.decoder (s.mc.u32At 0x100FC) = some (.inc (.gpr 1)) :=
  ⟨⟨.inl rfl, rfl, rfl, rfl, .inr rfl⟩, ⟨(by decide : 0x100FC = phys 1 0xFC), by decide, (by decide : 0x100FC + 4 ≤ 0x40000), fun _ => rfl⟩, rfl, by decide +kernel⟩
theorem wit_StepRunsFetchedInstruction_hit :
    let s := (atFC 0 s0).withIns [⟨0x100FC, .ret⟩]
    StepDue s ∧ FetchOk s 0x100FC ∧ findIns 0x100FC s.core.icache = some .ret :=
  ⟨⟨.inl rfl, rfl, rfl, rfl, .inr rfl⟩, ⟨(by decide : 0x100FC = phys 1 0xFC), by decide, by decide, fun _ => rfl⟩, rfl⟩
theorem wit_FetchFaultsKill_misaligned : StepDue (set .ip 2 s0) ∧ phys (set .ip 2 s0).core.regs.cs (set .ip 2 s0).core.regs.ip % 4 ≠ 0 :=
  ⟨⟨.inl rfl, rfl, rfl, rfl, .inr rfl⟩, by decide⟩
theorem wit_FetchFaultsKill_bounds :
    let s := set .cs 4 s0
    StepDue s ∧ phys s.core.regs.cs s.core.regs.ip % 4 = 0 ∧ ¬ phys s.core.regs.cs s.core.regs.ip + 4 ≤ s.cfg.memSize :=
  ⟨⟨.inl rfl, rfl, rfl, rfl, .inr rfl⟩, by decide, by decide⟩
theorem wit_FetchFaultsKill_execute :
    let s := set .ip 0xFFFC (set .cs 3 s0)
    StepDue s ∧ phys s.core.regs.cs s.core.regs.ip % 4 = 0 ∧ phys s.core.regs.cs s.core.regs.ip + 4 ≤ s.cfg.memSize
      ∧ s.cfg.fetchExecCheck = true
      ∧ (s.mc.pageView s.cfg (pageOf (phys s.core.regs.cs s.core.regs.ip))).execute = false :=
  ⟨⟨.inl rfl, rfl, rfl, rfl, .inr rfl⟩, by decide, by decide, rfl, by decide⟩
theorem wit_FetchFaultsKill_illegal :
    StepDue (atFC 0 s0) ∧ FetchOk (atFC 0 s0) 0x100FC ∧ findIns 0x100FC (atFC 0 s0).core.icache = none
      ∧ decodeWith (atFC 0 s0).cfg.decoder ((atFC 0 s0).mc.u32At 0x100FC) = none :=
  ⟨stepDue_s0 _, fetchOk_s0 _, rfl, by decide +kernel⟩
theorem wit_StuckStates_notBooted : OwnTurn State.reset ∧ State.reset.core.booted = false ∧ State.reset.core.alive = false :=
  ⟨.inl rfl, rfl, rfl⟩
theorem wit_StuckStates_halted :
    let s : State := { s0 with core := s0.core.stopped, agenda := [.run] }
    OwnTurn s ∧ s.core.booted = true ∧ s.core.alive = false := ⟨.inr ⟨[], rfl⟩, rfl, rfl⟩
theorem wit_StuckStates_suspended :
    let s : State := { s0 with core := { s0.core with running := false } }
    OwnTurn s ∧ s.core.booted = true ∧ s.core.alive = true ∧ s.core.running = false := ⟨.inl rfl, rfl, rfl, rfl⟩
theorem wit_StuckStates_idle :
    let s : State := { s0 with core := { s0.core with idle := true } }
    OwnTurn s ∧ s.core.booted = true ∧ s.core.alive = true ∧ s.core.running = true ∧ s.core.idle = true
      ∧ (s.core.regs.flags.h = false ∨ s.core.pending = []) := ⟨.inl rfl, rfl, rfl, rfl, rfl, .inr rfl⟩
theorem wit_HaltedIsTerminal :
    let s : State := asked (.enqueueIrq 1) { s0 with core := s0.core.stopped }
    s.core.booted = true ∧ s.core.alive = false ∧ (∀ k, s.agenda.head? ≠ some (.select k))
      ∧ step s = .next { s with agenda := [], core := { s.core with pending := [1] } } :=
  ⟨rfl, rfl, by simp [asked], rfl⟩
theorem wit_PrivilegedInstructionNeedsP :
    s0.core.regs.flags.p = false ∧ ∀ r ∈ regFields (.mov (.gpr 31) (.gpr 0)), r.num < 32 := by decide
theorem wit_ProtectedRegisterNeedsP :
    s0.core.regs.flags.p = false ∧ isPrivileged (.swp (.gpr 31) .fp) = false
      ∧ (regFields (.swp (.gpr 31) .fp)).find? (fun q => decide (32 ≤ q.num)) = some .fp
      ∧ isPrivileged (.push (.gpr 31)) = false ∧ ∀ r ∈ regFields (.push (.gpr 31)), r.num < 32 := by decide
/-- A protected register in the first and in the last field, for the statements that hold `ProtectedDies`. -/
theorem wit_ProtectedDies :
    s0.core.regs.flags.p = false
      ∧ ([Instr.li .fp 1, .mov .fp (.gpr 0), .swp .fp (.gpr 0), .add .fp (.imm 1), .inc .fp, .sub .fp (.imm 1), .dec .fp,
          .and .fp (.imm 1), .or .fp (.imm 1), .xor .fp (.imm 1), .not .fp, .shiftl .fp (.imm 1), .shiftr .fp (.imm 1),
          .cmp .fp (.imm 1), .cmpu .fp (.imm 1), .be (.reg .fp), .bne (.reg .fp), .bz (.reg .fp), .bnz (.reg .fp),
          .bs (.reg .fp), .bns (.reg .fp), .bg (.reg .fp), .bge (.reg .fp), .bl (.reg .fp), .ble (.reg .fp), .j (.reg .fp)].all
          fun i => (regFields i).find? (fun q => decide (32 ≤ q.num)) == some .fp) = true
      ∧ ([Instr.mov (.gpr 0) .cnt, .swp (.gpr 0) .cnt, .add (.gpr 31) (.reg .cnt), .sub (.gpr 31) (.reg .cnt),
          .and (.gpr 31) (.reg .cnt), .or (.gpr 31) (.reg .cnt), .xor (.gpr 31) (.reg .cnt), .shiftl (.gpr 31) (.reg .cnt),
          .shiftr (.gpr 31) (.reg .cnt), .cmp (.gpr 31) (.reg .cnt), .cmpu (.gpr 31) (.reg .cnt)].all
          fun i => (regFields i).find? (fun q => decide (32 ≤ q.num)) == some .cnt) = true := by decide
theorem wit_DieHaltsTheCore :
    mixed.core.alive = true ∧ DataKeysDistinct mixed ∧ ¬ WriteBackOk mixed ⟨0x10010, true, 0x1234⟩
      ∧ WriteBackOk mixed ⟨0x10120, true, 7⟩ ∧ ({ s1 with core := s1.core.stopped } : State).core.alive = false :=
  ⟨rfl, firstRefused_mixed.2.1, firstRefused_mixed.1.2.1, firstRefused_mixed.2.2.2.2, rfl⟩
/-- An instruction that completes, and one that names `CNT` and raises. -/
theorem wit_CounterCountsCompletions :
    Reg.cnt ∉ regFields (.li (.gpr 0) 5) ∧ s0.core.fault = none
      ∧ (∃ t, exec (.li (.gpr 0) 5) s0 = .next t ∧ t.core.fault = none)
      ∧ ∃ t, exec (.div .cnt (.imm 0)) (priv s0) = .next t ∧ t.core.fault.isSome = true :=
  ⟨by decide, rfl, ⟨_, rfl, rfl⟩, ⟨_, rfl, rfl⟩⟩
theorem wit_LoadImmediateResult : Allowed (.li (.gpr 31) 0xFFFF) s0 = true ∧ Allowed (.li .flags 0x21) (priv s0) = true := by decide
theorem wit_MoveAndSwapResult :
    Allowed (.mov (.gpr 31) (.gpr 0)) s0 = true ∧ Allowed (.swp .cnt .flags) (priv s0) = true := by decide
theorem wit_LoadWordResult :
    Allowed (.lw (.gpr 3) (.gpr 1) 0) full = true ∧ phys full.core.regs.ds (BitVec.ofInt 16 (0xFFFE + 0)) = 0x3FFFE
      ∧ LoadOk full 0x3FFFE ∧ evictedBy full.core 0x3FFFE = some ⟨0x10120, true, 0x1234⟩ := by
  refine ⟨by decide, by decide, ⟨by decide, .inr (by decide +kernel), ?_⟩, by decide +kernel⟩
  exact fun e he => wit_evictable_full.1 e (by unfold evictedBy at he; simp_all [full]) (by unfold evictedBy at he; simp_all [full])
theorem wit_LoadByteResult :
    Allowed (.lb (.gpr 3) (.gpr 2) 0) edge = true ∧ phys edge.core.regs.ds (BitVec.ofInt 16 (0xFFFF + 0)) + 1 ≤ edge.cfg.memSize
      ∧ (edge.mc.pageView edge.cfg (pageOf 0x3FFFF)).read = true := by decide +kernel
theorem wit_StoreWordResult :
    Allowed (.stw (.gpr 1) 0 (.gpr 3)) edge = true ∧ StoreOk edge 0x3FFFE :=
  ⟨by decide, by decide, fun _ => by decide +kernel, roomOk_of (by decide +kernel)⟩
theorem wit_StoreByteResult :
    Allowed (.stb (.gpr 2) 0 (.gpr 3)) edge = true ∧ (0x3FFFF : Nat) + 1 ≤ edge.cfg.memSize
      ∧ (edge.mc.pageView edge.cfg (pageOf 0x3FFFF)).write = true := by decide +kernel
theorem wit_LoadAfterStore : StoreOk edge (phys edge.core.regs.ds (BitVec.ofInt 16 ((edge.core.regs.read (.gpr 2)).toNat + (-1)))) :=
  ⟨by decide, fun _ => by decide +kernel, roomOk_of (by decide +kernel)⟩
theorem wit_CacheIsNotCoherent_load :
    StoreOk edge 0x3FFFE ∧ evictedBy edge.core 0x3FFFE = none ∧ (edge.mc.pageView edge.cfg (pageOf 0x3FFFE)).read = true
      ∧ 0x3FFFE + 1 ≤ edge.cfg.memSize :=
  ⟨wit_StoreWordResult.2, by decide +kernel⟩
theorem wit_CacheIsNotCoherent_store :
    findData 0x10120 s1.core.dcache = some ⟨0x10120, true, 0x1234⟩ ∧ 0x10120 % 2 = 0
      ∧ (s1.mc.pageView s1.cfg (pageOf 0x10120)).write = true ∧ 0x10120 + 1 ≤ s1.cfg.memSize := by decide +kernel
theorem wit_AddSubIncDecResult :
    Allowed (.add (.gpr 0) (.imm 0xFFFF)) s0 = true ∧ Allowed (.inc .sp) (priv s0) = true
      ∧ Allowed (.sub (.gpr 31) (.reg (.gpr 31))) s0 = true ∧ Allowed (.dec (.gpr 0)) s0 = true := by decide
theorem wit_MulDivModResult :
    Allowed (.mul (.gpr 0) (.imm 0x8000)) s0 = true ∧ Allowed (.div (.gpr 0) (.imm 0xFFFF)) s0 = true
      ∧ Allowed (.mod (.gpr 0) (.imm 1)) s0 = true ∧ operandValue s0.core.regs.advance (.imm 1) ≠ 0 := by decide
theorem wit_DivideByZeroKills :
    operandValue s0.core.regs.advance (.reg (.gpr 1)) = 0 ∧ Allowed (.div (.gpr 0) (.reg (.gpr 1))) s0 = true
      ∧ Allowed (.mod (.gpr 0) (.reg (.gpr 1))) s0 = true := by decide
theorem wit_QuotientRounding : (2 : Int) ≠ 0 ∧ (-7 : Int) ≤ 0 ∧ quot .floor (-7) 2 = -4 ∧ quot .trunc (-7) 2 = -3
    ∧ ((-8 : Int) ≤ 0 ∧ (-2 : Int) < 0 ∧ quot .floor (-8) (-2) = quot .trunc (-8) (-2)) := by decide
theorem wit_BitwiseResult :
    ([Instr.and (.gpr 0) (.imm 0), .or (.gpr 31) (.imm 0xFFFF), .xor (.gpr 1) (.reg (.gpr 1)), .not (.gpr 0),
      .shiftl (.gpr 0) (.imm 0xFFFF), .shiftr (.gpr 0) (.imm 16)].all fun i => Allowed i s0) = true := by decide
theorem wit_CompareResult :
    Allowed (.cmp (.gpr 0) (.imm 0x8000)) s0 = true ∧ Allowed (.cmpu (.gpr 0) (.imm 0x8000)) s0 = true := by decide
theorem wit_BranchResult :
    ([Instr.be, .bne, .bz, .bnz, .bs, .bns, .bg, .bge, .bl, .ble, .j].all fun i =>
      Allowed (i (.imm 0xFFFF)) s0 && Allowed (i (.reg (.gpr 31))) s0) = true := by decide
theorem wit_CompareThenBranch :
    Allowed (.cmp (.gpr 31) (.reg (.gpr 0))) s0 = true ∧ Allowed (.cmpu (.gpr 0) (.imm 0xFFFF)) s0 = true := by decide

/-- `DS:SP` just past the last word of memory. -/
def top : State := set .sp 0 edge

theorem wit_PushResult :
    Allowed (.push (.gpr 1)) top = true ∧ phys top.core.regs.ds (top.core.regs.sp - 2) = 0x3FFFE ∧ StoreOk top 0x3FFFE :=
  ⟨by decide, by decide, by decide, fun _ => by decide +kernel, roomOk_of (by decide +kernel)⟩
theorem wit_PopResult :
    Allowed (.pop (.gpr 1)) (set .sp 0xFFFE edge) = true ∧ LoadOk (set .sp 0xFFFE edge) 0x3FFFE :=
  ⟨by decide, by decide, .inr (by decide +kernel), roomOk_of (by decide +kernel)⟩
theorem wit_CallResult :
    Allowed (.call (.imm 0xFFFF)) top = true ∧ AllWriteBackOk top ∧ DataKeysDistinct top
      ∧ Writable top (pushSlot top.core.regs.advance 0) ∧ Writable top (pushSlot top.core.regs.advance 1)
      ∧ Readable top (pushSlot top.core.regs.advance 0) ∧ Readable top (pushSlot top.core.regs.advance 1) := by
  unfold AllWriteBackOk WriteBackOk DataKeysDistinct Writable Readable; decide +kernel
theorem wit_CallThenRet : Readable top (pushSlot top.core.regs.advance 0) ∧ Readable top (pushSlot top.core.regs.advance 1) :=
  wit_CallResult.2.2.2.2.2
theorem wit_RetResult :
    let s : State := set .sp 0xFFFC { edge with core := { edge.core with frames := [⟨1, 3, 0xFFFC, 8⟩] } }
    s.core.frames.head? = some ⟨1, 3, 0xFFFC, 8⟩ ∧ (s.cfg.frameCheck = true → s.core.regs.sp = 0xFFFC)
      ∧ AllWriteBackOk s ∧ DataKeysDistinct s ∧ Readable s (stackSlot s.core.regs 0) ∧ Readable s (stackSlot s.core.regs 1)
      ∧ Coherent s (stackSlot s.core.regs 1) := by
  refine ⟨rfl, fun _ => rfl, ?_, ?_, ?_, ?_, coherent_of (by decide +kernel)⟩ <;>
    (first | unfold AllWriteBackOk WriteBackOk | unfold DataKeysDistinct | unfold Readable) <;> decide +kernel
theorem wit_FrameFaultsKill_underflow : (priv s0).core.frames = [] ∧ (priv s0).core.regs.flags.p = true := by decide
theorem wit_FrameFaultsKill_mismatch :
    let s : State := priv { s0 with core := { s0.core with frames := [⟨1, 1, 0x1FE, 0⟩] } }
    s.core.frames.head? = some ⟨1, 1, 0x1FE, 0⟩ ∧ s.cfg.frameCheck = true ∧ s.core.regs.sp ≠ 0x1FE
      ∧ s.core.regs.flags.p = true := by decide
theorem wit_FrameFaultsKill_istack :
    let s : State := priv { s0 with core := { s0.core with frames := [⟨1, 1, 0x200, 0⟩] } }
    s.core.frames.head? = some ⟨1, 1, 0x200, 0⟩ ∧ (s.cfg.frameCheck = true → s.core.regs.sp = 0x200) ∧ s.core.istack = []
      ∧ s.core.regs.flags.p = true := by decide
theorem wit_ClearSetAndReset : (priv s0).core.regs.flags.p = true ∧ s0.core.regs.flags.p = false := by decide
theorem wit_HaltFlushes :
    (priv s1).core.regs.flags.p = true ∧ (priv s1).core.alive = true ∧ AllWriteBackOk (priv s1) ∧ DataKeysDistinct (priv s1) := by
  unfold AllWriteBackOk WriteBackOk DataKeysDistinct; decide +kernel
theorem wit_HaltFlushes_refused :
    mixed.core.regs.flags.p = true ∧ mixed.core.alive = true ∧ DataKeysDistinct mixed
      ∧ FirstRefused mixed ⟨0x10010, true, 0x1234⟩ :=
  ⟨rfl, rfl, firstRefused_mixed.2.1, firstRefused_mixed.1⟩
theorem wit_HaltFlushes_host :
    (asked .halt s1).agenda = [.host .halt] ∧ (asked .halt s1).core.alive = true ∧ AllWriteBackOk (asked .halt s1)
      ∧ DataKeysDistinct (asked .halt s1) ∧ FirstRefused (asked .halt mixed) ⟨0x10010, true, 0x1234⟩ :=
  ⟨rfl, rfl, wit_evictable_s1.1, wit_evictable_s1.2, firstRefused_mixed.1⟩
theorem wit_PortTraffic :
    PortOk s0 0x100 ∧ PortOk (priv s0) 0x200 ∧ Allowed (.inw (.gpr 0) (.imm 0x100)) s0 = true
      ∧ Allowed (.inb (.gpr 31) (.imm 0x100)) s0 = true ∧ Allowed (.outw (.imm 0x200) .flags) (priv s0) = true
      ∧ Allowed (.outb (.imm 0x100) (.gpr 5)) s0 = true :=
  ⟨⟨false, rfl, .inl rfl⟩, ⟨true, rfl, .inr rfl⟩, by decide⟩
theorem wit_PortFaultsKill :
    Allowed (.inw (.gpr 0) (.imm 0x300)) s0 = true ∧ portMark 0x300 s0.cfg.ports = none
      ∧ Allowed (.outb (.imm 0x200) (.gpr 0)) s0 = true ∧ portMark 0x200 s0.cfg.ports = some true
      ∧ s0.core.regs.flags.p = false := by decide
theorem wit_CompareAndSwapResult :
    Allowed (.cas (.gpr 1) (.gpr 2) (.gpr 3)) edge = true ∧ phys edge.core.regs.ds (edge.core.regs.read (.gpr 1)) = 0x3FFFE
      ∧ (0x3FFFE : Nat) % 2 = 0 ∧ 0x3FFFE + 2 ≤ edge.cfg.memSize ∧ (edge.mc.pageView edge.cfg (pageOf 0x3FFFE)).read = true
      ∧ (edge.mc.pageView edge.cfg (pageOf 0x3FFFE)).write = true
      ∧ (gpr 2 0 edge).mc.u16At 0x3FFFE = (gpr 2 0 edge).core.regs.read (.gpr 2)
      ∧ edge.mc.u16At 0x3FFFE ≠ edge.core.regs.read (.gpr 2) := by decide +kernel

/-- `DS` past the end of memory, and pages that permit nothing. -/
def outside : State := set .ds 4 s0
def barred : State := gpr 2 0xFFFE (set .ds 3 s0)

/-- `LW`: misaligned, past the end of memory, in a page without `read`, and with a refused eviction. -/
theorem wit_DataFaultsKill_lw :
    Allowed (.lw (.gpr 1) (.gpr 2) 1) s0 = true ∧ (∃ e t, LoadFails s0.advanced 0x10001 e t)
      ∧ (∃ e t, LoadFails outside.advanced 0x40000 e t) ∧ (∃ e t, LoadFails barred.advanced 0x3FFFE e t)
      ∧ ∃ e t, LoadFails refused.advanced 0x3FFFE e t :=
  ⟨by decide, ⟨_, _, .inl ⟨by decide, rfl, rfl⟩⟩, ⟨_, _, .inr (.inl ⟨by decide, rfl, by decide, rfl, rfl⟩)⟩,
    ⟨_, _, .inr (.inr (.inl ⟨by decide, rfl, by decide, by decide +kernel, rfl, rfl⟩))⟩,
    ⟨_, _, .inr (.inr (.inr ⟨by decide, by decide, by decide +kernel, _, rfl, refused_fails _ rfl (by decide +kernel)⟩))⟩⟩
/-- `STW`: the same four ways, the second and third under `at_store`. -/
theorem wit_DataFaultsKill_stw :
    Allowed (.stw (.gpr 2) 1 (.gpr 1)) s0 = true ∧ (∃ e t, StoreFails s0.advanced 0x10001 e t)
      ∧ (∃ e t, StoreFails outside.advanced 0x40000 e t) ∧ (∃ e t, StoreFails barred.advanced 0x3FFFE e t)
      ∧ ∃ e t, StoreFails refused.advanced 0x3FFFE e t :=
  ⟨by decide, ⟨_, _, .inl ⟨by decide, rfl, rfl⟩⟩, ⟨_, _, .inr (.inl ⟨by decide, rfl, by decide, rfl, rfl⟩)⟩,
    ⟨_, _, .inr (.inr (.inl ⟨by decide, rfl, by decide, by decide +kernel, rfl, rfl⟩))⟩,
    ⟨_, _, .inr (.inr (.inr ⟨by decide, nofun, _, rfl, refused_fails _ rfl (by decide +kernel)⟩))⟩⟩
theorem wit_DataFaultsKill_byte :
    Allowed (.lb (.gpr 1) (.gpr 2) 0) s0 = true ∧ Allowed (.stb (.gpr 2) 0 (.gpr 1)) s0 = true
      ∧ ¬ 0x40000 + 1 ≤ outside.cfg.memSize ∧ 0x3FFFF + 1 ≤ barred.cfg.memSize
      ∧ (barred.mc.pageView barred.cfg (pageOf 0x3FFFF)).read = false
      ∧ (barred.mc.pageView barred.cfg (pageOf 0x3FFFF)).write = false := by decide +kernel
theorem wit_DataFaultsKill_cas :
    Allowed (.cas (.gpr 1) (.gpr 2) (.gpr 3)) s0 = true
      ∧ phys s0.core.regs.ds ((gpr 1 0x141 s0).core.regs.read (.gpr 1)) % 2 ≠ 0
      ∧ phys outside.core.regs.ds (outside.core.regs.read (.gpr 1)) = 0x40000 ∧ ¬ 0x40000 + 2 ≤ outside.cfg.memSize
      ∧ (s0.mc.pageView s0.cfg (pageOf 0x10010)).read = true ∧ (s0.mc.pageView s0.cfg (pageOf 0x10010)).write = false := by
  decide +kernel
/-- `PUSH` and `POP` at an odd `SP`, past the end of memory, in a page without the permission, and with a refused eviction. -/
theorem wit_DataFaultsKill_stack :
    Allowed (.push (.gpr 1)) (set .sp 1 s0) = true ∧ Allowed (.pop (.gpr 1)) (set .sp 0xFFFF s0) = true
      ∧ (∃ e t, PushFails [0] (set .sp 1 s0).advanced e t) ∧ (∃ e t, PushFails [0] outside.advanced e t)
      ∧ (∃ e t, PushFails [0] (set .sp 0x100 s0).advanced e t) ∧ (∃ e t, PushFails [0] (set .sp 0 refused).advanced e t)
      ∧ (∃ e t, LoadFails (set .sp 0xFFFF s0).advanced 0x1FFFF e t)
      ∧ (∃ e t, LoadFails (set .sp 0x200 s0).advanced 0x10200 e t)
      ∧ (∃ e t, LoadFails (set .sp 0 outside).advanced 0x40000 e t)
      ∧ ∃ e t, LoadFails (set .sp 0xFFFE refused).advanced 0x3FFFE e t :=
  ⟨by decide, by decide, ⟨_, _, 0, by decide, _, rfl, .inl ⟨by decide, rfl, rfl⟩⟩,
    ⟨_, _, 0, by decide, _, rfl, .inr (.inl ⟨by decide, rfl, by decide, rfl, rfl⟩)⟩,
    ⟨_, _, 0, by decide, _, rfl, .inr (.inr (.inl ⟨by decide, rfl, by decide, by decide +kernel, rfl, rfl⟩))⟩,
    ⟨_, _, 0, by decide, _, rfl, .inr (.inr (.inr ⟨by decide, nofun, _, rfl, refused_fails _ rfl (by decide +kernel)⟩))⟩,
    ⟨_, _, .inl ⟨by decide, rfl, rfl⟩⟩,
    ⟨_, _, .inr (.inr (.inl ⟨by decide, rfl, by decide, by decide +kernel, rfl, rfl⟩))⟩,
    ⟨_, _, .inr (.inl ⟨by decide, rfl, by decide, rfl, rfl⟩)⟩,
    ⟨_, _, .inr (.inr (.inr ⟨by decide, by decide, by decide +kernel, _, rfl, refused_fails _ rfl (by decide +kernel)⟩))⟩⟩
/-- `CALL` whose second push crosses into a page that may not be written. -/
theorem wit_DataFaultsKill_call :
    Allowed (.call (.imm 8)) (set .sp 0x102 s0) = true
      ∧ ∃ e t, PushFails [4, 0x200] (set .sp 0x102 s0).advanced e t :=
  ⟨by decide, _, _, 1, by decide, _, ok_left (by decide +kernel),
    .inr (.inr (.inl ⟨by decide +kernel, by decide +kernel, by decide +kernel, by decide +kernel, rfl, rfl⟩))⟩

/-- A frame and an interrupt entry at this `SP`, privileged. -/
def atFrame (sp : Word) : State :=
  priv (set .sp sp { s0 with core := { s0.core with frames := [⟨1, 1, sp, 0⟩], istack := [0x101] } })

/-- `RET` and `RETINT` whose last pop leaves the stack page. -/
theorem wit_DataFaultsKill_return :
    (atFrame 0x1FE).core.frames.head? = some ⟨1, 1, 0x1FE, 0⟩
      ∧ ((atFrame 0x1FE).cfg.frameCheck = true → (atFrame 0x1FE).core.regs.sp = 0x1FE)
      ∧ (∃ e t, PopFails 2 (atFrame 0x1FE).advanced e t)
      ∧ (atFrame 0x1B6).core.regs.flags.p = true ∧ (atFrame 0x1B6).core.istack ≠ []
      ∧ ∃ e t, PopFails 38 (atFrame 0x1B6).advanced e t :=
  ⟨rfl, fun _ => rfl,
    ⟨_, _, 1, by decide, (afterPops 1 (atFrame 0x1FE).advanced).getD s0, eq_some_getD (by decide +kernel),
      .inr (.inr (.inl ⟨by decide +kernel, by decide +kernel, by decide +kernel, by decide +kernel, rfl, rfl⟩))⟩,
    rfl, nofun,
    ⟨_, _, 37, by decide, (afterPops 37 (atFrame 0x1B6).advanced).getD s0, eq_some_getD (by decide +kernel),
      .inr (.inr (.inl ⟨by decide +kernel, by decide +kernel, by decide +kernel, by decide +kernel, rfl, rfl⟩))⟩⟩

/-- S0 where the host handles INT 5. -/
def virtual : State := { s0 with cfg := { s0.cfg with vint := [5] } }

theorem wit_VirtualInterruptResult_ok :
    let s := { virtual with vintAnswers := [.ok (Vector.replicate 32 7) [.word 0x3FFFC 1, .byte 0x3FFFF 2]] }
    Allowed (.int (.imm 5)) s = true ∧ s.cfg.vint.contains 5 = true
      ∧ nextVint s = .ok (Vector.replicate 32 7) [.word 0x3FFFC 1, .byte 0x3FFFF 2]
      ∧ ∀ w ∈ [McWrite.word 0x3FFFC 1, McWrite.byte 0x3FFFF 2], w.Ok s.cfg.memSize := by
  refine ⟨by decide, by decide, rfl, ?_⟩
  simp [McWrite.Ok, virtual, s0, State.reset, State.powerOn, Config.k0]
theorem wit_VirtualInterruptResult_fail :
    nextVint { virtual with vintAnswers := [.fail .resourceNotFound .nothing] } = .fail .resourceNotFound .nothing := rfl

/-- M0 with a dirty word in the data cache. -/
def m1 : State := { m0 with core := { m0.core with dcache := [⟨0x10120, true, 0x1234⟩] } }

theorem entryOk_m1 {p : Nat} (i : Nat) (v : IntVector) (hi : i < 16)
    (hv : IntVector.ofWord (m1.mc.u32At (0x40 + 4 * i)) = v)
    (hp : (m1.mc.touchPage m1.cfg (pageOf (0x40 + 4 * i))).firstFree (m1.cfg.memSize / 256) (v.ds.toNat * 256) 256 = some p) :
    EntryOk m1 0x40 16 i v p :=
  ⟨hi, by decide, by have : m1.cfg.memSize = 0x40000 := rfl; omega, by decide, hv, hp,
    by unfold AllWriteBackOk WriteBackOk; decide +kernel, by unfold DataKeysDistinct; decide +kernel⟩

theorem wit_SoftwareInterruptEntry :
    Allowed (.int (.imm 0)) m1 = true ∧ m1.cfg.vint.contains 0 = false ∧ EntryOk m1 0x40 16 0 ⟨2, 2, 0⟩ 0x201 :=
  ⟨by decide, by decide, entryOk_m1 0 _ (by decide) (by decide +kernel) (by decide +kernel)⟩
/-- The last vector of the table, all zero: the entry goes to segment 0 (V-AT-10). -/
theorem wit_SoftwareInterruptEntry_last :
    Allowed (.int (.imm 15)) m1 = true ∧ m1.cfg.vint.contains 15 = false ∧ EntryOk m1 0x40 16 15 ⟨0, 0, 0⟩ 1 :=
  ⟨by decide, by decide, entryOk_m1 15 _ (by decide) (by decide +kernel) (by decide +kernel)⟩
theorem wit_IrqEntry :
    let s : State := { m1 with core := { m1.core with idle := true, pending := [1, 3] } }
    OwnTurn s ∧ s.core.alive = true ∧ s.core.running = true ∧ s.core.regs.flags.h = true ∧ s.core.pending = [1, 3]
      ∧ EntryOk s 0 16 1 ⟨2, 2, 0x10⟩ 0x201 :=
  ⟨.inl rfl, rfl, rfl, rfl, rfl, by decide, by decide, by decide, by decide, by decide +kernel, by decide +kernel,
    by unfold AllWriteBackOk WriteBackOk; decide +kernel, by unfold DataKeysDistinct; decide +kernel⟩
/-- An IRQ or an INT past its table, at a misaligned base, past the end of memory, and in a segment past the end of memory. -/
theorem wit_InterruptEntryFaultsKill_vector :
    Allowed (.int (.imm 16)) m1 = true ∧ m1.cfg.vint.contains 16 = false
      ∧ (∃ e t, EntryFails m1.advanced m1.cfg.intTableBase m1.cfg.intCount 16 e t)
      ∧ (∃ e t, EntryFails m1.advanced 0x42 16 15 e t) ∧ ∃ e t, EntryFails m1.advanced 0x3FFFC 2 1 e t :=
  ⟨by decide, by decide, ⟨_, _, .inl ⟨by decide, rfl, rfl⟩⟩, ⟨_, _, .inr (.inl ⟨by decide, by decide, rfl, rfl⟩)⟩,
    ⟨_, _, .inr (.inr (.inl ⟨by decide, by decide, by decide, rfl, rfl⟩))⟩⟩
theorem wit_InterruptEntryFaultsKill_page :
    let s : State := { m1 with cfg := { m1.cfg with memSize := 0x20000 } }
    Allowed (.int (.imm 0)) s = true ∧ s.cfg.vint.contains 0 = false
      ∧ ∃ e t, EntryFails s.advanced s.cfg.intTableBase s.cfg.intCount 0 e t :=
  ⟨by decide, by decide, _, _,
    .inr (.inr (.inr (.inl ⟨by decide, by decide, by decide, by decide +kernel, rfl, rfl⟩)))⟩
/-- M0 with the data cache of `refused`. -/
def refusedEntry : State :=
  { m0 with cfg := refused.cfg, core := { m0.core with sizes := ⟨1, 1⟩, dcache := refused.core.dcache, pending := [1] } }
/-- The first push of the entry is refused its eviction, by INT and by IRQ. -/
theorem wit_InterruptEntryFaultsKill_push :
    Allowed (.int (.imm 0)) refusedEntry = true ∧ refusedEntry.cfg.vint.contains 0 = false
      ∧ (∃ e t, EntryFails refusedEntry.advanced 0x40 16 0 e t)
      ∧ ∃ e t, EntryFails { refusedEntry.onTurn with core := { refusedEntry.core with pending := [] } } 0 16 1 e t :=
  ⟨by decide, by decide,
    ⟨_, _, .inr (.inr (.inr (.inr ⟨⟨2, 2, 0⟩, 0x201, ⟨by decide, by decide, by decide, by decide +kernel, by decide +kernel⟩,
      0, by decide, _, rfl, .inr (.inr (.inr ⟨by decide +kernel, nofun, _, rfl, refused_fails _ rfl (by decide +kernel)⟩))⟩)))⟩,
    ⟨_, _, .inr (.inr (.inr (.inr ⟨⟨2, 2, 0x10⟩, 0x201, ⟨by decide, by decide, by decide, by decide +kernel, by decide +kernel⟩,
      0, by decide, _, rfl, .inr (.inr (.inr ⟨by decide +kernel, nofun, _, rfl, refused_fails _ rfl (by decide +kernel)⟩))⟩)))⟩⟩
/-- An IRQ past its table, and one whose data segment has no free page. -/
theorem wit_InterruptEntryFaultsKill_irq :
    let s : State := { m1 with core := { m1.core with pending := [16] } }
    OwnTurn s ∧ s.core.alive = true ∧ s.core.running = true ∧ s.core.regs.flags.h = true ∧ s.core.pending = [16]
      ∧ (∃ e t, EntryFails { s.onTurn with core := { s.core with pending := [] } } s.cfg.irqTableBase s.cfg.irqCount 16 e t)
      ∧ ∃ e t, EntryFails { m1 with cfg := { m1.cfg with memSize := 0x20000 } } 0 16 1 e t :=
  ⟨.inl rfl, rfl, rfl, rfl, rfl, ⟨_, _, .inl ⟨by decide, rfl, rfl⟩⟩, _, _,
    .inr (.inr (.inr (.inl ⟨by decide, by decide, by decide, by decide +kernel, rfl, rfl⟩)))⟩
theorem wit_InterruptThenRetintRestores :
    Allowed (.int (.imm 0)) m1 = true ∧ m1.cfg.vint.contains 0 = false ∧ EntryOk m1 0x40 16 0 ⟨2, 2, 0⟩ 0x201 :=
  wit_SoftwareInterruptEntry

/-- A handler about to return: page 0x201 exists, one of its words in the cache. -/
def handler : State :=
  { m1 with
    core := { m1.core with
      regs := { m1.core.regs with ds := 2, cs := 2, sp := 0x1B4, fp := 0x1B4, flags := { Flags.reset with p := true, h := false } }
      frames := [⟨1, 2, 0x1B4, 4⟩]
      istack := [0x201]
      dcache := [⟨0x201B4, true, 0x200⟩] }
    mc := { m1.mc with pages := m1.mc.pages ++ [(0x201, stackPage)] } }

theorem wit_ReturnFromInterrupt : handler.core.regs.flags.p = true ∧ ExitOk handler ⟨1, 2, 0x1B4, 4⟩ 0x201 := by
  refine ⟨rfl, rfl, fun _ => rfl, rfl, ?_, ?_, ?_, ?_⟩
  · unfold Readable; decide +kernel
  · have h : ∀ k < 38, (match findData (stackSlot handler.core.regs k) handler.core.dcache with
        | some e => e.dirty || e.value == handler.mc.u16At (stackSlot handler.core.regs k)
        | none => true) = true := by decide +kernel
    exact fun k hk => coherent_of (h k hk)
  · unfold AllWriteBackOk WriteBackOk; decide +kernel
  · unfold DataKeysDistinct; decide +kernel
theorem wit_FlagsPacking : EntryOk m1 0x40 16 15 ⟨0, 0, 0⟩ 1 ∧ ExitOk handler ⟨1, 2, 0x1B4, 4⟩ 0x201 :=
  ⟨wit_SoftwareInterruptEntry_last.2.2, wit_ReturnFromInterrupt.2⟩
theorem wit_CanonicalMemory : Memory.wf [(0, 1), (0x3FFFF, 2)] = true ∧ Memory.wf (Memory.write [(0, 1)] 0 0) = true := by decide
theorem wit_SpontaneousWriteBack :
    let s : State := { edge with agenda := [.writeBack 0x3FFFE], core := { edge.core with dcache := [⟨0x3FFFE, true, 9⟩] } }
    s.core.alive = true ∧ findData 0x3FFFE s.core.dcache = some ⟨0x3FFFE, true, 9⟩ ∧ WriteBackOk s ⟨0x3FFFE, true, 9⟩
      ∧ DataKeysDistinct s := by
  unfold WriteBackOk DataKeysDistinct; decide +kernel
theorem wit_SpontaneousWriteBack_refused :
    let s : State := { refused with agenda := [.writeBack 0x10010] }
    s.core.alive = true ∧ findData 0x10010 s.core.dcache = some ⟨0x10010, true, 0x1234⟩
      ∧ ∃ e t, WriteBackFails { s with agenda := [] } ⟨0x10010, true, 0x1234⟩ e t :=
  ⟨rfl, rfl, _, _, refused_fails _ rfl (by decide +kernel)⟩
/-- An odd address, and the first one past the end of memory. -/
theorem wit_SpontaneousWriteBack_place :
    (∃ e t, WriteBackFails refused ⟨0x3FFFF, true, 1⟩ e t) ∧ ∃ e t, WriteBackFails refused ⟨0x40000, true, 1⟩ e t :=
  ⟨⟨_, _, .inl ⟨by decide, rfl, rfl⟩⟩, ⟨_, _, .inr (.inl ⟨by decide, by decide, rfl, rfl⟩)⟩⟩
theorem wit_HostRunControl :
    (asked .suspend s0).core.alive = true ∧ (asked .wakeUp s0).core.alive = true ∧ (asked .setIdle s0).core.alive = true
      ∧ (asked .halt { s0 with core := s0.core.stopped }).core.alive = false
      ∧ (asked (.enqueueIrq 0) s0).agenda = [.host (.enqueueIrq 0)] := ⟨rfl, rfl, rfl, rfl, rfl⟩
theorem wit_PageProtection :
    (0x3FFFF : Nat) + 1 ≤ barred.cfg.memSize ∧ (barred.mc.pageView barred.cfg (pageOf 0x3FFFF)).write = false := by decide +kernel
theorem wit_StepKeepsInvariant : Inv State.reset ∧ ∃ t, step (asked (.enqueueIrq 0) State.reset) = .next t := by
  refine ⟨⟨by decide, ⟨by decide, by decide, by decide, by decide, by decide, by decide, by decide⟩, ?_, ?_⟩, _, rfl⟩
  · exact ⟨by decide, by decide, by decide, by decide, by decide, by decide, by decide, fun _ => by decide, by decide, by decide,
      by decide⟩
  · intro c hc; simp [State.reset, State.powerOn] at hc
theorem wit_UserModeKeepsPrivilegedState :
    s0.core.regs.flags.p = false ∧ (∀ o, Instr.pop (.gpr 0) ≠ .int o) ∧ ∃ t, exec (.pop (.gpr 0)) s0 = .next t := by
  exact ⟨rfl, nofun, exec_next _ _⟩
theorem wit_PrivilegeOnlyThroughInterrupts :
    let s : State := { m1 with core := { m1.core with pending := [1] } }
    let t := match step s with | .next t => t | _ => s
    (∀ k, s.agenda.head? ≠ some (.select k)) ∧ (∀ a, s.agenda.head? ≠ some (.host a)) ∧ s.core.regs.flags.p = false
      ∧ t.core.regs.flags.p = true := by
  refine ⟨fun _ => ?_, fun _ => ?_, rfl, by decide +kernel⟩
  · simp [m1, m0, s0, half, State.withMC, State.reset, State.powerOn]
  · simp [m1, m0, s0, half, State.withMC, State.reset, State.powerOn]

end Sys2Proof.Tests
end

section
/-! Protected register fields in unprivileged mode (10_state.md R23). -/

namespace Sys2Proof.Machine

@[simp] theorem isProtectedReg_eq_false {r : Reg} : isProtectedReg r = false ↔ r.num < 32 := by
  simp [isProtectedReg]

/-- Both checks of the step look at the instruction alone: they pass in either mode, whatever it uses implicitly (10_state.md R23). -/
theorem allowed_of_fields_lt {i : Instr} (hi : isPrivileged i = false) (hr : ∀ r ∈ regFields i, r.num < 32) (s : State) :
    Allowed i s = true := by
  have hfields : ((regFields i).all fun r => !isProtectedReg r) = true := by
    simpa [List.all_eq_true] using hr
  simp only [Allowed, hi, hfields, Bool.not_false, Bool.and_self, Bool.or_true]

/-- Settles O16: the raise is `exec_protectedDies`, and no check is left to fail where every field is below 32. -/
theorem protectedRegisterNeedsP : Obligations.ProtectedRegisterNeedsP := fun s i hi =>
  ⟨exec_protectedDies i s hi, fun hr => allowed_of_fields_lt hi hr s⟩

end Sys2Proof.Machine
end

section
/-! Data movement between registers: LI, MOV, SWP (40_data_movement.md R122, R125, R126). -/

namespace Sys2Proof.Machine

@[simp] theorem readReg_run (r : Reg) (s : State) : readReg r s = .ok (s.core.regs.read r) s := rfl

@[simp] theorem writeReg_run (r : Reg) (v : Word) (s : State) :
    writeReg r v s = .ok () (s.withRegs (s.core.regs.write r v)) := rfl

@[simp] theorem setFlags_run (f : Flags → Flags) (s : State) :
    setFlags f s = .ok () (s.withRegs (s.core.regs.setFlags f)) := rfl

/-- The end of a load writes registers alone: `rd`, then `Z` and `S`, which win where `rd` is FLAGS (10_state.md R26). -/
theorem loaded_run (rd : Reg) (v : Word) (s : State) :
    loaded rd v s = .ok () (s.withRegs (zsResult s.core.regs rd v.toNat)) := by
  rw [loaded, bind_ok (writeReg_run rd v s), setFlags_run, State.withRegs_regs, State.withRegs_withRegs, write_zs]

/-- Settles O18: the own rule of `LI` is the end of a load, with the immediate as the value. -/
theorem loadImmediateResult : Obligations.LoadImmediateResult := fun s rd v =>
  ⟨fun h => exec_afterRegs h (loaded_run rd v s.advanced), exec_protectedDies _ s rfl⟩

theorem bodyOf_mov_run (rd rs : Reg) (s : State) :
    bodyOf (.mov rd rs) s = .ok () (s.withRegs (s.core.regs.write rd (s.core.regs.read rs))) := by
  rw [bodyOf, bind_ok (readReg_run rs s), writeReg_run]

/-- `SWP` reads both registers before it writes either, so `rs` takes the old `rd` whatever the first write changed. -/
theorem bodyOf_swp_run (rd rs : Reg) (s : State) :
    bodyOf (.swp rd rs) s
      = .ok () (s.withRegs ((s.core.regs.write rd (s.core.regs.read rs)).write rs (s.core.regs.read rd))) := by
  rw [bodyOf, bind_ok (readReg_run rd s), bind_ok (readReg_run rs s), bind_ok (writeReg_run rd _ s), writeReg_run,
    State.withRegs_regs, State.withRegs_withRegs]

/-- Settles O19: each own rule only writes registers, and its checks are those of every unprivileged instruction. -/
theorem moveAndSwapResult : Obligations.MoveAndSwapResult := fun s rd rs =>
  ⟨fun h => exec_afterRegs h (bodyOf_mov_run rd rs s.advanced), fun h => exec_afterRegs h (bodyOf_swp_run rd rs s.advanced),
    exec_protectedDies _ s rfl, exec_protectedDies _ s rfl⟩

end Sys2Proof.Machine
end

section
/-! Sums and differences: ADD, INC, SUB, DEC (41_arithmetic.md R130 to R133). -/

namespace Sys2Proof.Machine

@[simp] theorem operand_run (o : Operand) (s : State) : operand o s = .ok (operandValue s.core.regs o) s := rfl

/-- The flags are set after `rd`, so they win where `rd` is FLAGS (10_state.md R26). -/
theorem sumInto_run (rd : Reg) (a b : Word) (s : State) :
    sumInto rd a b s = .ok () (s.withRegs (sumResult s.core.regs rd a.toNat b.toNat)) := by
  rw [sumInto, bind_ok (writeReg_run rd _ s), setFlags_run, State.withRegs_regs, State.withRegs_withRegs, write_sum]

/-- As for a sum, the flags win where `rd` is FLAGS; `S` is the borrow, not bit 15 of the result (41_arithmetic.md R131). -/
theorem diffInto_run (rd : Reg) (a b : Word) (s : State) :
    diffInto rd a b s = .ok () (s.withRegs (diffResult s.core.regs rd a.toNat b.toNat)) := by
  rw [diffInto, bind_ok (writeReg_run rd _ s), setFlags_run, State.withRegs_regs, State.withRegs_withRegs, write_diff]

theorem bodyOf_add_run (rd : Reg) (o : Operand) (s : State) :
    bodyOf (.add rd o) s = .ok () (s.withRegs
      (sumResult s.core.regs rd (s.core.regs.read rd).toNat (operandValue s.core.regs o).toNat)) := by
  rw [bodyOf, bind_ok (readReg_run rd s), bind_ok (operand_run o s), sumInto_run]

theorem bodyOf_sub_run (rd : Reg) (o : Operand) (s : State) :
    bodyOf (.sub rd o) s = .ok () (s.withRegs
      (diffResult s.core.regs rd (s.core.regs.read rd).toNat (operandValue s.core.regs o).toNat)) := by
  rw [bodyOf, bind_ok (readReg_run rd s), bind_ok (operand_run o s), diffInto_run]

/-- `INC` is a sum with the operand 1 (41_arithmetic.md R132). -/
theorem bodyOf_inc_run (rd : Reg) (s : State) :
    bodyOf (.inc rd) s = .ok () (s.withRegs (sumResult s.core.regs rd (s.core.regs.read rd).toNat 1)) := by
  rw [bodyOf, bind_ok (readReg_run rd s)]
  exact sumInto_run rd _ 1 s

/-- `DEC` is a difference with the operand 1 (41_arithmetic.md R133). -/
theorem bodyOf_dec_run (rd : Reg) (s : State) :
    bodyOf (.dec rd) s = .ok () (s.withRegs (diffResult s.core.regs rd (s.core.regs.read rd).toNat 1)) := by
  rw [bodyOf, bind_ok (readReg_run rd s)]
  exact diffInto_run rd _ 1 s

/-- Settles O26: each own rule only writes registers, and none of the four is privileged. -/
theorem addSubIncDecResult : Obligations.AddSubIncDecResult := by
  intro s rd o
  have unprivileged : ∀ i ∈ [Instr.add rd o, .inc rd, .sub rd o, .dec rd], isPrivileged i = false := by
    simp [isPrivileged]
  exact ⟨fun h => exec_afterRegs h (bodyOf_add_run rd o s.advanced), fun h => exec_afterRegs h (bodyOf_inc_run rd s.advanced),
    fun h => exec_afterRegs h (bodyOf_sub_run rd o s.advanced), fun h => exec_afterRegs h (bodyOf_dec_run rd s.advanced),
    fun i hi => exec_protectedDies i s (unprivileged i hi)⟩

end Sys2Proof.Machine
end

section
/-! Bitwise: AND, OR, XOR, NOT, SHIFTL, SHIFTR (42_bitwise.md R140 to R145). -/

namespace Sys2Proof.Machine

/-- A bitwise result ends as a load does: `rd`, then `Z` and `S` (42_bitwise.md; 10_state.md R26). -/
theorem bitsInto_run (rd : Reg) (r : Word) (s : State) :
    bitsInto rd r s = .ok () (s.withRegs (zsResult s.core.regs rd r.toNat)) := loaded_run rd r s

/-- The rule the five two-operand instructions share: both operands are read before `rd` is written. -/
theorem bitsOf_run (f : Word → Word → Word) (rd : Reg) (o : Operand) (s : State) :
    (do let a ← readReg rd; let b ← operand o; bitsInto rd (f a b) : M Unit) s = .ok () (s.withRegs
      (zsResult s.core.regs rd (f (s.core.regs.read rd) (operandValue s.core.regs o)).toNat)) := by
  rw [bind_ok (readReg_run rd s), bind_ok (operand_run o s), bitsInto_run]

/-- `NOT` flips the bits by an exclusive or with `0xFFFF` (42_bitwise.md R143). -/
theorem toNat_xor_FFFF (a : Word) : (a ^^^ 0xFFFF).toNat = 65535 - a.toNat := by
  have flip : a ^^^ 0xFFFF = ~~~a := BitVec.xor_allOnes
  rw [flip, BitVec.toNat_not]

@[simp] theorem toNat_shiftLeftWord (a b : Word) : (shiftLeftWord a b).toNat = a.toNat * 2 ^ b.toNat % 65536 := by
  rw [shiftLeftWord, BitVec.toNat_shiftLeft, Nat.shiftLeft_eq]

@[simp] theorem toNat_shiftRightWord (a b : Word) : (shiftRightWord a b).toNat = a.toNat / 2 ^ b.toNat := by
  rw [shiftRightWord, BitVec.toNat_ushiftRight, Nat.shiftRight_eq_div_pow]

theorem bodyOf_and_run (rd : Reg) (o : Operand) (s : State) :
    bodyOf (.and rd o) s = .ok () (s.withRegs
      (zsResult s.core.regs rd ((s.core.regs.read rd).toNat &&& (operandValue s.core.regs o).toNat))) := by
  rw [bodyOf, bitsOf_run (· &&& ·), BitVec.toNat_and]

theorem bodyOf_or_run (rd : Reg) (o : Operand) (s : State) :
    bodyOf (.or rd o) s = .ok () (s.withRegs
      (zsResult s.core.regs rd ((s.core.regs.read rd).toNat ||| (operandValue s.core.regs o).toNat))) := by
  rw [bodyOf, bitsOf_run (· ||| ·), BitVec.toNat_or]

theorem bodyOf_xor_run (rd : Reg) (o : Operand) (s : State) :
    bodyOf (.xor rd o) s = .ok () (s.withRegs
      (zsResult s.core.regs rd ((s.core.regs.read rd).toNat ^^^ (operandValue s.core.regs o).toNat))) := by
  rw [bodyOf, bitsOf_run (· ^^^ ·), BitVec.toNat_xor]

theorem bodyOf_not_run (rd : Reg) (s : State) :
    bodyOf (.not rd) s = .ok () (s.withRegs (zsResult s.core.regs rd (65535 - (s.core.regs.read rd).toNat))) := by
  rw [bodyOf, bind_ok (readReg_run rd s), bitsInto_run, toNat_xor_FFFF]

theorem bodyOf_shiftl_run (rd : Reg) (o : Operand) (s : State) :
    bodyOf (.shiftl rd o) s = .ok () (s.withRegs
      (zsResult s.core.regs rd ((s.core.regs.read rd).toNat * 2 ^ (operandValue s.core.regs o).toNat % 65536))) := by
  rw [bodyOf, bitsOf_run shiftLeftWord, toNat_shiftLeftWord]

theorem bodyOf_shiftr_run (rd : Reg) (o : Operand) (s : State) :
    bodyOf (.shiftr rd o) s = .ok () (s.withRegs
      (zsResult s.core.regs rd ((s.core.regs.read rd).toNat / 2 ^ (operandValue s.core.regs o).toNat))) := by
  rw [bodyOf, bitsOf_run shiftRightWord, toNat_shiftRightWord]

/-- Settles O30: each own rule only writes registers, and none of the six is privileged. -/
theorem bitwiseResult : Obligations.BitwiseResult := by
  intro s rd o
  have unprivileged : ∀ i ∈ [Instr.and rd o, .or rd o, .xor rd o, .not rd, .shiftl rd o, .shiftr rd o],
      isPrivileged i = false := by
    simp [isPrivileged]
  exact ⟨fun h => exec_afterRegs h (bodyOf_and_run rd o s.advanced), fun h => exec_afterRegs h (bodyOf_or_run rd o s.advanced),
    fun h => exec_afterRegs h (bodyOf_xor_run rd o s.advanced), fun h => exec_afterRegs h (bodyOf_not_run rd s.advanced),
    fun h => exec_afterRegs h (bodyOf_shiftl_run rd o s.advanced),
    fun h => exec_afterRegs h (bodyOf_shiftr_run rd o s.advanced),
    fun i hi => exec_protectedDies i s (unprivileged i hi)⟩

end Sys2Proof.Machine
end

section
/-! Compare and branch: CMP, CMPU, the ten conditional branches and J (43_compare_branch.md R150 to R164). -/

namespace Sys2Proof.Machine

/-- Under any reading of words as integers that is injective and reads 0 as 0, the flags of the words are the flags of the
readings: R150 and R151 differ in the reading alone. -/
theorem setFlags_compare {reading : Word → Int} (hinj : Function.Injective reading) (hzero : reading 0 = 0) (g : Regs) (x y : Word) :
    g.setFlags (Flags.compare x y (decide (reading x < reading y))) = compareResult g (reading x) (reading y) := by
  have eq_zero_iff (v : Word) : reading v = 0 ↔ v = 0 := by rw [← hzero, hinj.eq_iff]
  have equal : (x == y) = decide (reading x = reading y) := by rw [Bool.eq_iff_iff]; simp [hinj.eq_iff]
  have bothZero : (x == 0 && y == 0) = decide (reading x = 0 ∧ reading y = 0) := by rw [Bool.eq_iff_iff]; simp [eq_zero_iff]
  unfold compareResult
  congr 1; funext f
  simp only [Flags.compare, equal, bothZero]

theorem bodyOf_cmp_run (rd : Reg) (o : Operand) (s : State) :
    bodyOf (.cmp rd o) s = .ok () (s.withRegs
      (compareResult s.core.regs (s.core.regs.read rd).toInt (operandValue s.core.regs o).toInt)) := by
  have signed : Function.Injective (BitVec.toInt : Word → Int) := fun _ _ => BitVec.eq_of_toInt_eq
  rw [bodyOf, bind_ok (readReg_run rd s), bind_ok (operand_run o s), setFlags_run, setFlags_compare signed rfl]

theorem bodyOf_cmpu_run (rd : Reg) (o : Operand) (s : State) :
    bodyOf (.cmpu rd o) s = .ok () (s.withRegs
      (compareResult s.core.regs (s.core.regs.read rd).toNat (operandValue s.core.regs o).toNat)) := by
  have unsigned : Function.Injective (fun v : Word => (v.toNat : Int)) :=
    fun _ _ h => BitVec.eq_of_toNat_eq (Int.ofNat_inj.mp h)
  rw [bodyOf, bind_ok (readReg_run rd s), bind_ok (operand_run o s), setFlags_run, ← setFlags_compare unsigned rfl]
  simp only [Int.ofNat_lt]

/-- Settles O31: each own rule only writes FLAGS, and neither instruction is privileged. -/
theorem compareResult_holds : Obligations.CompareResult := fun s rd o =>
  ⟨fun h => exec_afterRegs h (bodyOf_cmp_run rd o s.advanced), fun h => exec_afterRegs h (bodyOf_cmpu_run rd o s.advanced),
    exec_protectedDies _ s rfl, exec_protectedDies _ s rfl⟩

/-- The rule the ten branches and `J` share: the condition is read from the FLAGS before the step, as the advance of `IP` keeps
them, and no branch is privileged, so a protected operand dies whether the condition holds or not (43_compare_branch.md R153). -/
theorem exec_branch {i : Instr} {cond : Flags → Bool} {o : Operand} (hbody : bodyOf i = branch cond o)
    (hpriv : isPrivileged i = false) (s : State) :
    (Allowed i s = true → exec i s = .next (s.afterRegs (branched (cond s.core.regs.flags) o))) ∧ ProtectedDies i s := by
  have run : bodyOf i s.advanced
      = .ok () (s.advanced.withRegs (branched (cond s.core.regs.flags) o s.core.regs.advance)) := by
    rw [hbody, branch_run, State.advanced_regs, Regs.advance_flags]
  exact ⟨fun h => exec_afterRegs h run, exec_protectedDies i s hpriv⟩

/-- Settles O32: one row of the table for each condition of 43_compare_branch.md R152. -/
theorem branchResult : Obligations.BranchResult := by
  intro s o f
  simp only [List.forall_mem_cons]
  exact ⟨exec_branch (i := .be o) (cond := Flags.condE) rfl rfl s,
    exec_branch (i := .bne o) (cond := Flags.condNE) rfl rfl s,
    exec_branch (i := .bz o) (cond := Flags.condZ) rfl rfl s,
    exec_branch (i := .bnz o) (cond := Flags.condNZ) rfl rfl s,
    exec_branch (i := .bs o) (cond := Flags.condS) rfl rfl s,
    exec_branch (i := .bns o) (cond := Flags.condNS) rfl rfl s,
    exec_branch (i := .bg o) (cond := Flags.condG) rfl rfl s,
    exec_branch (i := .bge o) (cond := Flags.condGE) rfl rfl s,
    exec_branch (i := .bl o) (cond := Flags.condL) rfl rfl s,
    exec_branch (i := .ble o) (cond := Flags.condLE) rfl rfl s,
    exec_branch (i := .j o) (cond := fun _ => true) rfl rfl s,
    List.forall_mem_nil _⟩

end Sys2Proof.Machine
end

section
/-! Privileged instructions: the mode check of the five, and the results of CLI, STI and RST (45_privileged_io.md R180 to R184). -/

namespace Sys2Proof.Machine

/-- The privileged instructions are the five of 45_privileged_io.md R180. -/
theorem isPrivileged_iff {i : Instr} :
    isPrivileged i = true ↔ i = .cli ∨ i = .sti ∨ (∃ o, i = .hlt o) ∨ i = .rst ∨ i = .retint := by
  cases i <;> simp [isPrivileged]

/-- The mode check comes before every other one, so the raise does not look at the operand (45_privileged_io.md R180). -/
theorem exec_privilegedDies {i : Instr} {s : State} (hi : isPrivileged i = true) (hp : s.core.regs.flags.p = false) :
    exec i s = .next (die (exc .accessViolation .instruction) (siteOf i s) s.advanced) := by
  rw [exec_eq, complete_privileged _ hp hi]

/-- Settles O15: the five are those the mode check stops, and it is the only check left where every field is below 32. -/
theorem privilegedInstructionNeedsP : Obligations.PrivilegedInstructionNeedsP := by
  intro s i hp
  rw [← isPrivileged_iff]
  exact ⟨fun hi => exec_privilegedDies hi hp, fun hi hr => allowed_of_fields_lt (Bool.eq_false_iff.mpr hi) hr s⟩

/-- In privileged mode both checks of the step pass (60_exceptions.md R202). -/
theorem allowed_of_p {s : State} (hp : s.core.regs.flags.p = true) (i : Instr) : Allowed i s = true := by
  rw [Allowed, hp, Bool.true_or]

theorem bodyOf_cli_run (s : State) :
    bodyOf .cli s = .ok () (s.withRegs (s.core.regs.setFlags fun f => { f with h := false })) := by
  rw [bodyOf, setFlags_run]

theorem bodyOf_sti_run (s : State) :
    bodyOf .sti s = .ok () (s.withRegs (s.core.regs.setFlags fun f => { f with h := true })) := by
  rw [bodyOf, setFlags_run]

theorem bodyOf_rst_run (s : State) : bodyOf .rst s = .ok () (s.withRegs s.core.regs.coreReset) :=
  actRegs_run Regs.coreReset s

/-- Settles O40: each own rule only writes registers, and the three are among the privileged instructions. -/
theorem clearSetAndReset : Obligations.ClearSetAndReset := by
  intro s
  have privileged : ∀ i ∈ [Instr.cli, .sti, .rst], isPrivileged i = true := by simp [isPrivileged]
  exact ⟨fun hp => ⟨exec_afterRegs (allowed_of_p hp _) (bodyOf_cli_run s.advanced),
      exec_afterRegs (allowed_of_p hp _) (bodyOf_sti_run s.advanced),
      exec_afterRegs (allowed_of_p hp _) (bodyOf_rst_run s.advanced)⟩,
    fun hp i hi => exec_privilegedDies (privileged i hi) hp⟩

end Sys2Proof.Machine
end

section
/-! Encoding: the encoder and the decoder are inverse to each other, and a word is accepted exactly when it has a form of the
opcode table (30_encoding.md R102, R107, R108, R111). -/

namespace Sys2Proof

/-- Whatever the format, the word of an instruction holds its row's opcode in `[5:0]`. -/
theorem fOpcode_encode (i : Instr) : fOpcode (encode i) = Laws.OpcodeField.opcode i := by
  obtain ⟨encR, encRR, encM, encC⟩ := fOpcode_enc
  cases i with
  | lw | lb | stw | stb => exact encM _ _ _ _
  | mov | swp => exact encRR _ _ _
  | cas => exact encC _ _ _ _
  | ret | cli | sti | rst | retint | inc | dec | not | push | pop => exact encR _ _
  | li | add | sub | mul | div | mod | and | or | xor | shiftl | shiftr | cmp | cmpu | be | bne | bz | bnz | bs | bns | bg | bge
  | bl | ble | j | call | hlt | inw | outw | inb | outb | int => exact fOpcode_encRI _ _ _

/-- Settles O1: the opcode selects the row, and each format decodes what it encodes. -/
theorem encodeThenDecode : Obligations.EncodeThenDecode := by
  intro i hwf
  unfold decodeWord
  rw [fOpcode_encode]
  cases i with
  | lw | lb | stw | stb => exact formM_enc _ _ _ _ hwf _
  | li => exact formRIM_enc _ _ _ _
  | mov | swp => exact formRR_enc _ _ _ _
  | cas => exact formC_enc _ _ _ _ _
  | inc | dec | not | push | pop => exact formR_enc _ _ _
  | ret | cli | sti | rst | retint => exact formN_enc _ _
  | add | sub | mul | div | mod | and | or | xor | shiftl | shiftr | cmp | cmpu | inw | outw | inb | outb =>
    exact formRI_enc _ _ _ _
  | be | bne | bz | bnz | bs | bns | bg | bge | bl | ble | j | call | hlt | int => exact formI_enc _ _ _

theorem encode_of_decodeWord {w : InsnWord} {i : Instr} (h : decodeWord w = .ok i) : encode i = w ∧ i.wf = true := by
  unfold decodeWord at h
  split at h
  case h_1 hop | h_2 hop | h_4 hop | h_5 hop =>
    obtain ⟨r, rb, off, rfl, hoff, hw⟩ := formM_inv h
    rw [opOf_eq hop] at hw
    exact ⟨hw, hoff⟩
  case h_3 hop =>
    obtain ⟨rd, v, rfl, hw⟩ := formRIM_inv h
    rw [opOf_eq hop] at hw
    exact ⟨hw, rfl⟩
  case h_6 hop | h_7 hop =>
    obtain ⟨rd, rs, rfl, hw⟩ := formRR_inv h
    rw [opOf_eq hop] at hw
    exact ⟨hw, rfl⟩
  case h_10 hop | h_11 hop | h_18 hop | h_34 hop | h_35 hop =>
    obtain ⟨r, rfl, hw⟩ := formR_inv h
    rw [opOf_eq hop] at hw
    exact ⟨hw, rfl⟩
  case h_37 hop | h_38 hop | h_39 hop | h_41 hop | h_42 hop =>
    obtain ⟨rfl, hw⟩ := formN_inv h
    rw [opOf_eq hop] at hw
    exact ⟨hw, rfl⟩
  case h_47 hop =>
    obtain ⟨ra, re, rn, rfl, hw⟩ := formC_inv h
    rw [opOf_eq hop] at hw
    exact ⟨hw, rfl⟩
  case h_23 hop | h_24 hop | h_25 hop | h_26 hop | h_27 hop | h_28 hop | h_29 hop | h_30 hop | h_31 hop | h_32 hop | h_33 hop
    | h_36 hop | h_40 hop | h_48 hop =>
    obtain ⟨o, rfl, hw⟩ := formI_inv h
    rw [opOf_eq hop] at hw
    exact ⟨hw, rfl⟩
  case h_49 => cases h
  all_goals
    rename_i hop
    obtain ⟨rd, o, rfl, hw⟩ := formRI_inv h
    rw [opOf_eq hop] at hw
    exact ⟨hw, rfl⟩

/-- Settles O2: `encode` is a left inverse of the decoder on accepted words, so the decoder is injective there. -/
theorem decodeThenEncode : Obligations.DecodeThenEncode := by
  refine ⟨fun w => ?_, fun w i h => encode_of_decodeWord h, fun w w' i h h' => ?_⟩
  · cases decodeWord w with
    | ok i => exact .inl ⟨i, rfl⟩
    | error e => exact .inr ⟨e, rfl⟩
  · exact (encode_of_decodeWord h).1.symm.trans (encode_of_decodeWord h').1

/-- Settles O4: twelve words, decoded. -/
theorem specWordsDecode : Obligations.SpecWordsDecode :=
  ⟨rfl, rfl, rfl, rfl, rfl, rfl, rfl, rfl, rfl, rfl, rfl, rfl⟩

end Sys2Proof
end

section
/-! The words the decoder accepts, against the masks of spec/opcode_table.json (30_encoding.md R102, R107, R108). -/

namespace Sys2Proof
open Machine

/-! ## What each step of a format accepts -/

theorem isOk_iff {ε α : Type} {x : Except ε α} : x.isOk = true ↔ ∃ a, x = .ok a := by
  cases x <;> simp [Except.isOk, Except.toBool]

theorem isOk_reserved_bind {α : Type} (c : Bool) (f : Unit → Except DecodeError α) :
    (reserved c >>= f).isOk = (c && (f ()).isOk) := by
  cases c <;> rfl

theorem Reg.ofNum_isSome (n : Nat) : (Reg.ofNum n).isSome = decide (n < 39) := by
  by_cases h : n < 39
  · interval_cases n <;> rfl
  · cases hr : Reg.ofNum n with
    | none => simp [h]
    | some r =>
      have := Reg.num_of_ofNum hr
      have : r.num < 39 := by cases r <;> simp [Reg.num]; omega
      omega

/-- A register field holds 0..38 or the word is rejected (30_encoding.md R108(c)), whatever comes after it. -/
theorem isOk_regField_bind {α : Type} {n : Nat} {b : Bool} {f : Reg → Except DecodeError α} (hf : ∀ r, (f r).isOk = b) :
    (regField n >>= f).isOk = (decide (n < 39) && b) := by
  rw [← Reg.ofNum_isSome, regField]
  cases Reg.ofNum n with
  | none => rfl
  | some r => exact hf r

/-! ## Masks as packed words -/

theorem pack_and (a a' : BitVec 13) (b b' : BitVec 6) (c c' : BitVec 1) (d d' e e' : BitVec 6) :
    pack a b c d e &&& pack a' b' c' d' e' = pack (a &&& a') (b &&& b') (c &&& c') (d &&& d') (e &&& e') := by
  apply BitVec.eq_of_getLsbD_eq
  intro i _
  simp only [BitVec.getLsbD_and, pack_getLsbD]
  split_ifs <;> rfl

theorem pack_inj {a a' : BitVec 13} {b b' : BitVec 6} {c c' : BitVec 1} {d d' e e' : BitVec 6} :
    pack a b c d e = pack a' b' c' d' e' ↔ a = a' ∧ b = b' ∧ c = c' ∧ d = d' ∧ e = e' := by
  refine ⟨fun h => ⟨?_, ?_, ?_, ?_, ?_⟩, by rintro ⟨rfl, rfl, rfl, rfl, rfl⟩; rfl⟩
  · simpa only [pack_hi] using congrArg (·.extractLsb' 19 13) h
  · simpa only [pack_mid] using congrArg (·.extractLsb' 13 6) h
  · simpa only [pack_k] using congrArg (·.extractLsb' 12 1) h
  · simpa only [pack_lo] using congrArg (·.extractLsb' 6 6) h
  · simpa only [pack_op] using congrArg (·.extractLsb' 0 6) h

theorem and_low3_eq_zero (mid : BitVec 6) : mid &&& 7#6 = 0#6 ↔ mid.extractLsb' 0 3 = 0#3 := by
  revert mid; decide

theorem high7_mask (j : Nat) : (8128#13).getLsbD j = (decide (6 ≤ j) && decide (j < 13)) := by
  by_cases h : j < 13
  · interval_cases j <;> rfl
  · rw [BitVec.getLsbD_of_ge _ _ (by omega)]
    simp [h]

theorem and_high7_eq_zero (hi : BitVec 13) : hi &&& 8128#13 = 0#13 ↔ hi.extractLsb' 6 7 = 0#7 := by
  constructor
  · intro h
    apply BitVec.eq_of_getLsbD_eq
    intro j hj
    have bit := congrArg (·.getLsbD (6 + j)) h
    simp only [BitVec.getLsbD_and, high7_mask] at bit
    simpa [hj, show 6 + j < 13 by omega] using bit
  · intro h
    apply BitVec.eq_of_getLsbD_eq
    intro j hj
    rw [BitVec.getLsbD_and, high7_mask]
    by_cases h6 : 6 ≤ j
    · have bit := congrArg (·.getLsbD (j - 6)) h
      have clear : hi.getLsbD j = false := by simpa [show j - 6 < 7 by omega, show 6 + (j - 6) = j by omega] using bit
      simp [clear]
    · simp [h6]

theorem bit_cases (k : BitVec 1) : k = 0 ∨ k = 1 := by revert k; decide

theorem setWidth_eq_pack (op : BitVec 6) : op.setWidth 32 = pack 0 0 0 0 op := by revert op; decide

theorem setWidth_or_eq_pack (op : BitVec 6) : op.setWidth 32 ||| 0x1000 = pack 0 0 1 0 op := by revert op; decide

@[simp] theorem and_ones_six (v : BitVec 6) : v &&& 63#6 = v := BitVec.and_allOnes
@[simp] theorem and_ones_one (v : BitVec 1) : v &&& 1#1 = v := BitVec.and_allOnes
@[simp] theorem and_ones_thirteen (v : BitVec 13) : v &&& 8191#13 = v := BitVec.and_allOnes

/-- A form in the fields of a packed word: its mask and its fixed bits are packed words too. -/
@[simp] theorem TableForm.has_pack (regs : List Nat) (hi hi' fhi : BitVec 13) (mid mid' fmid : BitVec 6) (k k' fk : BitVec 1)
    (lo lo' flo op op' fop : BitVec 6) :
    TableForm.has ⟨pack fhi fmid fk flo fop, pack hi' mid' k' lo' op', regs⟩ (pack hi mid k lo op)
      = (decide (hi &&& hi' = fhi ∧ mid &&& mid' = fmid ∧ k &&& k' = fk ∧ lo &&& lo' = flo ∧ op &&& op' = fop)
        && regs.all fun b => decide (((pack hi mid k lo op).extractLsb' b 6).toNat < 39)) := by
  rw [TableForm.has, pack_and, beq_eq_decide]
  simp only [pack_inj]

theorem isOk_pure {α : Type} (a : α) : (pure a : Except DecodeError α).isOk = true := rfl

theorem isOk_bind_pure {α β : Type} (x : Except DecodeError α) (f : α → β) : (x >>= fun a => pure (f a)).isOk = x.isOk := by
  cases x <;> rfl

/-! ## Formats -/

/-- The formats of 30_encoding.md R102. -/
inductive Format where
  | n | r | rr | ri | rim | i | m | c

/-- The register-or-immediate operand of a word, accepted (30_encoding.md R104, R108). -/
def operandOk (w : InsnWord) : Bool :=
  if fK w then zeroBits w 19 13 && decide (fRs w < 39) else zeroBits w 13 3

/-- A format's reserved bits are zero, its register fields hold 0..38, and `LI` has `k = 0` (30_encoding.md R108). -/
def Format.fieldsOk (w : InsnWord) : Format → Bool
  | n => zeroBits w 6 26
  | r => zeroBits w 12 20 && decide (fRd w < 39)
  | rr => zeroBits w 19 13 && zeroBits w 12 1 && decide (fRd w < 39) && decide (fRs w < 39)
  | ri => decide (fRd w < 39) && operandOk w
  | rim => !fK w && zeroBits w 13 3 && decide (fRd w < 39)
  | i => zeroBits w 6 6 && operandOk w
  | m => zeroBits w 12 1 && decide (fRd w < 39) && decide (fRs w < 39)
  | c => zeroBits w 25 7 && zeroBits w 12 1 && decide (fRd w < 39) && decide (fRs w < 39) && decide (fRn w < 39)

/-- The forms of a format, for an opcode. -/
def Format.forms (op : InsnWord) : Format → List TableForm
  | n => formsN op
  | r => formsR op
  | rr => formsRR op
  | ri => formsRI op
  | rim => formsRIM op
  | i => formsI op
  | m => formsM op
  | c => formsC op

/-- The format of an opcode's row (30_encoding.md R107). -/
def formatOf : Nat → Option Format
  | 1 | 2 | 4 | 5 => some .m
  | 3 => some .rim
  | 6 | 7 => some .rr
  | 10 | 11 | 18 | 34 | 35 => some .r
  | 37 | 38 | 39 | 41 | 42 => some .n
  | 47 => some .c
  | 8 | 9 | 12 | 13 | 14 | 15 | 16 | 17 | 19 | 20 | 21 | 22 | 43 | 44 | 45 | 46 => some .ri
  | 23 | 24 | 25 | 26 | 27 | 28 | 29 | 30 | 31 | 32 | 33 | 36 | 40 | 48 => some .i
  | _ => none

/-! ## What the decoder accepts in each format -/

section
variable (w : InsnWord)

theorem isOk_operandField : (operandField w).isOk = operandOk w := by
  rw [operandField, operandOk]
  split
  · rw [isOk_reserved_bind, isOk_regField_bind fun _ => isOk_pure _, Bool.and_true]
  · rw [isOk_reserved_bind, isOk_pure, Bool.and_true]

theorem isOk_formN (i : Instr) : (formN w i).isOk = Format.n.fieldsOk w := by
  rw [formN, isOk_reserved_bind, isOk_pure, Bool.and_true, Format.fieldsOk]

theorem isOk_formR (mk : Reg → Instr) : (formR w mk).isOk = Format.r.fieldsOk w := by
  rw [formR, isOk_reserved_bind, isOk_regField_bind fun _ => isOk_pure _, Bool.and_true, Format.fieldsOk]

theorem isOk_formRR (mk : Reg → Reg → Instr) : (formRR w mk).isOk = Format.rr.fieldsOk w := by
  rw [formRR, isOk_reserved_bind, isOk_regField_bind fun _ => isOk_regField_bind fun _ => isOk_pure _, Bool.and_true,
    Format.fieldsOk, Bool.and_assoc _ (decide _)]

theorem isOk_formRI (mk : Reg → Operand → Instr) : (formRI w mk).isOk = Format.ri.fieldsOk w := by
  rw [formRI, isOk_regField_bind fun _ => isOk_bind_pure _ _, isOk_operandField, Format.fieldsOk]

theorem isOk_formRIM (mk : Reg → Word → Instr) : (formRIM w mk).isOk = Format.rim.fieldsOk w := by
  rw [formRIM, Format.fieldsOk]
  split
  · next hk => simp [hk, Except.isOk, Except.toBool]
  · next hk => rw [isOk_reserved_bind, isOk_regField_bind fun _ => isOk_pure _]; simp [hk]

theorem isOk_formI (mk : Operand → Instr) : (formI w mk).isOk = Format.i.fieldsOk w := by
  rw [formI, isOk_reserved_bind, isOk_bind_pure, isOk_operandField, Format.fieldsOk]

theorem isOk_formM (mk : Reg → Reg → Int → Instr) : (formM w mk).isOk = Format.m.fieldsOk w := by
  rw [formM, isOk_reserved_bind, isOk_regField_bind fun _ => isOk_regField_bind fun _ => isOk_pure _, Bool.and_true,
    Format.fieldsOk, Bool.and_assoc]

theorem isOk_formC (mk : Reg → Reg → Reg → Instr) : (formC w mk).isOk = Format.c.fieldsOk w := by
  rw [formC, isOk_reserved_bind,
    isOk_regField_bind fun _ => isOk_regField_bind fun _ => isOk_regField_bind fun _ => isOk_pure _, Bool.and_true,
    Format.fieldsOk, Bool.and_assoc _ (decide _), Bool.and_assoc _ (decide _)]

theorem formatOf_eq_none : ∀ {n : Nat}, n = 0 ∨ (49 ≤ n ∧ n < 64) → formatOf n = none := by
  rintro n (rfl | ⟨h, h'⟩)
  · rfl
  · interval_cases n <;> rfl

/-- The decoder accepts a word exactly when its opcode has a row and the fields of the row's format are in order. -/
theorem isOk_decodeWord : (decodeWord w).isOk = (formatOf (fOpcode w)).any (Format.fieldsOk w) := by
  unfold decodeWord
  split
  case h_1 hop | h_2 hop | h_4 hop | h_5 hop => rw [hop]; exact isOk_formM w _
  case h_3 hop => rw [hop]; exact isOk_formRIM w _
  case h_6 hop | h_7 hop => rw [hop]; exact isOk_formRR w _
  case h_10 hop | h_11 hop | h_18 hop | h_34 hop | h_35 hop => rw [hop]; exact isOk_formR w _
  case h_37 hop | h_38 hop | h_39 hop | h_41 hop | h_42 hop => rw [hop]; exact isOk_formN w _
  case h_47 hop => rw [hop]; exact isOk_formC w _
  case h_8 hop | h_9 hop | h_12 hop | h_13 hop | h_14 hop | h_15 hop | h_16 hop | h_17 hop | h_19 hop | h_20 hop | h_21 hop
    | h_22 hop | h_43 hop | h_44 hop | h_45 hop | h_46 hop => rw [hop]; exact isOk_formRI w _
  case h_23 hop | h_24 hop | h_25 hop | h_26 hop | h_27 hop | h_28 hop | h_29 hop | h_30 hop | h_31 hop | h_32 hop | h_33 hop
    | h_36 hop | h_40 hop | h_48 hop => rw [hop]; exact isOk_formI w _
  case h_49 =>
    simp only [imp_false] at *
    have lt := fOpcode_lt w
    rw [formatOf_eq_none (n := fOpcode w) (by omega)]
    rfl

end

/-! ## The forms of each format -/

/-- A word has one of a format's forms exactly when it has the opcode and the format's fields are in order. -/
theorem any_forms_has (op : BitVec 6) (w : InsnWord) (fmt : Format) :
    ((fmt.forms (op.setWidth 32)).any fun f => f.has w) = true ↔ opOf w = op ∧ fmt.fieldsOk w = true := by
  obtain ⟨hi, mid, k, lo, op', rfl⟩ : ∃ hi mid k lo op, w = pack hi mid k lo op := ⟨_, _, _, _, _, eq_pack w⟩
  have masks : (0xFFFFFFFF : InsnWord) = pack 8191 63 1 63 63 ∧ (0xFFFFF03F : InsnWord) = pack 8191 63 1 0 63
    ∧ (0xFFF8103F : InsnWord) = pack 8191 0 1 0 63 ∧ (0x0000F03F : InsnWord) = pack 0 7 1 0 63
    ∧ (0xFFF81FFF : InsnWord) = pack 8191 0 1 63 63 ∧ (0x0000FFFF : InsnWord) = pack 0 7 1 63 63
    ∧ (0x0000103F : InsnWord) = pack 0 0 1 0 63 ∧ (0xFE00103F : InsnWord) = pack 0x1FC0 0 1 0 63 :=
    ⟨rfl, rfl, rfl, rfl, rfl, rfl, rfl, rfl⟩
  obtain ⟨maskN, maskR, maskRR, maskImm, maskReg, maskI, maskM, maskC⟩ := masks
  cases fmt with
  | n =>
    rw [Format.forms, formsN, maskN, setWidth_eq_pack, Format.fieldsOk, zero_26]
    simp [opOf, pack_op]
    tauto
  | r =>
    rw [Format.forms, formsR, maskR, setWidth_eq_pack, Format.fieldsOk, zero_20, fRd]
    simp [-BitVec.extractLsb'_toNat, opOf, pack_op]
    tauto
  | rr =>
    rw [Format.forms, formsRR, maskRR, setWidth_eq_pack, Format.fieldsOk, zero_hi, zero_k, fRd, fRs]
    simp [-BitVec.extractLsb'_toNat, opOf, pack_op]
    tauto
  | ri =>
    rw [Format.forms, formsRI, maskRR, maskImm, setWidth_or_eq_pack, setWidth_eq_pack, Format.fieldsOk, operandOk, fK_pack,
      zero_hi, zero_mid3, fRd, fRs]
    rcases bit_cases k with rfl | rfl <;>
    simp [-BitVec.extractLsb'_toNat, opOf, pack_op, and_low3_eq_zero] <;>
    tauto
  | rim =>
    rw [Format.forms, formsRIM, maskImm, setWidth_eq_pack, Format.fieldsOk, fK_pack, zero_mid3, fRd]
    rcases bit_cases k with rfl | rfl <;>
    simp [-BitVec.extractLsb'_toNat, opOf, pack_op, and_low3_eq_zero]
    tauto
  | i =>
    rw [Format.forms, formsI, maskReg, maskI, setWidth_or_eq_pack, setWidth_eq_pack, Format.fieldsOk, operandOk, fK_pack,
      zero_lo, zero_hi, zero_mid3, fRs]
    rcases bit_cases k with rfl | rfl <;>
    simp [-BitVec.extractLsb'_toNat, opOf, pack_op, and_low3_eq_zero] <;>
    tauto
  | m =>
    rw [Format.forms, formsM, maskM, setWidth_eq_pack, Format.fieldsOk, zero_k, fRd, fRs]
    simp [-BitVec.extractLsb'_toNat, opOf, pack_op]
    tauto
  | c =>
    rw [Format.forms, formsC, maskC, setWidth_eq_pack, Format.fieldsOk, zero_hi7, zero_k, fRd, fRs, fRn]
    simp [-BitVec.extractLsb'_toNat, opOf, pack_op, and_high7_eq_zero]
    tauto

/-- The forms of an opcode's row; none for an opcode that has no row. -/
def formsOf (op : BitVec 6) : List TableForm :=
  match formatOf op.toNat with
  | some fmt => fmt.forms (op.setWidth 32)
  | none => []

theorem tableForms_eq : tableForms = (List.range 64).flatMap fun n => formsOf (BitVec.ofNat 6 n) := by rfl

theorem mem_tableForms {f : TableForm} : f ∈ tableForms ↔ ∃ op, f ∈ formsOf op := by
  rw [tableForms_eq, List.mem_flatMap]
  constructor
  · rintro ⟨n, -, hf⟩
    exact ⟨_, hf⟩
  · rintro ⟨op, hf⟩
    exact ⟨op.toNat, List.mem_range.2 op.isLt, by rwa [BitVec.ofNat_toNat, BitVec.setWidth_eq]⟩

/-- Only the row that a word's opcode selects has forms that the word can have. -/
theorem exists_formsOf_has {op : BitVec 6} {w : InsnWord} :
    (∃ f ∈ formsOf op, f.has w = true) ↔ opOf w = op ∧ (decodeWord w).isOk = true := by
  rw [← List.any_eq_true, isOk_decodeWord, formsOf]
  cases hfmt : formatOf op.toNat with
  | none =>
    have noRow : opOf w = op → formatOf (fOpcode w) = none := fun h => by rw [← hfmt, ← h]; rfl
    simp +contextual [noRow]
  | some fmt =>
    have row : opOf w = op → formatOf (fOpcode w) = some fmt := fun h => by rw [← hfmt, ← h]; rfl
    rw [any_forms_has]
    simp +contextual [row]

/-- Settles O3: the row that the opcode selects is the only one whose forms the word can have. -/
theorem decodeAcceptsTableForms : Obligations.DecodeAcceptsTableForms := by
  intro w
  rw [← isOk_iff, List.any_eq_true]
  simp only [mem_tableForms]
  constructor
  · intro h
    obtain ⟨f, hf, hw⟩ := exists_formsOf_has.2 ⟨rfl, h⟩
    exact ⟨f, ⟨_, hf⟩, hw⟩
  · rintro ⟨f, ⟨op, hf⟩, hw⟩
    exact (exists_formsOf_has.1 ⟨f, hf, hw⟩).2

end Sys2Proof
end

section
/-! Registers, FLAGS as a register value, and power-on (10_state.md sections 1 to 4 and 7; 70_reset_and_hazards.md R240, R242). -/

namespace Sys2Proof.Machine

/-! ## FLAGS as a register value (10_state.md R25) -/

theorem Flags.toNat_pack (f : Flags) :
    f.pack.toNat = f.p.toNat + 2 * f.h.toNat + 4 * f.e.toNat + 8 * f.z.toNat + 16 * f.o.toNat + 32 * f.s.toNat := by
  have bound (b : Bool) : b.toNat ≤ 1 := Bool.toNat_le b
  have := bound f.p; have := bound f.h; have := bound f.e; have := bound f.z; have := bound f.o; have := bound f.s
  rw [Flags.pack, BitVec.toNat_ofNat, Nat.mod_eq_of_lt (by omega)]

theorem toNat_getLsbD (v : Word) (i : Nat) : (v.getLsbD i).toNat = v.toNat / 2 ^ i % 2 := by
  rw [BitVec.getLsbD, Nat.toNat_testBit]

theorem Flags.pack_unpack (v : Word) : (Flags.unpack v).pack = v &&& 0x003F := by
  apply BitVec.eq_of_toNat_eq
  rw [Flags.toNat_pack, BitVec.toNat_and, show (0x003F : Word).toNat = 2 ^ 6 - 1 from rfl, Nat.and_two_pow_sub_one_eq_mod]
  simp only [Flags.unpack, toNat_getLsbD]
  omega

/-! ## Registers (10_state.md R20 to R26) -/

theorem setWidth_setWidth_eq_and (v : Word) : (v.setWidth 8).setWidth 16 = v &&& 0x00FF := by
  apply BitVec.eq_of_toNat_eq
  rw [BitVec.toNat_and, show (0x00FF : Word).toNat = 2 ^ 8 - 1 from rfl, Nat.and_two_pow_sub_one_eq_mod]
  simp only [BitVec.toNat_setWidth]
  omega

theorem Regs.read_write_self (g : Regs) (r : Reg) (v : Word) :
    (g.write r v).read r = (match r with
      | .ds => v &&& 0x00FF
      | .cs => v &&& 0x00FF
      | .flags => v &&& 0x003F
      | _ => v) := by
  cases r with
  | gpr n => simp
  | ds | cs => exact setWidth_setWidth_eq_and v
  | flags => exact Flags.pack_unpack v
  | fp | sp | ip | cnt => rfl

theorem Regs.read_write_of_ne (g : Regs) {q r : Reg} (v : Word) (h : q ≠ r) : (g.write r v).read q = g.read q := by
  obtain ⟨hgpr, hfp, hsp, hds, hcs, hip, hflags, hcnt⟩ := Regs.write_other (g := g) (r := r) (v := v)
  cases q with
  | gpr n =>
    cases r with
    | gpr m =>
      have hne : (m : Nat) ≠ n := fun e => h (congrArg Reg.gpr (Fin.ext e.symm))
      simp [Vector.getElem_set_ne, hne]
    | fp | sp | ds | cs | ip | flags | cnt => rfl
  | fp => exact hfp h.symm
  | sp => exact hsp h.symm
  | ds => exact congrArg (BitVec.setWidth 16) (hds h.symm)
  | cs => exact congrArg (BitVec.setWidth 16) (hcs h.symm)
  | ip => exact hip h.symm
  | flags => exact congrArg Flags.pack (hflags h.symm)
  | cnt => exact hcnt h.symm

/-- Settles O5: what a write keeps of a value is its register's width. -/
theorem registerWriteThenRead : Obligations.RegisterWriteThenRead := fun g r v =>
  ⟨g.read_write_self r v, fun _ hq => g.read_write_of_ne v hq⟩

/-- Settles O6: in the sequences, FLAGS is the fourth of the words that the entry pushes, and the word 34 above `SP` at the exit. -/
theorem flagsPacking : Obligations.FlagsPacking := by
  refine ⟨fun g => g.flags.toNat_pack, fun _ _ => rfl, fun s base count i v p hok => ?_, fun s f p hok => ?_⟩
  · obtain ⟨t, hrun, -, -, -, -, -, words, -⟩ := enterInterrupt_ok hok
    exact ⟨t, hrun, words 3 (by simp [entryWords])⟩
  · obtain ⟨t, hrun, houtside, -⟩ := exitInterrupt_ok hok
    exact ⟨t, hrun, congrArg Regs.flags (outside_eq houtside).2⟩

/-! ## Power-on -/

/-- Settles O7: every core is `Core.powerOn`, never booted, so it makes no transition of its own. -/
theorem powerOnState : Obligations.PowerOnState := by
  intro cfg sizes others s
  refine ⟨rfl, rfl, rfl, rfl, by simp [s, State.powerOn], fun c hc => ?_, fun t ht => ?_⟩
  · obtain ⟨z, rfl⟩ : ∃ z, c = Core.powerOn z := by
      simp only [s, State.powerOn, List.mem_cons, List.mem_map] at hc
      rcases hc with rfl | ⟨z, -, rfl⟩
      · exact ⟨sizes, rfl⟩
      · exact ⟨z, rfl⟩
    refine ⟨rfl, rfl, rfl, rfl, rfl, rfl, rfl, rfl, rfl, rfl, rfl, fun j => ?_, rfl, rfl, rfl, rfl⟩
    simp [Core.powerOn, Regs.powerOn]
  · exact nomatch (show Host.Outcome.refused Refusal.notBooted = .next t from ht)

theorem CoreInv.powerOn (cfg : Config) {z : CacheSizes} (h : 1 ≤ z.icache ∧ 1 ≤ z.dcache) : CoreInv cfg (Core.powerOn z) where
  sizes := h
  icacheFits := Nat.zero_le _
  dcacheFits := Nat.zero_le _
  icacheKeys := List.nodup_nil
  dcacheKeys := List.nodup_nil
  icacheAligned := nofun
  dcacheAligned := nofun
  dcacheInBounds := fun _ => nofun
  runningAlive := nofun
  aliveBooted := nofun
  faultedHalted := nofun

/-- Memory of at least one segment: the bound of `MEM_SIZE` that segment 0 needs (00_scope.md R5). -/
theorem Config.wf_memSize {cfg : Config} (h : cfg.wf = true) : 65536 ≤ cfg.memSize := by
  simp only [Config.wf, Bool.and_eq_true, decide_eq_true_eq] at h
  tauto

theorem MCInv.powerOn {cfg : Config} (h : cfg.wf = true) : MCInv cfg MC.powerOn where
  cells := rfl
  pages := rfl
  covered := nofun
  inRange := nofun
  segments := List.pairwise_singleton _ _
  segmentsInRange := by
    have := Config.wf_memSize h
    intro n hn
    rw [List.mem_singleton.1 hn]
    omega
  segmentZero := List.mem_singleton_self 0

/-- Settles O8. -/
theorem powerOnSatisfiesInvariant : Obligations.PowerOnSatisfiesInvariant := by
  have all : ∀ (cfg : Config) (sizes : CacheSizes) (others : List CacheSizes), cfg.wf = true →
      (∀ z ∈ sizes :: others, 1 ≤ z.icache ∧ 1 ≤ z.dcache) → Inv (State.powerOn cfg sizes others) := by
    intro cfg sizes others hcfg hsizes
    refine ⟨hcfg, MCInv.powerOn hcfg, CoreInv.powerOn cfg (hsizes sizes (List.mem_cons_self ..)), fun c hc => ?_⟩
    obtain ⟨z, hz, rfl⟩ := List.mem_map.1 hc
    exact CoreInv.powerOn cfg (hsizes z (List.mem_cons_of_mem _ hz))
  exact ⟨all, all _ _ _ (by decide) (by simp)⟩

theorem step_host {s : State} {a : HostAction} {rest : List Choice} (h : s.agenda = .host a :: rest) :
    step s = hostAction a { s with agenda := rest } := by
  rw [step, h]

@[simp] theorem whenEnabled_true (x : Result) : whenEnabled true x = x := rfl
@[simp] theorem whenEnabled_false (x : Result) : whenEnabled false x = .refused .notEnabled := rfl

/-- Settles O9: `boot` is enabled on a core never booted and never again. -/
theorem bootStartsCore : Obligations.BootStartsCore := by
  intro s b rest hag
  rw [step_host hag, hostAction]
  refine ⟨fun hb ha => ?_, fun hb t => ?_⟩
  · simp [hb, ha, State.onCore, Core.boot, BitVec.setWidth_eq_extractLsb']
  · simp [hb]

/-- Settles O54: each action is enabled, and updates its field. -/
theorem hostRunControl : Obligations.HostRunControl := by
  intro s rest after
  refine ⟨fun i hag => ?_, fun hag ha => ?_, fun hag ha => ?_, fun hag ha => ?_, fun hag ha => ?_⟩ <;>
    rw [step_host hag, hostAction]
  · rfl
  · simp [ha, after, State.onCore]
  · simp [ha, after, State.onCore]
  · simp [ha, after, State.onCore]
  · simp [ha, after, hostHalt, haltCore, bind_ok (ask_run _ _)]

/-! ## The machine's exit code (60_exceptions.md R207) -/

theorem foldl_max_exitCode (l : List Core) (m : Nat) :
    m ≤ l.foldl (fun n c => max n c.exitCode.toNat) m
      ∧ (∀ c ∈ l, c.exitCode.toNat ≤ l.foldl (fun n c => max n c.exitCode.toNat) m)
      ∧ (l.foldl (fun n c => max n c.exitCode.toNat) m = m
        ∨ ∃ c ∈ l, c.exitCode.toNat = l.foldl (fun n c => max n c.exitCode.toNat) m) := by
  induction l generalizing m with
  | nil => simp
  | cons c l ih =>
    obtain ⟨lower, upper, attained⟩ := ih (max m c.exitCode.toNat)
    rw [List.foldl_cons]
    refine ⟨by omega, List.forall_mem_cons.2 ⟨by omega, upper⟩, ?_⟩
    rcases attained with h | ⟨d, hd, h⟩
    · rw [h]
      rcases Nat.le_total c.exitCode.toNat m with hle | hle
      · exact .inl (by omega)
      · exact .inr ⟨c, List.mem_cons_self .., by omega⟩
    · exact .inr ⟨d, List.mem_cons_of_mem _ hd, h⟩

/-- Settles O56: where the maximum is the 0 it starts from, the core in focus attains it. -/
theorem machineExitCodeIsMaximum : Obligations.MachineExitCodeIsMaximum := by
  intro s
  obtain ⟨-, upper, attained⟩ := foldl_max_exitCode (s.core :: s.others) 0
  refine ⟨upper, attained.elim (fun h => ⟨s.core, List.mem_cons_self .., ?_⟩) id⟩
  have := upper s.core (List.mem_cons_self ..)
  rw [machineExitCode, h]
  omega

end Sys2Proof.Machine
end

section
/-! The step: whose choice it runs, and the invariant that each choice keeps (60_exceptions.md R201). -/

namespace Sys2Proof.Machine

/-- The state with the rest of its script. -/
def State.withAgenda (s : State) (rest : List Choice) : State := { s with agenda := rest }

/-- A next state of the machine comes from a turn of the core in focus, a change of focus, a spontaneous write-back or a host
action. -/
theorem step_cases {s t : State} (h : step s = .next t) :
    (OwnTurn s ∧ ∃ u : State, u.core = s.core ∧ u.cfg = s.cfg ∧ u.mc = s.mc ∧ u.others = s.others ∧ u.begun = s.onTurn
        ∧ coreTransition u = .next t)
      ∨ (∃ k rest, s.agenda = .select k :: rest ∧ selectCore k (s.withAgenda rest) = .next t)
      ∨ (∃ pa rest, s.agenda = .writeBack pa :: rest ∧ spontaneousWriteBack pa (s.withAgenda rest) = some t)
      ∨ ∃ a rest, s.agenda = .host a :: rest ∧ hostAction a (s.withAgenda rest) = .next t := by
  unfold step at h
  split at h
  case h_1 hag => exact .inl ⟨.inl hag, s, rfl, rfl, rfl, rfl, by simp [State.begun, State.onTurn, hag], h⟩
  case h_2 rest hag =>
    exact .inl ⟨.inr ⟨rest, hag⟩, s.withAgenda rest, rfl, rfl, rfl, rfl, by simp [State.withAgenda, State.begun, State.onTurn, hag], h⟩
  case h_3 k rest hag => exact .inr (.inl ⟨k, rest, hag, h⟩)
  case h_4 pa rest hag =>
    refine .inr (.inr (.inl ⟨pa, rest, hag, ?_⟩))
    unfold writeBackChoice at h
    split at h
    · next u hu => rw [Host.Outcome.next.inj h] at hu; exact hu
    · cases h
  case h_5 a rest hag => exact .inr (.inr (.inr ⟨a, rest, hag, h⟩))

theorem Inv.withAgenda {s : State} (h : Inv s) (rest : List Choice) : Inv (s.withAgenda rest) := ⟨h.cfg, h.mc, h.core, h.others⟩

theorem Inv.begun {s : State} (h : Inv s) : Inv s.begun := ⟨h.cfg, h.mc, h.core, h.others⟩

theorem Inv.note {s : State} (h : Inv s) (n : HostNote) : Inv { s with history := s.history ++ [n] } :=
  ⟨h.cfg, h.mc, h.core, h.others⟩

theorem Inv.onCore {s : State} (h : Inv s) {f : Core → Core} (hf : CoreInv s.cfg (f s.core)) : Inv (s.onCore f) := h.setCore hf

/-- The core that a turn moves is booted: it is alive. -/
theorem coreTransition_inv {s t : State} (h : Inv s) (ht : coreTransition s = .next t) : Inv t := by
  rcases coreTransition_cases ht with ⟨hacc, rfl⟩ | ⟨-, hstep, hrun⟩
  · simp only [acceptEnabled, Bool.and_eq_true] at hacc
    obtain ⟨⟨⟨alive, -⟩, -⟩, -⟩ := hacc
    exact acceptIrq_inv h.begun (h.core.aliveBooted alive)
  · simp only [stepEnabled, Bool.and_eq_true] at hstep
    obtain ⟨⟨alive, -⟩, -⟩ := hstep
    have booted := h.core.aliveBooted alive
    have fetched := Keeps.fetch _ h.begun
    rcases hrun with ⟨i, u, hf, he⟩ | ⟨e, u, hf, rfl⟩
    · rw [hf] at fetched
      obtain ⟨-, -, kept, -⟩ := fetch_keeps hf
      exact exec_inv fetched (kept.trans booted) he
    · rw [hf] at fetched
      obtain ⟨-, -, kept, -⟩ := fetch_error_keeps hf
      exact die_inv _ _ fetched (kept.trans booted)

/-! ## Host actions -/

theorem whenEnabled_eq_next {c : Bool} {x : Result} {t : State} (h : whenEnabled c x = .next t) : c = true ∧ x = .next t := by
  cases c with
  | true => exact ⟨rfl, h⟩
  | false => cases h

/-- An operation and then a note of what it answered: how the load-time allocations end (60_exceptions.md R225). -/
theorem noted_inv {α : Type} {x : M α} {n : α → HostNote} {s : State} (h : Inv (left (x s))) :
    Inv (left ((x >>= fun a => note (n a)) s)) := by
  rw [bind_run]
  cases hx : x s with
  | ok a u => rw [hx] at h; exact Inv.note h _
  | error e u => rw [hx] at h; exact h

theorem freeSegment_inv {n : Nat} {s t : State} (h : Inv s) (ht : freeSegment n s = .next t) : Inv t := by
  obtain ⟨hn, ht⟩ := whenEnabled_eq_next ht
  simp only [Bool.and_eq_true, decide_eq_true_eq] at hn
  rw [← Host.Outcome.next.inj ht]
  exact h.setMC (h.mc.freeSegment hn.1)

theorem CoreInv.restore {cfg : Config} {c : Core} (h : CoreInv cfg c) (r : Capture) : CoreInv cfg (c.restore r) :=
  h.congr rfl rfl rfl rfl rfl rfl rfl

/-- Every host action of 60_exceptions.md R225 keeps the invariant where it is enabled. -/
theorem hostAction_inv {a : HostAction} {s t : State} (h : Inv s) (ht : hostAction a s = .next t) : Inv t := by
  cases a with
  | allocSegment => exact loadRun_inv (noted_inv (allocSegment_inv h).1) (whenEnabled_eq_next ht).2
  | freeSegment n => exact freeSegment_inv h (whenEnabled_eq_next ht).2
  | allocPage seg access => exact loadRun_inv (noted_inv (Keeps.allocPage _ _ s h)) (whenEnabled_eq_next ht).2
  | loadProgram image =>
    have hload := (whenEnabled_eq_next ht).2
    split at hload
    · next hwf => exact loadRun_inv (loadProgram_inv h hwf) hload
    · cases hload
  | setVector table index v => exact hostRun_inv (Keeps.saveVector _ _ _ s h) h (whenEnabled_eq_next ht).2
  | mmapRegion r contents =>
    obtain ⟨hen, hmap⟩ := whenEnabled_eq_next ht
    simp only [Bool.and_eq_true, decide_eq_true_eq] at hen
    exact mmapRegion_inv h hen.2 hmap
  | unmapRegion address => exact unmapRegion_inv h (whenEnabled_eq_next ht).2
  | mcWrite w => exact hostRun_inv (Keeps.memWritePriv w s h) h (whenEnabled_eq_next ht).2
  | updateAreaFlags address size flag value =>
    obtain ⟨hen, hrun⟩ := whenEnabled_eq_next ht
    exact hostRun_inv (updateAreaFlags_inv h (of_decide_eq_true hen)).1 h hrun
  | boot b =>
    obtain ⟨hen, hboot⟩ := whenEnabled_eq_next ht
    simp only [Bool.and_eq_true, Bool.not_eq_true'] at hen
    rw [← Host.Outcome.next.inj hboot]
    exact h.onCore (h.core.boot hen.1 b)
  | enqueueIrq i =>
    rw [← Host.Outcome.next.inj ht]
    exact h.onCore (h.core.congr rfl rfl rfl rfl rfl rfl rfl)
  | setIdle =>
    rw [← Host.Outcome.next.inj (whenEnabled_eq_next ht).2]
    exact h.onCore (h.core.congr rfl rfl rfl rfl rfl rfl rfl)
  | suspend | wakeUp =>
    obtain ⟨halive, hrun⟩ := whenEnabled_eq_next ht
    rw [← Host.Outcome.next.inj hrun]
    exact h.onCore (h.core.setRunning halive _)
  | halt =>
    rw [← Host.Outcome.next.inj ht]
    exact hostHalt_inv h
  | sharedByte address v =>
    obtain ⟨hen, hwrite⟩ := whenEnabled_eq_next ht
    rw [← Host.Outcome.next.inj hwrite]
    exact sharedByte_inv h hen
  | saveState =>
    rw [← Host.Outcome.next.inj (whenEnabled_eq_next ht).2]
    exact h.note _
  | loadState record =>
    have hload := (whenEnabled_eq_next ht).2
    cases record with
    | none => exact hostFailed_inv h hload
    | some r =>
      rw [← Host.Outcome.next.inj hload]
      exact h.onCore (h.core.restore r)
  | saveMemory =>
    rw [← Host.Outcome.next.inj ht]
    exact h.note _

/-- Settles O57, over the choices a step can run. -/
theorem stepKeepsInvariant : Obligations.StepKeepsInvariant := by
  intro s t h ht
  rcases step_cases ht with ⟨-, u, hcore, hcfg, hmc, hothers, -, hu⟩ | ⟨k, rest, -, hsel⟩ | ⟨pa, rest, -, hwb⟩ | ⟨a, rest, -, ha⟩
  · have hu_inv : Inv u := ⟨hcfg ▸ h.cfg, hcfg ▸ hmc ▸ h.mc, hcfg ▸ hcore ▸ h.core, hcfg ▸ hothers ▸ h.others⟩
    exact coreTransition_inv hu_inv hu
  · exact selectCore_inv (h.withAgenda rest) hsel
  · exact spontaneousWriteBack_inv (h.withAgenda rest) hwb
  · exact hostAction_inv (h.withAgenda rest) ha

/-- Settles O58: `exec` answers a next state for every instruction, and its fixed part is that of the state before. -/
theorem noInstructionReachesOutside : Obligations.NoInstructionReachesOutside := by
  intro i s
  obtain ⟨t, ht⟩ := exec_next i s
  exact ⟨t, ht, exec_fixed ht⟩

end Sys2Proof.Machine
end

section
/-! What decides over privilege, and that only an interrupt entry changes it in unprivileged mode (10_state.md R23;
60_exceptions.md R216). -/

namespace Sys2Proof.Machine

/-- `P`, `H`, `CS`, `DS`, the interrupt stacks and `idle`. -/
def State.privileges (s : State) : Bool × Bool × Byte × Byte × List Nat × Bool :=
  (s.core.regs.flags.p, s.core.regs.flags.h, s.core.regs.cs, s.core.regs.ds, s.core.istack, s.core.idle)

/-- A register whose write leaves the privileges alone. -/
def IsPlain (r : Reg) : Prop := r ≠ .ds ∧ r ≠ .cs ∧ r ≠ .flags

theorem isPlain_of_unprotected {r : Reg} (h : isProtectedReg r = false) : IsPlain r := by
  cases r with
  | gpr n => exact ⟨nofun, nofun, nofun⟩
  | fp | sp | ds | cs | ip | flags | cnt => cases h

theorem isPlain_ip : IsPlain .ip := ⟨nofun, nofun, nofun⟩
theorem isPlain_fp : IsPlain .fp := ⟨nofun, nofun, nofun⟩

/-- An update of flags that leaves `P` and `H` alone. -/
def keepsMode (f : Flags → Flags) : Prop := ∀ g, (f g).p = g.p ∧ (f g).h = g.h

/-! ## Each operation -/

theorem Same.privileges_of_outside {α : Type} {x : M α} (h : Same State.outside x) : Same State.privileges x := fun s =>
  show (left (x s)).outside.privileges = s.outside.privileges from congrArg _ (h s)

theorem Same.writeReg_privileges {r : Reg} (h : IsPlain r) (v : Word) : Same State.privileges (writeReg r v) := fun s => by
  obtain ⟨-, -, -, hds, hcs, -, hflags, -⟩ := Regs.write_other (g := s.core.regs) (r := r) (v := v)
  simp only [writeReg_run, left_ok, State.privileges, State.withRegs_regs, State.withRegs_istack, State.withRegs_idle,
    hds h.1, hcs h.2.1, hflags h.2.2]

theorem Same.setFlags_privileges {f : Flags → Flags} (h : keepsMode f) : Same State.privileges (setFlags f) := fun s => by
  obtain ⟨hp, hh⟩ := h s.core.regs.flags
  simp [State.privileges, hp, hh]

theorem Same.flagged_privileges {r : Reg} (h : IsPlain r) (v : Word) {f : Flags → Flags} (hf : keepsMode f) :
    Same State.privileges (do writeReg r v; setFlags f) :=
  .bind (.writeReg_privileges h v) fun _ => .setFlags_privileges hf

theorem Same.branch_privileges (c : Flags → Bool) (o : Operand) : Same State.privileges (branch c o) :=
  .bind (.ask _) fun _ => .bind (.ask _) fun _ => .whenever _ (.writeReg_privileges isPlain_ip _)

theorem Same.push16_privileges (v : Word) : Same State.privileges (Machine.push16 v) :=
  .bind (.act fun _ => rfl) fun _ => .bind (.ask _) fun _ => .privileges_of_outside (.dWrite16 _ _)

theorem Same.pop16_privileges : Same State.privileges pop16 :=
  .bind (.ask _) fun _ => .bind (.privileges_of_outside (.dRead16 _)) fun _ => .bind (.act fun _ => rfl) fun _ => .pure _

theorem Same.createFrame_privileges : Same State.privileges createFrame :=
  .bind (.ask _) fun _ => .bind (.push16_privileges _) fun _ => .bind (.ask _) fun _ => .bind (.push16_privileges _) fun _ =>
    .bind (.act fun _ => rfl) fun _ => .actCore fun _ => rfl

theorem Same.checkFrame {γ : Type} {v : State → γ} : Same v checkFrame := by
  refine .bind (.ask _) fun top => ?_
  cases top with
  | none => exact .raise _ _
  | some f => exact .bind (.ask _) fun _ => .require _ _ _

theorem Same.destroyFrame_privileges : Same State.privileges destroyFrame :=
  .bind .pop16_privileges fun _ => .bind (.writeReg_privileges isPlain_fp _) fun _ =>
    .bind .pop16_privileges fun _ => .bind (.writeReg_privileges isPlain_ip _) fun _ => .actCore fun _ => rfl

theorem Same.portCheck {γ : Type} {v : State → γ} (p : Word) : Same v (portCheck p) := by
  refine .bind (.ask _) fun mark => ?_
  cases mark with
  | none => exact .raise _ _
  | some b => exact .bind (.ask _) fun _ => .require _ _ _

theorem Same.drawPort_privileges : Same State.privileges drawPort := fun s => by rw [drawPort_run]; rfl

theorem Same.drawVint_privileges : Same State.privileges drawVint := fun s => by rw [drawVint_run]; rfl

theorem Same.note_privileges (n : HostNote) : Same State.privileges (note n) := fun _ => rfl

theorem Same.virtualInterrupt_privileges (n : Word) : Same State.privileges (virtualInterrupt n) := by
  refine .bind .drawVint_privileges fun outcome => .bind (.note_privileges _) fun _ => ?_
  cases outcome with
  | ok gpr writes =>
    exact .bind (.act fun _ => rfl) fun _ =>
      .blame _ (.forEach (fun _ => .privileges_of_outside (.memWritePriv _)) _)
  | fail kind info => exact .blame _ (.raise _ _)

/-! ## Each instruction -/

/-- The own rule of an instruction that unprivileged code may run leaves the privileges alone, unless it is an `INT`. -/
theorem Same.bodyOf_privileges {i : Instr} (hpriv : isPrivileged i = false) (hreg : ∀ r ∈ regFields i, IsPlain r)
    (hint : ∀ o, i ≠ .int o) : Same State.privileges (bodyOf i) := by
  cases i with
  | lw rd rb off =>
    have hrd : IsPlain rd := hreg rd (List.mem_cons_self ..)
    exact .bind (.ask _) fun _ => .bind (.privileges_of_outside (.dRead16 _)) fun _ =>
      .flagged_privileges hrd _ fun _ => ⟨rfl, rfl⟩
  | lb rd rb off =>
    have hrd : IsPlain rd := hreg rd (List.mem_cons_self ..)
    exact .bind (.ask _) fun _ => .bind (.privileges_of_outside (.memRead8 _ _)) fun _ =>
      .flagged_privileges hrd _ fun _ => ⟨rfl, rfl⟩
  | li rd v => exact .flagged_privileges (hreg rd (List.mem_cons_self ..)) _ fun _ => ⟨rfl, rfl⟩
  | stw rb off r =>
    exact .bind (.ask _) fun _ => .bind (.ask _) fun _ => .privileges_of_outside (.dWrite16 _ _)
  | stb rb off r =>
    exact .bind (.ask _) fun _ => .bind (.ask _) fun _ => .privileges_of_outside (.memWrite8 _ _ _ _)
  | mov rd rs => exact .bind (.ask _) fun _ => .writeReg_privileges (hreg rd (List.mem_cons_self ..)) _
  | swp rd rs =>
    have hrd : IsPlain rd := hreg rd (List.mem_cons_self ..)
    have hrs : IsPlain rs := hreg rs (List.mem_cons_of_mem _ (List.mem_cons_self ..))
    exact .bind (.ask _) fun _ => .bind (.ask _) fun _ => .bind (.writeReg_privileges hrd _) fun _ =>
      .writeReg_privileges hrs _
  | add rd o | sub rd o | mul rd o | and rd o | or rd o | xor rd o | shiftl rd o | shiftr rd o =>
    have hrd : IsPlain rd := hreg rd (List.mem_cons_self ..)
    exact .bind (.ask _) fun _ => .bind (.ask _) fun _ => .flagged_privileges hrd _ fun _ => ⟨rfl, rfl⟩
  | inc r | dec r | not r =>
    exact .bind (.ask _) fun _ => .flagged_privileges (hreg r (List.mem_cons_self ..)) _ fun _ => ⟨rfl, rfl⟩
  | div rd o | mod rd o =>
    have hrd : IsPlain rd := hreg rd (List.mem_cons_self ..)
    exact .bind (.ask _) fun _ => .bind (.ask _) fun _ => .bind (.require _ _ _) fun _ => .bind (.ask _) fun _ =>
      .flagged_privileges hrd _ fun _ => ⟨rfl, rfl⟩
  | cmp rd o | cmpu rd o =>
    exact .bind (.ask _) fun _ => .bind (.ask _) fun _ => .setFlags_privileges fun _ => ⟨rfl, rfl⟩
  | be o | bne o | bz o | bnz o | bs o | bns o | bg o | bge o | bl o | ble o => exact .branch_privileges _ o
  | j o => exact .branch_privileges (fun _ => true) o
  | push r => exact .bind (.ask _) fun _ => .push16_privileges _
  | pop r => exact .bind .pop16_privileges fun _ => .writeReg_privileges (hreg r (List.mem_cons_self ..)) _
  | call o =>
    exact .bind (.ask _) fun _ => .bind .createFrame_privileges fun _ => .writeReg_privileges isPlain_ip _
  | ret => exact .bind .checkFrame fun _ => .destroyFrame_privileges
  | cli | sti | hlt | rst | retint => cases hpriv
  | inw rd o | inb rd o =>
    have hrd : IsPlain rd := hreg rd (List.mem_cons_self ..)
    exact .bind (.ask _) fun _ => .bind (.portCheck _) fun _ => .bind .drawPort_privileges fun _ =>
      .bind (.note_privileges _) fun _ => .writeReg_privileges hrd _
  | outw o r | outb o r =>
    exact .bind (.ask _) fun _ => .bind (.portCheck _) fun _ => .bind (.ask _) fun _ => .note_privileges _
  | cas ra re rn =>
    have hre : IsPlain re := hreg re (List.mem_cons_of_mem _ (List.mem_cons_self ..))
    refine .bind (.ask _) fun _ => .bind (.ask _) fun _ => .bind (.ask _) fun _ => .bind (.ask _) fun _ =>
      .bind (.privileges_of_outside (.cas16 _ _ _)) fun res => ?_
    cases res with
    | success => exact .setFlags_privileges fun _ => ⟨rfl, rfl⟩
    | observed c => exact .flagged_privileges hre _ fun _ => ⟨rfl, rfl⟩
  | int o => exact absurd rfl (hint o)

theorem die_privileges (e : Exc) (site : FaultSite) (s : State) : (die e site s).privileges = s.privileges := by
  obtain ⟨hregs, -, -, -, histack, hidle, -⟩ := die_leaves e site s
  simp only [State.privileges, hregs, histack, hidle]

/-- In unprivileged mode an instruction whose own rule leaves the privileges alone does so as a whole, completing or dying. -/
theorem exec_privileges {i : Instr} {s t : State} (h : exec i s = .next t)
    (hbody : Allowed i s = true → (left (bodyOf i s.advanced)).privileges = s.privileges) : t.privileges = s.privileges := by
  rcases exec_cases i s with ⟨hal, u, hu, he⟩ | ⟨hal, e, u, hu, he⟩ | ⟨-, e, he⟩ <;> rw [he] at h <;>
    rw [← Host.Outcome.next.inj h]
  · rw [hu] at hbody
    exact hbody hal
  · rw [hu] at hbody
    exact (die_privileges _ _ _).trans (hbody hal)
  · exact die_privileges _ _ _

/-- What may run with `P = 0` (60_exceptions.md R202). -/
theorem allowed_unprivileged {i : Instr} {s : State} (hp : s.core.regs.flags.p = false) (h : Allowed i s = true) :
    isPrivileged i = false ∧ ∀ r ∈ regFields i, IsPlain r := by
  simp only [Allowed, hp, Bool.false_or, Bool.and_eq_true, Bool.not_eq_true', List.all_eq_true] at h
  exact ⟨h.1, fun r hr => isPlain_of_unprotected (h.2 r hr)⟩

theorem exec_keeps_privileges {i : Instr} {s t : State} (hp : s.core.regs.flags.p = false) (hint : ∀ o, i ≠ .int o)
    (h : exec i s = .next t) : t.privileges = s.privileges :=
  exec_privileges h fun hal =>
    have ⟨hpriv, hreg⟩ := allowed_unprivileged hp hal
    Same.bodyOf_privileges hpriv hreg hint s.advanced

/-- Settles O59. -/
theorem userModeKeepsPrivilegedState : Obligations.UserModeKeepsPrivilegedState := by
  intro i s t hp hint h
  have same := exec_keeps_privileges hp hint h
  simp only [State.privileges, Prod.mk.injEq] at same
  exact ⟨same.1.trans hp, same.2⟩

/-- An `INT` of an index with a virtual handler makes no entry (60_exceptions.md R219). -/
theorem exec_int_virtual_privileges {o : Operand} {s t : State} (h : exec (.int o) s = .next t)
    (hv : s.cfg.vint.contains (operandValue s.core.regs.advance o) = true) : t.privileges = s.privileges := by
  refine exec_privileges h fun _ => ?_
  have run : bodyOf (.int o) s.advanced = virtualInterrupt (operandValue s.core.regs.advance o) s.advanced := by
    rw [bodyOf, bind_ok (operand_run o _), bind_ok (ask_run _ _), bind_ok (ask_run _ _), bind_ok (ask_run _ _),
      State.advanced_regs, State.advanced_cfg, hv, if_pos rfl]
  rw [run]
  exact Same.virtualInterrupt_privileges _ s.advanced

theorem spontaneousWriteBack_privileges {pa : Nat} {s t : State} (h : spontaneousWriteBack pa s = some t) :
    t.privileges = s.privileges := by
  have kept := Same.privileges_of_outside (Same.cleanEntry pa) s
  unfold spontaneousWriteBack at h
  split at h
  · split at h
    · split at h
      · next hr => rw [hr] at kept; rw [← Option.some.inj h]; exact kept
      · next hr => rw [hr] at kept; rw [← Option.some.inj h]; exact (die_privileges _ _ _).trans kept
    · cases h
  · cases h

theorem Same.fetch_privileges : Same State.privileges Machine.fetch := fun s =>
  show (left (Machine.fetch s)).offFetch.privileges = s.offFetch.privileges from congrArg _ (Same.fetch s)

/-- The raise of `P` rules out every way in which a transition keeps the privileges. -/
theorem privileges_changed {s t : State} (hp : s.core.regs.flags.p = false) (ht : t.core.regs.flags.p = true) :
    t.privileges ≠ s.privileges := by
  intro h
  have same : t.core.regs.flags.p = s.core.regs.flags.p := congrArg Prod.fst h
  exact Bool.noConfusion (hp.symm.trans (same.symm.trans ht))

/-- Settles O60: of the transitions, an IRQ acceptance and an `INT` without a virtual handler are all that is left. -/
theorem privilegeOnlyThroughInterrupts : Obligations.PrivilegeOnlyThroughInterrupts := by
  intro s t hselect hhost h hp ht
  have changed := privileges_changed hp ht
  rcases step_cases h with ⟨hturn, u, hcore, hcfg, -, -, hbegun, hu⟩ | ⟨k, rest, hag, -⟩ | ⟨pa, rest, -, hwb⟩ | ⟨a, rest, hag, -⟩
  · refine ⟨hturn, ?_⟩
    rcases coreTransition_cases hu with ⟨hacc, -⟩ | ⟨-, -, ⟨i, v, hf, he⟩ | ⟨e, v, hf, rfl⟩⟩
    · simp only [acceptEnabled, Bool.and_eq_true, Bool.not_eq_true', hcore] at hacc
      exact .inl ⟨hacc.1.2, by simpa using hacc.2⟩
    · rw [hbegun] at hf
      obtain ⟨hregs, hvcfg, -⟩ := fetch_keeps hf
      have fetched : v.privileges = s.privileges := Same.fetch_privileges.ok (s := s.onTurn) hf
      by_cases hint : ∃ o, i = .int o
      · obtain ⟨o, rfl⟩ := hint
        refine .inr ⟨o, v, hf, Bool.eq_false_iff.2 fun hvirtual => changed ?_⟩
        exact (exec_int_virtual_privileges he (by rwa [hvcfg])).trans fetched
      · have hvp : v.core.regs.flags.p = false := hregs ▸ hp
        exact absurd ((exec_keeps_privileges hvp (not_exists.1 hint) he).trans fetched) changed
    · rw [hbegun] at hf
      exact absurd ((die_privileges _ _ _).trans (Same.fetch_privileges.error (s := s.onTurn) hf)) changed
  · exact absurd (by rw [hag]; rfl) (hselect k)
  · exact absurd (spontaneousWriteBack_privileges hwb) changed
  · exact absurd (by rw [hag]; rfl) (hhost a)

end Sys2Proof.Machine
end

section
/-! The step of the core in focus: what it fetches, and where it is stuck (20_memory.md R71, R72; 60_exceptions.md R200 to R202). -/

namespace Sys2Proof.Machine

/-! ## Fetching -/

@[simp] theorem State.touched_touched (s : State) (p : Nat) : (s.touched p).touched p = s.touched p := by
  have there : ((s.mc.touchPage s.cfg p).page p).isSome = true := s.mc.touchPage_isSome s.cfg p
  obtain ⟨pg, hpg⟩ := Option.isSome_iff_exists.1 there
  simp only [State.touched, State.withMC_mc, State.withMC_cfg, State.withMC_withMC, MC.touchPage_of_some hpg]

/-- A page that the execute check has made is there when the word is read. -/
@[simp] theorem State.checked_touched (s : State) (pa : Nat) : (s.checked pa).touched (pageOf pa) = s.touched (pageOf pa) := by
  unfold State.checked
  split
  · exact s.touched_touched _
  · rfl

theorem fetch_onTurn {s : State} {pa : Nat} (h : pa = phys s.core.regs.cs s.core.regs.ip) :
    fetch s.onTurn = iFetch pa s.onTurn := by
  rw [fetch_eq, h]
  rfl

/-- Settles O10. -/
theorem stepRunsFetchedInstruction : Obligations.StepRunsFetchedInstruction := by
  intro s pa i hdue ⟨hplace, haligned, hbound, hexec⟩
  have run := (step_of_stepDue hdue).1
  refine ⟨fun hmiss hdecode => run _ _ ?_, fun hhit => run _ _ ?_, fun b => ?_, sameAccess.touched s _,
    fun w j => decodeWith_standard_eq_some⟩
  · rw [fetch_onTurn hplace, iFetch_miss (s := s.onTurn) haligned hbound hexec hmiss hdecode, State.checked_touched, insertIns]
    simp only [beq_iff_eq]
    rfl
  · rw [fetch_onTurn hplace, iFetch_hit (s := s.onTurn) haligned hbound hexec hhit]
    rfl
  · simp

/-- Settles O11: the four ways in the order that `IFetch` checks them. -/
theorem fetchFaultsKill : Obligations.FetchFaultsKill := by
  intro s hdue pa
  have die := (step_of_stepDue hdue).2
  have fetched : fetch s.onTurn = iFetch pa s.onTurn := fetch_onTurn rfl
  refine ⟨fun ha => die _ _ ?_, fun ha hb => die _ _ ?_, fun ha hb hc hx => die _ _ ?_, fun hok hmiss hdecode => die _ _ ?_⟩
  · rw [fetched, iFetch_misaligned ha]
  · rw [fetched, iFetch_outOfBounds (s := s.onTurn) ha hb]
  · rw [fetched, iFetch_denied (s := s.onTurn) ha hb hc hx]
  · rw [fetched, iFetch_illegal (s := s.onTurn) hok.aligned hok.inMemory hok.executable hmiss hdecode, State.checked_touched]
    rfl

/-- A core that can neither accept an IRQ nor step is stuck. -/
theorem step_of_stuck {s : State} (h : OwnTurn s) (hacc : acceptEnabled s = false) (hstep : stepEnabled s = false) :
    step s = stuck s := by
  obtain ⟨u, hcore, -, -, -, hu⟩ := step_of_ownTurn h
  have hacc' : acceptEnabled u = false := by rwa [acceptEnabled, hcore]
  have hstep' : stepEnabled u = false := by rwa [stepEnabled, hcore]
  rw [hu, coreTransition, hacc', hstep', stuck, stuck, hcore]
  rfl

/-- Settles O12: the four run states without a transition. -/
theorem stuckStates : Obligations.StuckStates := by
  intro s hturn
  refine ⟨fun hb ha => ?_, fun hb ha => ?_, fun hb ha hr => ?_, fun hb ha hr hi hirq => ?_⟩
  · rw [step_of_stuck hturn (by simp [acceptEnabled, ha]) (by simp [stepEnabled, ha])]
    simp [stuck, hb]
  · rw [step_of_stuck hturn (by simp [acceptEnabled, ha]) (by simp [stepEnabled, ha])]
    simp [stuck, hb, ha]
  · rw [step_of_stuck hturn (by simp [acceptEnabled, hr]) (by simp [stepEnabled, hr])]
    simp [stuck, hb, ha, hr]
  · have hacc : acceptEnabled s = false := by rcases hirq with h | h <;> simp [acceptEnabled, h]
    rw [step_of_stuck hturn hacc (by simp [stepEnabled, hi])]
    simp [stuck, hb, ha, hr]

end Sys2Proof.Machine
end

section
/-! The die transition, and that a halted core stays halted (60_exceptions.md R200, R206, R208, R221). -/

namespace Sys2Proof.Machine

/-! ## What memory operations leave of the core: all of it, its data cache and eviction count too -/

theorem Same.access_core (a n : Nat) (f : Page → Bool) : Same State.core (Machine.access a n f) :=
  .bind (.require _ _ _) fun _ => .bind (.ask _) fun _ => .bind (.require _ _ _) fun _ =>
    .bind (.bind (.act fun _ => rfl) fun _ => .ask _) fun _ => .require _ _ _

theorem Same.memWrite8_core (a : Nat) (v : Byte) (p d : Bool) : Same State.core (Machine.memWrite8 a v p d) :=
  .bind (.access_core _ _ _) fun _ => .actMC fun _ => rfl
theorem Same.memWrite16_core (a : Nat) (v : Word) (p d : Bool) : Same State.core (Machine.memWrite16 a v p d) :=
  .bind (.access_core _ _ _) fun _ => .actMC fun _ => rfl
theorem Same.memWrite32_core (a : Nat) (v : InsnWord) (p d : Bool) : Same State.core (Machine.memWrite32 a v p d) :=
  .bind (.access_core _ _ _) fun _ => .actMC fun _ => rfl

theorem Same.memWritePriv_core (w : McWrite) : Same State.core (Machine.memWritePriv w) := by
  cases w
  · exact .memWrite8_core _ _ _ _
  · exact .memWrite16_core _ _ _ _
  · exact .memWrite32_core _ _ _ _

theorem Same.allocPage_core (seg : Option Byte) (pg : Page) : Same State.core (Machine.allocPage seg pg) := by
  refine .bind (.ask _) fun found => ?_
  cases found with
  | none => exact .raise _ _
  | some p => exact .bind (.actMC fun _ => rfl) fun _ => .pure _

theorem Same.allocSegment_core : Same State.core allocSegment := by
  refine .bind (.ask _) fun found => ?_
  cases found with
  | none => exact .raise _ _
  | some n => exact .bind (.actMC fun _ => rfl) fun _ => .pure _

theorem Same.note_core (n : HostNote) : Same State.core (note n) := fun _ => rfl

theorem Same.getPage_core (p : Nat) : Same State.core (Machine.getPage p) := fun _ => rfl

theorem Same.updateAreaFlags_core (addr size : Nat) (flag : PageFlag) (v : Bool) :
    Same State.core (updateAreaFlags addr size flag v) :=
  .forEach (fun _ => .bind (.getPage_core _) fun _ => .actMC fun _ => rfl) _

theorem Same.writeWords_core (words : List InsnWord) (a : Nat) : Same State.core (writeWords a words) := by
  induction words generalizing a with
  | nil => exact .pure _
  | cons w words ih => exact .bind (.memWrite32_core _ _ _ _) fun _ => ih _

theorem Same.writeBytes_core (bytes : List Byte) (a : Nat) : Same State.core (writeBytes a bytes) := by
  induction bytes generalizing a with
  | nil => exact .pure _
  | cons b bytes ih => exact .bind (.memWrite8_core _ _ _ _) fun _ => ih _

theorem Same.loadContents_core (seg : Nat) (x : Section) : Same State.core (loadContents seg x) := by
  unfold loadContents
  split
  · exact .writeWords_core _ _
  · exact .writeBytes_core _ _
  · exact .forEach (fun _ => .bind (.getPage_core _) fun _ => .pure _) _

theorem Same.loadStack_core (seg : Nat) (wanted : Bool) : Same State.core (loadStack seg wanted) := by
  unfold loadStack
  split
  · exact .bind (.allocPage_core _ _) fun _ => .pure _
  · exact .pure _

theorem Same.loadProgram_core (image : Image) : Same State.core (loadProgram image) :=
  .bind .allocSegment_core fun _ => .bind (.forEach (fun _ => .loadContents_core _ _) _) fun _ =>
    .bind (.forEach (fun _ => .bind (.updateAreaFlags_core _ _ _ _) fun _ => .bind (.updateAreaFlags_core _ _ _ _) fun _ =>
      .updateAreaFlags_core _ _ _ _) _) fun _ =>
    .bind (.loadStack_core _ _) fun _ => .note_core _

/-! ## Die -/

theorem Same.cleanEntry_evictions (pa : Nat) : Same (fun s => s.core.evictions) (Machine.cleanEntry pa) := by
  refine .bind (.ask _) fun hit => ?_
  cases hit with
  | none => exact .pure _
  | some e =>
    exact .whenever _ (.bind (.bind (.ask _) fun _ => fun s => congrArg Core.evictions (Same.memWrite16_core _ _ _ _ s)) fun _ =>
      .actCore fun _ => rfl)

theorem flushDying_evictions (l : List Nat) (s : State) : (flushDying l s).core.evictions = s.core.evictions := by
  induction l generalizing s with
  | nil => rfl
  | cons pa l ih =>
    unfold flushDying
    cases h : cleanEntry pa s with
    | ok _ t => exact (ih t).trans ((Same.cleanEntry_evictions pa).ok h)
    | error _ t => exact (ih t).trans ((Same.cleanEntry_evictions pa).error h)

theorem die_evictions (e : Exc) (site : FaultSite) (s : State) : (die e site s).core.evictions = s.core.evictions := by
  rw [die_eq, haltDying]
  split
  · exact flushDying_evictions _ _
  · rfl

theorem doomed_fault (e : Exc) (site : FaultSite) (s : State) : (s.doomed e site).core.fault = recorded s.core e site := by
  cases h : s.core.fault <;> simp [State.doomed, recorded, faultRecord, h]

/-- Settles O13. -/
theorem dieHaltsTheCore : Obligations.DieHaltsTheCore := by
  intro e site s t
  obtain ⟨surroundings, host, regs, rest⟩ := die_spec e site s
  refine ⟨surroundings, host, regs, die_evictions e site s, ?_, fun ha hk => ?_, fun ha => ?_⟩
  · rw [← doomed_fault]
    exact rest
  · exact (die_flushes e site ha hk).all fun d hd => mem_dataKeys hd
  · rw [show t = s.doomed e site from die_of_not_alive e site ha]
    exact ⟨rfl, rfl⟩

end Sys2Proof.Machine
end

section
/-! `Halted` is terminal (60_exceptions.md R200), over every transition and host action. -/

namespace Sys2Proof.Machine

theorem loadRun_core {x : M Unit} {s t : State} (hx : Same State.core x) (h : loadRun x s = .next t) : t.core = s.core := by
  unfold loadRun at h
  split at h
  · next hr => rw [← Host.Outcome.next.inj h]; exact hx.ok hr
  · cases h

theorem hostFailed_core {e : HostError} {s t : State} (h : hostFailed e s = .next t) : t.core = s.core := by
  rw [← Host.Outcome.next.inj h]

theorem hostRun_core {x : M Unit} {s t : State} (hx : Same State.core x) (h : hostRun x s = .next t) : t.core = s.core := by
  unfold hostRun at h
  split at h
  · next hr => rw [← Host.Outcome.next.inj h]; exact hx.ok hr
  · exact hostFailed_core h

theorem hostHalt_of_not_alive {s : State} (ha : s.core.alive = false) : hostHalt s = s := by
  rw [hostHalt, haltCore, bind_ok (ask_run _ _), ha]
  rfl

/-- No host action moves a halted core out of `Halted`: those that would are enabled on a live core, or on one never booted. -/
theorem hostAction_halted {a : HostAction} {s t : State} (hb : s.core.booted = true) (ha : s.core.alive = false)
    (h : hostAction a s = .next t) : t.core.booted = true ∧ t.core.alive = false := by
  have unchanged (hc : t.core = s.core) : t.core.booted = true ∧ t.core.alive = false := hc ▸ ⟨hb, ha⟩
  have notEnabled {c : Bool} {x : Result} (hc : c = false) (hx : whenEnabled c x = .next t) :
      t.core.booted = true ∧ t.core.alive = false := by
    rw [hc] at hx
    cases hx
  have notCaptured : captureEnabled s.core = false := by simp [captureEnabled, hb, ha]
  cases a with
  | allocSegment =>
    exact unchanged (loadRun_core (.bind .allocSegment_core fun _ => .note_core _) (whenEnabled_eq_next h).2)
  | freeSegment n =>
    rw [← Host.Outcome.next.inj (whenEnabled_eq_next (whenEnabled_eq_next h).2).2]
    exact ⟨hb, ha⟩
  | allocPage seg access =>
    exact unchanged (loadRun_core (.bind (.allocPage_core _ _) fun _ => .note_core _) (whenEnabled_eq_next h).2)
  | loadProgram image =>
    have hload := (whenEnabled_eq_next h).2
    split at hload
    · exact unchanged (loadRun_core (.loadProgram_core image) hload)
    · cases hload
  | setVector table index v => exact unchanged (hostRun_core (.memWrite32_core _ _ _ _) (whenEnabled_eq_next h).2)
  | mmapRegion r contents =>
    have hmap := (whenEnabled_eq_next h).2
    unfold mmapRegion at hmap
    split at hmap
    · exact unchanged (hostFailed_core hmap)
    · rw [← Host.Outcome.next.inj hmap]
      exact ⟨hb, ha⟩
  | unmapRegion address =>
    have hunmap := (whenEnabled_eq_next h).2
    unfold unmapRegion at hunmap
    split at hunmap
    · rw [← Host.Outcome.next.inj hunmap]
      exact ⟨hb, ha⟩
    · cases hunmap
  | mcWrite w => exact unchanged (hostRun_core (.memWritePriv_core w) (whenEnabled_eq_next h).2)
  | updateAreaFlags address size flag value =>
    exact unchanged (hostRun_core (.updateAreaFlags_core _ _ _ _) (whenEnabled_eq_next h).2)
  | boot b => exact notEnabled (by simp [hb]) h
  | setIdle | suspend | wakeUp => exact notEnabled ha h
  | saveState | loadState record => exact notEnabled notCaptured h
  | enqueueIrq i =>
    rw [← Host.Outcome.next.inj h]
    exact ⟨hb, ha⟩
  | halt =>
    rw [← Host.Outcome.next.inj h, hostHalt_of_not_alive ha]
    exact ⟨hb, ha⟩
  | sharedByte address v =>
    rw [← Host.Outcome.next.inj (whenEnabled_eq_next h).2]
    exact ⟨hb, ha⟩
  | saveMemory =>
    rw [← Host.Outcome.next.inj h]
    exact ⟨hb, ha⟩

theorem spontaneousWriteBack_alive {pa : Nat} {s t : State} (h : spontaneousWriteBack pa s = some t) : s.core.alive = true := by
  unfold spontaneousWriteBack at h
  split at h
  · split at h
    · next hc => exact (Bool.and_eq_true_iff.1 hc).1
    · cases h
  · cases h

/-- Settles O14: a turn and a write-back need a live core, and no host action brings a halted one back. -/
theorem haltedIsTerminal : Obligations.HaltedIsTerminal := by
  intro s t hb ha hselect h
  rcases step_cases h with ⟨-, u, hcore, -, -, -, -, hu⟩ | ⟨k, rest, hag, -⟩ | ⟨pa, rest, -, hwb⟩ | ⟨a, rest, -, hact⟩
  · have hua : u.core.alive = false := hcore ▸ ha
    rcases coreTransition_cases hu with ⟨hacc, -⟩ | ⟨-, hstep, -⟩
    · simp [acceptEnabled, hua] at hacc
    · simp [stepEnabled, hua] at hstep
  · exact absurd (by rw [hag]; rfl) (hselect k)
  · exact absurd (spontaneousWriteBack_alive hwb) (Bool.eq_false_iff.1 ha)
  · exact hostAction_halted (s := s.withAgenda rest) hb ha hact

end Sys2Proof.Machine
end

section
/-! The counter of completed instructions (10_state.md R28; 60_exceptions.md R202, R208). -/

namespace Sys2Proof.Machine

/-- `CNT`. -/
def State.counter (s : State) : Word := s.core.regs.cnt

/-- `x` leaves a view of the state as it was where it raises, and where it answers if `p`. -/
def SameIf (p : Prop) {γ : Type} (v : State → γ) {α : Type} (x : M α) : Prop :=
  ∀ s, (∀ a t, x s = .ok a t → p → v t = v s) ∧ ∀ e t, x s = .error e t → v t = v s

theorem Same.toIf {p : Prop} {γ α : Type} {v : State → γ} {x : M α} (h : Same v x) : SameIf p v x :=
  fun _ => ⟨fun _ _ hr _ => h.ok hr, fun _ _ hr => h.error hr⟩

theorem SameIf.bind {p : Prop} {γ α β : Type} {v : State → γ} {x : M α} {f : α → M β} (hx : Same v x)
    (hf : ∀ a, SameIf p v (f a)) : SameIf p v (x >>= f) := by
  intro s
  rw [bind_run]
  cases hr : x s with
  | ok a t =>
    obtain ⟨answer, raise⟩ := hf a t
    exact ⟨fun b u hu hp => (answer b u hu hp).trans (hx.ok hr), fun e u hu => (raise e u hu).trans (hx.ok hr)⟩
  | error e t =>
    refine ⟨fun _ _ hu => (nomatch hu), fun _ _ hu => ?_⟩
    cases hu
    exact hx.error hr

/-! ## Each operation -/

theorem Same.counter_of_outside {α : Type} {x : M α} (h : Same State.outside x) : Same State.counter x := fun s =>
  show (left (x s)).outside.counter = s.outside.counter from congrArg _ (h s)

theorem Same.writeReg_counter {r : Reg} (v : Word) (h : r ≠ .cnt := by nofun) : Same State.counter (writeReg r v) := fun s => by
  obtain ⟨-, -, -, -, -, -, -, cnt⟩ := Regs.write_other (g := s.core.regs) (r := r) (v := v)
  exact cnt h

theorem Same.setFlags_counter (f : Flags → Flags) : Same State.counter (setFlags f) := fun _ => rfl

/-- The write of a result never raises. -/
theorem SameIf.writeReg_counter {p : Prop} {r : Reg} (h : p → r ≠ .cnt) (v : Word) : SameIf p State.counter (writeReg r v) :=
  fun s => ⟨fun _ _ hr hp => (Same.writeReg_counter v (h hp)).ok hr, fun _ _ hr => nomatch (writeReg_run r v s).symm.trans hr⟩

theorem SameIf.flagged_counter {p : Prop} {r : Reg} (h : p → r ≠ .cnt) (v : Word) (f : Flags → Flags) :
    SameIf p State.counter (do writeReg r v; setFlags f) := by
  intro s
  rw [bind_ok (writeReg_run r v s), setFlags_run]
  refine ⟨fun _ t hr hp => ?_, fun _ _ hr => nomatch hr⟩
  cases hr
  exact Same.writeReg_counter v (h hp) s

theorem Same.push16_counter (v : Word) : Same State.counter (Machine.push16 v) :=
  .bind (.act fun _ => rfl) fun _ => .bind (.ask _) fun _ => .counter_of_outside (.dWrite16 _ _)

theorem Same.pop16_counter : Same State.counter pop16 :=
  .bind (.ask _) fun _ => .bind (.counter_of_outside (.dRead16 _)) fun _ => .bind (.act fun _ => rfl) fun _ => .pure _

theorem Same.createFrame_counter : Same State.counter createFrame :=
  .bind (.ask _) fun _ => .bind (.push16_counter _) fun _ => .bind (.ask _) fun _ => .bind (.push16_counter _) fun _ =>
    .bind (.act fun _ => rfl) fun _ => .actCore fun _ => rfl

theorem Same.destroyFrame_counter : Same State.counter destroyFrame :=
  .bind .pop16_counter fun _ => .bind (.writeReg_counter _) fun _ =>
    .bind .pop16_counter fun _ => .bind (.writeReg_counter _) fun _ => .actCore fun _ => rfl

theorem Same.branch_counter (c : Flags → Bool) (o : Operand) : Same State.counter (branch c o) :=
  .bind (.ask _) fun _ => .bind (.ask _) fun _ => .whenever _ (.writeReg_counter _)

theorem Same.haltCore_counter : Same State.counter haltCore :=
  .bind (.ask _) fun _ => .whenever _ (.bind (.counter_of_outside .flush) fun _ => .actCore fun _ => rfl)

theorem Same.enterInterrupt_counter (base count i : Nat) : Same State.counter (enterInterrupt base count i) :=
  .bind (.counter_of_outside (.loadVector _ _ _)) fun _ => .bind (.counter_of_outside (.allocPage _ _)) fun _ =>
    .bind (.actCore fun _ => rfl) fun _ => .bind (.ask _) fun _ => .bind (.ask _) fun _ => .bind (.act fun _ => rfl) fun _ =>
    .bind (.push16_counter _) fun _ => .bind (.push16_counter _) fun _ => .bind (.ask _) fun _ =>
    .bind (.push16_counter _) fun _ => .bind (.ask _) fun _ => .bind (.push16_counter _) fun _ => .bind (.ask _) fun _ =>
    .bind (.forEach (fun _ => .push16_counter _) _) fun _ => .bind .createFrame_counter fun _ =>
    .bind (.setFlags_counter _) fun _ => .bind (.actCore fun _ => rfl) fun _ => .act fun _ => rfl

theorem Same.exitInterrupt_counter : Same State.counter exitInterrupt := by
  refine .bind .checkFrame fun _ => .bind (.ask _) fun top => ?_
  cases top with
  | none => exact .raise _ _
  | some p =>
    exact .bind .destroyFrame_counter fun _ =>
      .bind (.forEach (fun _ => .bind .pop16_counter fun _ => .writeReg_counter _) _) fun _ =>
      .bind .pop16_counter fun _ => .bind (.writeReg_counter _) fun _ => .bind .pop16_counter fun _ =>
      .bind (.writeReg_counter _) fun _ => .bind .pop16_counter fun _ => .bind .pop16_counter fun _ =>
      .bind (.writeReg_counter _) fun _ => .bind (.writeReg_counter _) fun _ =>
      .bind (.actCore fun _ => rfl) fun _ => .bind (.counter_of_outside (.removePageRefs _ _)) fun _ => .actMC fun _ => rfl

theorem Same.note_counter (n : HostNote) : Same State.counter (note n) := fun _ => rfl

theorem Same.virtualInterrupt_counter (n : Word) : Same State.counter (virtualInterrupt n) := by
  have draw : Same State.counter drawVint := fun s => by rw [drawVint_run]; rfl
  refine .bind draw fun outcome => .bind (.note_counter _) fun _ => ?_
  cases outcome with
  | ok gpr writes =>
    exact .bind (.act fun _ => rfl) fun _ => .blame _ (.forEach (fun _ => .counter_of_outside (.memWritePriv _)) _)
  | fail kind info => exact .blame _ (.raise _ _)

theorem Same.drawPort_counter : Same State.counter drawPort := fun s => by rw [drawPort_run]; rfl

/-! ## Each instruction -/

/-- An instruction writes `CNT` itself only where it names it, and only after everything that can raise. -/
theorem SameIf.bodyOf_counter (i : Instr) : SameIf (Reg.cnt ∉ regFields i) State.counter (bodyOf i) := by
  have first {r : Reg} {l : List Reg} (h : Reg.cnt ∉ r :: l) : r ≠ .cnt := fun e => h (e ▸ List.mem_cons_self ..)
  have second {q r : Reg} {l : List Reg} (h : Reg.cnt ∉ q :: r :: l) : r ≠ .cnt :=
    fun e => h (e ▸ List.mem_cons_of_mem _ (List.mem_cons_self ..))
  cases i with
  | lw rd rb off =>
    exact .bind (.ask _) fun _ => .bind (.counter_of_outside (.dRead16 _)) fun _ => .flagged_counter first _ _
  | lb rd rb off =>
    exact .bind (.ask _) fun _ => .bind (.counter_of_outside (.memRead8 _ _)) fun _ => .flagged_counter first _ _
  | li rd v => exact .flagged_counter first _ _
  | stw rb off r => exact (Same.bind (.ask _) fun _ => .bind (.ask _) fun _ => .counter_of_outside (.dWrite16 _ _)).toIf
  | stb rb off r => exact (Same.bind (.ask _) fun _ => .bind (.ask _) fun _ => .counter_of_outside (.memWrite8 _ _ _ _)).toIf
  | mov rd rs => exact .bind (.ask _) fun _ => .writeReg_counter first _
  | swp rd rs =>
    intro s
    rw [bodyOf_swp_run]
    refine ⟨fun _ t hr hp => ?_, fun _ _ hr => nomatch hr⟩
    cases hr
    exact ((Same.writeReg_counter _ (second hp)).ok (writeReg_run _ _ (s.withRegs _))).trans
      ((Same.writeReg_counter _ (first hp)).ok (writeReg_run _ _ s))
  | add rd o | sub rd o | mul rd o | and rd o | or rd o | xor rd o | shiftl rd o | shiftr rd o =>
    exact .bind (.ask _) fun _ => .bind (.ask _) fun _ => .flagged_counter first _ _
  | inc r | dec r | not r => exact .bind (.ask _) fun _ => .flagged_counter first _ _
  | div rd o | mod rd o =>
    exact .bind (.ask _) fun _ => .bind (.ask _) fun _ => .bind (.require _ _ _) fun _ => .bind (.ask _) fun _ =>
      .flagged_counter first _ _
  | cmp rd o | cmpu rd o => exact (Same.bind (.ask _) fun _ => .bind (.ask _) fun _ => .setFlags_counter _).toIf
  | be o | bne o | bz o | bnz o | bs o | bns o | bg o | bge o | bl o | ble o => exact (Same.branch_counter _ o).toIf
  | j o => exact (Same.branch_counter (fun _ => true) o).toIf
  | push r => exact (Same.bind (.ask _) fun _ => .push16_counter _).toIf
  | pop r => exact .bind .pop16_counter fun _ => .writeReg_counter first _
  | call o => exact (Same.bind (.ask _) fun _ => .bind .createFrame_counter fun _ => .writeReg_counter _).toIf
  | ret => exact (Same.bind .checkFrame fun _ => .destroyFrame_counter).toIf
  | cli | sti => exact (Same.setFlags_counter _).toIf
  | hlt o => exact (Same.bind (.ask _) fun _ => .bind (.actCore fun _ => rfl) fun _ => .haltCore_counter).toIf
  | rst => exact (show Same State.counter (actRegs Regs.coreReset) from fun _ => rfl).toIf
  | retint => exact Same.exitInterrupt_counter.toIf
  | inw rd o | inb rd o =>
    exact .bind (.ask _) fun _ => .bind (.portCheck _) fun _ => .bind .drawPort_counter fun _ => .bind (.note_counter _) fun _ =>
      .writeReg_counter first _
  | outw o r | outb o r =>
    exact (Same.bind (.ask _) fun _ => .bind (.portCheck _) fun _ => .bind (.ask _) fun _ => .note_counter _).toIf
  | cas ra re rn =>
    refine .bind (.ask _) fun _ => .bind (.ask _) fun _ => .bind (.ask _) fun _ => .bind (.ask _) fun _ =>
      .bind (.counter_of_outside (.cas16 _ _ _)) fun res => ?_
    cases res with
    | success => exact (Same.setFlags_counter _).toIf
    | observed c => exact .flagged_counter second _ _
  | int o =>
    refine (Same.bind (.ask _) fun _ => .bind (.ask _) fun _ => .bind (.ask _) fun _ => .bind (.ask _) fun _ => ?_).toIf
    split
    · exact .virtualInterrupt_counter _
    · exact .enterInterrupt_counter _ _ _

/-- An instruction completes, without a raise, or dies with `CNT` as it was. -/
theorem exec_counter {i : Instr} {s t : State} (h : exec i s = .next t) :
    (t.core.fault = s.core.fault ∧ (Reg.cnt ∉ regFields i → t.core.regs.cnt = s.core.regs.cnt + 1))
      ∨ (t.core.regs.cnt = s.core.regs.cnt ∧ t.core.alive = false ∧ t.core.exitCode = 1 ∧ t.core.fault.isSome = true) := by
  rcases exec_cases i s with ⟨-, u, hu, he⟩ | ⟨-, e, u, hu, he⟩ | ⟨-, e, he⟩ <;> rw [he] at h <;>
    rw [← Host.Outcome.next.inj h]
  · obtain ⟨-, -, -, fault, -⟩ := fixed_eq ((Same.bodyOf_fixed i).ok hu)
    exact .inl ⟨fault, fun hf => congrArg (· + 1) ((SameIf.bodyOf_counter i s.advanced).1 _ _ hu hf)⟩
  · obtain ⟨regs, alive, exit, fault, -⟩ := die_leaves e (siteOf i s) u
    exact .inr ⟨(congrArg Regs.cnt regs).trans ((SameIf.bodyOf_counter i s.advanced).2 _ _ hu), alive, exit, fault⟩
  · obtain ⟨regs, alive, exit, fault, -⟩ := die_leaves e (siteOf i s) s.advanced
    exact .inr ⟨(congrArg Regs.cnt regs).trans rfl, alive, exit, fault⟩

/-- Settles O17. -/
theorem counterCountsCompletions : Obligations.CounterCountsCompletions := by
  intro s t i h
  rcases exec_counter h with ⟨fault, counted⟩ | ⟨kept, dead⟩
  · exact ⟨fun hf => .inl (counted hf), fun hnone => ⟨fun hsome => by simp [fault, hnone] at hsome, fun _ => counted⟩⟩
  · exact ⟨fun _ => .inr ⟨kept, dead⟩,
      fun _ => ⟨fun _ => ⟨kept, dead.1, dead.2.1⟩, fun hnone => by simp [hnone] at dead⟩⟩

end Sys2Proof.Machine
end

section
/-! Loads and stores: LW, LB, STW, STB, and what they see of each other (40_data_movement.md; 20_memory.md sections 3 and 6). -/

namespace Sys2Proof.Machine

theorem exec_of_ok {i : Instr} {s t : State} (h : Allowed i s = true) (hb : bodyOf i s.advanced = .ok () t) :
    exec i s = .next (t.withRegs t.core.regs.count) := by
  rw [exec_eq, complete_ok h hb]

theorem exec_of_error {i : Instr} {s t : State} {e : Exc} (h : Allowed i s = true) (hb : bodyOf i s.advanced = .error e t) :
    exec i s = .next (die e (siteOf i s) t) := by
  rw [exec_eq, complete_error h hb]

@[simp] theorem effectiveAddress_run (rb : Reg) (off : Int) (s : State) :
    effectiveAddress rb off s = .ok (phys s.core.regs.ds (BitVec.ofInt 16 ((s.core.regs.read rb).toNat + off))) s := by
  rw [← eaValue_eq]
  rfl

/-! ## The own rules, in the operations they use -/

theorem bodyOf_lw_ok {s t : State} {rd rb : Reg} {off : Int} {v : Word}
    (h : dRead16 (phys s.core.regs.ds (BitVec.ofInt 16 ((s.core.regs.read rb).toNat + off))) s = .ok v t) :
    bodyOf (.lw rd rb off) s = .ok () (t.withRegs (zsResult t.core.regs rd v.toNat)) := by
  rw [bodyOf, bind_ok (effectiveAddress_run rb off s), bind_ok h, loaded_run]

theorem bodyOf_lb_ok {s t : State} {rd rb : Reg} {off : Int} {b : Byte}
    (h : memRead8 (phys s.core.regs.ds (BitVec.ofInt 16 ((s.core.regs.read rb).toNat + off))) false s = .ok b t) :
    bodyOf (.lb rd rb off) s = .ok () (t.withRegs (zsResult t.core.regs rd b.toNat)) := by
  have widened : (b.setWidth 16).toNat = b.toNat := BitVec.toNat_setWidth_of_le (by omega)
  rw [bodyOf, bind_ok (effectiveAddress_run rb off s), bind_ok h, loaded_run, widened]

theorem bodyOf_stw_run (rb r : Reg) (off : Int) (s : State) :
    bodyOf (.stw rb off r) s
      = dWrite16 (phys s.core.regs.ds (BitVec.ofInt 16 ((s.core.regs.read rb).toNat + off))) (s.core.regs.read r) s := by
  rw [bodyOf, bind_ok (effectiveAddress_run rb off s), bind_ok (readReg_run r s)]

theorem bodyOf_stb_run (rb r : Reg) (off : Int) (s : State) :
    bodyOf (.stb rb off r) s
      = memWrite8 (phys s.core.regs.ds (BitVec.ofInt 16 ((s.core.regs.read rb).toNat + off)))
          ((s.core.regs.read r).extractLsb' 0 8) false true s := by
  rw [bodyOf, bind_ok (effectiveAddress_run rb off s), bind_ok (readReg_run r s), BitVec.setWidth_eq_extractLsb' (by omega)]

/-! ## Each result -/

/-- Settles O20. -/
theorem loadWordResult : Obligations.LoadWordResult := by
  intro s rd rb off hal g a hok
  obtain ⟨t, run, same, regs, dcache, bytes, access, tables⟩ := dRead16_ok (s := s.advanced) hok
  refine ⟨_, exec_of_ok hal (bodyOf_lw_ok run), ((sameBut.withRegs s _).trans same).trans (.withRegs t _), ?_,
    dcache, bytes, access, tables⟩
  rw [State.withRegs_regs, State.withRegs_regs, regs]
  rfl

/-- Settles O21. -/
theorem loadByteResult : Obligations.LoadByteResult := by
  intro s rd rb off hal g a hbound hread
  have run := memRead8_ok (s := s.advanced) (priv := false) hbound hread
  exact ⟨_, exec_of_ok hal (bodyOf_lb_ok run), .refl s, .refl s, rfl, fun b => MC.byteAt_touchPage _ _ _ b,
    sameAccess.touched s _, sameTables.touched s _⟩

/-- Settles O22. -/
theorem storeWordResult : Obligations.StoreWordResult := by
  intro s rb r off hal g a hok
  obtain ⟨t, run, same, regs, dcache, bytes, access, tables⟩ := dWrite16_ok (s := s.advanced) (g.read r) hok
  refine ⟨_, exec_of_ok hal ((bodyOf_stw_run rb r off s.advanced).trans run),
    ((sameBut.withRegs s _).trans same).trans (.withRegs t _), ?_, dcache, wordAt_cacheAfterStore dcache, bytes, access, tables⟩
  rw [State.withRegs_regs, regs]
  rfl

/-! ## Stores past the data cache -/

/-- The controller after bytes are stored at an address and the page is marked dirty (20_memory.md R61). -/
def MC.stored (mc : MC) (cfg : Config) (a : Nat) (bytes : List Byte) : MC :=
  (mc.touchPage cfg (pageOf a)).store a bytes true

theorem MC.byteAt_store_one (mc : MC) (cfg : Config) (a : Nat) (v : Byte) (d : Bool) (b : Nat) :
    ((mc.touchPage cfg (pageOf a)).store a [v] d).byteAt b = if b = a then v else mc.byteAt b := by
  rw [MC.byteAt_touchStore _ _ _ 1 (.inl rfl) (Nat.mod_one a) _ rfl]
  by_cases h : b = a
  · subst h
    simp
  · rw [if_neg (by omega), if_neg h]

theorem MC.byteAt_stored_one (mc : MC) (cfg : Config) (a : Nat) (v : Byte) (b : Nat) :
    (mc.stored cfg a [v]).byteAt b = if b = a then v else mc.byteAt b := MC.byteAt_store_one mc cfg a v true b

theorem MC.stored_dirty (mc : MC) (cfg : Config) (a : Nat) (bytes : List Byte) :
    ((mc.stored cfg a bytes).pageView cfg (pageOf a)).dirty = true := by
  simp [MC.stored, MC.pageView, MC.page_store, MC.page_touchPage]

theorem sameAccess.stored (s : State) (a : Nat) (bytes : List Byte) :
    sameAccess s (s.withMC (s.mc.stored s.cfg a bytes)) := by
  intro p
  have kept := MC.pageView_store (s.mc.touchPage s.cfg (pageOf a)) s.cfg a p bytes true
  rwa [MC.pageView_touchPage] at kept

theorem sameTables.stored (s : State) (a : Nat) (bytes : List Byte) :
    sameTables s (s.withMC (s.mc.stored s.cfg a bytes)) := by
  simp [sameTables, MC.stored, MC.store_segments, MC.store_regions]

/-- Settles O23. -/
theorem storeByteResult : Obligations.StoreByteResult := by
  intro s rb r off hal g a hbound hwrite
  have run := memWrite8_ok (s := s.advanced) (v := (g.read r).extractLsb' 0 8) (priv := false) (d := true) hbound hwrite
  exact ⟨_, exec_of_ok hal ((bodyOf_stb_run rb r off s.advanced).trans run), .refl s, .refl s, rfl,
    MC.byteAt_stored_one s.mc s.cfg a _, MC.stored_dirty s.mc s.cfg a _, sameAccess.stored s a _, sameTables.stored s a _⟩

/-! ## A load after a store -/

theorem findData_cacheAfterStore (c : Core) (a : Nat) (v : Word) :
    findData a (cacheAfterStore c a v) = some { addr := a, dirty := true, value := v } := by
  unfold cacheAfterStore
  cases hf : findData a c.dcache with
  | some e => simp [findData_append, findData_removeData, findData]
  | none => simp [findData_append, findData_roomMade_none hf, findData]

theorem LoadOk.of_hit {s : State} {a : Nat} (ha : a % 2 = 0) (hit : (findData a s.core.dcache).isSome = true) : LoadOk s a :=
  ⟨ha, .inl hit, fun e he => by rw [evictedBy_of_hit hit] at he; cases he⟩

/-- Instructions that name general registers only may run in either mode. -/
theorem allowed_of_gpr {i : Instr} (hi : isPrivileged i = false) (hr : ∀ r ∈ regFields i, ∃ n, r = .gpr n) (s : State) :
    Allowed i s = true :=
  allowed_of_fields_lt hi (fun r hmem => by obtain ⟨n, rfl⟩ := hr r hmem; exact n.isLt) s

@[simp] theorem Regs.count_read_gpr (g : Regs) (n : Fin 32) : g.count.read (.gpr n) = g.read (.gpr n) := rfl

theorem zsResult_read_gpr (g : Regs) (d j : Fin 32) (v : Word) :
    (zsResult g (.gpr d) v.toNat).read (.gpr j) = if j = d then v else g.read (.gpr j) := by
  have written : (zsResult g (.gpr d) v.toNat).read (.gpr j) = (g.write (.gpr d) v).read (.gpr j) := by
    rw [zsResult, BitVec.ofNat_toNat, BitVec.setWidth_eq]
    rfl
  rw [written]
  split
  · next h => rw [h, Regs.read_write_self]
  · next h => exact Regs.read_write_of_ne _ _ fun e => h (Reg.gpr.inj e)

theorem gpr_fields {l : List Reg} {m n : Fin 32} (h : l = [.gpr m, .gpr n]) : ∀ r ∈ l, ∃ k, r = .gpr k := by
  subst h
  simp

/-- An effective address does not look at `IP` or `CNT`. -/
theorem place_advance (g : Regs) (b : Fin 32) (off : Int) :
    phys g.advance.ds (BitVec.ofInt 16 ((g.advance.read (.gpr b)).toNat + off))
      = phys g.ds (BitVec.ofInt 16 ((g.read (.gpr b)).toNat + off)) := rfl

theorem place_count (g : Regs) (b : Fin 32) (off : Int) :
    phys g.count.ds (BitVec.ofInt 16 ((g.count.read (.gpr b)).toNat + off))
      = phys g.ds (BitVec.ofInt 16 ((g.read (.gpr b)).toNat + off)) := rfl

/-- Settles O24: the store leaves the word in the cache, so the load hits, and a hit checks no page. -/
theorem loadAfterStore : Obligations.LoadAfterStore := by
  intro s b r d off hok
  obtain ⟨t, hstore, -, regs, dcache, stored, -⟩ :=
    storeWordResult s (.gpr b) (.gpr r) off (allowed_of_gpr rfl (gpr_fields rfl) s) hok
  have place : phys t.core.regs.advance.ds (BitVec.ofInt 16 ((t.core.regs.advance.read (.gpr b)).toNat + off))
      = phys s.core.regs.ds (BitVec.ofInt 16 ((s.core.regs.read (.gpr b)).toNat + off)) := by
    rw [place_advance, regs, place_count, place_advance]
  have hit : LoadOk t (phys s.core.regs.ds (BitVec.ofInt 16 ((s.core.regs.read (.gpr b)).toNat + off))) :=
    .of_hit hok.1 (by rw [dcache]; exact Option.isSome_iff_exists.2 ⟨_, findData_cacheAfterStore _ _ _⟩)
  obtain ⟨u, hload, -, loaded, -⟩ :=
    loadWordResult t (.gpr d) (.gpr b) off (allowed_of_gpr rfl (gpr_fields rfl) t) (by rw [place]; exact hit)
  refine ⟨t, u, hstore, hload, ?_, fun j hj => ?_⟩
  · rw [loaded, Regs.count_read_gpr, zsResult_read_gpr, if_pos rfl, place]
    exact stored
  · rw [loaded, Regs.count_read_gpr, zsResult_read_gpr, if_neg hj, regs]
    rfl

/-- Settles O25: `LB` and `STB` go past the cache that `LW` and `STW` use (20_memory.md R78). -/
theorem cacheIsNotCoherent : Obligations.CacheIsNotCoherent := by
  intro s b r d off a
  refine ⟨fun hok hroom hread hbound => ?_, fun e hit ha hwrite hbound => ?_⟩
  · obtain ⟨t, hstore, same, regs, -, -, bytes, access, -⟩ :=
      storeWordResult s (.gpr b) (.gpr r) off (allowed_of_gpr rfl (gpr_fields rfl) s) hok
    have place : phys t.core.regs.advance.ds (BitVec.ofInt 16 ((t.core.regs.advance.read (.gpr b)).toNat + off)) = a := by
      rw [place_advance, regs, place_count, place_advance]
    have hcfg : t.cfg = s.cfg := same.1.1
    obtain ⟨u, hload, -, -, hcore, -⟩ :=
      loadByteResult t (.gpr d) (.gpr b) off (allowed_of_gpr rfl (gpr_fields rfl) t) (by rw [place, hcfg]; exact hbound)
        (by rw [place, (access _).1]; exact hread)
    have byte : t.mc.byteAt a = s.mc.byteAt a := by rw [bytes]; exact congrArg (byteAfter s.mc · a) hroom
    refine ⟨t, u, hstore, hload, ?_⟩
    have widened : (t.mc.byteAt a).toNat = ((t.mc.byteAt a).setWidth 16).toNat := (BitVec.toNat_setWidth_of_le (by omega)).symm
    rw [hcore, Regs.count_read_gpr, place, widened, zsResult_read_gpr, if_pos rfl, byte]
  · obtain ⟨t, hstore, -, -, hcore, -⟩ :=
      storeByteResult s (.gpr b) (.gpr r) off (allowed_of_gpr rfl (gpr_fields rfl) s) hbound hwrite
    have place : phys t.core.regs.advance.ds (BitVec.ofInt 16 ((t.core.regs.advance.read (.gpr b)).toNat + off)) = a := by
      rw [place_advance, hcore, place_count, place_advance]
    have hit' : findData a t.core.dcache = some e := by rw [hcore]; exact hit
    have word : wordAt t a = e.value := by rw [wordAt, hit']
    have hok : LoadOk t a := .of_hit ha (by rw [hit']; rfl)
    obtain ⟨u, hload, -, loaded, -⟩ :=
      loadWordResult t (.gpr d) (.gpr b) off (allowed_of_gpr rfl (gpr_fields rfl) t) (place ▸ hok)
    refine ⟨t, u, hstore, hload, ?_⟩
    rw [loaded, Regs.count_read_gpr, zsResult_read_gpr, if_pos rfl, place, word]

/-! ## Compare and swap (20_memory.md R64) -/

theorem cas16_ok {a : Nat} {e n : Word} {s : State} (ha : a % 2 = 0) (hb : a + 2 ≤ s.cfg.memSize)
    (hread : (s.mc.pageView s.cfg (pageOf a)).read = true) (hwrite : (s.mc.pageView s.cfg (pageOf a)).write = true) :
    cas16 a e n s = if s.mc.u16At a = e then .ok .success (s.withMC (s.mc.stored s.cfg a (bytesOfHalf n)))
      else .ok (.observed (s.mc.u16At a)) (s.touched (pageOf a)) := by
  have permitted : (fun pg : Page => pg.read && pg.write) (s.mc.pageView s.cfg (pageOf a)) = true := by simp [hread, hwrite]
  rw [cas16, bind_ok (access_ok ha hb permitted), bind_ok (ask_run _ _), State.touched_mc, MC.u16At_touchPage]
  split
  · next h => rw [if_pos (by simpa using h)]; rfl
  · next h => rw [if_neg (by simpa using h)]; rfl

/-- What `CAS` does with the answer of memory (46_atomic_interrupt.md R191). -/
def afterCas (re : Reg) : CasResult → M Unit
  | .success => setFlags fun f => { f with e := true }
  | .observed c => do
    writeReg re c
    setFlags fun f => { f with e := false }

theorem bodyOf_cas_eq (ra re rn : Reg) :
    bodyOf (.cas ra re rn) = (do
      let off ← readReg ra
      let a ← ask fun s => phys s.core.regs.ds off
      let e ← readReg re
      let n ← readReg rn
      let res ← cas16 a e n
      afterCas re res) := rfl

theorem bodyOf_cas_run (ra re rn : Reg) (s : State) :
    bodyOf (.cas ra re rn) s
      = (cas16 (phys s.core.regs.ds (s.core.regs.read ra)) (s.core.regs.read re) (s.core.regs.read rn) >>= afterCas re) s := by
  rw [bodyOf_cas_eq, bind_ok (readReg_run ra s), bind_ok (ask_run _ s), bind_ok (readReg_run re s), bind_ok (readReg_run rn s)]

/-- Settles O44. -/
theorem compareAndSwapResult : Obligations.CompareAndSwapResult := by
  intro s ra re rn hal g a ha hbound hread hwrite
  have run := cas16_ok (s := s.advanced) (e := g.read re) (n := g.read rn) ha hbound hread hwrite
  by_cases hmatch : s.mc.u16At a = g.read re
  · rw [if_pos (show s.advanced.mc.u16At a = g.read re from hmatch)] at run
    refine ⟨_, exec_of_ok hal ((bodyOf_cas_run ra re rn s.advanced).trans (bind_ok run)), .refl s, .refl s,
      sameAccess.stored s a _, sameTables.stored s a _, fun _ => ⟨rfl, ?_, fun b hb hb' => ?_, ?_⟩, fun h => absurd hmatch h⟩
    · exact u16At_store16_self s.mc s.cfg ha _ _
    · exact (byteAt_store16 s.mc s.cfg ha _ _ b).trans (by rw [if_neg hb, if_neg hb'])
    · exact MC.stored_dirty s.mc s.cfg a _
  · rw [if_neg (show ¬ s.advanced.mc.u16At a = g.read re from hmatch)] at run
    exact ⟨_, exec_of_ok hal ((bodyOf_cas_run ra re rn s.advanced).trans (bind_ok run)), .refl s, .refl s,
      sameAccess.touched s _, sameTables.touched s _, fun h => absurd h hmatch,
      fun _ => ⟨rfl, fun b => MC.byteAt_touchPage _ _ _ b⟩⟩

end Sys2Proof.Machine
end

section
/-! Products, quotients and remainders, and what a branch after a compare means (41_arithmetic.md R134 to R137;
43_compare_branch.md R152). -/

namespace Sys2Proof.Machine

theorem productInto_run (rd : Reg) (x : Int) (s : State) :
    productInto rd (BitVec.ofInt 16 x) s = .ok () (s.withRegs (intResult s.core.regs rd x)) := by
  rw [← write_product]
  rfl

/-! ## The own rules -/

theorem bodyOf_mul_run (rd : Reg) (o : Operand) (s : State) :
    bodyOf (.mul rd o) s = .ok () (s.withRegs
      (intResult s.core.regs rd ((s.core.regs.read rd).toInt * (operandValue s.core.regs o).toInt))) := by
  rw [bodyOf, bind_ok (readReg_run rd s), bind_ok (operand_run o s), mulWord, productInto_run]

theorem require_nonzero {b : Word} (h : b ≠ 0) (k : ExcKind) (i : ExcInfo) (s : State) :
    require (!(b == 0)) k i s = .ok () s := by
  rw [beq_eq_false_iff_ne.2 h]
  rfl

theorem bodyOf_div_ok {rd : Reg} {o : Operand} {s : State} (h : operandValue s.core.regs o ≠ 0) :
    bodyOf (.div rd o) s = .ok () (s.withRegs (intResult s.core.regs rd
      (quot s.cfg.divRound (s.core.regs.read rd).toInt (operandValue s.core.regs o).toInt))) := by
  rw [bodyOf, bind_ok (readReg_run rd s), bind_ok (operand_run o s), bind_ok (require_nonzero h _ _ s), bind_ok (ask_run _ s),
    divWord, productInto_run]

theorem bodyOf_mod_ok {rd : Reg} {o : Operand} {s : State} (h : operandValue s.core.regs o ≠ 0) :
    bodyOf (.mod rd o) s = .ok () (s.withRegs (intResult s.core.regs rd ((s.core.regs.read rd).toInt
      - (operandValue s.core.regs o).toInt
        * quot s.cfg.divRound (s.core.regs.read rd).toInt (operandValue s.core.regs o).toInt))) := by
  rw [bodyOf, bind_ok (readReg_run rd s), bind_ok (operand_run o s), bind_ok (require_nonzero h _ _ s), bind_ok (ask_run _ s),
    modWord, productInto_run]

theorem bodyOf_div_zero {rd : Reg} {o : Operand} {s : State} (h : operandValue s.core.regs o = 0) :
    bodyOf (.div rd o) s = .error (exc .arithmeticFault .divide) s := by
  rw [bodyOf, bind_ok (readReg_run rd s), bind_ok (operand_run o s), h]
  rfl

theorem bodyOf_mod_zero {rd : Reg} {o : Operand} {s : State} (h : operandValue s.core.regs o = 0) :
    bodyOf (.mod rd o) s = .error (exc .arithmeticFault .modulo) s := by
  rw [bodyOf, bind_ok (readReg_run rd s), bind_ok (operand_run o s), h]
  rfl

/-! ## Each result -/

/-- Settles O27. -/
theorem mulDivModResult : Obligations.MulDivModResult := fun s rd o =>
  ⟨fun hal => exec_afterRegs hal (bodyOf_mul_run rd o s.advanced),
    fun hal h => exec_afterRegs hal (bodyOf_div_ok (s := s.advanced) h),
    fun hal h => exec_afterRegs hal (bodyOf_mod_ok (s := s.advanced) h)⟩

/-- Settles O28: the divisor is tested before anything is written. -/
theorem divideByZeroKills : Obligations.DivideByZeroKills := fun s _ _ h =>
  ⟨fun hal => exec_of_error hal (bodyOf_div_zero (s := s.advanced) h),
    fun hal => exec_of_error hal (bodyOf_mod_zero (s := s.advanced) h)⟩

theorem sub_mul_quot_floor (x y : Int) : x - y * quot .floor x y = x.fmod y := (Int.fmod_def x y).symm

theorem sub_mul_quot_trunc (x y : Int) : x - y * quot .trunc x y = x.tmod y := (Int.tmod_def x y).symm

theorem tmod_lt_abs (x : Int) {y : Int} (h : y ≠ 0) : x.tmod y < |y| := by
  have size : x.tmod |y| = x.tmod y := by
    rcases abs_choice y with e | e
    · rw [e]
    · rw [e, Int.tmod_neg]
  exact size ▸ Int.tmod_lt_of_pos x (abs_pos.2 h)

/-- Settles O29, in terms of the two remainders of the library. -/
theorem quotientRounding : Obligations.QuotientRounding := by
  intro x y hy
  simp only [sub_mul_quot_floor, sub_mul_quot_trunc]
  refine ⟨⟨fun h => ⟨Int.fmod_nonneg_of_pos x h, Int.fmod_lt_of_pos x h⟩, fun h => ?_⟩,
    ⟨fun h => ⟨Int.tmod_nonneg y h, tmod_lt_abs x hy⟩, fun h => ?_⟩, ?_⟩
  · have mirrored : x.fmod y = -(-x).fmod (-y) := by rw [← Int.neg_fmod_neg, neg_neg, neg_neg]
    have lower := Int.fmod_nonneg_of_pos (-x) (neg_pos.2 h)
    have upper := Int.fmod_lt_of_pos (-x) (neg_pos.2 h)
    omega
  · have mirrored : x.tmod y = -(-x).tmod y := by rw [Int.neg_tmod, neg_neg]
    have lower := Int.tmod_nonneg y (neg_nonneg.2 h)
    have upper := tmod_lt_abs (-x) hy
    omega
  · rintro (⟨hx, hy⟩ | ⟨hx, hy⟩ | ⟨k, rfl⟩)
    · exact Int.fdiv_eq_tdiv_of_nonneg hx hy.le
    · have nonneg : (-x).fdiv (-y) = (-x).tdiv (-y) := Int.fdiv_eq_tdiv_of_nonneg (by omega) (by omega)
      rwa [Int.neg_fdiv_neg, Int.neg_tdiv_neg] at nonneg
    · exact (Int.mul_fdiv_cancel_left k hy).trans (Int.mul_tdiv_cancel_left k hy).symm

/-! ## Compare, then branch -/

/-- A branch with an immediate names no register, so it is allowed in either mode. -/
theorem exec_branch_imm {i : Instr} {cond : Flags → Bool} {v : Word} {t : State} {c : Bool}
    (hbody : bodyOf i = branch cond (.imm v)) (hpriv : isPrivileged i = false) (hfields : regFields i = [])
    (hcond : cond t.core.regs.flags = c) : exec i t = .next (t.afterRegs (branched c (.imm v))) := by
  have allowed : Allowed i t = true := allowed_of_fields_lt hpriv (by rw [hfields]; exact nofun) t
  rw [(exec_branch hbody hpriv t).1 allowed, hcond]

/-- The table of 43_compare_branch.md R152 read as relations between the compared integers. -/
theorem branches_of_compared (x y : Int) (v : Word) {t : State}
    (he : t.core.regs.flags.e = decide (x = y)) (hz : t.core.regs.flags.z = decide (x = 0 ∧ y = 0))
    (hs : t.core.regs.flags.s = decide (x < y)) :
    ∀ row ∈ [(Instr.be, decide (x = y)), (Instr.bne, decide (x ≠ y)), (Instr.bz, decide (x = 0 ∧ y = 0)),
        (Instr.bnz, decide (¬ (x = 0 ∧ y = 0))), (Instr.bs, decide (x < y)), (Instr.bns, decide (x ≥ y)),
        (Instr.bg, decide (x > y)), (Instr.bge, decide (x ≥ y)), (Instr.bl, decide (x < y)), (Instr.ble, decide (x ≤ y))],
      exec (row.1 (.imm v)) t = .next (t.afterRegs (branched row.2 (.imm v))) := by
  simp only [List.forall_mem_cons]
  refine ⟨exec_branch_imm (cond := Flags.condE) rfl rfl rfl he,
    exec_branch_imm (cond := Flags.condNE) rfl rfl rfl ?_,
    exec_branch_imm (cond := Flags.condZ) rfl rfl rfl hz,
    exec_branch_imm (cond := Flags.condNZ) rfl rfl rfl ?_,
    exec_branch_imm (cond := Flags.condS) rfl rfl rfl hs,
    exec_branch_imm (cond := Flags.condNS) rfl rfl rfl ?_,
    exec_branch_imm (cond := Flags.condG) rfl rfl rfl ?_,
    exec_branch_imm (cond := Flags.condGE) rfl rfl rfl ?_,
    exec_branch_imm (cond := Flags.condL) rfl rfl rfl ?_,
    exec_branch_imm (cond := Flags.condLE) rfl rfl rfl ?_, List.forall_mem_nil _⟩
  all_goals
    rw [Bool.eq_iff_iff]
    simp only [Flags.condNE, Flags.condNZ, Flags.condNS, Flags.condG, Flags.condGE, Flags.condL, Flags.condLE, he, hz, hs,
      Bool.not_eq_true', decide_eq_false_iff_not, decide_eq_true_eq, Bool.and_eq_true, Bool.or_eq_true] <;> omega

/-- Settles O33: each condition read off the flags that the compare left. -/
theorem compareThenBranch : Obligations.CompareThenBranch := by
  intro s rd o v g means
  have compared := compareResult_holds s rd o
  exact ⟨fun hal => ⟨_, compared.1 hal, branches_of_compared _ _ v rfl rfl rfl⟩,
    fun hal => ⟨_, compared.2.1 hal, branches_of_compared _ _ v rfl rfl rfl⟩⟩

end Sys2Proof.Machine
end

section
/-! PUSH, POP, CALL, RET and the frame checks of RET and RETINT (44_stack_call.md R170 to R174; 60_exceptions.md R214). -/

namespace Sys2Proof.Machine

/-! ## PUSH and POP -/

theorem push16_run (v : Word) (s : State) :
    push16 v s = dWrite16 (phys s.core.regs.ds (s.core.regs.sp - 2)) v
      (s.withRegs { s.core.regs with sp := s.core.regs.sp - 2 }) := rfl

theorem pop16_ok {s t : State} {v : Word} (h : dRead16 (phys s.core.regs.ds s.core.regs.sp) s = .ok v t) :
    pop16 s = .ok v (t.withRegs { t.core.regs with sp := t.core.regs.sp + 2 }) := by
  rw [pop16, bind_ok (ask_run _ s), bind_ok h]
  rfl

theorem bodyOf_push_run (r : Reg) (s : State) : bodyOf (.push r) s = push16 (s.core.regs.read r) s := rfl

theorem bodyOf_pop_ok {s t : State} {v : Word} (r : Reg) (h : pop16 s = .ok v t) :
    bodyOf (.pop r) s = .ok () (t.withRegs (t.core.regs.write r v)) := by
  rw [bodyOf, bind_ok h, writeReg_run]

/-- Settles O34: the register is read before `SP` moves. -/
theorem pushResult : Obligations.PushResult := by
  intro s r hal g a hok
  obtain ⟨t, run, same, regs, dcache, bytes, access, tables⟩ :=
    dWrite16_ok (s := s.withRegs { g with sp := g.sp - 2 }) (g.read r) hok
  have run' : bodyOf (.push r) s.advanced = .ok () t := (bodyOf_push_run r s.advanced).trans ((push16_run _ _).trans run)
  refine ⟨_, exec_of_ok hal run', ((sameBut.withRegs s _).trans same).trans (.withRegs t _), ?_, dcache,
    wordAt_cacheAfterStore dcache, bytes, access, tables⟩
  rw [State.withRegs_regs, regs]
  rfl

/-- Settles O35: `SP` moves before the register is written, so a popped `SP` wins. -/
theorem popResult : Obligations.PopResult := by
  intro s r hal g a hok
  obtain ⟨t, run, same, regs, dcache, bytes, access, tables⟩ := dRead16_ok (s := s.advanced) hok
  refine ⟨_, exec_of_ok hal (bodyOf_pop_ok r (pop16_ok (s := s.advanced) run)),
    ((sameBut.withRegs s _).trans same).trans (.withRegs t _), ?_, dcache, bytes, access, tables⟩
  rw [State.withRegs_regs, State.withRegs_regs, regs]
  rfl

/-! ## CALL and RET -/

theorem sameCoreRest.frames {c d : Core} (h : sameCoreRest c d) : d.frames = c.frames := by
  obtain ⟨-, -, -, -, -, -, -, frames, -⟩ := h
  exact frames

theorem DataKept.congr {s t : State} {P Q : Nat → Prop} {pages : List Nat} (h : DataKept s t P pages) (k : ∀ a, P a ↔ Q a) :
    DataKept s t Q pages := by
  rwa [show Q = P from funext fun a => propext (k a).symm]

theorem mem_pushSlots_two (g : Regs) (a : Nat) : a ∈ pushSlots g 2 ↔ a = pushSlot g 0 ∨ a = pushSlot g 1 := by
  rw [show pushSlots g 2 = [pushSlot g 0, pushSlot g 1] from rfl, List.mem_cons, List.mem_singleton]

theorem forall_lt_two {P : Nat → Prop} (h0 : P 0) (h1 : P 1) : ∀ k < 2, P k
  | 0, _ => h0
  | 1, _ => h1

theorem bodyOf_call_ok {s t : State} {o : Operand} (h : createFrame s = .ok () t) :
    bodyOf (.call o) s = .ok () (t.withRegs (t.core.regs.write .ip (branchTarget s.core.regs o))) := by
  rw [bodyOf, target, bind_ok (ask_run _ s), bind_ok h, writeReg_run, targetValue_eq]

/-- The state of the core once `CALL` has pushed and jumped. -/
def State.called (s : State) (g : Regs) (o : Operand) : State :=
  { s with core := { s.core with
      regs := { g with sp := g.sp - 4, fp := g.sp - 4, ip := branchTarget g o }.count
      frames := newFrame g :: s.core.frames } }

theorem exec_call {s : State} {o : Operand} (hal : Allowed (.call o) s = true) (he : AllWriteBackOk s)
    (hk : DataKeysDistinct s) (hw : ∀ k < 2, Writable s (pushSlot s.core.regs.advance k)) :
    ∃ t, exec (.call o) s = .next t ∧ t.outside = (s.called s.core.regs.advance o).outside
      ∧ Chain s t (pushSlots s.core.regs.advance 2)
      ∧ wordAt t (pushSlot s.core.regs.advance 0) = s.core.regs.advance.ip
      ∧ wordAt t (pushSlot s.core.regs.advance 1) = s.core.regs.advance.fp := by
  obtain ⟨t, run, outside, chain, first, second⟩ := createFrame_chain (s := s.advanced) he hk hw
  have regs : t.core.regs = _ := (outside_eq outside).2
  refine ⟨_, exec_of_ok hal (bodyOf_call_ok run), ?_, .ofRegs (chain.withRegs _), first, second⟩
  rw [State.outside_withRegs, State.outside_withRegs, outside, State.withRegs_regs, regs]
  rfl

/-- Settles O36. -/
theorem callResult : Obligations.CallResult := by
  intro s o hal g he hk hw0 hw1
  obtain ⟨t, run, outside, chain, first, second⟩ := exec_call hal he hk (forall_lt_two hw0 hw1)
  obtain ⟨⟨surroundings, host, rest⟩, regs⟩ := outside_eq outside
  exact ⟨t, run, surroundings, host, regs, rest, first, second, chain.kept.congr (mem_pushSlots_two _)⟩

theorem allowed_ret (s : State) : Allowed .ret s = true := allowed_of_fields_lt rfl (List.forall_mem_nil _) s

theorem bodyOf_ret_run {s : State} {f : Frame} (hf : s.core.frames.head? = some f)
    (hm : s.cfg.frameCheck = true → s.core.regs.sp = f.fp) : bodyOf .ret s = destroyFrame s := by
  rw [bodyOf, bind_ok (checkFrame_ok hf hm)]

/-- The state of the core once `RET` has popped. -/
def State.returned (s : State) : State :=
  { s with core := { s.core with
      regs := { s.core.regs with
        fp := wordAt s (stackSlot s.core.regs 0)
        ip := wordAt s (stackSlot s.core.regs 1)
        sp := s.core.regs.sp + 4
        cnt := s.core.regs.cnt + 1 }
      frames := s.core.frames.tail } }

theorem exec_ret {s : State} {f : Frame} (hf : s.core.frames.head? = some f)
    (hm : s.cfg.frameCheck = true → s.core.regs.sp = f.fp) (he : AllWriteBackOk s) (hk : DataKeysDistinct s)
    (hr : ∀ k < 2, Readable s (stackSlot s.core.regs k)) (hc : Coherent s (stackSlot s.core.regs 1)) :
    ∃ t, exec .ret s = .next t ∧ t.outside = s.returned.outside ∧ Chain s t [] := by
  obtain ⟨t, run, outside, chain⟩ := destroyFrame_chain (s := s.advanced) he hk hr hc
  have regs : t.core.regs = _ := (outside_eq outside).2
  refine ⟨_, exec_of_ok (allowed_ret s) ((bodyOf_ret_run (s := s.advanced) hf hm).trans run), ?_, .ofRegs (chain.withRegs _)⟩
  rw [State.outside_withRegs, outside, regs]
  rfl

/-- Settles O37. -/
theorem retResult : Obligations.RetResult := by
  intro s f hf hm he hk hr0 hr1 hc g
  obtain ⟨t, run, outside, chain⟩ := exec_ret hf hm he hk (forall_lt_two hr0 hr1) hc
  obtain ⟨⟨surroundings, host, rest⟩, regs⟩ := outside_eq outside
  exact ⟨t, run, surroundings, host, regs, rest, chain.kept.congr fun a => by simp⟩

theorem stackSlot_called (s : State) (g : Regs) (o : Operand) :
    stackSlot (s.called g o).core.regs 0 = pushSlot g 1 ∧ stackSlot (s.called g o).core.regs 1 = pushSlot g 0 :=
  ⟨stackSlot_pushSlot g (n := 2) (k := 0) (by omega), stackSlot_pushSlot g (n := 2) (k := 1) (by omega)⟩

/-- Settles O38: the two slots that `RET` pops are the two that `CALL` pushed, in the other order. -/
theorem callThenRet : Obligations.CallThenRet := by
  intro s o hal g he hk hw0 hw1 hr0 hr1
  obtain ⟨t, call, outside, chain, first, second⟩ := exec_call hal he hk (forall_lt_two hw0 hw1)
  obtain ⟨⟨-, -, rest⟩, regs⟩ := outside_eq outside
  have frames : t.core.frames = newFrame g :: s.core.frames := rest.frames
  obtain ⟨slot0, slot1⟩ := stackSlot_called s g o
  rw [← regs] at slot0 slot1
  obtain ⟨u, ret, outside', chain'⟩ := exec_ret (f := newFrame g) (by rw [frames]; rfl) (fun _ => by rw [regs]; rfl)
    chain.evictable chain.keys
    (forall_lt_two (by rw [slot0]; exact chain.readable hr1) (by rw [slot1]; exact chain.readable hr0))
    (by rw [slot1]; exact chain.coherent _ hw0.1 (.inl ((mem_pushSlots_two g _).2 (.inl rfl))))
  obtain ⟨⟨-, -, rest'⟩, regs'⟩ := outside_eq outside'
  refine ⟨t, u, call, ret, ?_, ?_, (chain.trans chain').kept.congr fun a => ?_⟩
  · have sp : g.sp - 4 + 4 = g.sp := BitVec.sub_add_cancel _ _
    have cnt : g.cnt + 1 + 1 = g.cnt + 2 := BitVec.add_assoc _ _ _
    rw [regs', State.returned, slot0, slot1, first, second, regs, ← cnt]
    exact congrArg (fun v => { g with sp := v, cnt := g.cnt + 1 + 1 }) sp
  · have popped : u.core.frames = t.core.frames.tail := rest'.frames
    rw [popped, frames, List.tail_cons]
  · rw [List.append_nil, mem_pushSlots_two]

/-! ## The frame checks -/

theorem bodyOf_ret_error {s : State} {e : Exc} (h : checkFrame s = .error e s) : bodyOf .ret s = .error e s := by
  rw [bodyOf, bind_error h]

theorem bodyOf_retint_error {s : State} {e : Exc} (h : checkFrame s = .error e s) : bodyOf .retint s = .error e s := by
  rw [bodyOf, exitInterrupt, bind_error h]

theorem bodyOf_retint_noEntry {s : State} (h : checkFrame s = .ok () s) (hi : s.core.istack = []) :
    bodyOf .retint s = .error (exc (.cpuException .istackUnderflow) .nothing) s := by
  rw [bodyOf, exitInterrupt, bind_ok h, bind_ok (ask_run _ s), hi]
  rfl

/-- Settles O39: both checks stand before the first pop. -/
theorem frameFaultsKill : Obligations.FrameFaultsKill := by
  refine fun s => ⟨fun hf => ?_, fun f hf hc hm => ?_, fun f hf hm hi hp => ?_⟩
  · have underflow := checkFrame_none (s := s.advanced) hf
    exact ⟨exec_of_error (allowed_ret s) (bodyOf_ret_error underflow),
      fun hp => exec_of_error (allowed_of_p hp _) (bodyOf_retint_error underflow)⟩
  · have mismatch := checkFrame_mismatch (s := s.advanced) hf hc hm
    exact ⟨exec_of_error (allowed_ret s) (bodyOf_ret_error mismatch),
      fun hp => exec_of_error (allowed_of_p hp _) (bodyOf_retint_error mismatch)⟩
  · exact exec_of_error (allowed_of_p hp _) (bodyOf_retint_noEntry (checkFrame_ok (s := s.advanced) hf hm) hi)

end Sys2Proof.Machine
end

section
/-! Ports, HLT and the host's halt, and the virtual interrupt (45_privileged_io.md; 60_exceptions.md sections 2, 4, 5 and 6). -/

namespace Sys2Proof.Machine

/-! ## Ports -/

theorem portCheck_ok {s : State} {p : Word} (h : PortOk s p) : portCheck p s = .ok () s := by
  obtain ⟨isProtected, mark, permitted⟩ := h
  have passes : (!isProtected || s.core.regs.flags.p) = true := by
    rcases permitted with h | h <;> simp [h]
  rw [portCheck, bind_ok (ask_run _ s), mark]
  dsimp only
  rw [bind_ok (ask_run _ s), passes, require_true]

theorem portCheck_unregistered {s : State} {p : Word} (h : portMark p s.cfg.ports = none) :
    portCheck p s = .error (exc .resourceNotFound (.port p)) s := by
  rw [portCheck, bind_ok (ask_run _ s), h]
  rfl

theorem portCheck_protected {s : State} {p : Word} (h : portMark p s.cfg.ports = some true) (hp : s.core.regs.flags.p = false) :
    portCheck p s = .error (exc .accessViolation (.port p)) s := by
  rw [portCheck, bind_ok (ask_run _ s), h]
  dsimp only
  rw [bind_ok (ask_run _ s), hp]
  rfl

theorem note_run (n : HostNote) (s : State) : note n s = .ok () (s.noted n) := rfl

theorem low_byte_widened (v : Word) : (v.setWidth 8).setWidth 16 = v &&& 0x00FF := by
  apply BitVec.eq_of_toNat_eq
  rw [BitVec.toNat_setWidth, BitVec.toNat_setWidth, BitVec.toNat_and, show (0x00FF : Word).toNat = 2 ^ 8 - 1 from rfl,
    Nat.and_two_pow_sub_one_eq_mod]
  omega

theorem bodyOf_inw_ok {s : State} {o : Operand} {r : Reg} (h : PortOk s (operandValue s.core.regs o)) :
    bodyOf (.inw r o) s = .ok () ((s.portDrawn.noted (.portRead16 (operandValue s.core.regs o) (nextPort s))).withRegs
      (s.core.regs.write r (nextPort s))) := by
  rw [bodyOf, bind_ok (operand_run o s), bind_ok (portCheck_ok h), bind_ok (drawPort_run s), bind_ok (note_run _ _), writeReg_run]
  rfl

theorem bodyOf_inb_ok {s : State} {o : Operand} {r : Reg} (h : PortOk s (operandValue s.core.regs o)) :
    bodyOf (.inb r o) s = .ok () ((s.portDrawn.noted
        (.portRead8 (operandValue s.core.regs o) ((nextPort s).extractLsb' 0 8))).withRegs
      (s.core.regs.write r (nextPort s &&& 0x00FF))) := by
  rw [bodyOf, bind_ok (operand_run o s), bind_ok (portCheck_ok h), bind_ok (drawPort_run s), bind_ok (note_run _ _), writeReg_run,
    low_byte_widened, BitVec.setWidth_eq_extractLsb' (by omega)]
  rfl

theorem bodyOf_outw_ok {s : State} {o : Operand} {r : Reg} (h : PortOk s (operandValue s.core.regs o)) :
    bodyOf (.outw o r) s = .ok () (s.noted (.portWrite16 (operandValue s.core.regs o) (s.core.regs.read r))) := by
  rw [bodyOf, bind_ok (operand_run o s), bind_ok (portCheck_ok h), bind_ok (readReg_run r s), note_run]

theorem bodyOf_outb_ok {s : State} {o : Operand} {r : Reg} (h : PortOk s (operandValue s.core.regs o)) :
    bodyOf (.outb o r) s
      = .ok () (s.noted (.portWrite8 (operandValue s.core.regs o) ((s.core.regs.read r).extractLsb' 0 8))) := by
  rw [bodyOf, bind_ok (operand_run o s), bind_ok (portCheck_ok h), bind_ok (readReg_run r s), note_run,
    BitVec.setWidth_eq_extractLsb' (by omega)]

/-- Settles O42. -/
theorem portTraffic : Obligations.PortTraffic := fun s _ _ h =>
  ⟨fun hal => exec_of_ok hal (bodyOf_inw_ok (s := s.advanced) h), fun hal => exec_of_ok hal (bodyOf_inb_ok (s := s.advanced) h),
    fun hal => exec_of_ok hal (bodyOf_outw_ok (s := s.advanced) h), fun hal => exec_of_ok hal (bodyOf_outb_ok (s := s.advanced) h)⟩

/-- The four port instructions begin with the check. -/
theorem bodyOf_port_eq (o : Operand) (r : Reg) : ∀ i ∈ [Instr.inw r o, .inb r o, .outw o r, .outb o r],
    ∃ k : Word → M Unit, bodyOf i = (operand o >>= fun port => portCheck port >>= fun _ => k port) := by
  simp only [List.forall_mem_cons]
  exact ⟨⟨_, rfl⟩, ⟨_, rfl⟩, ⟨_, rfl⟩, ⟨_, rfl⟩, List.forall_mem_nil _⟩

/-- Settles O43. -/
theorem portFaultsKill : Obligations.PortFaultsKill := by
  intro s o r p i hi hal
  obtain ⟨k, body⟩ := bodyOf_port_eq o r i hi
  have refused {e : Exc} (h : portCheck p s.advanced = .error e s.advanced) :
      exec i s = .next (die e (siteOf i s) s.advanced) :=
    exec_of_error hal (by rw [body, bind_ok (operand_run o s.advanced)]; exact bind_error h)
  exact ⟨fun h => refused (portCheck_unregistered h), fun h hp => refused (portCheck_protected h hp)⟩

/-! ## Halt -/

theorem haltCore_run {s : State} (ha : s.core.alive = true) :
    haltCore s = (flush >>= fun _ => actCore Core.stopped) s := by
  rw [haltCore, bind_ok (ask_run _ s), ha, whenever_true]

/-- The halt of a live core whose write-backs are all permitted (60_exceptions.md R221). -/
theorem haltCore_ok {s : State} (ha : s.core.alive = true) (hk : DataKeysDistinct s) (hw : AllWriteBackOk s) :
    ∃ t, haltCore s = .ok () t ∧ sameSurroundings s t ∧ sameHost s t ∧ t.core.regs = s.core.regs
      ∧ sameCoreRest (s.core.haltedWith s.core.exitCode s.core.fault) t.core
      ∧ (∀ e ∈ t.core.dcache, e.dirty = false) ∧ Flushed s t := by
  obtain ⟨t, run, flushed⟩ := cleanEntries_ok (dataKeys s) hk fun e he _ hd => hw e he hd
  have run' : flush s = .ok () t := by rw [flush, bind_ok (ask_run _ s)]; exact run
  obtain ⟨⟨surroundings, host, rest⟩, regs⟩ := outside_eq (Same.flush.ok run')
  obtain ⟨sizes, booted, -, -, idle, exit, fault, frames, istack, pending, icache⟩ := rest
  have all := flushed.all fun e he => mem_dataKeys he
  refine ⟨{ t with core := t.core.stopped }, by rw [haltCore_run ha, bind_ok run']; rfl, surroundings, host, regs,
    ⟨sizes, booted, rfl, rfl, idle, exit, fault, frames, istack, pending, icache⟩, fun e he => ?_,
    ⟨all.cache, all.written, all.bytes, all.access, all.tables⟩⟩
  by_contra hd
  obtain ⟨hs, kept⟩ := flushed.dirty he (by simpa using hd)
  exact kept ⟨mem_dataKeys hs, hw e hs (by simpa using hd)⟩

/-- The halt of a live core with a refused write-back: the die transition flushes the rest (60_exceptions.md R206, R221). -/
theorem haltCore_refused {s : State} {d : DEntry} (site : FaultSite) (ha : s.core.alive = true) (hk : DataKeysDistinct s)
    (hd : FirstRefused s d) :
    ∃ t, haltCore s = .error (refusal d) t ∧ sameSurroundings s (die (refusal d) site t) ∧ sameHost s (die (refusal d) site t)
      ∧ (die (refusal d) site t).core.regs = s.core.regs
      ∧ sameCoreRest (s.core.haltedWith 1 (recorded s.core (refusal d) site)) (die (refusal d) site t).core
      ∧ Flushed s (die (refusal d) site t) := by
  obtain ⟨t, l, run, flushed⟩ := flush_refused hk hd
  obtain ⟨⟨surroundings, host, rest⟩, regs⟩ := outside_eq (Same.flush.error run)
  obtain ⟨sizes, booted, alive, running, idle, exit, fault, frames, istack, pending, icache⟩ := rest
  obtain ⟨surroundings', host', regs', rest'⟩ := die_spec (refusal d) site t
  have stopped : (t.core.running && !t.core.alive) = false := by rw [alive, ha]; simp
  have record : (t.doomed (refusal d) site).core.fault = recorded s.core (refusal d) site := by
    rw [doomed_fault, recorded, recorded, fault, regs, frames]
  have doomed : sameCoreRest (s.core.haltedWith 1 (recorded s.core (refusal d) site))
      { (t.doomed (refusal d) site).core with alive := false, running := t.core.running && !t.core.alive } :=
    ⟨sizes, booted, rfl, stopped, idle, rfl, record, frames, istack, pending, icache⟩
  refine ⟨t, by rw [haltCore_run ha, bind_error run], surroundings.trans surroundings', host.trans host', regs'.trans regs,
    doomed.trans rest', ?_⟩
  have whole := flushed.trans hk (die_flushes (refusal d) site (alive.trans ha) (flushed.distinct hk))
  exact whole.all fun e he => List.mem_append_right _ (flushed.keys ▸ mem_dataKeys he)

theorem bodyOf_hlt_run (o : Operand) (s : State) :
    bodyOf (.hlt o) s = haltCore (s.onCore fun c => { c with exitCode := operandValue s.core.regs o }) := by
  rw [bodyOf, bind_ok (operand_run o s), bind_ok (actCore_run _ s)]
  rfl

/-- Settles O41. -/
theorem haltFlushes : Obligations.HaltFlushes := by
  constructor
  · intro s o hp ha hk g
    refine ⟨fun hw => ?_, fun d hd => ?_⟩
    · obtain ⟨t, run, surroundings, host, regs, core, clean, flushed⟩ :=
        haltCore_ok (s := s.advanced.onCore fun c => { c with exitCode := operandValue g o }) ha hk hw
      exact ⟨_, exec_of_ok (allowed_of_p hp _) ((bodyOf_hlt_run o s.advanced).trans run), surroundings, host,
        congrArg Regs.count regs, core, clean, flushed.cache, flushed.written, flushed.bytes, flushed.access, flushed.tables⟩
    · obtain ⟨t, run, surroundings, host, regs, core, flushed⟩ :=
        haltCore_refused (s := s.advanced.onCore fun c => { c with exitCode := operandValue g o }) (siteOf (.hlt o) s) ha hk hd
      exact ⟨_, exec_of_error (allowed_of_p hp _) ((bodyOf_hlt_run o s.advanced).trans run), surroundings, host, regs, core,
        flushed.cache, flushed.written, flushed.bytes, flushed.access, flushed.tables⟩
  · intro s rest hag ha hk
    refine ⟨fun hw => ?_, fun d hd => ?_⟩
    · obtain ⟨t, run, surroundings, host, regs, core, clean, flushed⟩ := haltCore_ok (s := { s with agenda := rest }) ha hk hw
      exact ⟨t, by rw [step_host hag, hostAction, hostHalt, run], surroundings, host, regs, core, clean,
        flushed.cache, flushed.written, flushed.bytes, flushed.access, flushed.tables⟩
    · obtain ⟨t, run, surroundings, host, regs, core, flushed⟩ :=
        haltCore_refused (s := { s with agenda := rest }) (outsideSite .hostHalt s) ha hk hd
      exact ⟨_, by rw [step_host hag, hostAction, hostHalt, run]; rfl, surroundings, host, regs, core,
        flushed.cache, flushed.written, flushed.bytes, flushed.access, flushed.tables⟩

/-! ## Virtual interrupts -/

theorem bodyOf_int_virtual {s : State} {o : Operand} (h : s.cfg.vint.contains (operandValue s.core.regs o) = true) :
    bodyOf (.int o) s = virtualInterrupt (operandValue s.core.regs o) s := by
  rw [bodyOf, bind_ok (operand_run o s), bind_ok (ask_run _ s), bind_ok (ask_run _ s), bind_ok (ask_run _ s), h, if_pos rfl]

theorem bodyOf_int_entry {s : State} {o : Operand} (h : s.cfg.vint.contains (operandValue s.core.regs o) = false) :
    bodyOf (.int o) s = enterInterrupt s.cfg.intTableBase s.cfg.intCount (operandValue s.core.regs o).toNat s := by
  rw [bodyOf, bind_ok (operand_run o s), bind_ok (ask_run _ s), bind_ok (ask_run _ s), bind_ok (ask_run _ s), h,
    if_neg Bool.false_ne_true]

theorem blame_ok {n : Word} {x : M Unit} {s t : State} (h : x s = .ok () t) : blame n x s = .ok () t := by
  rw [blame, h]

theorem virtualInterrupt_ok {n : Word} {s t : State} {gpr : Vector Word 32} {writes : List McWrite}
    (hv : nextVint s = .ok gpr writes)
    (hw : forEach memWritePriv writes
        ((s.vintDrawn.noted (.virtualInterrupt n (nextVint s))).withRegs { s.core.regs with gpr := gpr }) = .ok () t) :
    virtualInterrupt n s = .ok () t := by
  rw [virtualInterrupt, bind_ok (drawVint_run s), bind_ok (note_run _ _), hv]
  rw [hv] at hw
  dsimp only
  rw [bind_ok (actRegs_run _ _)]
  exact blame_ok hw

theorem virtualInterrupt_fail {n : Word} {s : State} {kind : ExcKind} {info : ExcInfo} (hv : nextVint s = .fail kind info) :
    virtualInterrupt n s = .error { kind := kind, info := info, vint := some n }
      (s.vintDrawn.noted (.virtualInterrupt n (nextVint s))) := by
  rw [virtualInterrupt, bind_ok (drawVint_run s), bind_ok (note_run _ _), hv]
  rfl

/-- Settles O46, for every answer of the host. -/
theorem virtualInterruptResult : Obligations.VirtualInterruptResult := by
  intro s o hal g n hn
  refine ⟨fun gpr writes hv hw => ?_, fun kind info hv => ?_⟩
  · obtain ⟨t, run, outside, core, bytes, access, tables⟩ := memWritesPriv_ok writes
      (s := (s.advanced.vintDrawn.noted (.virtualInterrupt n (nextVint s))).withRegs { g with gpr := gpr }) hw
    obtain ⟨⟨surroundings, host, -⟩, -⟩ := outside_eq outside
    refine ⟨_, exec_of_ok hal ((bodyOf_int_virtual hn).trans (virtualInterrupt_ok hv run)), surroundings, host, ?_, bytes,
      access, tables⟩
    show { t.core with regs := t.core.regs.count } = _
    rw [core]
    rfl
  · exact exec_of_error hal ((bodyOf_int_virtual hn).trans (virtualInterrupt_fail (s := s.advanced) hv))

end Sys2Proof.Machine
end

section
/-! Data accesses that raise, instruction by instruction (20_memory.md sections 3 and 6; 44_stack_call.md R170 to R174). -/

namespace Sys2Proof.Machine

/-! ## Through the data cache -/

theorem bodyOf_lw_error {s t : State} {rd rb : Reg} {off : Int} {e : Exc}
    (h : LoadFails s (phys s.core.regs.ds (BitVec.ofInt 16 ((s.core.regs.read rb).toNat + off))) e t) :
    bodyOf (.lw rd rb off) s = .error e t := by
  rw [bodyOf, bind_ok (effectiveAddress_run rb off s), bind_error h.error]

theorem bodyOf_stw_error {s t : State} {rb r : Reg} {off : Int} {e : Exc}
    (h : StoreFails s (phys s.core.regs.ds (BitVec.ofInt 16 ((s.core.regs.read rb).toNat + off))) e t) :
    bodyOf (.stw rb off r) s = .error e t := by
  rw [bodyOf_stw_run, h.error]

theorem pushFails_singleton {v : Word} {s t : State} {e : Exc} (h : PushFails [v] s e t) : push16 v s = .error e t := by
  obtain ⟨k, hk, u, hu, fails⟩ := h
  obtain rfl : k = 0 := by simpa using hk
  obtain ⟨-, rfl⟩ := EStateM.Result.ok.inj hu
  exact push16_error v fails

theorem bodyOf_push_error {s t : State} {r : Reg} {e : Exc} (h : PushFails [s.core.regs.read r] s e t) :
    bodyOf (.push r) s = .error e t := by
  rw [bodyOf_push_run, pushFails_singleton h]

theorem bodyOf_pop_error {s t : State} {r : Reg} {e : Exc} (h : LoadFails s (phys s.core.regs.ds s.core.regs.sp) e t) :
    bodyOf (.pop r) s = .error e t := by
  rw [bodyOf, bind_error (pop16_error h)]

theorem bodyOf_call_error {s t : State} {o : Operand} {e : Exc}
    (h : PushFails [s.core.regs.ip, s.core.regs.fp] s e t) : bodyOf (.call o) s = .error e t := by
  rw [bodyOf, target, bind_ok (ask_run _ s), bind_error (createFrame_error h)]

theorem bodyOf_ret_popError {s t : State} {f : Frame} {e : Exc} (hf : s.core.frames.head? = some f)
    (hm : s.cfg.frameCheck = true → s.core.regs.sp = f.fp) (h : PopFails 2 s e t) : bodyOf .ret s = .error e t := by
  rw [bodyOf_ret_run hf hm, destroyFrame_eq, h.error]

/-! ## Past it -/

theorem bodyOf_lb_error {s t : State} {rd rb : Reg} {off : Int} {e : Exc}
    (h : memRead8 (phys s.core.regs.ds (BitVec.ofInt 16 ((s.core.regs.read rb).toNat + off))) false s = .error e t) :
    bodyOf (.lb rd rb off) s = .error e t := by
  rw [bodyOf, bind_ok (effectiveAddress_run rb off s), bind_error h]

theorem memRead8_outOfBounds {a : Nat} {s : State} (hb : ¬ a + 1 ≤ s.cfg.memSize) :
    memRead8 a false s = .error (exc .accessViolation (.address a)) s :=
  bind_error (access_outOfBounds _ (Nat.mod_one a) hb)

theorem memRead8_denied {a : Nat} {s : State} (hb : a + 1 ≤ s.cfg.memSize)
    (hr : (s.mc.pageView s.cfg (pageOf a)).read = false) :
    memRead8 a false s = .error (exc .accessViolation (.address a)) (s.touched (pageOf a)) :=
  bind_error (access_denied (Nat.mod_one a) hb hr)

theorem memWrite8_outOfBounds {a : Nat} {v : Byte} {d : Bool} {s : State} (hb : ¬ a + 1 ≤ s.cfg.memSize) :
    memWrite8 a v false d s = .error (exc .accessViolation (.address a)) s :=
  bind_error (access_outOfBounds _ (Nat.mod_one a) hb)

theorem memWrite8_denied {a : Nat} {v : Byte} {d : Bool} {s : State} (hb : a + 1 ≤ s.cfg.memSize)
    (hw : (s.mc.pageView s.cfg (pageOf a)).write = false) :
    memWrite8 a v false d s = .error (exc .accessViolation (.address a)) (s.touched (pageOf a)) :=
  bind_error (access_denied (Nat.mod_one a) hb hw)

/-- `CAS` raises as its access does, before it compares. -/
theorem bodyOf_cas_error {s t : State} {ra re rn : Reg} {e : Exc}
    (h : access (phys s.core.regs.ds (s.core.regs.read ra)) 2 (fun pg => pg.read && pg.write) s = .error e t) :
    bodyOf (.cas ra re rn) s = .error e t := by
  rw [bodyOf_cas_run, bind_error (by rw [cas16, bind_error h])]

theorem casPermission_denied {pg : Page} (h : pg.read = false ∨ pg.write = false) : (pg.read && pg.write) = false := by
  rcases h with h | h <;> simp [h]

/-! ## Together -/

/-- Settles O45. -/
theorem dataFaultsKill : Obligations.DataFaultsKill := by
  intro s r b c o off e t g a x dies
  refine ⟨fun hal h => exec_of_error hal (bodyOf_lw_error (s := s.advanced) h),
    fun hal h => exec_of_error hal (bodyOf_stw_error (s := s.advanced) h),
    fun hal h => exec_of_error hal (bodyOf_push_error (s := s.advanced) h),
    fun hal h => exec_of_error hal (bodyOf_pop_error (s := s.advanced) h),
    fun hal h => exec_of_error hal (bodyOf_call_error (s := s.advanced) h),
    fun f hf hm => ⟨fun h => exec_of_error (allowed_ret s) (bodyOf_ret_popError (s := s.advanced) hf hm h),
      fun hp hi h => exec_of_error (allowed_of_p hp _) (exitInterrupt_error (s := s.advanced) hf hm hi h)⟩,
    fun hal => ⟨fun hb => ?_, fun hb hr => ?_⟩, fun hal => ⟨fun hb => ?_, fun hb hw => ?_⟩,
    fun hal => ⟨fun ha => ?_, fun ha hb => ?_, fun ha hb hf => ?_⟩⟩
  · exact exec_of_error hal (bodyOf_lb_error (s := s.advanced) (memRead8_outOfBounds hb))
  · exact exec_of_error hal (bodyOf_lb_error (s := s.advanced) (memRead8_denied hb hr))
  · exact exec_of_error hal ((bodyOf_stb_run b r off s.advanced).trans (memWrite8_outOfBounds hb))
  · exact exec_of_error hal ((bodyOf_stb_run b r off s.advanced).trans (memWrite8_denied hb hw))
  · exact exec_of_error hal (bodyOf_cas_error (s := s.advanced) (access_misaligned _ _ ha))
  · exact exec_of_error hal (bodyOf_cas_error (s := s.advanced) (access_outOfBounds _ ha hb))
  · exact exec_of_error hal (bodyOf_cas_error (s := s.advanced) (access_denied ha hb (casPermission_denied hf)))

end Sys2Proof.Machine
end

section
/-! Interrupt entry and return: INT, IRQ acceptance, RETINT and their round trip (60_exceptions.md R201, R210 to R216). -/

namespace Sys2Proof.Machine

/-! ## Words on the fresh page -/

theorem sameCoreRest.istack {c d : Core} (h : sameCoreRest c d) : d.istack = c.istack := by
  obtain ⟨-, -, -, -, -, -, -, -, istack, -⟩ := h
  exact istack

theorem sameCoreRest.pending {c d : Core} (h : sameCoreRest c d) : d.pending = c.pending := by
  obtain ⟨-, -, -, -, -, -, -, -, -, pending, -⟩ := h
  exact pending

theorem Flags.unpack_pack (f : Flags) : Flags.unpack f.pack = f := by
  have all : ∀ p h e z o s : Bool, Flags.unpack (Flags.pack ⟨p, h, e, z, o, s⟩) = ⟨p, h, e, z, o, s⟩ := by decide
  exact all _ _ _ _ _ _

theorem entryWords_length (g : Regs) : (entryWords g).length = 38 := by simp [entryWords]

theorem entryWords_special (g : Regs) (h : ∀ {n}, n < 38 → n < (entryWords g).length) :
    (entryWords g)[0]'(h (by omega)) = g.ds.setWidth 16 ∧ (entryWords g)[1]'(h (by omega)) = g.sp
      ∧ (entryWords g)[2]'(h (by omega)) = g.cs.setWidth 16 ∧ (entryWords g)[3]'(h (by omega)) = g.flags.pack
      ∧ (entryWords g)[36]'(h (by omega)) = g.ip ∧ (entryWords g)[37]'(h (by omega)) = g.fp := by
  simp [entryWords]

theorem entryWords_gpr (g : Regs) (j : Fin 32) (h : 4 + j.val < (entryWords g).length) :
    (entryWords g)[4 + j.val] = g.gpr[j] := by
  have inside : j.val < g.gpr.toList.length := by simp
  simp only [entryWords, Nat.add_comm 4, List.cons_append, List.nil_append, List.getElem_cons_succ,
    List.getElem_append_left inside]
  rfl

/-- The exit sequence reads the words of the entry in reverse. -/
theorem exitRegs_entryWords (g h : Regs) {w : Nat → Word}
    (hw : ∀ k (hk : k < (entryWords g).length), w (37 - k) = (entryWords g)[k]) :
    exitRegs h w = { g with cnt := h.cnt } := by
  have inside : ∀ {n}, n < 38 → n < (entryWords g).length := by rw [entryWords_length]; exact id
  obtain ⟨ds, sp, cs, flags, ip, fp⟩ := entryWords_special g inside
  have gpr : (Vector.ofFn fun j : Fin 32 => w (33 - j.val)) = g.gpr := by
    refine Vector.ext fun j hj => ?_
    have slot : 37 - (4 + j) = 33 - j := by omega
    rw [Vector.getElem_ofFn, ← slot, hw (4 + j) (inside (by omega))]
    exact entryWords_gpr g ⟨j, hj⟩ _
  have wfp : w 0 = g.fp := (hw 37 (inside (by omega))).trans fp
  have wip : w 1 = g.ip := (hw 36 (inside (by omega))).trans ip
  have wflags : w 34 = g.flags.pack := (hw 3 (inside (by omega))).trans flags
  have wcs : w 35 = g.cs.setWidth 16 := (hw 2 (inside (by omega))).trans cs
  have wsp : w 36 = g.sp := (hw 1 (inside (by omega))).trans sp
  have wds : w 37 = g.ds.setWidth 16 := (hw 0 (inside (by omega))).trans ds
  have narrow (b : Byte) : (b.setWidth 16).setWidth 8 = b := by
    apply BitVec.eq_of_toNat_eq
    simp only [BitVec.toNat_setWidth]
    omega
  rw [exitRegs, gpr, wfp, wip, wflags, wcs, wsp, wds, narrow, narrow, Flags.unpack_pack]

/-! ## Entry -/

/-- Two sequences of accesses, the second on what the first left. -/
theorem DataKept.trans {s t u : State} {P : Nat → Prop} {pages : List Nat} (h : DataKept s t P pages) (k : DataKept t u P pages)
    (coherent : ∀ a, a % 2 = 0 → ¬ P a → Coherent s a → Coherent t a)
    (dirty : ∀ e ∈ t.core.dcache, e.dirty = true → P e.addr ∨ ∃ f ∈ s.core.dcache, f.dirty = true ∧ f.addr = e.addr) :
    DataKept s u P pages where
  access q hq := by
    obtain ⟨read, write, execute, kind⟩ := h.access q hq
    obtain ⟨read', write', execute', kind'⟩ := k.access q hq
    exact ⟨read'.trans read, write'.trans write, execute'.trans execute, kind'.trans kind⟩
  tables := ⟨k.tables.1.trans h.tables.1, k.tables.2.trans h.tables.2⟩
  words a ha hn hc := (k.words a ha hn (coherent a ha hn hc)).trans (h.words a ha hn hc)
  bytes b hn hc := by
    refine (k.bytes b hn fun e he hd hb => ?_).trans (h.bytes b hn hc)
    rcases dirty e he hd with stored | ⟨f, hf, hfd, hfe⟩
    · exact hn (hb ▸ stored)
    · exact hc f hf hfd (hfe.trans hb)

/-- What `DataKept` says, it says of the data side of both states. -/
theorem DataKept.restate {s t s' t' : State} {P : Nat → Prop} {pages : List Nat} (h : DataKept s t P pages)
    (hs : sameData s' s) (ht : sameData t t') : DataKept s' t' P pages := by
  obtain ⟨scfg, smc, scache⟩ := hs
  obtain ⟨tcfg, tmc, tcache⟩ := ht
  refine ⟨fun q hq => ?_, ?_, fun a ha hn hc => ?_, fun b hn hc => ?_⟩
  · rw [← smc, ← scfg, tmc, tcfg]
    exact h.access q hq
  · rw [sameTables, ← smc, tmc]
    exact h.tables
  · have word := h.words a ha hn (sameData.coherent ⟨scfg, smc, scache⟩ hc)
    rw [sameData.wordAt ⟨tcfg, tmc, tcache⟩, word, sameData.wordAt ⟨scfg, smc, scache⟩]
  · rw [← smc, tmc]
    exact h.bytes b hn (by rwa [scache])

/-- The frame that an entry records. -/
def entryFrame (g : Regs) (v : IntVector) (p : Nat) : Frame := { cs := g.cs, ds := v.ds, fp := pageTop p - 76, ip := g.ip }

/-- The core that an entry leaves, its registers and data cache apart. -/
def Core.entered (c : Core) (v : IntVector) (p : Nat) : Core :=
  { c with
    frames := entryFrame c.regs v p :: c.frames
    istack := p :: c.istack
    idle := false }

/-- The k-th slot of the fresh page (60_exceptions.md R212). -/
def entrySlotAt (v : IntVector) (p k : Nat) : Nat := phys v.ds (pageTop p - BitVec.ofNat 16 (2 * (k + 1)))

/-- What an entry that meets no raise leaves of the state `s`. -/
structure Entered (s t : State) (v : IntVector) (p : Nat) : Prop where
  inSegment : v.ds.toNat * 256 ≤ p ∧ p < v.ds.toNat * 256 + 256
  inMemory : p * 256 + 256 ≤ s.cfg.memSize
  surroundings : sameSurroundings s t
  host : sameHost s t
  regs : t.core.regs = entryRegs s.core.regs v p
  rest : sameCoreRest (s.core.entered v p) t.core
  words : ∀ k (h : k < (entryWords s.core.regs).length), wordAt t (entrySlotAt v p k) = (entryWords s.core.regs)[k]
  flags : (t.mc.pageView t.cfg p).read = true ∧ (t.mc.pageView t.cfg p).write = true ∧ (t.mc.pageView t.cfg p).execute = false
  kept : DataKept s t (fun a => pageOf a = p) [p]
  evictable : AllWriteBackOk t
  keys : DataKeysDistinct t
  slotsCoherent : ∀ k < 38, Coherent t (entrySlotAt v p k)
  coherent : ∀ a, a % 2 = 0 → pageOf a ≠ p → Coherent s a → Coherent t a
  dirty : ∀ e ∈ t.core.dcache, e.dirty = true → pageOf e.addr = p ∨ ∃ f ∈ s.core.dcache, f.dirty = true ∧ f.addr = e.addr

theorem pageEnd_le {p size : Nat} (h : p < size / 256) : p * 256 + 256 ≤ size := by omega

theorem enterInterrupt_enters {s : State} {base count i : Nat} {v : IntVector} {p : Nat} (h : EntryOk s base count i v p) :
    ∃ t, enterInterrupt base count i s = .ok () t ∧ Entered s t v p := by
  obtain ⟨t, run, outside, kept, evictable, keys, flags, words, slotsCoherent, coherent, dirty⟩ := enterInterrupt_ok h
  obtain ⟨⟨surroundings, host, rest⟩, regs⟩ := outside_eq outside
  obtain ⟨-, low, high, limit, -⟩ := MC.firstFree_spec h.page
  exact ⟨t, run, ⟨low, high⟩, pageEnd_le limit, surroundings, host, regs, rest, words, flags, kept, evictable, keys, slotsCoherent,
    coherent, dirty⟩

theorem EntryOk.advanced {s : State} {base count i : Nat} {v : IntVector} {p : Nat} (h : EntryOk s base count i v p) :
    EntryOk s.advanced base count i v p :=
  ⟨h.inTable, h.aligned, h.inMemory, h.pagedMemory, h.vector, h.page, h.evictable, h.keys⟩

/-- Settles O47. -/
theorem softwareInterruptEntry : Obligations.SoftwareInterruptEntry := by
  intro s o v p hal g n hn ok
  obtain ⟨t, run, entered⟩ := enterInterrupt_enters (s := s.advanced) ok.advanced
  obtain ⟨read, write, execute⟩ := entered.flags
  exact ⟨_, exec_of_ok hal ((bodyOf_int_entry hn).trans run), entered.surroundings, entered.host,
    congrArg Regs.count entered.regs, entered.rest, entered.words, read, write, execute,
    entered.kept.restate ⟨rfl, rfl, rfl⟩ ⟨rfl, rfl, rfl⟩⟩

/-- The state in which the entry of an accepted IRQ begins: the IRQ has left the queue. -/
def State.irqTaken (s : State) (rest : List Nat) : State := { s with core := { s.core with pending := rest } }

theorem EntryOk.irqTaken {s : State} {base count i : Nat} {v : IntVector} {p : Nat} {rest : List Nat}
    (h : EntryOk s base count i v p) : EntryOk (s.onTurn.irqTaken rest) base count i v p :=
  ⟨h.inTable, h.aligned, h.inMemory, h.pagedMemory, h.vector, h.page, h.evictable, h.keys⟩

/-- On its own turn a core with `H` set and an IRQ pending takes it, idle or not. -/
theorem step_acceptIrq {s : State} {i : Nat} {rest : List Nat} (turn : OwnTurn s) (ha : s.core.alive = true)
    (hr : s.core.running = true) (hh : s.core.regs.flags.h = true) (hp : s.core.pending = i :: rest) :
    step s = .next (acceptIrq s.onTurn) := by
  obtain ⟨u, core, -, -, begun, run⟩ := step_of_ownTurn turn
  have enabled : acceptEnabled u = true := by simp [acceptEnabled, core, ha, hr, hh, hp]
  rw [run, coreTransition, if_pos enabled, begun]

theorem acceptIrq_ok {s t : State} {i : Nat} {rest : List Nat} (hp : s.core.pending = i :: rest)
    (run : enterInterrupt s.cfg.irqTableBase s.cfg.irqCount i (s.irqTaken rest) = .ok () t) : acceptIrq s = t := by
  rw [State.irqTaken] at run
  simp only [acceptIrq, hp, List.headD_cons, List.tail_cons, run]

theorem acceptIrq_error {s t : State} {i : Nat} {rest : List Nat} {e : Exc} (hp : s.core.pending = i :: rest)
    (run : enterInterrupt s.cfg.irqTableBase s.cfg.irqCount i (s.irqTaken rest) = .error e t) :
    acceptIrq s = die e (outsideSite .irqAcceptance s) t := by
  rw [State.irqTaken] at run
  simp only [acceptIrq, hp, List.headD_cons, List.tail_cons, run]
  rfl

/-- Settles O48. -/
theorem irqEntry : Obligations.IrqEntry := by
  intro s i rest v p turn ha hr hh hp ok g
  obtain ⟨t, run, entered⟩ := enterInterrupt_enters (ok.irqTaken (rest := rest))
  refine ⟨t, ?_, entered.surroundings, entered.host, entered.regs, entered.rest, entered.words,
    entered.kept.restate ⟨rfl, rfl, rfl⟩ ⟨rfl, rfl, rfl⟩⟩
  rw [step_acceptIrq turn ha hr hh hp, acceptIrq_ok (s := s.onTurn) hp run]

/-- Settles O49. -/
theorem interruptEntryFaultsKill : Obligations.InterruptEntryFaultsKill := by
  constructor
  · intro s o e t hal n hn fails
    exact exec_of_error hal ((bodyOf_int_entry hn).trans fails.error)
  · intro s i rest e t turn ha hr hh hp fails
    rw [step_acceptIrq turn ha hr hh hp, acceptIrq_error (s := s.onTurn) hp fails.error]
    rfl

/-! ## Return -/

theorem outside_withCore {s t : State} {c : Core} {g : Regs}
    (h : t.outside = ({ s with core := { c with regs := g } } : State).outside) :
    sameSurroundings s t ∧ sameHost s t ∧ t.core.regs = g ∧ sameCoreRest c t.core := by
  obtain ⟨⟨surroundings, host, rest⟩, regs⟩ := outside_eq h
  exact ⟨surroundings, host, regs, rest⟩

/-- The core that `RETINT` leaves, its registers and data cache apart. -/
def Core.exited (c : Core) : Core := { c with frames := c.frames.tail, istack := c.istack.tail }

/-- The state that `RETINT` leaves, memory and data cache apart. -/
def State.exited (s : State) : State :=
  { s with core := { s.core.exited with
      regs := (exitRegs s.core.regs fun k => wordAt s (stackSlot s.core.regs k)).count } }

theorem ExitOk.advanced {s : State} {f : Frame} {p : Nat} (h : ExitOk s f p) : ExitOk s.advanced f p :=
  ⟨h.frame, h.matching, h.page, h.readable, h.coherent, h.evictable, h.keys⟩

theorem exec_retint {s : State} {f : Frame} {p : Nat} (hp : s.core.regs.flags.p = true) (h : ExitOk s f p) :
    ∃ t, exec .retint s = .next t ∧ t.outside = s.exited.outside ∧ DataKept s t (fun a => pageOf a = p) [p]
      ∧ t.mc.page p = none ∧ ∀ e ∈ t.core.dcache, pageOf e.addr ≠ p := by
  obtain ⟨t, run, outside, kept, -, -, page, purged⟩ := exitInterrupt_ok h.advanced
  have regs : t.core.regs = _ := (outside_eq outside).2
  refine ⟨_, exec_of_ok (allowed_of_p hp _) run, ?_, kept.restate ⟨rfl, rfl, rfl⟩ ⟨rfl, rfl, rfl⟩, page, purged⟩
  rw [State.outside_withRegs, outside, regs]
  rfl

/-- Settles O50. -/
theorem returnFromInterrupt : Obligations.ReturnFromInterrupt := by
  intro s f p hp ok
  obtain ⟨t, run, outside, kept, page, purged⟩ := exec_retint hp ok
  obtain ⟨surroundings, host, regs, rest⟩ := outside_withCore (s := s) (c := s.core.exited) outside
  exact ⟨t, run, surroundings, host, regs, rest, page, purged, kept⟩

/-! ## The round trip -/

/-- `SP` is at the last word pushed, so the pops read the slots of the entry from the last to the first. -/
theorem Entered.stackSlot {s t : State} {v : IntVector} {p : Nat} (h : Entered s t v p) {k : Nat} (hk : k < 38) :
    Machine.stackSlot t.core.regs k = entrySlotAt v p (37 - k) := by
  rw [h.regs]
  exact stackSlot_pushSlot { s.core.regs with ds := v.ds, sp := pageTop p } (n := 38) hk

theorem Entered.slot {s t : State} {v : IntVector} {p : Nat} (h : Entered s t v p) {k : Nat} (hk : k < 38) :
    entrySlotAt v p k = p * 256 + 254 - 2 * k := entrySlot h.inSegment hk

theorem Entered.readable {s t : State} {v : IntVector} {p : Nat} (h : Entered s t v p) {k : Nat} (hk : k < 38) :
    Readable t (entrySlotAt v p k) := by
  have inMemory := h.inMemory
  have onPage : pageOf (p * 256 + 254 - 2 * k) = p := by rw [pageOf]; omega
  rw [h.slot hk, Readable, onPage, h.surroundings.1]
  exact ⟨by omega, by omega, h.surroundings.1 ▸ h.flags.1⟩

/-- An entered core passes the checks of the exit sequence and can read its 38 words. -/
theorem Entered.exitOk {s t : State} {v : IntVector} {p : Nat} (h : Entered s t v p) :
    ExitOk t (entryFrame s.core.regs v p) p where
  frame := by rw [h.rest.frames]; rfl
  matching _ := by rw [h.regs]; rfl
  page := by rw [h.rest.istack]; rfl
  readable k hk := by rw [h.stackSlot hk]; exact h.readable (by omega)
  coherent k hk := by rw [h.stackSlot hk]; exact h.slotsCoherent _ (by omega)
  evictable := h.evictable
  keys := h.keys

theorem Entered.exitRegs {s t : State} {v : IntVector} {p : Nat} (h : Entered s t v p) :
    Machine.exitRegs t.core.regs (fun k => wordAt t (Machine.stackSlot t.core.regs k)) = s.core.regs := by
  rw [exitRegs_entryWords s.core.regs t.core.regs fun k hk => ?_, h.regs]
  · rfl
  · have hk' : k < 38 := by rwa [entryWords_length] at hk
    rw [h.stackSlot (by omega), show 37 - (37 - k) = k by omega, h.words k hk]

/-- Only the counter may have moved since the entry, as the completed `INT` moves it. -/
theorem Entered.withCnt {s t : State} {v : IntVector} {p : Nat} (h : Entered s t v p) (n : Word) :
    Entered (s.withRegs { s.core.regs with cnt := n }) (t.withRegs { t.core.regs with cnt := n }) v p where
  inSegment := h.inSegment
  inMemory := h.inMemory
  surroundings := h.surroundings
  host := h.host
  regs := by rw [State.withRegs_regs, h.regs]; rfl
  rest := h.rest
  words := h.words
  flags := h.flags
  kept := h.kept.restate ⟨rfl, rfl, rfl⟩ ⟨rfl, rfl, rfl⟩
  evictable := h.evictable
  keys := h.keys
  slotsCoherent := h.slotsCoherent
  coherent := h.coherent
  dirty := h.dirty

/-- `RETINT` in the entered state undoes the entry. -/
theorem Entered.retint {s t : State} {v : IntVector} {p : Nat} (h : Entered s t v p) :
    ∃ u, exec .retint t = .next u ∧ u.core.regs = s.core.regs.count ∧ u.core.frames = s.core.frames
      ∧ u.core.istack = s.core.istack ∧ u.core.pending = s.core.pending ∧ u.mc.page p = none
      ∧ DataKept s u (fun a => pageOf a = p) [p] := by
  obtain ⟨u, run, outside, kept, page, -⟩ := exec_retint (by rw [h.regs]; rfl) h.exitOk
  obtain ⟨-, -, regs, rest⟩ := outside_withCore (s := t) (c := t.core.exited) outside
  refine ⟨u, run, by rw [regs, h.exitRegs], ?_, ?_, ?_, page, h.kept.trans kept h.coherent h.dirty⟩
  · rw [rest.frames, Core.exited, h.rest.frames]
    rfl
  · rw [rest.istack, Core.exited, h.rest.istack]
    rfl
  · rw [rest.pending, Core.exited, h.rest.pending]
    rfl

theorem Regs.count_count (g : Regs) : g.count.count = { g with cnt := g.cnt + 2 } :=
  congrArg (fun n => { g with cnt := n }) (BitVec.add_assoc g.cnt 1 1)

/-- Settles O51. -/
theorem interruptThenRetintRestores : Obligations.InterruptThenRetintRestores := by
  constructor
  · intro s o v p hal g n hn ok
    obtain ⟨t, run, entered⟩ := enterInterrupt_enters ok.advanced
    have counted : t.core.regs.count = { t.core.regs with cnt := g.cnt + 1 } := by rw [entered.regs]; rfl
    obtain ⟨u, exit, regs, frames, istack, -, page, kept⟩ := (entered.withCnt (g.cnt + 1)).retint
    exact ⟨_, u, exec_of_ok hal ((bodyOf_int_entry hn).trans run), by rw [counted]; exact exit, regs.trans (Regs.count_count g),
      frames, istack, page, kept.restate ⟨rfl, rfl, rfl⟩ ⟨rfl, rfl, rfl⟩⟩
  · intro s i rest v p turn ha hr hh hp ok
    obtain ⟨t, run, entered⟩ := enterInterrupt_enters (ok.irqTaken (rest := rest))
    obtain ⟨u, exit, regs, frames, istack, pending, page, kept⟩ := entered.retint
    exact ⟨t, u, by rw [step_acceptIrq turn ha hr hh hp, acceptIrq_ok (s := s.onTurn) hp run], exit, regs, frames, istack,
      pending, page, kept.restate ⟨rfl, rfl, rfl⟩ ⟨rfl, rfl, rfl⟩⟩

end Sys2Proof.Machine
end

section
/-! Canonical memory, page protection and the spontaneous write-back (20_memory.md sections 2, 3, 6 and 8). -/

namespace Sys2Proof.Machine

/-! ## Canonical memory (20_memory.md R53) -/

theorem Memory.read_cons (a : Nat) (v : Byte) (l : Memory) (b : Nat) :
    Memory.read ((a, v) :: l) b = if a = b then v else Memory.read l b := by
  simp only [Memory.read, lookup, beq_iff_eq]
  split <;> rfl

theorem Memory.read_of_lt {b lo : Nat} (h : b < lo) {l : Memory} (hl : risingFrom lo l = true) :
    Memory.read l b = Memory.blank := by
  rw [Memory.read, lookup_eq_none_of_lt h hl]
  rfl

theorem risingFrom_cons {β : Type} {lo a : Nat} {v : β} {l : List (Nat × β)} :
    risingFrom lo ((a, v) :: l) = true ↔ lo ≤ a ∧ risingFrom (a + 1) l = true := by
  simp [risingFrom]

/-- In canonical form the head is the lowest address that does not read as blank: no canonical list that begins above it, or is
empty, reads the same there. -/
theorem Memory.head_read {a lo : Nat} {u : Byte} {l m : Memory} (hu : u ≠ Memory.blank) (hm : risingFrom lo m = true) (ha : a < lo)
    (h : ∀ b, Memory.read ((a, u) :: l) b = Memory.read m b) : False := by
  have read := h a
  rw [Memory.read_cons, if_pos rfl, Memory.read_of_lt ha hm] at read
  exact hu read

theorem Memory.rising_ext {l m : Memory} {lo : Nat} (hl : risingFrom lo l = true) (hm : risingFrom lo m = true)
    (nl : ∀ c ∈ l, c.2 ≠ Memory.blank) (nm : ∀ c ∈ m, c.2 ≠ Memory.blank) (h : ∀ a, Memory.read l a = Memory.read m a) :
    l = m := by
  induction l generalizing m lo with
  | nil =>
    cases m with
    | nil => rfl
    | cons d m => exact (Memory.head_read (nm d List.mem_cons_self) (lo := d.1 + 1) rfl (by omega) fun b => (h b).symm).elim
  | cons c l ih =>
    cases m with
    | nil => exact (Memory.head_read (nl c List.mem_cons_self) (lo := c.1 + 1) rfl (by omega) h).elim
    | cons d m =>
      obtain ⟨a, u⟩ := c
      obtain ⟨b, v⟩ := d
      obtain ⟨-, hl⟩ := risingFrom_cons.1 hl
      obtain ⟨-, hm⟩ := risingFrom_cons.1 hm
      rcases lt_trichotomy a b with hab | rfl | hab
      · exact (Memory.head_read (nl _ List.mem_cons_self) (risingFrom_cons.2 ⟨le_refl b, hm⟩) hab h).elim
      · have value : u = v := by simpa only [Memory.read_cons, if_pos] using h a
        have tails : l = m := by
          refine ih hl hm (fun c hc => nl c (List.mem_cons_of_mem _ hc)) (fun c hc => nm c (List.mem_cons_of_mem _ hc)) fun b => ?_
          by_cases hb : a = b
          · rw [Memory.read_of_lt (by omega) hl, Memory.read_of_lt (by omega) hm]
          · simpa only [Memory.read_cons, if_neg hb] using h b
        rw [value, tails]
      · exact (Memory.head_read (nm _ List.mem_cons_self) (risingFrom_cons.2 ⟨le_refl a, hl⟩) hab fun c => (h c).symm).elim

/-- Settles O52. -/
theorem canonicalMemory : Obligations.CanonicalMemory := by
  refine fun m hm => ⟨fun a v => ⟨Memory.write_wf hm a v, fun b => Memory.read_write m a b v⟩, fun n hn h => ?_⟩
  obtain ⟨risingM, listedM⟩ := (Memory.wf_iff m).1 hm
  obtain ⟨risingN, listedN⟩ := (Memory.wf_iff n).1 hn
  exact Memory.rising_ext risingM risingN listedM listedN h

/-! ## The spontaneous write-back (20_memory.md R81) -/

theorem spontaneousWriteBack_ok {s t : State} {d : DEntry} (hf : findData d.addr s.core.dcache = some d)
    (ha : s.core.alive = true) (hd : d.dirty = true) (run : cleanEntry d.addr s = .ok () t) :
    spontaneousWriteBack d.addr s = some t := by
  rw [spontaneousWriteBack, hf]
  simp only [ha, hd, Bool.and_self, if_true, run]

theorem spontaneousWriteBack_error {s t : State} {d : DEntry} {e : Exc} (hf : findData d.addr s.core.dcache = some d)
    (ha : s.core.alive = true) (hd : d.dirty = true) (run : cleanEntry d.addr s = .error e t) :
    spontaneousWriteBack d.addr s = some (die e (outsideSite .writeBack s) t) := by
  rw [spontaneousWriteBack, hf]
  simp only [ha, hd, Bool.and_self, if_true, run]
  rfl

theorem step_writeBack {s t : State} {pa : Nat} {rest : List Choice} (hag : s.agenda = .writeBack pa :: rest)
    (h : spontaneousWriteBack pa { s with agenda := rest } = some t) : step s = .next t := by
  rw [step, hag]
  simp only [writeBackChoice, h]

/-- With no address cached twice, cleaning an address cleans the one entry. -/
theorem cleanData_of_mem {s : State} {d : DEntry} (hk : DataKeysDistinct s) (hm : d ∈ s.core.dcache) :
    cleanData d.addr s.core.dcache = s.core.dcache.map fun c => if c.addr = d.addr then { d with dirty := false } else c := by
  refine List.map_congr_left fun c hc => ?_
  by_cases h : c.addr = d.addr
  · rw [hk.unique hc hm h]
    simp
  · simp [h]

/-- Settles O53. The name of the obligation is the model's own function. -/
theorem spontaneousWriteBack_holds : Obligations.SpontaneousWriteBack := by
  intro s d rest hag ha hf hd
  refine ⟨fun hw hk => ?_, fun e t fails => ?_⟩
  · obtain ⟨hm, -⟩ := findData_mem hf
    have run := cleanEntry_written (s := { s with agenda := rest }) hm hk hd hw
    refine ⟨_, step_writeBack hag (spontaneousWriteBack_ok hf ha hd run), .refl _, .refl s, ?_,
      MC.afterWriteBack_byteAt s.mc s.cfg hw.1, MC.pageView_afterWriteBack s.mc s.cfg d, ?_⟩
    · rw [← cleanData_of_mem hk hm]
      rfl
    · exact ⟨(MC.store_segments _ _ _ _).trans (MC.touchPage_segments _ _ _),
        (MC.store_regions _ _ _ _).trans (MC.touchPage_regions _ _ _)⟩
  · have run := cleanEntry_refused (s := { s with agenda := rest }) hf hd fails
    exact step_writeBack hag (spontaneousWriteBack_error hf ha hd run)

/-! ## Page protection (20_memory.md R61, R88) -/

/-- The memory controller once a page has been given its flags. -/
def MC.putFlag (mc : MC) (cfg : Config) (p : Nat) (flag : PageFlag) (v : Bool) : MC :=
  { mc.touchPage cfg p with pages := put p ((mc.pageView cfg p).withFlag flag v) (mc.touchPage cfg p).pages }

theorem setPageFlag_run (flag : PageFlag) (v : Bool) (p : Nat) (s : State) :
    setPageFlag flag v p s = .ok () (s.withMC (s.mc.putFlag s.cfg p flag v)) := by
  rw [setPageFlag, bind_ok (getPage_run p s)]
  rfl

theorem updateAreaFlags_byte (a : Nat) (flag : PageFlag) (v : Bool) (s : State) :
    updateAreaFlags a 1 flag v s = .ok () (s.withMC (s.mc.putFlag s.cfg (pageOf a) flag v)) := by
  have pages : pagesOver a 1 = [pageOf a] := by simp [pagesOver]
  rw [updateAreaFlags, pages, forEach_cons, bind_ok (setPageFlag_run flag v _ s)]
  rfl

theorem MC.page_putFlag (mc : MC) (cfg : Config) (p q : Nat) (flag : PageFlag) (v : Bool) :
    (mc.putFlag cfg p flag v).page q = if q = p then some ((mc.pageView cfg p).withFlag flag v) else mc.page q := by
  have looked := lookup_put q p ((mc.pageView cfg p).withFlag flag v) (mc.touchPage cfg p).pages
  refine looked.trans ?_
  split
  · rfl
  · next h => exact (MC.page_touchPage mc cfg p q).trans (if_neg h)

theorem MC.byteAt_putFlag (mc : MC) (cfg : Config) (p b : Nat) (flag : PageFlag) (v : Bool) :
    (mc.putFlag cfg p flag v).byteAt b = mc.byteAt b := by
  rw [← MC.byteAt_touchPage mc cfg p b, MC.byteAt, MC.byteAt, MC.page_putFlag, MC.page_touchPage]
  by_cases h : pageOf b = p
  · rw [if_pos h, if_pos h]
    rfl
  · rw [if_neg h, if_neg h]
    rfl

/-- Settles O55. -/
theorem pageProtection : Obligations.PageProtection := by
  intro s a v d hb
  refine ⟨fun hw => memWrite8_denied hb hw, _, updateAreaFlags_byte a .write true s, fun b => MC.byteAt_putFlag _ _ _ b _ _, rfl,
    fun q hq => (MC.page_putFlag _ _ _ q _ _).trans (if_neg hq), ?_⟩
  have writable : ((s.mc.putFlag s.cfg (pageOf a) .write true).pageView s.cfg (pageOf a)).write = true := by
    rw [MC.pageView, MC.page_putFlag, if_pos rfl]
    rfl
  refine ⟨_, memWrite8_ok (s := s.withMC (s.mc.putFlag s.cfg (pageOf a) .write true)) hb writable, fun b => ?_⟩
  refine (MC.byteAt_store_one _ _ a v d b).trans ?_
  rw [State.withMC_mc, MC.byteAt_putFlag]

end Sys2Proof.Machine
end
